-- ==== Sys2Proof/Word.lean ====
section
/-! DEFINITION. The word types of the Daxos 8160 (spec/02 R47, R56). -/
namespace Sys2Proof

abbrev Byte := BitVec 8
abbrev U16 := BitVec 16
/-- One lane of a vector register (R56). -/
abbrev U32 := BitVec 32
/-- A scalar register, an address, an instruction word. -/
abbrev Word := BitVec 64
/-- One bit per lane of a group, bit l for lane l. -/
abbrev LaneMask := BitVec 32

/-- The lane slots of a group, ascending (R13). -/
def laneList : List Nat := List.range 32

end Sys2Proof
end

