-- ==== Sys2Proof/Config.lean ====
section
/-! DEFINITION. What an implementation fixes and the manual leaves open: free values without a body.
Nothing in Lean can evaluate one or prove a value of it. Each stands in the assumption log. -/
namespace Sys2Proof.Config

/-- R52: whether a read made before its result has landed gives the old value. Arguments: the model's
serial number of the step, the register's key, the lane, the age of the in-flight write. DESIGN CHOICE, log 5. -/
opaque earlyRead : Nat → Nat → Nat → Nat → Bool

/-- R194: the scratchpad byte of placement `n` at store address `a` that nothing has written. DESIGN CHOICE, log 6. -/
opaque freeScratch : Nat → Nat → Byte

/-- R305: what a byte behind a peer window holds when step `n` reads it. DESIGN CHOICE, log 7. -/
opaque peerByte : Nat → Nat → Byte

/-- R305: whether the target device refuses the access (a write when true) to a peer window that step `n` makes.
DESIGN CHOICE, log 7. -/
opaque peerRefuses : Nat → Nat → Bool → Bool

/-- R305: whether the access to a peer window that step `n` makes is answered, by whatever route. DESIGN CHOICE, log 7. -/
opaque peerAnswers : Nat → Nat → Bool

/-- R129: whether a TLB entry has been displaced when step `n` looks up virtual address `a`. DESIGN CHOICE, log 8. -/
opaque displaced : Nat → Nat → Bool

/-- R356: whether an instruction copy has been dropped when step `n` fetches at location `a`. DESIGN CHOICE, log 8. -/
opaque copyDropped : Nat → Nat → Bool

/-- R284, R289: the public keys of the trust list that firmware holds. DESIGN CHOICE, log 10. -/
opaque trustList : List (List Byte)

/-- R292: the public keys of the pod's trust list. DESIGN CHOICE, log 10. -/
opaque podTrust : List (List Byte)

/-- R290, R292: the public half of the device's attestation key. DESIGN CHOICE, log 10. -/
opaque attestKey : List Byte

/-- R290, R292: the signature that the attestation key makes of some bytes. DESIGN CHOICE, log 10. -/
opaque attestSign : List Byte → List Byte

/-- R291: translation of a Lanibrief segment into native segments (kind, rva, bytes), the relocation records (R286)
that translation produces, which number the translated segments after those of the container, and the kernels' entries.
None when it cannot be translated. DESIGN CHOICE, log 10. -/
opaque translateLanibrief : List Byte → Option (List (Nat × Nat × List Byte) × List (List Byte) × List Nat)

/-- R291: the device hash of this stepping, 48 bytes. DESIGN CHOICE, log 10. -/
opaque deviceHash : List Byte

/-- R303: the stepping in ident[47:40]. DESIGN CHOICE, log 10. -/
opaque stepping : Byte

/-- R308: whether the measurement of a firmware slot passes. DESIGN CHOICE, log 10. -/
opaque slotVerifies : Nat → Bool

/-- R306: the value rank `k` of collective group `g` contributes to byte `a` of chunk `c`. DESIGN CHOICE, log 7. -/
opaque rankByte : Nat → Nat → Nat → Nat → Byte

/-- What the device chooses for itself where the manual only bounds the choice; used when it keeps the bounds.
Arguments: what is chosen (0 a region number, R236; 1 a context, R304; 2 an object handle, R288; 3 the place of a
window that a ROLE moves, R117), and the model's serial number of the step. DESIGN CHOICE, log 13. -/
opaque choice : Nat → Nat → Nat

/-- R257: the address of the word of a pending record of an image that does not say it. DESIGN CHOICE, log 14. -/
opaque lostPc : Nat → Word

/-- R305: the credits in the header of a flit; the manual does not place them. DESIGN CHOICE, log 15. -/
opaque flitCredits : List Byte → Nat

/-- R305: whether the CRC-64 of a flit holds; the manual does not give its polynomial. DESIGN CHOICE, log 15. -/
opaque flitOk : List Byte → Bool

/-- R311: what firmware enters in the attestation log for a slot. DESIGN CHOICE, log 10. -/
opaque slotMeasure : Nat → List Byte

end Sys2Proof.Config
end

