-- ==== Sys2Proof/Syntax.lean ====
section
/-! DEFINITION. The steps of the Daxos 8160: the instruction words of spec/02 R67, the rill commands of
spec/07 R175, the host commands of spec/18 R304 and the events of spec/95. One constructor per row of
spec/opcode_table.json. -/
namespace Sys2Proof

/-- A register field (R56): v0 to v159 or s0 to s95. -/
inductive Reg where
  | v (n : Fin 160)
  | s (n : Fin 96)
  deriving DecidableEq, Repr

/-- A field that must name a vector register. -/
abbrev VR := Fin 160
/-- A field that must name a scalar register. -/
abbrev SR := Fin 96
/-- A predicate number p0 to p7 (R57). -/
abbrev PR := Fin 8

/-- The fields of a word outside its opcode and operands (R47). -/
structure Ctl where
  u    : Bool
  dist : BitVec 3
  wait : BitVec 12
  set  : BitVec 4
  neg  : Bool
  pred : PR
  deriving DecidableEq, Repr

/-- The width field of R313. -/
inductive Width where
  | nat | b32 | b64
  deriving DecidableEq, Repr

/-- R91. -/
inductive Rnd where
  | rne | rtz | rup | rdn
  deriving DecidableEq, Repr

/-- R88, the codes 0x0 to 0x7. -/
inductive Fmt where
  | fp32 | fp16 | bf16 | e4m3 | e5m2 | lns6 | i8 | i32
  deriving DecidableEq, Repr

/-- R58. -/
inductive Ord where
  | rlx | acq | rel | ar | sc
  deriving DecidableEq, Repr

/-- R58. -/
inductive Scope where
  | grp | wg | dev | sys
  deriving DecidableEq, Repr

/-- The address spaces of spec/05. -/
inductive Space where
  | g | s | k
  deriving DecidableEq, Repr

/-- Access sizes of 1, 2, 4 and 8 bytes (R114). -/
inductive Size where
  | b8 | b16 | b32 | b64
  deriving DecidableEq, Repr

/-- R317. -/
inductive AtomOp where
  | add | smin | smax | and | or | xor | xchg | cas
  deriving DecidableEq, Repr

/-- R345. -/
inductive FCond where
  | eq | ne | lt | le | gt | ge | un | num
  deriving DecidableEq, Repr

/-- R357. -/
inductive ICond where
  | eq | ne | lt | le | gt | ge
  deriving DecidableEq, Repr

/-- R376. -/
inductive PFn where
  | and | or | xor | andn | set | clr
  deriving DecidableEq, Repr

/-- R393. -/
inductive ShflMode where
  | idx | up | down | xor
  deriving DecidableEq, Repr

/-- R407: the destination follows the mode. -/
inductive VoteOp where
  | ballot (d : Reg)
  | any (d : PR)
  | all (d : PR)
  | eq (d : PR)
  deriving DecidableEq, Repr

/-- R408. -/
inductive VRedOp where
  | iadd | smin | smax | umin | umax | and | or | xor | fadd | fmin | fmax
  deriving DecidableEq, Repr

/-- R324. -/
inductive BrcMode where
  | lane | any | all
  deriving DecidableEq, Repr

/-- R349. -/
inductive DotFmt where
  | e4m3 | e5m2 | lns6
  deriving DecidableEq, Repr

/-- R210. -/
inductive MmaFmt where
  | lns6 | e4m3 | e5m2 | i8 | bf16 | fp16
  deriving DecidableEq, Repr

/-- R71. -/
inductive SReg where
  | laneid | grpid | wgid | coreid | partid | wgsize | wgcount | roleid | prio
  | cycle | regbase | spsize | valloc | nbv | ebal | tbal | allow | trialwin | rowprog
  deriving DecidableEq, Repr

/-- ICINV and TLBINV act on everything or on a range (R355, R403). -/
inductive InvRange where
  | all
  | range (a b : SR)
  deriving DecidableEq, Repr

/-- STREAM and DRAIN (R177). -/
structure Affine where
  fmtin  : Fmt
  fmtout : Fmt
  ndim   : BitVec 2
  scl    : Bool
  rep    : BitVec 4
  e8     : Byte
  ring   : BitVec 22
  sh     : BitVec 6
  base   : BitVec 54
  c0     : BitVec 16
  c1     : BitVec 16
  c2     : BitVec 16
  c3     : BitVec 16
  st1    : BitVec 21
  st2    : BitVec 21
  st3    : BitVec 21
  deriving DecidableEq, Repr

/-- R184. -/
inductive RedFn where
  | sum | max | min
  deriving DecidableEq, Repr

/-- A unit that firmware retires (R308, R310). -/
inductive DevUnit where
  | core (core : Nat)
  | partition (core part : Nat)
  /-- Lane 32 is the uniform pipe (R230). -/
  | lane (core part lane : Nat)
  | matrixUnit (core : Nat)
  | link (n : Nat)
  | ucie (n : Nat)
  deriving DecidableEq, Repr

/-- One step of the device. -/
inductive Instr where
  -- integer and bit forms (19, 20, 21, 22)
  | addi    (c : Ctl) (d a : Reg) (imm : BitVec 12)
  | addpchi (c : Ctl) (d : Reg) (imm : BitVec 20)
  | and     (c : Ctl) (w : Width) (d a b : Reg)
  | andn    (c : Ctl) (w : Width) (d a b : Reg)
  | atom    (c : Ctl) (sp : Space) (z : Size) (op : AtomOp) (o : Ord) (sc : Scope) (d a b : Reg)
  | bcopy   (c : Ctl) (srcS dstS : Bool) (d a b : SR)
  | bfi     (c : Ctl) (d a b x : Reg)
  | bfx     (c : Ctl) (d a b : Reg)
  | bperm   (c : Ctl) (d a b x : Reg)
  | br      (c : Ctl) (off : BitVec 24)
  | brc     (c : Ctl) (m : BrcMode) (neg : Bool) (n : PR) (off : BitVec 24)
  | call    (c : Ctl) (l : VR) (off : BitVec 24)
  | calli   (c : Ctl) (l : VR) (a : Reg)
  | brev    (c : Ctl) (w : Width) (d a : Reg)
  | clz     (c : Ctl) (w : Width) (d a : Reg)
  | ctz     (c : Ctl) (w : Width) (d a : Reg)
  | brk     (c : Ctl) (imm : BitVec 20)
  | bseal   (c : Ctl) (a b : SR)
  | bwait   (c : Ctl) (a : SR)
  | bwaitRelease (gid pend : Nat)
  | cflush  (c : Ctl) (inv : Bool) (sc : Scope) (a : Reg) (off : BitVec 11)
  | exit    (c : Ctl)
  | fmin    (c : Ctl) (d a b : Reg)
  | fmax    (c : Ctl) (d a b : Reg)
  | fabs    (c : Ctl) (d a : Reg)
  | fneg    (c : Ctl) (d a : Reg)
  | fadd    (c : Ctl) (r : Rnd) (d a b : Reg)
  | fsub    (c : Ctl) (r : Rnd) (d a b : Reg)
  | fmul    (c : Ctl) (r : Rnd) (d a b : Reg)
  | ffma    (c : Ctl) (r : Rnd) (d a b : Reg)
  | fdiv    (c : Ctl) (r : Rnd) (d a b : Reg)
  | fsqrt   (c : Ctl) (r : Rnd) (d a : Reg)
  | frcp    (c : Ctl) (r : Rnd) (d a : Reg)
  | frsq    (c : Ctl) (r : Rnd) (d a : Reg)
  | fexp2   (c : Ctl) (r : Rnd) (d a : Reg)
  | flog2   (c : Ctl) (r : Rnd) (d a : Reg)
  | fsin    (c : Ctl) (r : Rnd) (d a : Reg)
  | fcos    (c : Ctl) (r : Rnd) (d a : Reg)
  | fclass  (c : Ctl) (d a : Reg)
  | frnd    (c : Ctl) (r : Rnd) (d a : Reg)
  | fcmp    (c : Ctl) (cond : FCond) (pd : PR) (a b : Reg)
  | fcvt    (c : Ctl) (fout fin : Fmt) (kout kin : BitVec 2) (r : Rnd) (d a : Reg)
  | icvtf   (c : Ctl) (uns : Bool) (r : Rnd) (d a : Reg)
  | fcvti   (c : Ctl) (uns : Bool) (r : Rnd) (d a : Reg)
  | fdot4   (c : Ctl) (f : DotFmt) (r : Rnd) (d a b : Reg)
  | fence   (c : Ctl) (o : Ord) (sc : Scope)
  | iadd    (c : Ctl) (w : Width) (d a b : Reg)
  | iaddc   (c : Ctl) (w : Width) (d a b : Reg) (n : PR)
  | isub    (c : Ctl) (w : Width) (d a b : Reg)
  | isubb   (c : Ctl) (w : Width) (d a b : Reg) (n : PR)
  | imul    (c : Ctl) (w : Width) (d a b : Reg)
  | imulhi  (c : Ctl) (w : Width) (uns : Bool) (d a b : Reg)
  | imad    (c : Ctl) (d a b x : Reg)
  | imin    (c : Ctl) (w : Width) (uns : Bool) (d a b : Reg)
  | imax    (c : Ctl) (w : Width) (uns : Bool) (d a b : Reg)
  | iabs    (c : Ctl) (w : Width) (d a : Reg)
  | ineg    (c : Ctl) (w : Width) (d a : Reg)
  | icinv   (c : Ctl) (r : InvRange)
  | icmp    (c : Ctl) (w : Width) (uns : Bool) (cond : ICond) (pd : PR) (a b : Reg)
  | isel    (c : Ctl) (w : Width) (inv : Bool) (n : PR) (d a b : Reg)
  | idiv    (c : Ctl) (w : Width) (uns : Bool) (d a b : Reg)
  | irem    (c : Ctl) (w : Width) (uns : Bool) (d a b : Reg)
  | ld      (c : Ctl) (sp : Space) (z : Size) (o : Ord) (sc : Scope) (d a : Reg) (off : BitVec 11)
  | mchk    (c : Ctl) (d : SR)
  | mfsr    (c : Ctl) (d : Reg) (r : SReg)
  | mtsr    (c : Ctl) (a : Reg)
  | mlda    (c : Ctl) (t : Fin 16) (a : SR)
  | msta    (c : Ctl) (t : Fin 16) (a : SR)
  | mzero   (c : Ctl) (t : Fin 16)
  | mma     (c : Ctl) (f : MmaFmt) (t : Fin 16) (k : Fin 8) (a b : SR) (na nb : BitVec 2)
  | mov     (c : Ctl) (w : Width) (d a : Reg)
  | movi    (c : Ctl) (d : Reg) (imm : BitVec 20)
  | movhi   (c : Ctl) (d : Reg) (imm : BitVec 20)
  | movri   (c : Ctl) (d : VR) (i : Reg)
  | movwi   (c : Ctl) (i : Reg) (b : VR)
  | nop     (c : Ctl)
  | or      (c : Ctl) (w : Width) (d a b : Reg)
  | not     (c : Ctl) (w : Width) (d a : Reg)
  | popc    (c : Ctl) (w : Width) (d a : Reg)
  | rotl    (c : Ctl) (w : Width) (d a b : Reg)
  | pset    (c : Ctl) (f : PFn) (pd pa pb : PR)
  | pmov    (c : Ctl) (d : VR)
  | pmovPut (c : Ctl) (a : Reg) (mask : Byte)
  | pmv     (c : Ctl) (cont : Bool) (t x y : SR)
  | pstat   (c : Ctl) (d : SR) (w : BitVec 2)
  | pref    (c : Ctl) (l2 : Bool) (a : Reg) (off : BitVec 11)
  | red     (c : Ctl) (sp : Space) (z : Size) (op : AtomOp) (o : Ord) (sc : Scope) (a b : Reg)
  | ret     (c : Ctl) (a : Reg)
  | rlaunch (c : Ctl) (d a : SR)
  | role    (c : Ctl) (n : BitVec 2)
  | roleTakesEffect (gid : Nat)
  | rstop   (c : Ctl) (d a : SR)
  | rstopResume (c : Ctl) (d a : SR)
  | rstat   (c : Ctl) (d a : SR) (w : BitVec 3)
  | shl     (c : Ctl) (w : Width) (d a b : Reg)
  | shr     (c : Ctl) (w : Width) (d a b : Reg)
  | sar     (c : Ctl) (w : Width) (d a b : Reg)
  | shfl    (c : Ctl) (m : ShflMode) (d a : VR) (b : Reg)
  | sign    (c : Ctl) (k : Fin 8) (a : SR)
  | spawn   (c : Ctl) (d a : SR)
  | sprobe  (c : Ctl) (d : VR) (f : PR) (a : Reg) (b : SR)
  | st      (c : Ctl) (sp : Space) (z : Size) (o : Ord) (sc : Scope) (d a : Reg) (off : BitVec 11)
  | swf     (c : Ctl) (d : VR) (a : Reg)
  | swc     (c : Ctl) (d a : VR) (b : SR)
  | tlbinv  (c : Ctl) (r : InvRange)
  | trap    (c : Ctl) (imm : BitVec 20)
  | tryT    (c : Ctl) (d a : VR) (b : SR)
  | tret    (c : Ctl) (a : Reg)
  | allowanceSpent (gid : Nat)
  | vmxp    (c : Ctl) (d : VR) (a b x : Reg)
  | vote    (c : Ctl) (op : VoteOp) (neg : Bool) (n : PR)
  | vred    (c : Ctl) (op : VRedOp) (d : Reg) (a : VR)
  | waitstamp (c : Ctl) (o : Ord) (sc : Scope) (d a : Reg) (b : SR)
  | waitstampReturn (gid pend : Nat)
  | winit   (c : Ctl) (o : Ord) (a : SR) (b : Option SR)
  | warrive (c : Ctl) (o : Ord) (a : SR) (b : Option SR)
  | wsync   (c : Ctl) (o : Ord) (d : Reg) (pe : PR) (a : SR) (b : Option SR)
  | wwait   (c : Ctl) (o : Ord) (d : Reg) (pe : PR) (a : SR) (b : Option SR)
  | wwaitseq (c : Ctl) (o : Ord) (d : Reg) (pe : PR) (a : SR) (b : Option SR)
  | weirWaitReturn (gid pend : Nat)
  | wtest   (c : Ctl) (o : Ord) (d : Reg) (pt : PR) (a : SR) (b : Option SR)
  | xor     (c : Ctl) (w : Width) (d a b : Reg)
  | yield   (c : Ctl)
  -- events of groups, regions and the distributor (01, 13)
  | holdExpiry (gid : Nat) (j : Word)
  | instructionComplete (gid pend : Nat)
  | groupRetire (gid : Nat)
  | regionComplete (rid : Nat)
  | startsAfterCheck (rid : Nat)
  | workgroupPlace (rid wgid : Nat) (core : Nat)
  | distributorReserve (ctx rid wgid : Nat)
  | starvationFirst (gid : Nat) (slotB : Bool)
  | coreTimeDebit (wid : Nat)
  | switchRequest (core rid wgid : Nat)
  | bankSwap (core : Nat)
  | spillDone (core : Nat)
  | clusterFusionChange (cluster : Nat) (fused : Bool)
  | faultRecordPost (ctx : Nat)
  | retry (ctx key : Nat)
  | skip (ctx key : Nat)
  | abandonWg (ctx key : Nat)
  | abandonRegion (ctx key : Nat)
  -- chunks of the in-core units (07, 11)
  | mmaChunk (gid : Nat)
  | tileChunk (gid : Nat)
  | pmvChunk (gid : Nat)
  | copyStart (wid : Nat)
  | copyTransfer (wid : Nat)
  | batchStampWrite (wid : Nat)
  -- rill programs (07)
  | rillDequeue (stack : Nat)
  | engineStop (pid : Nat) (held : Bool)
  | engineResume (pid : Nat)
  | stream (f : Affine)
  | rillDrain (f : Affine)
  | decode (ring : BitVec 22) (src : BitVec 54) (blocks ibase : BitVec 32)
  | palette (ring : BitVec 22) (src : BitVec 54) (count : BitVec 32)
  | arrive (n : BitVec 16) (weir : BitVec 22)
  | waitw (p : Bool) (weir : BitVec 22)
  | waits (addr : BitVec 54) (val : Word)
  | loop (level : BitVec 2) (target count : BitVec 32)
  | jump (target : BitVec 32)
  | stamp (addr : BitVec 54) (val : Word)
  | reduce (fn : RedFn) (fmt : Fmt) (group : Byte) (chunk : BitVec 32) (buf : BitVec 54) (bytes : BitVec 32)
      (desc : BitVec 54)
  | rillFence
  | rillEnd (a : Bool) (n : BitVec 16) (weir : BitVec 22)
  | rillBadCommand (raw : BitVec 256)
  -- the management port (18)
  | rootLaunch (va : Word)
  | ctxCreate
  | ctxDestroy
  | halt
  | resume
  | discard
  | load
  | unload
  | tlbInval
  | domain
  | credit
  | drain
  | drainDone
  | fwSlot
  | retire
  | group
  | badCommand (code : Byte)
  | irqClear (v : Word)
  | registerWrite (off : Nat) (v : Word)
  -- links, power, service (18)
  | flitReceive (link : Nat) (seq : Nat) (flit : List Byte)
  | peerRequest (src : Nat) (addr : Nat) (write : Option Word)
  | linkFailure (link : Nat)
  | nativeImageReceived (ctx : Nat) (container : List Byte) (original : List Byte) (base : Nat) (own : Bool)
  | hostMemAccess (pa : Nat) (write : Option (List Byte))
  | ucieModuleFail (n : Nat)
  | currentCapTrip (die : Nat)
  | deviceReset
  | reservedOpcode (w : Word)
  | currentCapTripClear (die : Nat)
  | policyStep (ctx rid : Nat) (energy time : Int) (clock : Nat) (retired : Option DevUnit)
  | coreFailure (core : Nat) (part : Option Nat)
  | memoryError (pa : Nat)
  deriving DecidableEq, Repr

end Sys2Proof
end

