-- ==== Sys2Proof/WellFormed.lean ====
section
/-! DEFINITION. Which instructions are well-formed: what spec/02 R48, R51, R52, R56 and the entries of spec/19
to spec/22 refuse with ILLEGAL_OPCODE although every field decodes, and what spec/07 R176 refuses of a rill
command with BAD_COMMAND. -/
namespace Sys2Proof

/-- An even register, the first of a pair (R56). -/
def evenV (n : Nat) : Bool := n % 2 == 0

/-- A register that names a vector. -/
def Reg.isV : Reg → Bool
  | .v _ => true
  | .s _ => false

/-- A register that names a scalar. -/
def Reg.isS : Reg → Bool
  | .v _ => false
  | .s _ => true

/-- A 64-bit operand: the even register of a pair, or a scalar (R56). -/
def Reg.wideOk : Reg → Bool
  | .v n => evenV n.val
  | .s _ => true

/-- A 64-bit vector destination: the even register of a pair. -/
def Reg.evenPair : Reg → Bool
  | .v n => evenV n.val
  | .s _ => false

/-- Set values 12 to 14 are reserved (R51). -/
def Ctl.setOk (c : Ctl) : Bool := c.set.toNat < 12 || c.set.toNat == 15

/-- A result of variable latency needs a set flag (R52). -/
def Ctl.setNamed (c : Ctl) : Bool := c.set.toNat < 12

/-- R48: u = 0 only. -/
def Ctl.u0 (c : Ctl) : Bool := !c.u && c.setOk

/-- R48: u = 1 only. -/
def Ctl.u1 (c : Ctl) : Bool := c.u && c.setOk

/-- A 32-bit source: with u = 1 a scalar, otherwise either kind (R48). -/
def Ctl.src (c : Ctl) (r : Reg) : Bool := !c.u || r.isS

/-- A 32-bit destination: with u = 1 a scalar, otherwise a vector register (R48). -/
def Ctl.dst (c : Ctl) (r : Reg) : Bool := if c.u then r.isS else r.isV

/-- The width field fits u (R313). -/
def Ctl.width (c : Ctl) : Width → Bool
  | .nat => true
  | .b32 => c.u
  | .b64 => !c.u

/-- A source at width `w` (R313). -/
def Ctl.srcW (c : Ctl) (w : Width) (r : Reg) : Bool :=
  c.src r && (w != .b64 || r.wideOk)

/-- A destination at width `w` (R313). -/
def Ctl.dstW (c : Ctl) (w : Width) (r : Reg) : Bool :=
  c.dst r && (w != .b64 || r.wideOk)

/-- The shape of a three-register form with a width field. -/
def wfBin (c : Ctl) (w : Width) (d a b : Reg) : Bool :=
  c.setOk && c.width w && c.dstW w d && c.srcW w a && c.srcW w b

/-- The shape of a two-register form with a width field. -/
def wfUn (c : Ctl) (w : Width) (d a : Reg) : Bool :=
  c.setOk && c.width w && c.dstW w d && c.srcW w a

/-- The shape of a 32-bit form with one source (R337). -/
def wfF1 (c : Ctl) (d a : Reg) : Bool := c.setOk && c.dst d && c.src a

/-- The shape of a 32-bit form with two sources (R337). -/
def wfF2 (c : Ctl) (d a b : Reg) : Bool := c.setOk && c.dst d && c.src a && c.src b

/-- R136. -/
def loadOrder (sp : Space) (o : Ord) : Bool :=
  match sp, o with
  | _, .rlx => true
  | .g, .acq | .g, .sc | .s, .acq | .s, .sc => true
  | _, _ => false

/-- R317: the operand b of ATOM; `cas` takes two values. -/
def atomOperand (c : Ctl) (z : Size) (cas : Bool) : Reg → Bool
  | .s n => if cas then n.val < 95 else true
  | .v n =>
    !c.u && (match z, cas with
      | .b64, true => n.val % 4 == 0
      | .b64, false => evenV n.val
      | _, true => evenV n.val
      | _, false => true)

/-- R317: ATOM and RED act on .g and .s with 4 or 8 bytes. -/
def atomShape (sp : Space) (z : Size) : Bool := sp != .k && (z == .b32 || z == .b64)

/-- Formats that FCVT takes (R346). -/
def Fmt.float : Fmt → Bool
  | .i8 | .i32 => false
  | _ => true

/-- Elements of a format in a 32-bit lane (R87). -/
def Fmt.elems : Fmt → Nat
  | .fp32 | .i32 => 1
  | .fp16 | .bf16 => 2
  | _ => 4

/-- Bytes of one element in memory (R87). -/
def Fmt.bytes : Fmt → Nat
  | .fp32 | .i32 => 4
  | .fp16 | .bf16 => 2
  | _ => 1

/-- FP8 and LNS6, the formats that take a block scale in a rill conversion (R177). -/
def Fmt.scaled : Fmt → Bool
  | .e4m3 | .e5m2 | .lns6 => true
  | _ => false

/-- R210: formats whose operands carry block scales. -/
def MmaFmt.scaled : MmaFmt → Bool
  | .lns6 | .e4m3 | .e5m2 => true
  | _ => false

/-- R71: the 64-bit special registers. -/
def SReg.wide : SReg → Bool
  | .cycle | .ebal | .tbal | .trialwin => true
  | _ => false

/-- A stride field is zero above ndim, and its stride is a multiple of the element size (R177). -/
def strideOk (used : Bool) (size : Nat) (sh : BitVec 6) (f : BitVec 21) : Bool :=
  if used then (f.toNat * 2 ^ sh.toNat) % size == 0 else f == 0

/-- A count is at least 1 up to ndim and 0 above it (R177). -/
def countOk (used : Bool) (c : BitVec 16) : Bool := if used then c != 0 else c == 0

/-- R176, R177: STREAM (`size` of fmtin) and DRAIN (`size` of fmtout). -/
def Affine.ok (f : Affine) (size : Nat) : Bool :=
  (!f.scl || f.fmtin.scaled || f.fmtout.scaled) && f.sh.toNat < 32 && f.base.toNat % size == 0
    && countOk true f.c0 && countOk (1 ≤ f.ndim.toNat) f.c1 && countOk (2 ≤ f.ndim.toNat) f.c2
    && countOk (3 ≤ f.ndim.toNat) f.c3
    && strideOk (1 ≤ f.ndim.toNat) size f.sh f.st1 && strideOk (2 ≤ f.ndim.toNat) size f.sh f.st2
    && strideOk (3 ≤ f.ndim.toNat) size f.sh f.st3

/-- R411: the orders of the forms that arrive or wait. -/
def waitOrder (o : Ord) : Bool := o == .acq || o == .rlx

/-- Well-formed instructions; events carry no encoding and are always well-formed. -/
def wellFormed : Instr → Bool
  | .addi c d a _ => wfF1 c d a
  | .addpchi c d _ => c.setOk && c.dst d && d.wideOk
  | .movi c d _ => c.setOk && c.dst d
  | .movhi c d _ => c.setOk && c.dst d
  | .and c w d a b => wfBin c w d a b
  | .andn c w d a b => wfBin c w d a b
  | .or c w d a b => wfBin c w d a b
  | .xor c w d a b => wfBin c w d a b
  | .rotl c w d a b => wfBin c w d a b
  | .shl c w d a b => wfBin c w d a b
  | .shr c w d a b => wfBin c w d a b
  | .sar c w d a b => wfBin c w d a b
  | .iadd c w d a b => wfBin c w d a b
  | .isub c w d a b => wfBin c w d a b
  | .iaddc c w d a b _ => wfBin c w d a b
  | .isubb c w d a b _ => wfBin c w d a b
  | .imul c w d a b => wfBin c w d a b
  | .imulhi c w _ d a b => wfBin c w d a b
  | .imin c w _ d a b => wfBin c w d a b
  | .imax c w _ d a b => wfBin c w d a b
  | .isel c w _ _ d a b => wfBin c w d a b
  | .idiv c w _ d a b => wfBin c w d a b && c.setNamed
  | .irem c w _ d a b => wfBin c w d a b && c.setNamed
  | .icmp c w _ _ _ a b => c.setOk && c.width w && c.srcW w a && c.srcW w b
  | .brev c w d a => wfUn c w d a
  | .not c w d a => wfUn c w d a
  | .mov c w d a => wfUn c w d a
  | .iabs c w d a => wfUn c w d a
  | .ineg c w d a => wfUn c w d a
  | .clz c w d a => c.setOk && c.width w && c.dst d && c.srcW w a
  | .ctz c w d a => c.setOk && c.width w && c.dst d && c.srcW w a
  | .popc c w d a => c.setOk && c.width w && c.dst d && c.srcW w a
  | .bfx c d a b => wfF2 c d a b
  | .bfi c d a b x => wfF2 c d a b && c.src x
  | .bperm c d a b x => wfF2 c d a b && c.src x
  | .imad c d a b x => wfF2 c d a b && c.src x
  | .fmin c d a b => wfF2 c d a b
  | .fmax c d a b => wfF2 c d a b
  | .fabs c d a => wfF1 c d a
  | .fneg c d a => wfF1 c d a
  | .fclass c d a => wfF1 c d a
  | .frnd c _ d a => wfF1 c d a
  | .fadd c _ d a b => wfF2 c d a b
  | .fsub c _ d a b => wfF2 c d a b
  | .fmul c _ d a b => wfF2 c d a b
  | .ffma c _ d a b => wfF2 c d a b
  | .fdiv c _ d a b => wfF2 c d a b && c.setNamed
  | .fsqrt c _ d a => wfF1 c d a && c.setNamed
  | .frcp c _ d a => wfF1 c d a && c.setNamed
  | .frsq c _ d a => wfF1 c d a && c.setNamed
  | .fexp2 c _ d a => wfF1 c d a && c.setNamed
  | .flog2 c _ d a => wfF1 c d a && c.setNamed
  | .fsin c _ d a => wfF1 c d a && c.setNamed
  | .fcos c _ d a => wfF1 c d a && c.setNamed
  | .fcmp c _ _ a b => c.setOk && c.src a && c.src b
  | .fcvt c fo fi ko ki r d a =>
    wfF1 c d a && fo.float && fi.float && ko.toNat < fo.elems && ki.toNat < fi.elems
      && (fo != .lns6 || r == .rne)
  | .icvtf c _ _ d a => wfF1 c d a
  | .fcvti c _ _ d a => wfF1 c d a
  | .fdot4 c _ _ d a b => wfF2 c d a b
  | .vmxp c d _ _ _ => c.u0 && evenV d.val
  | .mfsr c d r => c.setOk && (!c.u || d.isS) && (!r.wide || d.wideOk)
  | .mtsr c a => c.setOk && c.src a && a.wideOk
  | .pset c f _ pa pb => c.u0 && (match f with | .set | .clr => pa == 0 && pb == 0 | _ => true)
  | .pmov c _ => c.u0
  | .pmovPut c _ mask => c.u0 && !mask.getLsbD 0
  | .movri c _ _ => c.u0 && c.setNamed
  | .movwi c _ _ => c.u0 && c.setNamed
  | .shfl c _ _ _ _ => c.u0 && c.setNamed
  | .vote c _ _ _ => c.u0 && c.setNamed
  | .vred c _ _ _ => c.u0 && c.setNamed
  | .br c _ => c.u0
  | .brc c _ _ _ _ => c.u0
  | .call c l _ => c.u0 && evenV l.val
  | .calli c l a => c.u0 && evenV l.val && a.wideOk
  | .ret c a => c.u0 && a.wideOk
  | .exit c => c.u0
  | .nop c => c.u0
  | .yield c => c.u0
  | .brk c _ => c.u0
  | .trap c _ => c.u0
  | .role c _ => c.u0
  | .spawn c _ _ => c.u1 && c.setNamed
  | .ld c sp z o _ d a _ =>
    c.setNamed && loadOrder sp o && c.dst d && c.src a && (z != .b64 || d.wideOk)
  | .st c sp z o _ d a _ =>
    c.setOk && sp != .k && (o == .rlx || o == .rel || o == .sc) && c.src d && c.src a
      && (z != .b64 || d.wideOk)
  | .atom c sp z op _ _ d a b =>
    c.setNamed && atomShape sp z && c.dst d && (z != .b64 || d.wideOk) && c.src a
      && atomOperand c z (op == .cas) b
  | .red c sp z op o _ a b =>
    c.setOk && atomShape sp z && op != .xchg && op != .cas && (o == .rlx || o == .rel) && c.src a
      && atomOperand c z false b
  | .fence c o _ => c.u0 && o != .rlx
  | .pref c _ a _ => c.setOk && c.src a
  | .cflush c _ _ a _ => c.setOk && c.src a
  | .bcopy c _ _ _ _ _ => c.u1
  | .bseal c _ _ => c.u0
  | .bwait c _ => c.u0
  | .waitstamp c o _ d a _ => c.setNamed && waitOrder o && c.dst d && d.wideOk && c.src a
  | .winit c o _ _ => c.u0 && (o == .rlx || o == .rel)
  | .warrive c o _ _ => c.u0 && (o == .rel || o == .rlx)
  | .wsync c o _ _ _ _ => c.u0 && c.setNamed && o != .sc
  | .wwait c o _ _ _ _ => c.u0 && c.setNamed && waitOrder o
  | .wwaitseq c o _ _ _ _ => c.u0 && c.setNamed && waitOrder o
  | .wtest c o _ _ _ _ => c.u0 && c.setNamed && waitOrder o
  | .rlaunch c _ _ => c.u1 && c.setNamed
  | .rstop c _ _ => c.u1 && c.setNamed
  | .rstopResume c _ _ => c.u1 && c.setNamed
  | .rstat c _ _ _ => c.u1 && c.setNamed
  | .sign c _ _ => c.u0
  | .mma c f _ _ a b na nb =>
    c.u0 && evenV a.val && evenV b.val && (f.scaled || (na == 0 && nb == 0))
  | .mlda c _ a => c.u0 && evenV a.val
  | .msta c _ a => c.u0 && evenV a.val
  | .mzero c _ => c.u0
  | .mchk c _ => c.u0 && c.setNamed
  | .pmv c _ t _ _ => c.u0 && evenV t.val
  | .pstat c _ _ => c.u0 && c.setNamed
  | .tryT c d a _ => c.u0 && c.setNamed && evenV d.val && evenV a.val
  | .tret c _ => c.u0
  | .swf c d _ => c.u0 && c.setNamed && evenV d.val
  | .swc c _ a _ => c.u0 && c.setNamed && evenV a.val
  | .sprobe c _ _ _ _ => c.u0 && c.setNamed
  | .icinv c _ => c.u1
  | .tlbinv c _ => c.u1
  | .stream f => f.ok f.fmtin.bytes
  | .rillDrain f => f.ok f.fmtout.bytes
  | .decode _ src blocks _ => src.toNat % 64 == 0 && blocks != 0
  | .palette _ src n => src.toNat % 2 == 0 && n != 0
  | .arrive n w => n != 0 && w.toNat % 16 == 0
  | .waitw _ w => w.toNat % 16 == 0
  | .waits a _ => a.toNat % 8 == 0
  | .stamp a _ => a.toNat % 8 == 0
  | .loop _ _ n => n != 0
  | .reduce _ fmt _ _ buf bytes _ =>
    (fmt == .fp32 || fmt == .bf16 || fmt == .i32) && buf.toNat % 64 == 0 && bytes != 0 && bytes.toNat % 64 == 0
  | .rillEnd a n w => if a then w.toNat % 16 == 0 else n == 0 && w == 0
  | .jump _ => true
  | .rillFence => true
  | .rillBadCommand _ => true
  | .bwaitRelease _ _ => true
  | .roleTakesEffect _ => true
  | .allowanceSpent _ => true
  | .waitstampReturn _ _ => true
  | .weirWaitReturn _ _ => true
  | .holdExpiry _ _ => true
  | .instructionComplete _ _ => true
  | .groupRetire _ => true
  | .regionComplete _ => true
  | .startsAfterCheck _ => true
  | .workgroupPlace _ _ _ => true
  | .distributorReserve _ _ _ => true
  | .starvationFirst _ _ => true
  | .coreTimeDebit _ => true
  | .switchRequest _ _ _ => true
  | .bankSwap _ => true
  | .spillDone _ => true
  | .clusterFusionChange _ _ => true
  | .faultRecordPost _ => true
  | .retry _ _ => true
  | .skip _ _ => true
  | .abandonWg _ _ => true
  | .abandonRegion _ _ => true
  | .mmaChunk _ => true
  | .tileChunk _ => true
  | .pmvChunk _ => true
  | .copyStart _ => true
  | .copyTransfer _ => true
  | .batchStampWrite _ => true
  | .rillDequeue _ => true
  | .engineStop _ _ => true
  | .engineResume _ => true
  | .rootLaunch _ => true
  | .ctxCreate => true
  | .ctxDestroy => true
  | .halt => true
  | .resume => true
  | .discard => true
  | .load => true
  | .unload => true
  | .tlbInval => true
  | .domain => true
  | .credit => true
  | .drain => true
  | .drainDone => true
  | .fwSlot => true
  | .retire => true
  | .group => true
  | .badCommand _ => true
  | .irqClear _ => true
  | .registerWrite _ _ => true
  | .flitReceive _ _ _ => true
  | .peerRequest _ _ _ => true
  | .linkFailure _ => true
  | .nativeImageReceived _ _ _ _ _ => true
  | .hostMemAccess _ _ => true
  | .ucieModuleFail _ => true
  | .currentCapTrip _ => true
  | .deviceReset => true
  | .reservedOpcode _ => true
  | .currentCapTripClear _ => true
  | .policyStep _ _ _ _ _ _ => true
  | .coreFailure _ _ => true
  | .memoryError _ => true

end Sys2Proof
end

