-- ==== Sys2Proof/Decode.lean ====
section
/-! DEFINITION. Decoding: a 64-bit instruction word (spec/02 R47, R55, R67), a 32-byte rill command
(spec/07 R175 to R184), a command code of the management port (spec/18 R304); and their encoders. -/
namespace Sys2Proof

/-- Why a word is refused (R68, R70): each faults ILLEGAL_OPCODE. -/
inductive DecodeError where
  | zeroOpcode | headerTag | reservedOpcode | badField | illFormed
  deriving DecidableEq, Repr

/-- The fields of R47, the operands cut into the four bytes of R55. -/
structure Fields where
  op   : Byte
  u    : Bool
  dist : BitVec 3
  wait : BitVec 12
  set  : BitVec 4
  neg  : Bool
  pred : BitVec 3
  d    : Byte
  a    : Byte
  b    : Byte
  m    : Byte
  deriving DecidableEq, Repr

/-- R47: cutting a word into its fields. -/
def splitWord (w : Word) : Fields where
  op   := w.extractLsb' 56 8
  u    := w.getLsbD 55
  dist := w.extractLsb' 52 3
  wait := w.extractLsb' 40 12
  set  := w.extractLsb' 36 4
  neg  := w.getLsbD 35
  pred := w.extractLsb' 32 3
  d    := w.extractLsb' 24 8
  a    := w.extractLsb' 16 8
  b    := w.extractLsb' 8 8
  m    := w.extractLsb' 0 8

/-- R47: the word of the given fields. -/
def joinWord (f : Fields) : Word :=
  (f.op ++ BitVec.ofBool f.u ++ f.dist ++ f.wait ++ f.set ++ BitVec.ofBool f.neg ++ f.pred
    ++ f.d ++ f.a ++ f.b ++ f.m).cast (by decide)

/-! ## Codes of the fields -/

/-- R56: 0 to 159 for v, 160 to 255 for s. -/
def regOf (x : Byte) : Reg :=
  if h : x.toNat < 160 then .v ⟨x.toNat, h⟩ else .s ⟨x.toNat - 160, by have := x.isLt; omega⟩

/-- R56. -/
def regCode : Reg → Byte
  | .v n => BitVec.ofNat 8 n.val
  | .s n => BitVec.ofNat 8 (n.val + 160)

/-- A field that must name a vector register. -/
def vrOf (x : Byte) : Option VR := if h : x.toNat < 160 then some ⟨x.toNat, h⟩ else none

/-- A field that must name a scalar register. -/
def srOf (x : Byte) : Option SR :=
  if x.toNat < 160 then none else some ⟨x.toNat - 160, by have := x.isLt; omega⟩

def vrCode (n : VR) : Byte := BitVec.ofNat 8 n.val
def srCode (n : SR) : Byte := BitVec.ofNat 8 (n.val + 160)

/-- A number below `n` in a byte (R57). -/
def finOf (n : Nat) (x : Byte) : Option (Fin n) := if h : x.toNat < n then some ⟨x.toNat, h⟩ else none

/-- A predicate number in three bits. -/
def prOf3 (x : BitVec 3) : PR := ⟨x.toNat, x.isLt⟩
def prCode3 (p : PR) : BitVec 3 := BitVec.ofNat 3 p.val
def prCode (p : PR) : Byte := BitVec.ofNat 8 p.val

/-- R313. -/
def widthOf (x : BitVec 2) : Option Width :=
  match x.toNat with
  | 0 => some .nat
  | 1 => some .b32
  | 2 => some .b64
  | _ => none
def widthCode : Width → BitVec 2
  | .nat => 0
  | .b32 => 1
  | .b64 => 2

/-- R91. -/
def rndOf (x : BitVec 2) : Rnd :=
  match x.toNat with
  | 0 => .rne
  | 1 => .rtz
  | 2 => .rup
  | _ => .rdn
def rndCode : Rnd → BitVec 2
  | .rne => 0
  | .rtz => 1
  | .rup => 2
  | .rdn => 3

/-- R88, codes 0x0 to 0x7. -/
def fmtOf (x : BitVec 4) : Option Fmt :=
  match x.toNat with
  | 0 => some .fp32
  | 1 => some .fp16
  | 2 => some .bf16
  | 3 => some .e4m3
  | 4 => some .e5m2
  | 5 => some .lns6
  | 6 => some .i8
  | 7 => some .i32
  | _ => none
def fmtCode : Fmt → BitVec 4
  | .fp32 => 0
  | .fp16 => 1
  | .bf16 => 2
  | .e4m3 => 3
  | .e5m2 => 4
  | .lns6 => 5
  | .i8 => 6
  | .i32 => 7

/-- R58. -/
def ordOf (x : BitVec 3) : Option Ord :=
  match x.toNat with
  | 0 => some .rlx
  | 1 => some .acq
  | 2 => some .rel
  | 3 => some .ar
  | 4 => some .sc
  | _ => none
def ordCode : Ord → BitVec 3
  | .rlx => 0
  | .acq => 1
  | .rel => 2
  | .ar => 3
  | .sc => 4

/-- R58. -/
def scopeOf (x : BitVec 2) : Scope :=
  match x.toNat with
  | 0 => .grp
  | 1 => .wg
  | 2 => .dev
  | _ => .sys
def scopeCode : Scope → BitVec 2
  | .grp => 0
  | .wg => 1
  | .dev => 2
  | .sys => 3

/-- R317. -/
def atomOpOf (x : BitVec 3) : AtomOp :=
  match x.toNat with
  | 0 => .add
  | 1 => .smin
  | 2 => .smax
  | 3 => .and
  | 4 => .or
  | 5 => .xor
  | 6 => .xchg
  | _ => .cas
def atomOpCode : AtomOp → BitVec 3
  | .add => 0
  | .smin => 1
  | .smax => 2
  | .and => 3
  | .or => 4
  | .xor => 5
  | .xchg => 6
  | .cas => 7

/-- R345. -/
def fcondOf (x : BitVec 3) : FCond :=
  match x.toNat with
  | 0 => .eq
  | 1 => .ne
  | 2 => .lt
  | 3 => .le
  | 4 => .gt
  | 5 => .ge
  | 6 => .un
  | _ => .num
def fcondCode : FCond → BitVec 3
  | .eq => 0
  | .ne => 1
  | .lt => 2
  | .le => 3
  | .gt => 4
  | .ge => 5
  | .un => 6
  | .num => 7

/-- R357. -/
def icondOf (x : BitVec 3) : Option ICond :=
  match x.toNat with
  | 0 => some .eq
  | 1 => some .ne
  | 2 => some .lt
  | 3 => some .le
  | 4 => some .gt
  | 5 => some .ge
  | _ => none
def icondCode : ICond → BitVec 3
  | .eq => 0
  | .ne => 1
  | .lt => 2
  | .le => 3
  | .gt => 4
  | .ge => 5

/-- R376. -/
def pfnOf (x : BitVec 3) : Option PFn :=
  match x.toNat with
  | 0 => some .and
  | 1 => some .or
  | 2 => some .xor
  | 3 => some .andn
  | 4 => some .set
  | 5 => some .clr
  | _ => none
def pfnCode : PFn → BitVec 3
  | .and => 0
  | .or => 1
  | .xor => 2
  | .andn => 3
  | .set => 4
  | .clr => 5

/-- R393. -/
def shflOf (x : BitVec 2) : ShflMode :=
  match x.toNat with
  | 0 => .idx
  | 1 => .up
  | 2 => .down
  | _ => .xor
def shflCode : ShflMode → BitVec 2
  | .idx => 0
  | .up => 1
  | .down => 2
  | .xor => 3

/-- R408. -/
def vredOf (x : BitVec 4) : Option VRedOp :=
  match x.toNat with
  | 0 => some .iadd
  | 1 => some .smin
  | 2 => some .smax
  | 3 => some .umin
  | 4 => some .umax
  | 5 => some .and
  | 6 => some .or
  | 7 => some .xor
  | 8 => some .fadd
  | 9 => some .fmin
  | 10 => some .fmax
  | _ => none
def vredCode : VRedOp → BitVec 4
  | .iadd => 0
  | .smin => 1
  | .smax => 2
  | .umin => 3
  | .umax => 4
  | .and => 5
  | .or => 6
  | .xor => 7
  | .fadd => 8
  | .fmin => 9
  | .fmax => 10

/-- R407. -/
def voteOf (mode : BitVec 2) (d : Byte) : Option VoteOp :=
  match mode.toNat with
  | 0 => some (.ballot (regOf d))
  | 1 => (finOf 8 d).map .any
  | 2 => (finOf 8 d).map .all
  | _ => (finOf 8 d).map .eq
def voteMode : VoteOp → BitVec 2
  | .ballot _ => 0
  | .any _ => 1
  | .all _ => 2
  | .eq _ => 3
def voteDst : VoteOp → Byte
  | .ballot d => regCode d
  | .any p => prCode p
  | .all p => prCode p
  | .eq p => prCode p

/-- R324. -/
def brcOf (x : BitVec 2) : Option BrcMode :=
  match x.toNat with
  | 0 => some .lane
  | 1 => some .any
  | 2 => some .all
  | _ => none
def brcCode : BrcMode → BitVec 2
  | .lane => 0
  | .any => 1
  | .all => 2

/-- R349. -/
def dotOf (x : BitVec 3) : Option DotFmt :=
  match x.toNat with
  | 0 => some .e4m3
  | 1 => some .e5m2
  | 2 => some .lns6
  | _ => none
def dotCode : DotFmt → BitVec 3
  | .e4m3 => 0
  | .e5m2 => 1
  | .lns6 => 2

/-- R71. -/
def sregOf (x : BitVec 20) : Option SReg :=
  match x.toNat with
  | 0x000 => some .laneid
  | 0x001 => some .grpid
  | 0x002 => some .wgid
  | 0x003 => some .coreid
  | 0x004 => some .partid
  | 0x005 => some .wgsize
  | 0x006 => some .wgcount
  | 0x007 => some .roleid
  | 0x008 => some .prio
  | 0x010 => some .cycle
  | 0x011 => some .regbase
  | 0x012 => some .spsize
  | 0x013 => some .valloc
  | 0x018 => some .nbv
  | 0x019 => some .ebal
  | 0x01A => some .tbal
  | 0x020 => some .allow
  | 0x021 => some .trialwin
  | 0x028 => some .rowprog
  | _ => none
def sregCode : SReg → BitVec 20
  | .laneid => 0x000
  | .grpid => 0x001
  | .wgid => 0x002
  | .coreid => 0x003
  | .partid => 0x004
  | .wgsize => 0x005
  | .wgcount => 0x006
  | .roleid => 0x007
  | .prio => 0x008
  | .cycle => 0x010
  | .regbase => 0x011
  | .spsize => 0x012
  | .valloc => 0x013
  | .nbv => 0x018
  | .ebal => 0x019
  | .tbal => 0x01A
  | .allow => 0x020
  | .trialwin => 0x021
  | .rowprog => 0x028

/-- R411: a scalar, or the field value 0 for the value 0. -/
def optSrOf (x : Byte) : Option (Option SR) := if x = 0 then some none else (srOf x).map some
def optSrCode : Option SR → Byte
  | none => 0
  | some n => srCode n

/-! ## Instruction words -/

/-- The control fields of R47. -/
def ctlOf (f : Fields) : Ctl :=
  { u := f.u, dist := f.dist, wait := f.wait, set := f.set, neg := f.neg, pred := prOf3 f.pred }

/-- Keeps an instruction if a condition on its unused bits holds (R56). -/
def only (p : Bool) (i : Option Instr) : Option Instr := if p then i else none

/-- The imm20 of format RI (R55), whose function field must be zero where the entries say so. -/
def imm20 (f : Fields) : BitVec 20 := f.a.extractLsb' 0 4 ++ f.b ++ f.m
def fn4 (f : Fields) : BitVec 4 := f.a.extractLsb' 4 4
/-- The imm12 of format RRI (R55). -/
def imm12 (f : Fields) : BitVec 12 := f.b.extractLsb' 0 4 ++ f.m
/-- The offset24 of format B (R55). -/
def off24 (f : Fields) : BitVec 24 := f.a ++ f.b ++ f.m
/-- The offset11 of format M (R55). -/
def off11 (f : Fields) : BitVec 11 := f.b.extractLsb' 0 3 ++ f.m
/-- The order and scope of format M (R55). -/
def ordM (f : Fields) : BitVec 3 := f.b.extractLsb' 5 3
def scopeM (f : Fields) : BitVec 2 := f.b.extractLsb' 3 2
/-- The order and scope of an E-format modifier (R317). -/
def ordE (f : Fields) : BitVec 3 := f.m.extractLsb' 5 3
def scopeE (f : Fields) : BitVec 2 := f.m.extractLsb' 3 2
def low3 (f : Fields) : BitVec 3 := f.m.extractLsb' 0 3
def low2 (f : Fields) : BitVec 2 := f.m.extractLsb' 0 2

/-- The bits of the modifier from `k` up are zero. -/
def modBelow (f : Fields) (k : Nat) : Bool := f.m.toNat < 2 ^ k

/-- RRM with a width field alone (R313). -/
def rrmW (mk : Ctl → Width → Reg → Reg → Reg → Instr) (f : Fields) : Option Instr :=
  only (modBelow f 2) ((widthOf (low2 f)).map fun w => mk (ctlOf f) w (regOf f.d) (regOf f.a) (regOf f.b))

/-- RRM with one source and a width field. -/
def rrmW1 (mk : Ctl → Width → Reg → Reg → Instr) (f : Fields) : Option Instr :=
  only (modBelow f 2 && f.b == 0) ((widthOf (low2 f)).map fun w => mk (ctlOf f) w (regOf f.d) (regOf f.a))

/-- RRM with .u in bit 2 and a width field (R353). -/
def rrmUW (mk : Ctl → Width → Bool → Reg → Reg → Reg → Instr) (f : Fields) : Option Instr :=
  only (modBelow f 3) ((widthOf (low2 f)).map fun w =>
    mk (ctlOf f) w (f.m.getLsbD 2) (regOf f.d) (regOf f.a) (regOf f.b))

/-- IADDC and ISUBB (R353). -/
def rrmWP (mk : Ctl → Width → Reg → Reg → Reg → PR → Instr) (f : Fields) : Option Instr :=
  only (modBelow f 5) ((widthOf (low2 f)).map fun w =>
    mk (ctlOf f) w (regOf f.d) (regOf f.a) (regOf f.b) (prOf3 (f.m.extractLsb' 2 3)))

/-- RRM with a rounding field (R340). -/
def rrmR (mk : Ctl → Rnd → Reg → Reg → Reg → Instr) (f : Fields) : Option Instr :=
  only (modBelow f 2) (some (mk (ctlOf f) (rndOf (low2 f)) (regOf f.d) (regOf f.a) (regOf f.b)))

/-- RRM with one source and a rounding field. -/
def rrmR1 (mk : Ctl → Rnd → Reg → Reg → Instr) (f : Fields) : Option Instr :=
  only (modBelow f 2 && f.b == 0) (some (mk (ctlOf f) (rndOf (low2 f)) (regOf f.d) (regOf f.a)))

/-- RRM with one source, .u in bit 2 and a rounding field (R348). -/
def rrmUR1 (mk : Ctl → Bool → Rnd → Reg → Reg → Instr) (f : Fields) : Option Instr :=
  only (modBelow f 3 && f.b == 0)
    (some (mk (ctlOf f) (f.m.getLsbD 2) (rndOf (low2 f)) (regOf f.d) (regOf f.a)))

/-- RRM with two sources and a modifier of zero. -/
def rrm2 (mk : Ctl → Reg → Reg → Reg → Instr) (f : Fields) : Option Instr :=
  only (f.m == 0) (some (mk (ctlOf f) (regOf f.d) (regOf f.a) (regOf f.b)))

/-- RRM with one source and a modifier of zero. -/
def rrm1 (mk : Ctl → Reg → Reg → Instr) (f : Fields) : Option Instr :=
  only (f.b == 0 && f.m == 0) (some (mk (ctlOf f) (regOf f.d) (regOf f.a)))

/-- RRR with four registers. -/
def rrr4 (mk : Ctl → Reg → Reg → Reg → Reg → Instr) (f : Fields) : Option Instr :=
  some (mk (ctlOf f) (regOf f.d) (regOf f.a) (regOf f.b) (regOf f.m))

/-- Every operand field zero. -/
def bare (mk : Ctl → Instr) (f : Fields) : Option Instr :=
  only (f.d == 0 && f.a == 0 && f.b == 0 && f.m == 0) (some (mk (ctlOf f)))

/-- RI with d zero. -/
def immOnly (mk : Ctl → BitVec 20 → Instr) (f : Fields) : Option Instr :=
  only (f.d == 0 && fn4 f == 0) (some (mk (ctlOf f) (imm20 f)))

/-- RI with a destination. -/
def riD (mk : Ctl → Reg → BitVec 20 → Instr) (f : Fields) : Option Instr :=
  only (fn4 f == 0) (some (mk (ctlOf f) (regOf f.d) (imm20 f)))

/-- LD (R361). -/
def ldOf (sp : Space) (z : Size) (f : Fields) : Option Instr :=
  (ordOf (ordM f)).map fun o => .ld (ctlOf f) sp z o (scopeOf (scopeM f)) (regOf f.d) (regOf f.a) (off11 f)

/-- ST (R399). -/
def stOf (sp : Space) (z : Size) (f : Fields) : Option Instr :=
  (ordOf (ordM f)).map fun o => .st (ctlOf f) sp z o (scopeOf (scopeM f)) (regOf f.d) (regOf f.a) (off11 f)

/-- ATOM (R317). -/
def atomOf (sp : Space) (z : Size) (f : Fields) : Option Instr :=
  (ordOf (ordE f)).map fun o =>
    .atom (ctlOf f) sp z (atomOpOf (low3 f)) o (scopeOf (scopeE f)) (regOf f.d) (regOf f.a) (regOf f.b)

/-- RED (R381). -/
def redOf (sp : Space) (z : Size) (f : Fields) : Option Instr :=
  only (f.d == 0) ((ordOf (ordE f)).map fun o =>
    .red (ctlOf f) sp z (atomOpOf (low3 f)) o (scopeOf (scopeE f)) (regOf f.a) (regOf f.b))

/-- MMA (R210). -/
def mmaOf (fm : MmaFmt) (f : Fields) : Option Instr :=
  only (!f.m.getLsbD 0) (do
    let t ← finOf 16 f.d
    let a ← srOf f.a
    let b ← srOf f.b
    some (.mma (ctlOf f) fm t ⟨(f.m.extractLsb' 5 3).toNat, (f.m.extractLsb' 5 3).isLt⟩ a b
      (f.m.extractLsb' 3 2) (f.m.extractLsb' 1 2)))

/-- WINIT and WARRIVE (R411). -/
def weirOf (mk : Ctl → Ord → SR → Option SR → Instr) (f : Fields) : Option Instr :=
  only (f.d == 0 && f.m.extractLsb' 0 5 == 0) (do
    let o ← ordOf (ordE f)
    let a ← srOf f.a
    let b ← optSrOf f.b
    some (mk (ctlOf f) o a b))

/-- The weir forms with a result (R411). -/
def weirRes (mk : Ctl → Ord → Reg → PR → SR → Option SR → Instr) (f : Fields) : Option Instr :=
  only (scopeE f == 0) (do
    let o ← ordOf (ordE f)
    let a ← srOf f.a
    let b ← optSrOf f.b
    some (mk (ctlOf f) o (regOf f.d) (prOf3 (low3 f)) a b))

/-- Two scalars and a status (R384, R387, R395). -/
def dsA (mk : Ctl → SR → SR → Instr) (p : Bool) (f : Fields) : Option Instr :=
  only (f.b == 0 && p) (do
    let d ← srOf f.d
    let a ← srOf f.a
    some (mk (ctlOf f) d a))

/-- ICINV and TLBINV (R355, R403). -/
def invOf (mk : Ctl → InvRange → Instr) (f : Fields) : Option Instr :=
  only (f.d == 0 && modBelow f 1)
    (if f.m.getLsbD 0 then only (f.a == 0 && f.b == 0) (some (mk (ctlOf f) .all))
     else do
      let a ← srOf f.a
      let b ← srOf f.b
      some (mk (ctlOf f) (.range a b)))

/-- Opcodes 0x01 to 0x0C (R67). -/
def rowsBranch : List (Nat × (Fields → Option Instr)) := [
  (0x01, fun f => only (f.d == 0) (some (.br (ctlOf f) (off24 f)))),
  (0x02, fun f => only (f.d.extractLsb' 3 2 == 0) ((brcOf (f.d.extractLsb' 6 2)).map fun m =>
    .brc (ctlOf f) m (f.d.getLsbD 5) (prOf3 (f.d.extractLsb' 0 3)) (off24 f))),
  (0x03, fun f => (vrOf f.d).map fun l => .call (ctlOf f) l (off24 f)),
  (0x04, fun f => only (f.b == 0 && f.m == 0) ((vrOf f.d).map fun l => .calli (ctlOf f) l (regOf f.a))),
  (0x05, fun f => only (f.d == 0 && f.b == 0 && f.m == 0) (some (.ret (ctlOf f) (regOf f.a)))),
  (0x06, bare .exit), (0x07, bare .nop), (0x08, bare .yield),
  (0x09, immOnly .brk), (0x0A, immOnly .trap),
  (0x0B, fun f => only (f.d == 0 && fn4 f == 0 && (imm20 f).toNat < 4)
    (some (.role (ctlOf f) (low2 f)))),
  (0x0C, fun f => dsA .spawn (f.m == 0) f)]

/-- Opcodes 0x10 to 0x33. -/
def rowsInt : List (Nat × (Fields → Option Instr)) := [
  (0x10, rrmW .iadd), (0x11, rrmWP .iaddc), (0x12, rrmW .isub), (0x13, rrmWP .isubb), (0x14, rrmW .imul),
  (0x15, rrmUW .imulhi), (0x16, rrr4 .imad), (0x17, rrmUW .idiv), (0x18, rrmUW .irem),
  (0x19, rrmUW .imin), (0x1A, rrmUW .imax), (0x1B, rrmW1 .iabs), (0x1C, rrmW1 .ineg),
  (0x1D, fun f => only (modBelow f 6) (do
    let w ← widthOf (low2 f)
    let cc ← icondOf (f.m.extractLsb' 2 3)
    let p ← finOf 8 f.d
    some (.icmp (ctlOf f) w (f.m.getLsbD 5) cc p (regOf f.a) (regOf f.b)))),
  (0x1E, fun f => only (modBelow f 6) ((widthOf (low2 f)).map fun w =>
    .isel (ctlOf f) w (f.m.getLsbD 5) (prOf3 (f.m.extractLsb' 2 3)) (regOf f.d) (regOf f.a) (regOf f.b))),
  (0x1F, rrmW .and), (0x20, rrmW .andn), (0x21, rrmW .or), (0x22, rrmW .xor), (0x23, rrmW1 .not),
  (0x24, rrmW .shl), (0x25, rrmW .shr), (0x26, rrmW .sar), (0x27, rrmW .rotl), (0x28, rrmW1 .popc),
  (0x29, rrmW1 .clz), (0x2A, rrmW1 .ctz), (0x2B, rrmW1 .brev), (0x2C, rrm2 .bfx),
  (0x2D, rrr4 .bfi), (0x2E, rrr4 .bperm), (0x30, riD .movi), (0x31, riD .movhi),
  (0x32, fun f => only (f.b.extractLsb' 4 4 == 0) (some (.addi (ctlOf f) (regOf f.d) (regOf f.a) (imm12 f)))),
  (0x33, riD .addpchi)]

/-- Opcodes 0x38 to 0x4E. -/
def rowsFloat : List (Nat × (Fields → Option Instr)) := [
  (0x38, rrmR .fadd), (0x39, rrmR .fsub), (0x3A, rrmR .fmul), (0x3B, rrmR .ffma), (0x3C, rrm2 .fmin),
  (0x3D, rrm2 .fmax), (0x3E, rrm1 .fabs), (0x3F, rrm1 .fneg),
  (0x40, fun f => only (modBelow f 3) ((finOf 8 f.d).map fun p =>
    .fcmp (ctlOf f) (fcondOf (low3 f)) p (regOf f.a) (regOf f.b))),
  (0x41, rrmR .fdiv), (0x42, rrmR1 .fsqrt), (0x43, rrmR1 .frcp), (0x44, rrmR1 .frsq), (0x45, rrmR1 .fexp2),
  (0x46, rrmR1 .flog2), (0x47, rrmR1 .fsin), (0x48, rrmR1 .fcos), (0x49, rrmR1 .frnd), (0x4A, rrm1 .fclass),
  (0x4B, fun f => only (!f.m.getLsbD 7 && !f.m.getLsbD 2) (do
    let fo ← fmtOf (f.b.extractLsb' 4 4)
    let fi ← fmtOf (f.b.extractLsb' 0 4)
    some (.fcvt (ctlOf f) fo fi (f.m.extractLsb' 5 2) (f.m.extractLsb' 3 2) (rndOf (low2 f))
      (regOf f.d) (regOf f.a)))),
  (0x4C, rrmUR1 .icvtf), (0x4D, rrmUR1 .fcvti),
  (0x4E, fun f => only (modBelow f 5) ((dotOf (f.m.extractLsb' 2 3)).map fun k =>
    .fdot4 (ctlOf f) k (rndOf (low2 f)) (regOf f.d) (regOf f.a) (regOf f.b)))]

/-- Opcodes 0x50 to 0x59. -/
def rowsMove : List (Nat × (Fields → Option Instr)) := [
  (0x50, rrmW1 .mov),
  (0x51, fun f => only (f.b == 0 && f.m == 0) ((vrOf f.d).map fun d => .movri (ctlOf f) d (regOf f.a))),
  (0x52, fun f => only (f.d == 0 && f.m == 0) ((vrOf f.b).map fun b => .movwi (ctlOf f) (regOf f.a) b)),
  (0x53, fun f => only (modBelow f 2) (do
    let d ← vrOf f.d
    let a ← vrOf f.a
    some (.shfl (ctlOf f) (shflOf (low2 f)) d a (regOf f.b)))),
  (0x54, fun f => only (modBelow f 6 && f.a == 0 && f.b == 0) ((voteOf (low2 f) f.d).map fun op =>
    .vote (ctlOf f) op (f.m.getLsbD 5) (prOf3 (f.m.extractLsb' 2 3)))),
  (0x55, fun f => only (modBelow f 4 && f.b == 0) (do
    let op ← vredOf (f.m.extractLsb' 0 4)
    let a ← vrOf f.a
    some (.vred (ctlOf f) op (regOf f.d) a))),
  (0x56, fun f => only (fn4 f == 0) ((sregOf (imm20 f)).map fun r => .mfsr (ctlOf f) (regOf f.d) r)),
  (0x57, fun f => only (fn4 f == 0 && imm20 f == 0x021) (some (.mtsr (ctlOf f) (regOf f.d)))),
  (0x58, fun f => only (modBelow f 3) (do
    let fn ← pfnOf (low3 f)
    let d ← finOf 8 f.d
    let a ← finOf 8 f.a
    let b ← finOf 8 f.b
    some (.pset (ctlOf f) fn d a b))),
  (0x59, fun f => only (modBelow f 1)
    (if f.m.getLsbD 0 then only (f.d == 0) (some (.pmovPut (ctlOf f) (regOf f.a) f.b))
     else only (f.a == 0 && f.b == 0) ((vrOf f.d).map fun d => .pmov (ctlOf f) d)))]

/-- Opcodes 0x60 to 0x7E. -/
def rowsMem : List (Nat × (Fields → Option Instr)) := [
  (0x60, ldOf .g .b8), (0x61, ldOf .g .b16), (0x62, ldOf .g .b32), (0x63, ldOf .g .b64),
  (0x64, ldOf .s .b8), (0x65, ldOf .s .b16), (0x66, ldOf .s .b32), (0x67, ldOf .s .b64),
  (0x68, ldOf .k .b8), (0x69, ldOf .k .b16), (0x6A, ldOf .k .b32), (0x6B, ldOf .k .b64),
  (0x6C, stOf .g .b8), (0x6D, stOf .g .b16), (0x6E, stOf .g .b32), (0x6F, stOf .g .b64),
  (0x70, stOf .s .b8), (0x71, stOf .s .b16), (0x72, stOf .s .b32), (0x73, stOf .s .b64),
  (0x74, atomOf .g .b32), (0x75, atomOf .g .b64), (0x76, atomOf .s .b32), (0x77, atomOf .s .b64),
  (0x78, redOf .g .b32), (0x79, redOf .g .b64), (0x7A, redOf .s .b32), (0x7B, redOf .s .b64),
  (0x7C, fun f => only (f.d == 0 && f.a == 0 && off11 f == 0) ((ordOf (ordM f)).map fun o =>
    .fence (ctlOf f) o (scopeOf (scopeM f)))),
  (0x7D, fun f => only (f.d.toNat < 2 && ordM f == 0 && scopeM f == 0)
    (some (.pref (ctlOf f) (f.d.getLsbD 0) (regOf f.a) (off11 f)))),
  (0x7E, fun f => only (f.d.toNat < 2 && ordM f == 0)
    (some (.cflush (ctlOf f) (f.d.getLsbD 0) (scopeOf (scopeM f)) (regOf f.a) (off11 f))))]

/-- Opcodes 0x80 to 0x8C. -/
def rowsSync : List (Nat × (Fields → Option Instr)) := [
  (0x80, fun f => only (modBelow f 2) (do
    let d ← srOf f.d
    let a ← srOf f.a
    let b ← srOf f.b
    some (.bcopy (ctlOf f) (f.m.getLsbD 0) (f.m.getLsbD 1) d a b))),
  (0x81, fun f => only (f.d == 0 && f.m == 0) (do
    let a ← srOf f.a
    let b ← srOf f.b
    some (.bseal (ctlOf f) a b))),
  (0x82, fun f => only (f.d == 0 && f.b == 0 && f.m == 0) ((srOf f.a).map fun a => .bwait (ctlOf f) a)),
  (0x83, fun f => only (low3 f == 0) (do
    let o ← ordOf (ordE f)
    let b ← srOf f.b
    some (.waitstamp (ctlOf f) o (scopeOf (scopeE f)) (regOf f.d) (regOf f.a) b))),
  (0x84, weirOf .winit), (0x85, weirOf .warrive), (0x86, weirRes .wsync), (0x87, weirRes .wwait),
  (0x88, weirRes .wwaitseq), (0x89, weirRes .wtest),
  (0x8A, fun f => dsA .rlaunch (f.m == 0) f),
  (0x8B, fun f => if f.m.getLsbD 0 then dsA .rstopResume (modBelow f 1) f else dsA .rstop (modBelow f 1) f),
  (0x8C, fun f => dsA (fun c d a => .rstat c d a (low3 f)) (modBelow f 3) f)]

/-- Opcodes 0x90 to 0xA4. -/
def rowsUnit : List (Nat × (Fields → Option Instr)) := [
  (0x90, fun f => only (f.b == 0 && f.m == 0) (do
    let k ← finOf 8 f.d
    let a ← srOf f.a
    some (.sign (ctlOf f) k a))),
  (0x91, mmaOf .lns6), (0x92, mmaOf .e4m3), (0x93, mmaOf .e5m2), (0x94, mmaOf .i8), (0x95, mmaOf .bf16),
  (0x96, mmaOf .fp16),
  (0x97, fun f => only (f.b == 0 && f.m == 0) (do
    let t ← finOf 16 f.d
    let a ← srOf f.a
    some (.mlda (ctlOf f) t a))),
  (0x98, fun f => only (f.b == 0 && f.m == 0) (do
    let t ← finOf 16 f.d
    let a ← srOf f.a
    some (.msta (ctlOf f) t a))),
  (0x99, fun f => only (f.a == 0 && f.b == 0 && f.m == 0) ((finOf 16 f.d).map fun t => .mzero (ctlOf f) t)),
  (0x9A, fun f => only (f.a == 0 && f.b == 0 && f.m == 0) ((srOf f.d).map fun d => .mchk (ctlOf f) d)),
  (0x9B, fun f => only (modBelow f 1) (do
    let t ← srOf f.d
    let x ← srOf f.a
    let y ← srOf f.b
    some (.pmv (ctlOf f) (f.m.getLsbD 0) t x y))),
  (0x9C, fun f => only (f.a == 0 && f.b == 0 && modBelow f 2) ((srOf f.d).map fun d =>
    .pstat (ctlOf f) d (low2 f))),
  (0x9D, fun f => only (f.m == 0) (do
    let d ← vrOf f.d
    let a ← vrOf f.a
    let b ← srOf f.b
    some (.tryT (ctlOf f) d a b))),
  (0x9E, fun f => only (f.d == 0 && f.b == 0 && f.m == 0) (some (.tret (ctlOf f) (regOf f.a)))),
  (0x9F, fun f => only (f.b == 0 && f.m == 0) ((vrOf f.d).map fun d => .swf (ctlOf f) d (regOf f.a))),
  (0xA0, fun f => only (f.m == 0) (do
    let d ← vrOf f.d
    let a ← vrOf f.a
    let b ← srOf f.b
    some (.swc (ctlOf f) d a b))),
  (0xA1, fun f => only (modBelow f 3) (do
    let d ← vrOf f.d
    let b ← srOf f.b
    some (.sprobe (ctlOf f) d (prOf3 (low3 f)) (regOf f.a) b))),
  (0xA2, fun f => (vrOf f.d).map fun d => .vmxp (ctlOf f) d (regOf f.a) (regOf f.b) (regOf f.m)),
  (0xA3, invOf .icinv), (0xA4, invOf .tlbinv)]

/-- The opcode map of R67. -/
def opRows : List (Nat × (Fields → Option Instr)) :=
  rowsBranch ++ rowsInt ++ rowsFloat ++ rowsMove ++ rowsMem ++ rowsSync ++ rowsUnit

/-- The row of an opcode. -/
def findRow : List (Nat × (Fields → Option Instr)) → Nat → Option (Fields → Option Instr)
  | [], _ => none
  | (k, g) :: rows, n => if k = n then some g else findRow rows n

/-- Decoding from the fields. -/
def decodeFields (f : Fields) : Except DecodeError Instr :=
  if f.op = 0 then .error .zeroOpcode
  else if f.op.extractLsb' 4 4 = 0xF then .error .headerTag
  else
    match findRow opRows f.op.toNat with
    | none => .error .reservedOpcode
    | some g =>
      match g f with
      | none => .error .badField
      | some i => if wellFormed i then .ok i else .error .illFormed

/-- Decoding an instruction word: total, a refusal by name for every illegal word (R68, R70). -/
def decodeWord (w : Word) : Except DecodeError Instr := decodeFields (splitWord w)

/-! ## The encoder of instruction words -/

def fieldsOf (op : Byte) (c : Ctl) (d a b m : Byte) : Fields :=
  { op := op, u := c.u, dist := c.dist, wait := c.wait, set := c.set, neg := c.neg, pred := prCode3 c.pred,
    d := d, a := a, b := b, m := m }

/-- A modifier byte whose low two bits are `x`. -/
def m2 (hi : BitVec 6) (x : BitVec 2) : Byte := hi ++ x

def encW (op : Byte) (c : Ctl) (w : Width) (d a b : Reg) : Fields :=
  fieldsOf op c (regCode d) (regCode a) (regCode b) (m2 0 (widthCode w))
def encW1 (op : Byte) (c : Ctl) (w : Width) (d a : Reg) : Fields :=
  fieldsOf op c (regCode d) (regCode a) 0 (m2 0 (widthCode w))
def encUW (op : Byte) (c : Ctl) (w : Width) (u : Bool) (d a b : Reg) : Fields :=
  fieldsOf op c (regCode d) (regCode a) (regCode b) ((0 : BitVec 5) ++ BitVec.ofBool u ++ widthCode w)
def encWP (op : Byte) (c : Ctl) (w : Width) (d a b : Reg) (n : PR) : Fields :=
  fieldsOf op c (regCode d) (regCode a) (regCode b) ((0 : BitVec 3) ++ prCode3 n ++ widthCode w)
def encR (op : Byte) (c : Ctl) (r : Rnd) (d a b : Reg) : Fields :=
  fieldsOf op c (regCode d) (regCode a) (regCode b) (m2 0 (rndCode r))
def encR1 (op : Byte) (c : Ctl) (r : Rnd) (d a : Reg) : Fields :=
  fieldsOf op c (regCode d) (regCode a) 0 (m2 0 (rndCode r))
def encUR1 (op : Byte) (c : Ctl) (u : Bool) (r : Rnd) (d a : Reg) : Fields :=
  fieldsOf op c (regCode d) (regCode a) 0 ((0 : BitVec 5) ++ BitVec.ofBool u ++ rndCode r)
def enc2 (op : Byte) (c : Ctl) (d a b : Reg) : Fields := fieldsOf op c (regCode d) (regCode a) (regCode b) 0
def enc1 (op : Byte) (c : Ctl) (d a : Reg) : Fields := fieldsOf op c (regCode d) (regCode a) 0 0
def enc4 (op : Byte) (c : Ctl) (d a b x : Reg) : Fields :=
  fieldsOf op c (regCode d) (regCode a) (regCode b) (regCode x)
def enc0 (op : Byte) (c : Ctl) : Fields := fieldsOf op c 0 0 0 0
def encImm (op : Byte) (c : Ctl) (d : Byte) (i : BitVec 20) : Fields :=
  fieldsOf op c d ((0 : BitVec 4) ++ i.extractLsb' 16 4) (i.extractLsb' 8 8) (i.extractLsb' 0 8)
def encB (op : Byte) (c : Ctl) (d : Byte) (o : BitVec 24) : Fields :=
  fieldsOf op c d (o.extractLsb' 16 8) (o.extractLsb' 8 8) (o.extractLsb' 0 8)
def encM (op : Byte) (c : Ctl) (d a : Byte) (o : BitVec 3) (sc : BitVec 2) (off : BitVec 11) : Fields :=
  fieldsOf op c d a (o ++ sc ++ off.extractLsb' 8 3) (off.extractLsb' 0 8)
def encE (op : Byte) (c : Ctl) (d a b : Byte) (o : BitVec 3) (sc : BitVec 2) (x : BitVec 3) : Fields :=
  fieldsOf op c d a b (o ++ sc ++ x)
def encInv (op : Byte) (c : Ctl) : InvRange → Fields
  | .all => fieldsOf op c 0 0 0 1
  | .range a b => fieldsOf op c 0 (srCode a) (srCode b) 0

/-- The opcode of a load, a store, an ATOM or a RED (R361, R399, R317, R381). -/
def sizeIx : Size → Nat
  | .b8 => 0
  | .b16 => 1
  | .b32 => 2
  | .b64 => 3
def spaceIx : Space → Nat
  | .g => 0
  | .s => 1
  | .k => 2
def ldOp (sp : Space) (z : Size) : Byte := BitVec.ofNat 8 (0x60 + 4 * spaceIx sp + sizeIx z)
def stOp (sp : Space) (z : Size) : Byte := BitVec.ofNat 8 (0x6C + 4 * spaceIx sp + sizeIx z)
def atomOpc (sp : Space) (z : Size) : Byte := BitVec.ofNat 8 (0x72 + 2 * spaceIx sp + sizeIx z)
def redOpc (sp : Space) (z : Size) : Byte := BitVec.ofNat 8 (0x76 + 2 * spaceIx sp + sizeIx z)
def mmaOp : MmaFmt → Byte
  | .lns6 => 0x91
  | .e4m3 => 0x92
  | .e5m2 => 0x93
  | .i8 => 0x94
  | .bf16 => 0x95
  | .fp16 => 0x96

/-- The fields of an instruction word; none for what is no word. -/
def encodeFields : Instr → Option Fields
  | .br c o => some (encB 0x01 c 0 o)
  | .brc c m neg n o => some (encB 0x02 c (brcCode m ++ BitVec.ofBool neg ++ (0 : BitVec 2) ++ prCode3 n) o)
  | .call c l o => some (encB 0x03 c (vrCode l) o)
  | .calli c l a => some (fieldsOf 0x04 c (vrCode l) (regCode a) 0 0)
  | .ret c a => some (fieldsOf 0x05 c 0 (regCode a) 0 0)
  | .exit c => some (enc0 0x06 c)
  | .nop c => some (enc0 0x07 c)
  | .yield c => some (enc0 0x08 c)
  | .brk c i => some (encImm 0x09 c 0 i)
  | .trap c i => some (encImm 0x0A c 0 i)
  | .role c n => some (fieldsOf 0x0B c 0 0 0 (m2 0 n))
  | .spawn c d a => some (fieldsOf 0x0C c (srCode d) (srCode a) 0 0)
  | .iadd c w d a b => some (encW 0x10 c w d a b)
  | .iaddc c w d a b n => some (encWP 0x11 c w d a b n)
  | .isub c w d a b => some (encW 0x12 c w d a b)
  | .isubb c w d a b n => some (encWP 0x13 c w d a b n)
  | .imul c w d a b => some (encW 0x14 c w d a b)
  | .imulhi c w u d a b => some (encUW 0x15 c w u d a b)
  | .imad c d a b x => some (enc4 0x16 c d a b x)
  | .idiv c w u d a b => some (encUW 0x17 c w u d a b)
  | .irem c w u d a b => some (encUW 0x18 c w u d a b)
  | .imin c w u d a b => some (encUW 0x19 c w u d a b)
  | .imax c w u d a b => some (encUW 0x1A c w u d a b)
  | .iabs c w d a => some (encW1 0x1B c w d a)
  | .ineg c w d a => some (encW1 0x1C c w d a)
  | .icmp c w u cc p a b => some (fieldsOf 0x1D c (prCode p) (regCode a) (regCode b)
      ((0 : BitVec 2) ++ BitVec.ofBool u ++ icondCode cc ++ widthCode w))
  | .isel c w v n d a b => some (fieldsOf 0x1E c (regCode d) (regCode a) (regCode b)
      ((0 : BitVec 2) ++ BitVec.ofBool v ++ prCode3 n ++ widthCode w))
  | .and c w d a b => some (encW 0x1F c w d a b)
  | .andn c w d a b => some (encW 0x20 c w d a b)
  | .or c w d a b => some (encW 0x21 c w d a b)
  | .xor c w d a b => some (encW 0x22 c w d a b)
  | .not c w d a => some (encW1 0x23 c w d a)
  | .shl c w d a b => some (encW 0x24 c w d a b)
  | .shr c w d a b => some (encW 0x25 c w d a b)
  | .sar c w d a b => some (encW 0x26 c w d a b)
  | .rotl c w d a b => some (encW 0x27 c w d a b)
  | .popc c w d a => some (encW1 0x28 c w d a)
  | .clz c w d a => some (encW1 0x29 c w d a)
  | .ctz c w d a => some (encW1 0x2A c w d a)
  | .brev c w d a => some (encW1 0x2B c w d a)
  | .bfx c d a b => some (enc2 0x2C c d a b)
  | .bfi c d a b x => some (enc4 0x2D c d a b x)
  | .bperm c d a b x => some (enc4 0x2E c d a b x)
  | .movi c d i => some (encImm 0x30 c (regCode d) i)
  | .movhi c d i => some (encImm 0x31 c (regCode d) i)
  | .addi c d a i => some (fieldsOf 0x32 c (regCode d) (regCode a) ((0 : BitVec 4) ++ i.extractLsb' 8 4)
      (i.extractLsb' 0 8))
  | .addpchi c d i => some (encImm 0x33 c (regCode d) i)
  | .fadd c r d a b => some (encR 0x38 c r d a b)
  | .fsub c r d a b => some (encR 0x39 c r d a b)
  | .fmul c r d a b => some (encR 0x3A c r d a b)
  | .ffma c r d a b => some (encR 0x3B c r d a b)
  | .fmin c d a b => some (enc2 0x3C c d a b)
  | .fmax c d a b => some (enc2 0x3D c d a b)
  | .fabs c d a => some (enc1 0x3E c d a)
  | .fneg c d a => some (enc1 0x3F c d a)
  | .fcmp c cc p a b => some (fieldsOf 0x40 c (prCode p) (regCode a) (regCode b) ((0 : BitVec 5) ++ fcondCode cc))
  | .fdiv c r d a b => some (encR 0x41 c r d a b)
  | .fsqrt c r d a => some (encR1 0x42 c r d a)
  | .frcp c r d a => some (encR1 0x43 c r d a)
  | .frsq c r d a => some (encR1 0x44 c r d a)
  | .fexp2 c r d a => some (encR1 0x45 c r d a)
  | .flog2 c r d a => some (encR1 0x46 c r d a)
  | .fsin c r d a => some (encR1 0x47 c r d a)
  | .fcos c r d a => some (encR1 0x48 c r d a)
  | .frnd c r d a => some (encR1 0x49 c r d a)
  | .fclass c d a => some (enc1 0x4A c d a)
  | .fcvt c fo fi ko ki r d a => some (fieldsOf 0x4B c (regCode d) (regCode a) (fmtCode fo ++ fmtCode fi)
      ((0 : BitVec 1) ++ ko ++ ki ++ (0 : BitVec 1) ++ rndCode r))
  | .icvtf c u r d a => some (encUR1 0x4C c u r d a)
  | .fcvti c u r d a => some (encUR1 0x4D c u r d a)
  | .fdot4 c k r d a b => some (fieldsOf 0x4E c (regCode d) (regCode a) (regCode b)
      ((0 : BitVec 3) ++ dotCode k ++ rndCode r))
  | .mov c w d a => some (encW1 0x50 c w d a)
  | .movri c d i => some (fieldsOf 0x51 c (vrCode d) (regCode i) 0 0)
  | .movwi c i b => some (fieldsOf 0x52 c 0 (regCode i) (vrCode b) 0)
  | .shfl c m d a b => some (fieldsOf 0x53 c (vrCode d) (vrCode a) (regCode b) (m2 0 (shflCode m)))
  | .vote c op neg n => some (fieldsOf 0x54 c (voteDst op) 0 0
      ((0 : BitVec 2) ++ BitVec.ofBool neg ++ prCode3 n ++ voteMode op))
  | .vred c op d a => some (fieldsOf 0x55 c (regCode d) (vrCode a) 0 ((0 : BitVec 4) ++ vredCode op))
  | .mfsr c d r => some (encImm 0x56 c (regCode d) (sregCode r))
  | .mtsr c a => some (encImm 0x57 c (regCode a) 0x021)
  | .pset c fn p q r => some (fieldsOf 0x58 c (prCode p) (prCode q) (prCode r) ((0 : BitVec 5) ++ pfnCode fn))
  | .pmov c d => some (fieldsOf 0x59 c (vrCode d) 0 0 0)
  | .pmovPut c a mask => some (fieldsOf 0x59 c 0 (regCode a) mask 1)
  | .ld c sp z o sc d a off => some (encM (ldOp sp z) c (regCode d) (regCode a) (ordCode o) (scopeCode sc) off)
  | .st c sp z o sc d a off => some (encM (stOp sp z) c (regCode d) (regCode a) (ordCode o) (scopeCode sc) off)
  | .atom c sp z op o sc d a b =>
    some (encE (atomOpc sp z) c (regCode d) (regCode a) (regCode b) (ordCode o) (scopeCode sc) (atomOpCode op))
  | .red c sp z op o sc a b =>
    some (encE (redOpc sp z) c 0 (regCode a) (regCode b) (ordCode o) (scopeCode sc) (atomOpCode op))
  | .fence c o sc => some (encM 0x7C c 0 0 (ordCode o) (scopeCode sc) 0)
  | .pref c l2 a off => some (encM 0x7D c ((0 : BitVec 7) ++ BitVec.ofBool l2) (regCode a) 0 0 off)
  | .cflush c inv sc a off =>
    some (encM 0x7E c ((0 : BitVec 7) ++ BitVec.ofBool inv) (regCode a) 0 (scopeCode sc) off)
  | .bcopy c s1 s2 d a b => some (fieldsOf 0x80 c (srCode d) (srCode a) (srCode b)
      ((0 : BitVec 6) ++ BitVec.ofBool s2 ++ BitVec.ofBool s1))
  | .bseal c a b => some (fieldsOf 0x81 c 0 (srCode a) (srCode b) 0)
  | .bwait c a => some (fieldsOf 0x82 c 0 (srCode a) 0 0)
  | .waitstamp c o sc d a b => some (encE 0x83 c (regCode d) (regCode a) (srCode b) (ordCode o) (scopeCode sc) 0)
  | .winit c o a b => some (encE 0x84 c 0 (srCode a) (optSrCode b) (ordCode o) 0 0)
  | .warrive c o a b => some (encE 0x85 c 0 (srCode a) (optSrCode b) (ordCode o) 0 0)
  | .wsync c o d p a b => some (encE 0x86 c (regCode d) (srCode a) (optSrCode b) (ordCode o) 0 (prCode3 p))
  | .wwait c o d p a b => some (encE 0x87 c (regCode d) (srCode a) (optSrCode b) (ordCode o) 0 (prCode3 p))
  | .wwaitseq c o d p a b => some (encE 0x88 c (regCode d) (srCode a) (optSrCode b) (ordCode o) 0 (prCode3 p))
  | .wtest c o d p a b => some (encE 0x89 c (regCode d) (srCode a) (optSrCode b) (ordCode o) 0 (prCode3 p))
  | .rlaunch c d a => some (fieldsOf 0x8A c (srCode d) (srCode a) 0 0)
  | .rstop c d a => some (fieldsOf 0x8B c (srCode d) (srCode a) 0 0)
  | .rstopResume c d a => some (fieldsOf 0x8B c (srCode d) (srCode a) 0 1)
  | .rstat c d a w => some (fieldsOf 0x8C c (srCode d) (srCode a) 0 ((0 : BitVec 5) ++ w))
  | .sign c k a => some (fieldsOf 0x90 c (BitVec.ofNat 8 k.val) (srCode a) 0 0)
  | .mma c fm t k a b na nb => some (fieldsOf (mmaOp fm) c (BitVec.ofNat 8 t.val) (srCode a) (srCode b)
      (BitVec.ofNat 3 k.val ++ na ++ nb ++ (0 : BitVec 1)))
  | .mlda c t a => some (fieldsOf 0x97 c (BitVec.ofNat 8 t.val) (srCode a) 0 0)
  | .msta c t a => some (fieldsOf 0x98 c (BitVec.ofNat 8 t.val) (srCode a) 0 0)
  | .mzero c t => some (fieldsOf 0x99 c (BitVec.ofNat 8 t.val) 0 0 0)
  | .mchk c d => some (fieldsOf 0x9A c (srCode d) 0 0 0)
  | .pmv c cont t x y => some (fieldsOf 0x9B c (srCode t) (srCode x) (srCode y) ((0 : BitVec 7) ++ BitVec.ofBool cont))
  | .pstat c d w => some (fieldsOf 0x9C c (srCode d) 0 0 (m2 0 w))
  | .tryT c d a b => some (fieldsOf 0x9D c (vrCode d) (vrCode a) (srCode b) 0)
  | .tret c a => some (fieldsOf 0x9E c 0 (regCode a) 0 0)
  | .swf c d a => some (fieldsOf 0x9F c (vrCode d) (regCode a) 0 0)
  | .swc c d a b => some (fieldsOf 0xA0 c (vrCode d) (vrCode a) (srCode b) 0)
  | .sprobe c d f a b => some (fieldsOf 0xA1 c (vrCode d) (regCode a) (srCode b) ((0 : BitVec 5) ++ prCode3 f))
  | .vmxp c d a b x => some (fieldsOf 0xA2 c (vrCode d) (regCode a) (regCode b) (regCode x))
  | .icinv c r => some (encInv 0xA3 c r)
  | .tlbinv c r => some (encInv 0xA4 c r)
  | _ => none

/-- The word of an instruction; none for what is no instruction word. -/
def encodeWord (i : Instr) : Option Word := (encodeFields i).map joinWord

/-! ## Rill commands -/

/-- The four quadwords of a command (R176). -/
structure Quads where
  q0 : Word
  q1 : Word
  q2 : Word
  q3 : Word
  deriving DecidableEq, Repr

def quadsOf (raw : BitVec 256) : Quads :=
  { q0 := raw.extractLsb' 0 64, q1 := raw.extractLsb' 64 64, q2 := raw.extractLsb' 128 64,
    q3 := raw.extractLsb' 192 64 }
def joinQuads (q : Quads) : BitVec 256 := (q.q3 ++ q.q2 ++ q.q1 ++ q.q0).cast (by decide)

/-- Only the bits of `mask` may be set (R175). -/
def within (x mask : Word) : Bool := x &&& ~~~mask == 0

/-- The address in the low 54 bits of a quadword. -/
def addr54 (x : Word) : BitVec 54 := x.extractLsb' 0 54
def only54 (x : Word) : Bool := within x 0x003FFFFFFFFFFFFF#64
/-- The 22-bit store address in q0 [53:32]. -/
def store22 (q : Quads) : BitVec 22 := q.q0.extractLsb' 32 22
def lo32 (x : Word) : BitVec 32 := x.extractLsb' 0 32
def hi32 (x : Word) : BitVec 32 := x.extractLsb' 32 32

/-- STREAM and DRAIN (R177). -/
def affineOf (mk : Affine → Instr) (q : Quads) : Option Instr :=
  only (within q.q0 0x0FFFFFFFFFF7FFFF#64 && only54 q.q1 && within q.q3 0x7FFFFFFFFFFFFFFF#64) (do
    let fi ← fmtOf (q.q0.extractLsb' 8 4)
    let fo ← fmtOf (q.q0.extractLsb' 12 4)
    some (mk { fmtin := fi, fmtout := fo, ndim := q.q0.extractLsb' 16 2, scl := q.q0.getLsbD 18,
               rep := q.q0.extractLsb' 20 4, e8 := q.q0.extractLsb' 24 8, ring := store22 q,
               sh := q.q0.extractLsb' 54 6, base := addr54 q.q1,
               c0 := q.q2.extractLsb' 0 16, c1 := q.q2.extractLsb' 16 16, c2 := q.q2.extractLsb' 32 16,
               c3 := q.q2.extractLsb' 48 16,
               st1 := q.q3.extractLsb' 0 21, st2 := q.q3.extractLsb' 21 21, st3 := q.q3.extractLsb' 42 21 }))

/-- R184. -/
def redFnOf (x : BitVec 4) : Option RedFn :=
  match x.toNat with
  | 0 => some .sum
  | 1 => some .max
  | 2 => some .min
  | _ => none
def redFnCode : RedFn → BitVec 4
  | .sum => 0
  | .max => 1
  | .min => 2

/-- The commands of R175. -/
def decodeQuads (q : Quads) : Option Instr :=
  match (q.q0.extractLsb' 0 8).toNat with
  | 0x01 => affineOf .stream q
  | 0x02 => only (within q.q0 0x003FFFFF000000FF#64 && only54 q.q1 && q.q3 == 0)
      (some (.decode (store22 q) (addr54 q.q1) (lo32 q.q2) (hi32 q.q2)))
  | 0x03 => only (within q.q0 0x003FFFFF000000FF#64 && only54 q.q1 && hi32 q.q2 == 0 && q.q3 == 0)
      (some (.palette (store22 q) (addr54 q.q1) (lo32 q.q2)))
  | 0x04 => affineOf .rillDrain q
  | 0x05 => only (within q.q0 0x003FFFFFFFFF00FF#64 && q.q1 == 0 && q.q2 == 0 && q.q3 == 0)
      (some (.arrive (q.q0.extractLsb' 16 16) (store22 q)))
  | 0x06 => only (within q.q0 0x003FFFFF000001FF#64 && q.q1 == 0 && q.q2 == 0 && q.q3 == 0)
      (some (.waitw (q.q0.getLsbD 8) (store22 q)))
  | 0x07 => only (within q.q0 0xFF#64 && only54 q.q1 && q.q3 == 0) (some (.waits (addr54 q.q1) q.q2))
  | 0x08 => only (within q.q0 0x3FF#64 && q.q2 == 0 && q.q3 == 0)
      (some (.loop (q.q0.extractLsb' 8 2) (lo32 q.q1) (hi32 q.q1)))
  | 0x09 => only (within q.q0 0xFF#64 && hi32 q.q1 == 0 && q.q2 == 0 && q.q3 == 0) (some (.jump (lo32 q.q1)))
  | 0x0A => only (within q.q0 0xFF#64 && only54 q.q1 && q.q3 == 0) (some (.stamp (addr54 q.q1) q.q2))
  | 0x0B => only (within q.q0 0xFFFFFFFF00FFFFFF#64 && only54 q.q1 && hi32 q.q2 == 0 && only54 q.q3) (do
      let fn ← redFnOf (q.q0.extractLsb' 8 4)
      let fm ← fmtOf (q.q0.extractLsb' 12 4)
      some (.reduce fn fm (q.q0.extractLsb' 16 8) (hi32 q.q0) (addr54 q.q1) (lo32 q.q2) (addr54 q.q3)))
  | 0x0C => only (within q.q0 0xFF#64 && q.q1 == 0 && q.q2 == 0 && q.q3 == 0) (some .rillFence)
  | 0x0D => only (within q.q0 0x003FFFFFFFFF01FF#64 && q.q1 == 0 && q.q2 == 0 && q.q3 == 0)
      (some (.rillEnd (q.q0.getLsbD 8) (q.q0.extractLsb' 16 16) (store22 q)))
  | _ => none

/-- Decoding a rill command: total; what R176 refuses is RILL_BAD_COMMAND. -/
def decodeCmd (raw : BitVec 256) : Instr :=
  match decodeQuads (quadsOf raw) with
  | some i => if wellFormed i then i else .rillBadCommand raw
  | none => .rillBadCommand raw

/-- Zero-extension of an address to a quadword. -/
def q54 (x : BitVec 54) : Word := x.setWidth 64

def encAffine (op : Byte) (f : Affine) : Quads :=
  { q0 := ((0 : BitVec 4) ++ f.sh ++ f.ring ++ f.e8 ++ f.rep ++ (0 : BitVec 1) ++ BitVec.ofBool f.scl ++ f.ndim
            ++ fmtCode f.fmtout ++ fmtCode f.fmtin ++ op).cast (by decide)
    q1 := q54 f.base
    q2 := (f.c3 ++ f.c2 ++ f.c1 ++ f.c0).cast (by decide)
    q3 := ((0 : BitVec 1) ++ f.st3 ++ f.st2 ++ f.st1).cast (by decide) }

/-- A q0 with a store address, a 16-bit count and one flag bit. -/
def encSync (op : Byte) (p : Bool) (n : BitVec 16) (w : BitVec 22) : Word :=
  ((0 : BitVec 10) ++ w ++ n ++ (0 : BitVec 7) ++ BitVec.ofBool p ++ op).cast (by decide)

/-- The quadwords of a command; none for what is no command. -/
def encodeQuads : Instr → Option Quads
  | .stream f => some (encAffine 0x01 f)
  | .decode r a n b => some ⟨encSync 0x02 false 0 r, q54 a, b ++ n, 0⟩
  | .palette r a n => some ⟨encSync 0x03 false 0 r, q54 a, n.setWidth 64, 0⟩
  | .rillDrain f => some (encAffine 0x04 f)
  | .arrive n w => some ⟨encSync 0x05 false n w, 0, 0, 0⟩
  | .waitw p w => some ⟨encSync 0x06 p 0 w, 0, 0, 0⟩
  | .waits a v => some ⟨0x07, q54 a, v, 0⟩
  | .loop l t n => some ⟨((0 : BitVec 54) ++ l ++ (0x08 : Byte)).cast (by decide), n ++ t, 0, 0⟩
  | .jump t => some ⟨0x09, t.setWidth 64, 0, 0⟩
  | .stamp a v => some ⟨0x0A, q54 a, v, 0⟩
  | .reduce fn fm g k a n d => some
      ⟨(k ++ (0 : Byte) ++ g ++ fmtCode fm ++ redFnCode fn ++ (0x0B : Byte)).cast (by decide), q54 a, n.setWidth 64,
        q54 d⟩
  | .rillFence => some ⟨0x0C, 0, 0, 0⟩
  | .rillEnd a n w => some ⟨encSync 0x0D a n w, 0, 0, 0⟩
  | _ => none

/-- The 256 bits of a command; none for what is no command. -/
def encodeCmd (i : Instr) : Option (BitVec 256) := (encodeQuads i).map joinQuads

/-! ## The management port -/

/-- The step that a command code starts (R304). -/
def decodeHostCmd (code : Byte) : Instr :=
  match code.toNat with
  | 0x01 => .ctxCreate
  | 0x02 => .ctxDestroy
  | 0x03 => .halt
  | 0x04 => .resume
  | 0x05 => .discard
  | 0x06 => .load
  | 0x07 => .unload
  | 0x08 => .tlbInval
  | 0x09 => .domain
  | 0x0A => .credit
  | 0x0B => .drain
  | 0x0C => .fwSlot
  | 0x0D => .retire
  | 0x0E => .group
  | _ => .badCommand code

/-- The step that a host write to a management register starts (R303). -/
def decodeRegWrite (off : Nat) (v : Word) : Instr :=
  if off = 0x010 then .rootLaunch v
  else if off = 0x020 then decodeHostCmd (v.extractLsb' 0 8)
  else if off = 0x058 then .irqClear v
  else .registerWrite off v

/-! ## The host's question -/

/-- The instruction whose bits are `w`, numbered as spec/opcode_table.json numbers them: a 64-bit instruction
word up to 64 bits, a 32-byte rill command above. The bits above `nbits` are 0. -/
def decodeTableWord (nbits w : Nat) : Option Instr :=
  if nbits ≤ 64 then
    match decodeWord (BitVec.ofNat 64 (w % 2 ^ nbits)) with
    | .ok i => some i
    | .error _ => none
  else
    match decodeCmd (BitVec.ofNat 256 (w % 2 ^ nbits)) with
    | .rillBadCommand _ => none
    | i => some i

end Sys2Proof
end

