-- ==== Sys2Proof/Machine/KMap.lean ====
section
/-! DEFINITION. Finite maps held as plain data: a list of (key, value) pairs with strictly rising keys.
With a default value `d`, `putD` lists no entry equal to `d`, so that equal maps are equal lists. -/
namespace Sys2Proof.Machine

/-- A map from numbers: pairs with strictly rising keys. -/
abbrev KMap (α : Type) := List (Nat × α)

/-- The entry at key `k`. -/
def findK {α : Type} : KMap α → Nat → Option α
  | [], _ => none
  | (j, x) :: m, k => if j = k then some x else findK m k

/-- The map with key `k` set to `v`; the keys stay in rising order. -/
def insK {α : Type} : KMap α → Nat → α → KMap α
  | [], k, v => [(k, v)]
  | (j, x) :: m, k, v =>
    if k < j then (k, v) :: (j, x) :: m
    else if k = j then (k, v) :: m
    else (j, x) :: insK m k v

/-- The map without key `k`. -/
def delK {α : Type} : KMap α → Nat → KMap α
  | [], _ => []
  | (j, x) :: m, k => if j = k then delK m k else (j, x) :: delK m k

/-- Reading with a default. -/
def getD {α : Type} (m : KMap α) (d : α) (k : Nat) : α := (findK m k).getD d

/-- Writing with a default: an entry equal to the default is not listed. -/
def putD {α : Type} [DecidableEq α] (m : KMap α) (d : α) (k : Nat) (v : α) : KMap α :=
  if v = d then delK m k else insK m k v

/-- Applies `f` to the entry at `k`, if there is one. -/
def modK {α : Type} (m : KMap α) (k : Nat) (f : α → α) : KMap α :=
  match findK m k with
  | some x => insK m k (f x)
  | none => m

/-- Keys strictly rise. -/
def risingK {α : Type} : KMap α → Bool
  | [] => true
  | [_] => true
  | (j, _) :: (k, y) :: m => decide (j < k) && risingK ((k, y) :: m)

/-- The canonical form of a map with a default: keys strictly rise and no entry equals the default. -/
def canonK {α : Type} [DecidableEq α] (m : KMap α) (d : α) : Bool :=
  risingK m && m.all (fun p => decide (p.2 ≠ d))

/-- One above the highest key. -/
def freshK {α : Type} (m : KMap α) : Nat := m.foldl (fun n p => max n (p.1 + 1)) 0

/-- Element `i` of a list, or the default. -/
def nth {α : Type} (l : List α) (d : α) (i : Nat) : α := (l[i]?).getD d

/-- The bit of lane `l` in a mask. -/
def bitOf (m : LaneMask) (l : Nat) : Bool := m.getLsbD l

/-- The mask of a list of lanes. -/
def maskOf (ls : List Nat) : LaneMask := ls.foldl (fun m l => m ||| (1#32 <<< l)) 0

/-- The lanes of a mask, ascending. -/
def lanesOf (m : LaneMask) : List Nat := laneList.filter (bitOf m)

/-- Little-endian bytes (R10): the `n` low bytes of `x`, lowest first. -/
def bytesLE : Nat → Nat → List Byte
  | 0, _ => []
  | n + 1, x => BitVec.ofNat 8 x :: bytesLE n (x / 256)

/-- The number that little-endian bytes hold (R10). -/
def natLE : List Byte → Nat
  | [] => 0
  | b :: bs => b.toNat + 256 * natLE bs

/-- Bits [hi:lo] of a number (R10). -/
def bits (x hi lo : Nat) : Nat := (x / 2 ^ lo) % 2 ^ (hi + 1 - lo)

/-- The signed value of the `n`-bit number `x` (R85 sext, read as an integer). -/
def sextI (x n : Nat) : Int := if x % 2 ^ n < 2 ^ (n - 1) then (x % 2 ^ n : Nat) else (x % 2 ^ n : Nat) - (2 ^ n : Nat)

/-- An integer modulo 2^64. -/
def word (x : Int) : Word := BitVec.ofInt 64 x

/-- A natural number as a word. -/
def wordN (x : Nat) : Word := BitVec.ofNat 64 x

end Sys2Proof.Machine
end

