-- ==== Sys2Proof/Machine/State.lean ====
section
/-! DEFINITION. The state of the Daxos 8160 as plain data: everything spec/ gives the machine, and the few
fields the model adds (agenda, serial number, the issue port, injected hardware errors, id counters). -/
namespace Sys2Proof.Machine

/-- Why a step can stop. -/
inductive Fault where
  /-- Raised by the shared issue operation when an instruction word is executed although no group stands at
  the issue port. No step of the machine does so: safe. -/
  | noGroup
  deriving DecidableEq, Repr

/-- Why an instruction has no meaning. -/
inductive Refusal where
  /-- Raised by an arm of `exec` that has no meaning yet: safe. -/
  | notModelled (mnemonic : String)
  deriving DecidableEq, Repr

/-! ## Threads -/

/-- Where a thread is held (R17, R20, R43, R207, R331). -/
inductive Held where
  | no
  /-- At its reconvergence point; the cycle from which the hold counts (R21). -/
  | rc (since : Int)
  /-- At a SIGN naming this convergence register (R207); the pending record of its issue. -/
  | sign (k pend : Nat)
  /-- At ROLE n (R43); the pending record of its issue. -/
  | role (n pend : Nat)
  /-- At BWAIT; the pending record (R331). -/
  | bwait (pend : Nat)
  deriving DecidableEq, Repr

/-- The trial state of a lane (R268, R278). -/
structure TrialLane where
  pend    : Nat          -- the pending record of its TRY
  ret     : Word
  segBase : Word
  segLen  : Word
  scratch : KMap Byte
  start   : Nat          -- the allowance a
  outReg  : Nat          -- vO
  flag    : Nat          -- the TRY's set flag
  vlim    : Nat
  window  : Word         -- trialwin as it was at TRY (R73)
  /-- The block of the TRY, to which the lane returns (R61, R268). -/
  homeHdr  : Word
  homeLen  : Nat
  homeKind : Nat
  homeRoff : Int
  deriving DecidableEq, Repr

/-- A thread: one lane of a group (R12, R61). -/
structure Thread where
  pc       : Word
  hdr      : Word
  len      : Nat
  kind     : Nat
  roff     : Int           -- reconvergence offset of the current block's header, in words (R19, R60)
  rc       : Option Word
  exited   : Bool
  held     : Held
  /-- The thread stands at a header that it has not entered: it has not issued yet, or the fetch suspended or
  faulted (R61, R236, R247). 0: by falling through; 1: by a transfer; 2: by a transfer to a kind-11 header. -/
  entering : Option Nat
  /-- The last word that it has executed (R270); where nothing tells, a free value (log 14). -/
  via      : Word
  allow    : Nat
  trialwin : Word
  trial    : Option TrialLane
  deriving DecidableEq, Repr

/-- A lane with no thread: the exited flag set (R14). -/
def Thread.absent : Thread :=
  { pc := 0, hdr := 0, len := 0, kind := 0, roff := 0, rc := none, exited := true, held := .no, entering := none,
    via := 0, allow := 0, trialwin := 0, trial := none }

/-! ## Groups -/

/-- The operand values an instruction read at issue, 32 lanes each (R257). -/
structure Ops where
  a : List Word
  b : List Word
  c : List Word
  deriving DecidableEq, Repr

/-- What an issued instruction still waits for (R51, R251, R257). -/
inductive PendKind where
  /-- A result of variable latency that lands when the instruction completes. -/
  | result
  /-- A weir wait: weir address, parity, result register, predicate (R413). -/
  | weir (w : Nat) (par : Bool) (d : Reg) (pe : PR)
  /-- A stamp wait; the addresses and the value stand in the operands (R410). -/
  | stampWait (u : Bool) (d : Reg)
  /-- BWAIT of this batch number (R331). -/
  | bwait (n : Nat)
  /-- A TRY whose lanes are in their candidates; `done` holds the lanes that returned (R268). -/
  | inTrial
  /-- Threads waiting at ROLE (R43). -/
  | role
  /-- Threads held at SIGN (R207). -/
  | sign
  /-- A matrix or palette command in its unit (R205). -/
  | unit
  /-- A partly performed instruction of a suspended workgroup (R130). -/
  | faulted
  /-- Issued and not yet performed: an older access of its threads must complete first (R138, R351, R363, R412). -/
  | behind
  deriving DecidableEq, Repr

/-- A register as a target of an in-flight write. -/
inductive RegKey where
  | v (n : Nat)
  | s (n : Nat)
  | p (n : Nat)
  /-- trialwin, whose new value governs from the fourth cycle on (R72). -/
  | win
  deriving DecidableEq, Repr

/-- A pending record (R257). -/
structure Pend where
  id    : Nat
  pc    : Word
  instr : Instr
  lanes : LaneMask       -- the active lanes of its issue set
  done  : LaneMask
  flag  : Option Nat
  kind  : PendKind
  due   : Nat            -- cycle of completion of a fixed latency, else 0 (R67)
  ops   : Ops
  recKey : Nat           -- the unresolved fault record, 0 for none
  /-- Registers, in these lanes, that younger instructions have written since: what it still writes there is
  discarded (R53). -/
  dead   : List (RegKey × LaneMask)
  entered : LaneMask     -- of a TRY: the lanes that have entered their candidates (R278)
  deriving DecidableEq, Repr

/-- When an in-flight write has landed (R52). -/
inductive Due where
  | at (cycle : Nat)
  /-- A result of fixed latency: past this cycle, or for the owning group when its dist fields sum to this. -/
  | fixed (cycle dists : Nat)
  | on (pend : Nat)
  deriving DecidableEq, Repr

/-- An in-flight write: what the register held before it (R52, R53). -/
structure Landing where
  key   : RegKey
  lanes : LaneMask
  old   : List Word      -- per lane for a vector register; one element otherwise
  due   : Due
  store : Bool           -- made by an access to the store space (R118)
  deriving DecidableEq, Repr

/-- A matrix command in flight (R213, R258). -/
structure MatCmd where
  instr    : Instr
  pend     : Nat
  lanes    : LaneMask
  tile     : Nat
  baseA    : Nat
  strideA  : Nat
  baseB    : Nat
  strideB  : Nat
  scalesA  : List Byte
  scalesB  : List Byte
  zfrag    : LaneMask
  declared : LaneMask
  rows     : Nat
  charge   : Nat
  passed   : Nat
  skipped  : Nat
  retried  : Nat
  recKey   : Nat
  inService : Bool       -- the unit has begun it, and serves it to its end (R216)
  deriving DecidableEq, Repr

/-- A palette command in flight (R224, R227). -/
structure PalCmd where
  pend  : Nat
  lanes : LaneMask
  base  : Nat
  count : Nat
  x     : Nat
  y     : Nat
  deriving DecidableEq, Repr

/-- The palette cursor (R226). -/
structure Cursor where
  next   : Nat
  idx    : U32
  basin  : U32
  part   : U32
  seen   : Word
  state  : Nat
  code   : Byte
  groups : Nat
  e8     : Byte
  last   : Nat
  deriving DecidableEq, Repr

/-- The cursor between rows with e8 = 127 (R236). -/
def Cursor.fresh : Cursor :=
  { next := 0, idx := 0, basin := 0, part := 0, seen := 0, state := 0, code := 0, groups := 0, e8 := 127, last := 0 }

/-- A group (R13, R256). -/
structure Group where
  wid     : Nat
  grpid   : Nat
  threads : List Thread
  q       : Nat
  /-- Key 32 n + l holds lane l of vn; an unlisted register reads zero. -/
  vregs   : KMap U32
  sregs   : KMap Word
  /-- Key n holds pn, one bit per lane. -/
  preds   : KMap LaneMask
  flags   : KMap Nat
  role    : Nat
  prio    : Nat
  valloc  : Nat
  regbase : Nat
  core    : Nat
  part    : Nat
  mest    : Nat
  rowprog : Nat
  mchk    : Word
  cursor  : Cursor
  pending : List Pend
  landing : List Landing
  mat     : Option MatCmd
  pal     : Option PalCmd
  lastIssue : Nat
  dists     : Nat        -- sum of the dist fields of the words it has issued (R52)
  issuedAt  : Nat      -- the device's count of issued instructions at its last issue
  /-- What its instructions have written to registers, and at which count of issues, while an older store may still come
  (R118). -/
  overlaid  : List (RegKey × LaneMask × Nat)
  lastSlotB : Bool
  lastSet   : LaneMask
  lastFlag  : Nat
  ageA    : Nat          -- cycle of the last issue in slot A, or of becoming resident (R242)
  ageB    : Nat
  /-- Cycle since which it has been eligible in slot A or B without issuing there (R242). -/
  eligA   : Option Nat
  eligB   : Option Nat
  nCopy   : Nat          -- BCOPY issues (R168)
  nSeal   : Nat          -- BSEAL issues (R169)
  lastSeal : Nat
  trialSram : Bool       -- holds 8 KiB of its partition's trial SRAM (R273)
  fetched : Option (Word × Word)   -- the word that it has fetched and that stalls: its address, the word (R66)
  deriving DecidableEq, Repr

/-- The MCHK status before any MMA (R221). -/
def mchkReset : Word := 0x80000000#64

/-- A group with no thread. -/
def Group.absent : Group :=
  { wid := 0, grpid := 0, threads := [], q := 0, vregs := [], sregs := [], preds := [], flags := [], role := 0,
    prio := 0, valloc := 0, regbase := 0, core := 0, part := 0, mest := 0, rowprog := 0, mchk := mchkReset,
    cursor := Cursor.fresh, pending := [], landing := [], mat := none, pal := none, lastIssue := 0,
    dists := 0, issuedAt := 0, overlaid := [], lastSlotB := true, lastSet := 0, lastFlag := 15, ageA := 0, ageB := 0, eligA := none, eligB := none, nCopy := 0, nSeal := 0, lastSeal := 0,
    trialSram := false, fetched := none }

/-! ## Workgroups -/

/-- State of a convergence register (R206). -/
inductive ConvState where
  | empty | collecting | complete
  deriving DecidableEq, Repr

/-- A convergence register (R206). -/
structure Conv where
  state    : ConvState
  owner    : Nat
  declared : LaneMask
  signed   : LaneMask
  zfrag    : LaneMask
  deriving DecidableEq, Repr

def Conv.fresh : Conv := { state := .empty, owner := 0, declared := 0, signed := 0, zfrag := 0 }

/-- One slice of a copy (R168, R320). -/
structure Slice where
  grpid : Nat
  src   : Nat
  dst   : Nat
  len   : Nat
  srcS  : Bool
  dstS  : Bool
  deriving DecidableEq, Repr

/-- A copy of a workgroup (R168, R259). -/
structure Copy where
  index   : Nat
  slices  : List Slice
  started : Bool
  /-- Bytes done in the first unfinished slice (R259). -/
  done    : Nat
  batch   : Nat          -- the batch that holds it, 0 while none
  deriving DecidableEq, Repr

/-- The k-th seal, as far as groups have recorded it (R330). -/
structure Seal where
  k       : Nat
  before  : Nat          -- the copies before this one were supplied before it
  entries : List (Nat × Nat × Nat)   -- grpid, batch number, stamp address
  deriving DecidableEq, Repr

/-- A sealed batch not yet stamped (R169, R170). -/
structure Batch where
  n     : Nat
  stamp : Nat
  err   : Nat
  heldRec : Nat          -- the fault record its held stamp waits on, 0 for none
  dropped : Bool
  deriving DecidableEq, Repr

/-- Residence of a workgroup (R32, R237, R246). -/
inductive WgState where
  | resident
  /-- Suspended with a fault unresolved; `stays` when the save pool was exhausted (R246). -/
  | suspended (stays : Bool)
  /-- Pre-empted, or its fault resolved: awaiting placement. -/
  | waiting
  /-- Resident when HALT stopped its context; off its cores until RESUME (R253, R256). -/
  | halted
  deriving DecidableEq, Repr

/-- A workgroup (R256). -/
structure Wg where
  ctx     : Nat
  rid     : Nat
  wgid    : Nat
  state   : WgState
  home    : Nat          -- core number of the home core
  spread  : Bool
  gids    : List Nat     -- its groups; a retired one keeps its window until the workgroup retires (R15)
  ngroups : Nat
  scratch : KMap Byte    -- written bytes; the others are free values (R194)
  place   : Nat          -- argument of the free values of its scratchpad
  conv    : List Conv
  tiles   : KMap (KMap U32)
  copies  : List Copy
  seals   : List Seal
  batches : List Batch
  closed  : Nat          -- highest batch number closed
  openErr : Nat          -- first error of copies that no batch holds yet (R169, R170)
  retiredGroups : List Nat   -- grpids, for R168 and R169
  since   : Nat          -- cycle from which core-time has not been debited
  carry   : Nat          -- cycles of an earlier residence not yet debited
  order   : Nat          -- placement number; departure number while waiting
  recs    : List Nat     -- unresolved fault records
  waitSince : Nat        -- while it waits for placement: since this cycle (R239)
  passed  : Bool         -- and a later candidate has been placed since (R239)
  saved   : Option Nat   -- save area (R246)
  deriving DecidableEq, Repr

/-! ## Regions -/

/-- A role of an RCB (R42, R235). -/
structure Role where
  valloc : Nat
  prio   : Nat
  entry  : Word
  deriving DecidableEq, Repr

/-- An RCB as accepted, inherited fields filled in (R235). -/
structure Rcb where
  entry    : Word
  wgcount  : Nat
  wgsize   : Nat
  ebudget  : Nat
  tbudget  : Nat
  prio     : Nat
  domain   : Nat
  valloc   : Nat
  tiles    : Nat
  spbytes  : Nat
  fuse     : Nat
  nbv      : Nat
  roles    : List Role   -- roles 1 to 3
  handler  : Word
  afterA   : Word
  afterV   : Word
  doneA    : Word
  doneV    : Word
  dirtylog : Word
  args     : Word
  deriving DecidableEq, Repr

/-- State of a region record (R255). -/
inductive RegionState where
  | afterWait | eligible | placed | awaiting
  deriving DecidableEq, Repr

/-- A write of the device into an RCB, or a completion store, that could not be performed (R236). -/
structure HeldWrite where
  va     : Nat
  bytes  : List Byte
  recKey : Nat
  done   : Bool          -- a completion store
  deriving DecidableEq, Repr

/-- An accepted region (R255). -/
structure Region where
  ctx     : Nat
  regno   : Nat
  parent  : Option Nat   -- region id
  level   : Nat
  rcb     : Rcb
  /-- Base, pages and bitmap of the dirty log of a root (R131). -/
  dlog    : Option (Nat × Nat × Nat)
  rcbaddr : Word
  ebal    : Int
  tbal    : Int
  nextwg  : Nat
  retired : Nat
  openKids : Nat
  state   : RegionState
  abandoned : Bool
  order   : Nat
  object  : Nat          -- handle of the code object that holds its kernel, 0 for none
  held    : List HeldWrite
  /-- All work done; only a held completion store keeps the region open. -/
  finished : Bool
  /-- Completed: no longer open; the record stays while a device write into its RCB is held (R236). -/
  closed  : Bool
  recKey  : Nat          -- record of an unreadable starts-after location
  waitSince : Nat        -- cycle from which its first candidate waits (R239)
  passed  : Bool         -- a later candidate has been placed since (R239)
  deriving DecidableEq, Repr

/-! ## Fault records and contexts -/

/-- What a fault record is about, for its resolution (R247). -/
inductive Subject where
  /-- A word or transfer fault of these lanes: they stand at the word. -/
  | word (gid : Nat) (lanes : LaneMask)
  /-- A fault at the entry of a header of these lanes. -/
  | entry (gid : Nat) (lanes : LaneMask)
  /-- A pending record of a group. -/
  | instr (gid pend : Nat)
  /-- The pending records of a group that name this fault record: the signers of an abandoned round (R394), or
  threads that wait at ROLE with different roles (R386). -/
  | pends (gid : Nat)
  /-- The matrix command in flight of a group. -/
  | matrix (gid : Nat)
  /-- All its active lanes are done: BRK, TRAP and PMV (R328, R227). -/
  | done (gid : Nat)
  | engine (pid : Nat)
  | copy (wid : Nat)
  | stampOf (wid n : Nat)
  | after (rid : Nat)
  | rcbWrite (rid : Nat)
  deriving DecidableEq, Repr

/-- A fault record (R245) and where it stands. -/
structure FaultRec where
  domain : Nat
  code   : Nat
  kind   : Nat
  rid    : Nat
  regno  : Nat
  wid    : Nat
  wgid   : Nat
  grpid  : Nat
  unit   : Nat
  pc     : Word
  addr   : Word
  lanes  : LaneMask
  detail : Nat
  word   : Word
  subject : Subject
  seq    : Nat           -- 0 until posted
  va     : Nat           -- address of its slot once posted
  host   : Bool          -- served by the host (R247)
  deriving DecidableEq, Repr

/-- A configured fault domain (R244). -/
structure Domain where
  desc : Nat
  next : Nat             -- sequence of the next record
  deriving DecidableEq, Repr

/-- A context (R304). -/
structure Ctx where
  root    : Nat
  poolBase : Nat
  poolBytes : Nat
  poolUsed : List (Nat × Nat)   -- offset and bytes of save areas in use
  halted  : Bool
  domains : KMap Domain
  /-- Unresolved fault records by key; those with seq 0 are held (R244). -/
  recs    : KMap FaultRec
  hold    : List Nat     -- keys of held records in order
  nextRec : Nat
  measure : List Byte    -- 48 bytes (R290)
  log     : List (List Byte)
  reserved : Option (Nat × Nat × Nat)   -- cluster, region, wgid (R239)
  deriving DecidableEq, Repr

/-! ## Code objects -/

/-- A mapped segment of a code object (R284). -/
structure Seg where
  kind    : Nat
  va      : Nat
  memsize : Nat
  filesize : Nat         -- the length of a constant block (R115)
  deriving DecidableEq, Repr

/-- A segment as the loader handles it; `bytes` are its filesize bytes (R284). -/
structure LSeg where
  idx     : Nat
  kind    : Nat
  rva     : Nat
  memsize : Nat
  bytes   : List Byte
  deriving DecidableEq, Repr

/-- What the checks and the translation of a load leave to be mapped (R289, R290). -/
structure LoadPlan where
  segs   : List LSeg
  recs   : List (List Byte)
  events : List (List Byte)
  hash   : List Byte
  flags  : Nat
  /-- The kernel records, with their entries in the code that runs (R285, R291). -/
  kernels : List (List Byte)
  deriving DecidableEq, Repr

/-- How far a load has come (R289). -/
inductive LoadStage where
  /-- Steps 1 to 4 are done: it is translated next, unless a forced unload has ended it (R294). -/
  | translate (ended : Bool)
  /-- It is mapped next. -/
  | map
  /-- It stands mapped, not executable: it is attested and made executable next. -/
  | finish
  deriving DecidableEq, Repr

/-- A load that the loader engine has accepted and not ended (R289, R294). -/
structure Loading where
  handle : Nat
  ctx    : Nat
  base   : Nat
  host   : Bool          -- it answers at the command port
  pod    : Bool          -- its native image goes to the peers (R292)
  image  : List Byte     -- the container
  stage  : LoadStage
  plan   : LoadPlan
  deriving DecidableEq, Repr

/-- A loaded code object (R288, R263). -/
structure CodeObj where
  ctx     : Nat
  hash    : List Byte
  base    : Nat
  segs    : List Seg
  kernels : List (List Byte)   -- its kernel records (R285, R291)
  revoked : Bool
  /-- The 64 KiB pages of memory that it filled when it was revoked (R263). -/
  pages   : List Nat
  flags   : Nat
  deriving DecidableEq, Repr

/-! ## Rill programs -/

/-- R174. -/
inductive EngState where
  | idle | running | waiting | page | stopped | done | error
  deriving DecidableEq, Repr

/-- A rill program: the context of R173 and where its current command stands. -/
structure Prog where
  wid    : Nat
  ctx    : Nat
  rid    : Nat
  ownerWg : Nat
  list   : Word
  index  : Nat
  state  : EngState
  err    : Nat
  stack  : Nat
  engine : Option Nat    -- engine in its stack; none while queued or ended
  engineNo : Nat         -- the engine number last held
  done   : Nat
  loop   : List Nat
  seqf   : Nat
  seqd   : Nat
  prior  : EngState
  hold   : Bool
  order  : Nat           -- place in the order of queuing
  /-- In PAGE after a stop: the page is walked again before anything else (R191). -/
  rewalk : Bool
  /-- The first reported condition of the slot being filled or drained (R179). -/
  slotErr : Option (Nat × Nat)
  /-- Code of an abandoned command whose owed slots remain, and their detail; none for the first element or block
  not delivered (R190, R247). A code that stops an engine: SKIP has resolved its stop. -/
  owed   : Option (Nat × Option Nat)
  blk    : Nat           -- DECODE: position of the current block
  blkAddr : Nat          -- DECODE: its address
  blkDone : Nat          -- DECODE: its bytes delivered
  /-- The current command, once it has been fetched: an abandoned one owes its slots by it (R190). -/
  cmd    : Option Instr
  recKey : Nat           -- the unresolved fault record of its current stop, 0 for none
  deriving DecidableEq, Repr

/-! ## Cores and the device -/

/-- A TLB entry (R128, R129). -/
structure TlbEnt where
  ctx  : Nat
  va   : Nat             -- first address of the page
  size : Nat
  pte  : Word
  loc  : Nat             -- physical address of the entry in memory
  deriving DecidableEq, Repr

/-- The switch of a core (R249). -/
inductive Switch where
  | none
  /-- Requested for a candidate, with the home core it goes to; region 0 to empty the core only (R309). -/
  | requested (rid wgid home since : Nat)
  | spilling (out : List Nat)
  deriving DecidableEq, Repr

/-- A copy held for instruction fetch (R356). -/
structure ICopy where
  ctx  : Nat
  va   : Nat
  loc  : Nat
  word : Word
  deriving DecidableEq, Repr

/-- A core. -/
structure Core where
  tlb       : List TlbEnt
  icache    : List ICopy
  switch    : Switch
  matFenced : Bool       -- R220
  laneFenced : List (Nat × Nat)   -- partition, lane; lane 32 is the uniform pipe (R230)
  partFailed : List Nat
  failed    : Bool
  drained   : Bool
  deriving DecidableEq, Repr

def Core.fresh : Core :=
  { tlb := [], icache := [], switch := .none, matFenced := false, laneFenced := [], partFailed := [],
    failed := false, drained := false }

/-- The management registers (R303). -/
structure Mgmt where
  ready  : Bool
  ctx    : Word
  lstat  : Word
  cstat  : Word
  arg0   : Word
  arg1   : Word
  arg2   : Word
  arg3   : Word
  result : Word
  irq    : Word
  health : Word
  launch : Word          -- last write of the write-only launch register
  cmd    : Word          -- last write of the write-only cmd register
  deriving DecidableEq, Repr

/-- A range of the peer table (R305). -/
structure PeerRange where
  src  : Nat
  base : Nat
  size : Nat
  r    : Bool
  w    : Bool
  deriving DecidableEq, Repr

/-- The receive side of a peer link (R305, R307). -/
structure PeerLink where
  up     : Bool
  rxSeq  : Nat           -- next sequence number expected
  credits : Nat          -- credits that the flits taken have granted
  resend : Nat           -- resends requested
  deriving DecidableEq, Repr

/-- Firmware, power, service and links (R305 to R311). -/
structure Service where
  fwSlot   : Nat
  clock    : Nat         -- quarter GHz
  paused   : List Nat    -- dies whose issue is paused
  pausedAt : KMap Nat    -- and the cycle from which each has been (R312)
  links    : KMap PeerLink
  peers    : List PeerRange
  routes   : Bool        -- some route to the peers remains
  groups   : KMap (List Nat)
  outbox   : List (List Byte)   -- native images multicast to the peers (R292)
  uciePorts : List Nat   -- modules in service
  drainUnit : Option (Nat × Nat × Bool)   -- DRAIN in progress: kind, number, re-admit
  drainedClusters : List Nat
  drainedLinks : List Nat
  drainedUcie : List Nat
  remap    : KMap Nat    -- retired 4 KiB granule to spare granule, by location (R309)
  spares   : KMap Nat    -- spare granules used per stack
  log      : List (List Byte)   -- device attestation log (R311)
  deriving DecidableEq, Repr

/-- Hardware errors that the world injects; reset: none (R218, R230) (DESIGN CHOICE, log 40). -/
structure Inject where
  /-- Lanes that diverge from their shadow at the next checked result: first attempt, second attempt. -/
  shadow1 : LaneMask
  shadow2 : LaneMask
  /-- Failing checks of the next MMA chunk: 0 none, 1 the first attempt, 2 both. -/
  chunk   : Nat
  deriving DecidableEq, Repr

/-- What moves next: a group issues after some further cycles, or an event comes about. -/
inductive Turn where
  | issue (gid stall : Nat)
  /-- A rill program performs its current command, or a chunk of it. -/
  | engine (pid : Nat)
  /-- An issued instruction that stood behind older ones is performed (R351, R363, R412). -/
  | perform (gid pend : Nat)
  /-- The lanes that wait for a convergence register of a workgroup to become EMPTY sign (R207). -/
  | signers (wid k : Nat)
  /-- A workgroup all of whose groups, copies and batches have ended retires (R41, R335). -/
  | retire (wid : Nat)
  /-- A slot of a partition issues (R25, R27). -/
  | slot (core part : Nat) (b : Bool)
  /-- The loader engine takes the next step of its first load (R289). -/
  | loader
  | run (i : Instr)
  deriving DecidableEq, Repr

/-- The machine. -/
structure State where
  cycle   : Nat
  /-- Physical memory by location (see `locOf`); an unlisted byte reads as `memDefault`. -/
  mem     : KMap Byte
  /-- Locations of bytes that hold an uncorrectable error: those of a line, but for what was written since (R128, R400). -/
  poison  : List Nat
  cores   : KMap Core
  fused   : List Nat     -- clusters that run fused (R123)
  groups  : KMap Group
  wgs     : KMap Wg
  regions : KMap Region
  ctxs    : KMap Ctx
  objects : KMap CodeObj
  loads   : List Loading   -- in the order of acceptance
  progs   : KMap Prog
  mgmt    : Mgmt
  svc     : Service
  inject  : Inject
  first   : List (Nat × Bool)   -- groups chosen first by R242, with their slot
  -- the model's own fields
  serial  : Nat
  agenda  : List Turn
  queue   : List Turn    -- what may move, in the order in which it came to
  cur     : Nat          -- the group at the issue port
  iset    : LaneMask     -- its issue set
  ilane   : Nat          -- the lane that chose it
  eng     : Nat          -- the program whose command runs
  nextId  : Nat          -- next pending, group, workgroup, region, program number
  frames  : Nat          -- 64 KiB frames the loader has taken from the top of HBM
  deriving DecidableEq, Repr

/-- What a byte of memory that nothing has written reads as (DESIGN CHOICE, log 2). -/
def memDefault : Byte := 0

/-- The management registers at reset (R303, R311; DESIGN CHOICE, log 3). -/
def Mgmt.reset : Mgmt :=
  { ready := false, ctx := 0, lstat := 0, cstat := 0, arg0 := 0, arg1 := 0, arg2 := 0, arg3 := 0, result := 0,
    irq := 0, health := 0, launch := 0, cmd := 0 }

def Service.reset : Service :=
  { fwSlot := 0, clock := 16, paused := [], pausedAt := [], links := [], peers := [], routes := true, groups := [], outbox := [],
    uciePorts := [0, 1, 2, 3], drainUnit := none, drainedClusters := [], drainedLinks := [], drainedUcie := [],
    remap := [], spares := [], log := [] }

def Inject.none : Inject := { shadow1 := 0, shadow2 := 0, chunk := 0 }

/-- The device right after reset: no context, no region, nothing resident. -/
def State.reset : State :=
  { cycle := 0, mem := [], poison := [], cores := [], fused := [], groups := [], wgs := [], regions := [],
    ctxs := [], objects := [], loads := [], progs := [], mgmt := Mgmt.reset, svc := Service.reset, inject := Inject.none,
    first := [], serial := 0, agenda := [], queue := [], cur := 0, iset := 0, ilane := 0, eng := 0, nextId := 1, frames := 0 }

end Sys2Proof.Machine
end

