-- ==== Sys2Proof/Machine/Ops.lean ====
section
/-! DEFINITION. The named operations over the parts of the state, and the taking of an exception: a fault record
and a suspended workgroup (13 R243 to R247), with the return from it beside it. -/
namespace Sys2Proof.Machine

/-! ## Parts of the state -/

def Wg.absent : Wg :=
  { ctx := 0, rid := 0, wgid := 0, state := .waiting, home := 0, spread := false, gids := [], ngroups := 0,
    scratch := [], place := 0, conv := [], tiles := [], copies := [], seals := [], batches := [], closed := 0, openErr := 0,
    retiredGroups := [], since := 0, carry := 0, order := 0, recs := [], waitSince := 0, passed := false, saved := none }

def Rcb.absent : Rcb :=
  { entry := 0, wgcount := 0, wgsize := 0, ebudget := 0, tbudget := 0, prio := 0, domain := 0, valloc := 8,
    tiles := 0, spbytes := 256, fuse := 0, nbv := 2, roles := [], handler := 0, afterA := 0, afterV := 0,
    doneA := 0, doneV := 0, dirtylog := 0, args := 0 }

def Region.absent : Region :=
  { ctx := 0, regno := 0, parent := none, level := 1, rcb := Rcb.absent, dlog := none, rcbaddr := 0, ebal := 0,
    tbal := 0, nextwg := 0, retired := 0, openKids := 0, state := .eligible, abandoned := false, order := 0,
    object := 0, held := [], finished := false, closed := false, recKey := 0,
    waitSince := 0, passed := false }

def Ctx.absent : Ctx :=
  { root := 0, poolBase := 0, poolBytes := 0, poolUsed := [], halted := false, domains := [], recs := [],
    hold := [], nextRec := 1, measure := [], log := [], reserved := none }

def Prog.absent : Prog :=
  { wid := 0, ctx := 0, rid := 0, ownerWg := 0, list := 0, index := 0, state := .idle, err := 0, stack := 0,
    engine := none, engineNo := 0, done := 0, loop := [0, 0, 0, 0], seqf := 0, seqd := 0, prior := .idle,
    hold := false, order := 0, rewalk := false, slotErr := none, owed := none, blk := 0, blkAddr := 0, blkDone := 0, cmd := none, recKey := 0 }

/-- The group with this id. -/
def State.grp (s : State) (gid : Nat) : Group := getD s.groups Group.absent gid
/-- The group at the issue port. -/
def State.g (s : State) : Group := s.grp s.cur
/-- Changes one group. -/
def State.modGrp (s : State) (gid : Nat) (f : Group → Group) : State := { s with groups := modK s.groups gid f }
/-- Changes the group at the issue port. -/
def State.modG (s : State) (f : Group → Group) : State := s.modGrp s.cur f

def State.wg (s : State) (wid : Nat) : Wg := getD s.wgs Wg.absent wid
def State.modWg (s : State) (wid : Nat) (f : Wg → Wg) : State := { s with wgs := modK s.wgs wid f }

def State.region (s : State) (rid : Nat) : Region := getD s.regions Region.absent rid
def State.modRegion (s : State) (rid : Nat) (f : Region → Region) : State :=
  { s with regions := modK s.regions rid f }

def State.ctx (s : State) (cid : Nat) : Ctx := getD s.ctxs Ctx.absent cid
def State.modCtx (s : State) (cid : Nat) (f : Ctx → Ctx) : State := { s with ctxs := modK s.ctxs cid f }

def State.prog (s : State) (pid : Nat) : Prog := getD s.progs Prog.absent pid
def State.modProg (s : State) (pid : Nat) (f : Prog → Prog) : State := { s with progs := modK s.progs pid f }

/-- A core; one that nothing has touched stands as after reset. -/
def State.core (s : State) (n : Nat) : Core := getD s.cores Core.fresh n
def State.modCore (s : State) (n : Nat) (f : Core → Core) : State :=
  { s with cores := putD s.cores Core.fresh n (f (s.core n)) }

/-- The workgroup of a group. -/
def State.wgOf (s : State) (gid : Nat) : Wg := s.wg (s.grp gid).wid
/-- The region of a group. -/
def State.regOf (s : State) (gid : Nat) : Region := s.region (s.wgOf gid).rid
/-- The context of a group. -/
def State.cidOf (s : State) (gid : Nat) : Nat := (s.wgOf gid).ctx

/-- The thread in lane `l`. -/
def Group.th (g : Group) (l : Nat) : Thread := nth g.threads Thread.absent l
/-- Changes the threads of these lanes. -/
def Group.modTh (g : Group) (m : LaneMask) (f : Thread → Thread) : Group :=
  { g with threads := g.threads.mapIdx (fun l t => if bitOf m l then f t else t) }
/-- Changes the thread of one lane. -/
def Group.modLane (g : Group) (l : Nat) (f : Thread → Thread) : Group :=
  { g with threads := g.threads.mapIdx (fun k t => if k = l then f t else t) }

/-- The one-lane mask. -/
def laneBit (l : Nat) : LaneMask := 1#32 <<< l

/-- The lowest lane of a mask. -/
def lowLane (m : LaneMask) : Nat := (lanesOf m).head?.getD 0

/-- The lanes of a mask that satisfy `p`. -/
def filterLanes (m : LaneMask) (p : Nat → Bool) : LaneMask := maskOf ((lanesOf m).filter p)

/-- The lanes that hold a thread that has not exited. -/
def Group.live (g : Group) : LaneMask := maskOf (laneList.filter (fun l => !(g.th l).exited))

/-- The thread in lane `l` runs a candidate (R268). -/
def Group.inTrial (g : Group) (l : Nat) : Bool := (g.th l).trial.isSome

/-- A pending record of a group. -/
def Group.pend? (g : Group) (id : Nat) : Option Pend := g.pending.find? (fun p => p.id == id)
/-- Changes one pending record. -/
def Group.modPend (g : Group) (id : Nat) (f : Pend → Pend) : Group :=
  { g with pending := g.pending.map (fun p => if p.id == id then f p else p) }
/-- Drops one pending record. -/
def Group.dropPend (g : Group) (id : Nat) : Group :=
  { g with pending := g.pending.filter (fun p => !(p.id == id)) }

/-- A fresh identifier. -/
def State.fresh (s : State) : Nat × State := (s.nextId, { s with nextId := s.nextId + 1 })

/-! ## Fault codes (R243) -/

namespace Code
abbrev illegal : Nat := 0x01
abbrev regRange : Nat := 0x02
abbrev badTarget : Nat := 0x03
abbrev overrun : Nat := 0x04
abbrev badHeader : Nat := 0x05
abbrev execDenied : Nat := 0x06
abbrev privileged : Nat := 0x07
abbrev divZero : Nat := 0x08
abbrev trialIllegal : Nat := 0x09
abbrev roleUndeclared : Nat := 0x0A
abbrev breakpoint : Nat := 0x0B
abbrev trap : Nat := 0x0C
abbrev notPresent : Nat := 0x10
abbrev misaligned : Nat := 0x11
abbrev addrRange : Nat := 0x12
abbrev storeRange : Nat := 0x13
abbrev constRange : Nat := 0x14
abbrev paUnmapped : Nat := 0x15
abbrev badPte : Nat := 0x16
abbrev accessDenied : Nat := 0x17
abbrev memUncorrectable : Nat := 0x18
abbrev weirOverflow : Nat := 0x20
abbrev weirMismatch : Nat := 0x21
abbrev badWeir : Nat := 0x22
abbrev badRing : Nat := 0x23
abbrev convLost : Nat := 0x28
abbrev convMismatch : Nat := 0x29
abbrev convUnsigned : Nat := 0x2A
abbrev mmaDesc : Nat := 0x2B
abbrev paletteFormat : Nat := 0x2C
abbrev sdcSuspect : Nat := 0x30
abbrev codeRevoked : Nat := 0x31
abbrev engineStop : Nat := 0x38
abbrev enginePage : Nat := 0x39
abbrev afterUnreadable : Nat := 0x3A
end Code

/-! ## Taking an exception (R245, R246) -/

/-- What a fault record says beyond where it arose. -/
structure FaultInfo where
  code   : Nat
  pc     : Word
  addr   : Word
  lanes  : LaneMask
  detail : Nat
  word   : Word
  deriving DecidableEq, Repr

/-- The key that the next record of a context gets. -/
def State.nextKey (s : State) (cid : Nat) : Nat := (s.ctx cid).nextRec

/-- Appends a record to the held records of its context, in order (R244). -/
def holdRecord (s : State) (cid : Nat) (r : FaultRec) : State :=
  s.modCtx cid (fun c =>
    { c with recs := insK c.recs c.nextRec r, hold := c.hold ++ [c.nextRec], nextRec := c.nextRec + 1 })

/-- Moves the start of every reconvergence hold of a group by some cycles. -/
def Group.shiftHolds (g : Group) (d : Int) : Group :=
  { g with threads := g.threads.map (fun t =>
      match t.held with
      | .rc c => { t with held := .rc (c + d) }
      | _ => t) }

/-- Moves the holds of every group of a workgroup. -/
def State.shiftHolds (s : State) (gids : List Nat) (d : Int) : State :=
  gids.foldl (fun s gid => s.modGrp gid (fun g => g.shiftHolds d)) s

/-- The hold counts of a workgroup stop: their starts become relative to the present cycle (R21, R22). -/
def State.freezeHolds (s : State) (wid : Nat) : State := s.shiftHolds (s.wg wid).gids (-(s.cycle : Int))
/-- The hold counts of a workgroup run again. -/
def State.thawHolds (s : State) (wid : Nat) : State := s.shiftHolds (s.wg wid).gids s.cycle

/-- Stops a workgroup with one more unresolved record. It keeps its core until it is saved (R246). -/
def suspendWg (s : State) (wid key : Nat) : State :=
  let s := if (s.wg wid).state = .resident then s.freezeHolds wid else s
  s.modWg wid (fun w => { w with
    state := (match w.state with
      | .resident => .suspended true
      | .suspended b => .suspended b
      | .waiting => .suspended false
      | .halted => .suspended false),
    recs := w.recs ++ [key] })

/-- A kind-0 record of a group (R245). -/
def groupRecord (s : State) (gid : Nat) (i : FaultInfo) (sub : Subject) : FaultRec :=
  let g := s.grp gid
  let w := s.wg g.wid
  { domain := (s.region w.rid).rcb.domain, code := i.code, kind := 0, rid := w.rid,
    regno := (s.region w.rid).regno, wid := g.wid, wgid := w.wgid, grpid := g.grpid, unit := g.core,
    pc := i.pc, addr := i.addr, lanes := i.lanes, detail := i.detail, word := i.word, subject := sub,
    seq := 0, va := 0, host := false }

/-- TAKING AN EXCEPTION: a fault of an instruction posts a record for its region's fault domain and suspends
its workgroup (R246). -/
def State.takeFault (s : State) (gid : Nat) (i : FaultInfo) (sub : Subject) : State :=
  let cid := s.cidOf gid
  let key := s.nextKey cid
  suspendWg (holdRecord s cid (groupRecord s gid i sub)) (s.grp gid).wid key

/-- A record of kind 1 to 3 (R245): nothing is suspended. -/
def State.raiseRecord (s : State) (cid : Nat) (r : FaultRec) : State := holdRecord s cid r

/-- Forgets a record (R247). -/
def State.dropRecord (s : State) (cid key : Nat) : State :=
  s.modCtx cid (fun c => { c with recs := delK c.recs key, hold := c.hold.filter (fun k => !(k == key)) })

/-- RETURN FROM AN EXCEPTION: one record of a workgroup is resolved; with the last one it re-enters the
distributor, or issues again if it never left its core (R246, R247). -/
def State.resolveFault (s : State) (wid key : Nat) : State :=
  let w := s.wg wid
  let s := s.dropRecord w.ctx key
  let rest := w.recs.filter (fun k => !(k == key))
  let s := s.modWg wid (fun w =>
    { w with recs := rest, waitSince := s.cycle, passed := false,
             state := (match w.state, rest with
               | .suspended true, [] => .resident
               | .suspended false, [] => .waiting
               | st, _ => st) })
  if w.state = .suspended true ∧ rest = [] then s.thawHolds wid else s

/-- A workgroup holds its cores: resident, or suspended and not yet saved (R32, R246). -/
def Wg.onCore (w : Wg) : Bool :=
  match w.state with
  | .resident => true
  | .suspended stays => stays
  | .waiting => false
  | .halted => false

/-- A workgroup issues: it is resident and not suspended. -/
def Wg.issues (w : Wg) : Bool := w.state == .resident

/-- The cycle by which a hold that begins now is counted: 0 while the counts of the workgroup stand still (R21). -/
def State.holdClock (s : State) (gid : Nat) : Nat := if (s.wgOf gid).issues then s.cycle else 0

end Sys2Proof.Machine
end

