-- ==== Sys2Proof/Machine/Flags.lean ====
section
/-! DEFINITION. Completion flags and in-flight results (02 R50 to R54): what a register reads before a result has
landed, the charge of a set flag at issue and its discharge at completion. -/
namespace Sys2Proof.Machine

/-! ## Registers, raw -/

/-- Lane `l` of vn as the last issued write leaves it. -/
def Group.rawV (g : Group) (n l : Nat) : U32 := getD g.vregs 0 (32 * n + l)
/-- sn as the last issued write leaves it. -/
def Group.rawS (g : Group) (n : Nat) : Word := getD g.sregs 0 n
/-- pn as the last issued write leaves it; p0 reads 1 in every lane (R47). -/
def Group.rawP (g : Group) (n : Nat) : LaneMask := if n = 0 then BitVec.allOnes 32 else getD g.preds 0 n

def Group.putV (g : Group) (n l : Nat) (x : U32) : Group := { g with vregs := putD g.vregs 0 (32 * n + l) x }
def Group.putS (g : Group) (n : Nat) (x : Word) : Group := { g with sregs := putD g.sregs 0 n x }
/-- A write to p0 has no effect (R57). -/
def Group.putP (g : Group) (n : Nat) (m : LaneMask) : Group :=
  if n = 0 then g else { g with preds := putD g.preds 0 n m }

/-- The value of a register as lane `l` sees it, as a word. -/
def Group.rawKey (g : Group) (k : RegKey) (l : Nat) : Word :=
  match k with
  | .v n => (g.rawV n l).setWidth 64
  | .s n => g.rawS n
  | .p n => if bitOf (g.rawP n) l then 1 else 0
  | .win => (g.th l).trialwin

/-! ## In-flight writes -/

/-- An in-flight write has landed for the owning group: `dists` is the sum of the dist fields it has issued. At the very
cycle in which a fixed latency ends only that sum makes the result readable (R52, R202; DEDUCED, log 51). -/
def Landing.landed (x : Landing) (cycle dists : Nat) (pending : List Pend) : Bool :=
  match x.due with
  | .at c => decide (c ≤ cycle)
  | .fixed c n => decide (c < cycle) || decide (n ≤ dists)
  | .on p => !(pending.any (fun q => q.id == p))

/-- An in-flight write has landed for everyone else. -/
def Landing.landedOut (x : Landing) (cycle : Nat) (pending : List Pend) : Bool :=
  match x.due with
  | .at c => decide (c ≤ cycle)
  | .fixed c _ => decide (c ≤ cycle)
  | .on p => !(pending.any (fun q => q.id == p))

/-- What the register held in lane `l` before the write. -/
def Landing.before (x : Landing) (l : Nat) : Word :=
  match x.key with
  | .s _ => nth x.old 0 0
  | _ => nth x.old 0 l

/-- The write touches this register in this lane. -/
def Landing.hits (x : Landing) (k : RegKey) (l : Nat) : Bool :=
  x.key == k && (match k with | .s _ => true | _ => bitOf x.lanes l)

/-- Number of a register, for the arguments of free values. -/
def RegKey.code : RegKey → Nat
  | .v n => n
  | .s n => 256 + n
  | .p n => 512 + n
  | .win => 1024

/-- The value read through the in-flight writes, latest first: the newest landed value, or on the way there the
value that `pick` takes for a write that has not landed (R52). -/
def readThrough (landed : Landing → Bool) (pick : Nat → Bool) (k : RegKey) (l : Nat) :
    List Landing → Nat → Word → Word
  | [], _, cur => cur
  | x :: xs, age, cur =>
    if x.hits k l then
      if landed x then cur
      else if pick age then cur
      else readThrough landed pick k l xs (age + 1) (x.before l)
    else readThrough landed pick k l xs age cur

/-- A read by the owning group at the issue cycle: the old value or the new one (R52, DESIGN CHOICE, log 5). -/
def State.ownRead (s : State) (gid : Nat) (k : RegKey) (l : Nat) : Word :=
  let g := s.grp gid
  readThrough (fun x => x.landed s.cycle g.dists g.pending) (fun age => Config.earlyRead s.serial k.code l age) k l
    g.landing 0 (g.rawKey k l)

/-- A read of a register of the group's own window by an access to the store space: accesses to the store keep their
order towards one another (R121, R319), and a write by an instruction may still be in flight (R118). -/
def State.storeRead (s : State) (gid : Nat) (k : RegKey) (l : Nat) : Word :=
  let g := s.grp gid
  readThrough (fun x => x.store || x.landed s.cycle g.dists g.pending)
    (fun age => Config.earlyRead s.serial k.code l age) k l g.landing 0 (g.rawKey k l)

/-- A read by anyone else: in-flight writes are never observed (R54). -/
def State.otherRead (s : State) (gid : Nat) (k : RegKey) (l : Nat) : Word :=
  let g := s.grp gid
  readThrough (fun x => x.landedOut s.cycle g.pending) (fun _ => false) k l g.landing 0 (g.rawKey k l)

/-- Drops what has landed, and what a landed younger write has overtaken (R53). -/
def pruneLanded (landed : Landing → Bool) : List Landing → List (RegKey × LaneMask) → List Landing
  | [], _ => []
  | x :: xs, dead =>
    let gone := dead.foldl (fun m d => if d.1 == x.key then m ||| d.2 else m) (0 : LaneMask)
    let left := x.lanes &&& ~~~gone
    if landed x || left == 0 then pruneLanded landed xs ((x.key, x.lanes) :: dead)
    else { x with lanes := left } :: pruneLanded landed xs dead

/-- The instruction may still write registers after younger ones have issued (R53). -/
def PendKind.late : PendKind → Bool
  | .weir _ _ _ _ | .stampWait _ _ | .unit | .faulted | .behind => true
  | _ => false

/-- Some instruction of the workgroup issued before number `n` may still store to its windows. -/
def State.olderLate (s : State) (wid n : Nat) : Bool :=
  (s.wg wid).gids.any (fun gid => (s.grp gid).pending.any (fun p => p.kind.late && decide (p.id < n)))

/-- Keeps only in-flight writes that a read could still see through, and the register writes that an older store may still
come to. -/
def State.prune (s : State) (gid : Nat) : State :=
  s.modGrp gid (fun g => { g with landing := pruneLanded (fun x => x.landed s.cycle g.dists g.pending) g.landing [],
                                  overlaid := g.overlaid.filter (fun x => s.olderLate g.wid x.2.2) })

/-! ## Writes of older instructions (R53) -/

/-- The instruction that makes a write. -/
def Due.id? : Due → Option Nat
  | .on p => some p
  | _ => none

/-- The lanes in which a younger instruction has written the register. -/
def Pend.deadIn (p : Pend) (k : RegKey) : LaneMask :=
  p.dead.foldl (fun m d => if d.1 == k then m ||| d.2 else m) 0

/-- The record of an issued instruction, the newest of its number. -/
def Group.newest? (g : Group) (id : Nat) : Option Pend := g.pending.reverse.find? (fun p => p.id == id)

/-- The lanes in which a write of this instruction to the register is discarded. -/
def Group.deadIn (g : Group) (due : Due) (k : RegKey) : LaneMask :=
  match due.id? with
  | some id => (match g.newest? id with | some p => p.deadIn k | none => 0)
  | none => 0

/-- Instruction `id`, or the word being issued, writes these lanes of a register: what older ones still write there is
discarded. -/
def killOlder (id : Option Nat) (k : RegKey) (m : LaneMask) (l : List Pend) : List Pend :=
  l.map (fun p => if p.kind.late && (match id with | some n => decide (p.id < n) | none => true)
    then { p with dead := (k, m) :: p.dead } else p)

/-- A younger instruction of the group has written lane `l` of vn, so that a store issued as number `id`, of whatever group,
leaves it (R118). -/
def Group.overtaken (g : Group) (id : Nat) (n l : Nat) : Bool :=
  g.overlaid.any (fun x => x.1 == .v n && bitOf x.2.1 l && decide (id < x.2.2))

/-- A write to a register, in flight until `due`; `old` is what it held. -/
def Group.land (g : Group) (k : RegKey) (m : LaneMask) (old : List Word) (due : Due) : Group :=
  { g with pending := killOlder due.id? k m g.pending,
           overlaid := (k, m, due.id?.getD g.issuedAt) :: g.overlaid,
           landing := { key := k, lanes := m, old := old, due := due, store := false } :: g.landing }

/-! ## Writing registers -/

/-- Writes lanes of vn, in flight until `due`. -/
def Group.writeV (g : Group) (n : Nat) (lanes : LaneMask) (f : Nat → U32) (due : Due) : Group :=
  let m := lanes &&& ~~~(g.deadIn due (.v n))
  let old := laneList.map (fun l => (g.rawV n l).setWidth 64)
  ((lanesOf m).foldl (fun h l => h.putV n l (f l)) g).land (.v n) m old due

/-- Writes sn, in flight until `due`. -/
def Group.writeS (g : Group) (n : Nat) (x : Word) (due : Due) : Group :=
  if g.deadIn due (.s n) = 0 then (g.putS n x).land (.s n) (BitVec.allOnes 32) [g.rawS n] due else g

/-- Writes lanes of pn, in flight until `due`. -/
def Group.writeP (g : Group) (n : Nat) (lanes : LaneMask) (f : Nat → Bool) (due : Due) : Group :=
  if n = 0 then g
  else
    let m := lanes &&& ~~~(g.deadIn due (.p n))
    let old := laneList.map (fun l => g.rawKey (.p n) l)
    (g.putP n ((g.rawP n &&& ~~~m) ||| filterLanes m f)).land (.p n) m old due

/-- The in-flight write of the same store instruction to vn, with one lane more; none when there is none. -/
def joinLanding (n l : Nat) (due : Due) : List Landing → Option (List Landing)
  | [] => none
  | x :: xs =>
    if x.key = .v n then
      (if x.store && x.due == due then some ({ x with lanes := x.lanes ||| laneBit l } :: xs) else none)
    else (joinLanding n l due xs).map (fun ys => x :: ys)

/-- A store to lane `l` of vn: one in-flight write for all that its instruction stores to the register (R118, R121). -/
def Group.storeV (g : Group) (n l : Nat) (x : U32) (due : Due) : Group :=
  if bitOf (g.deadIn due (.v n)) l || (match due.id? with | some id => g.overtaken id n l | none => false) then g
  else
    let old := laneList.map (fun l => (g.rawV n l).setWidth 64)
    { g.putV n l x with
      pending := killOlder due.id? (.v n) (laneBit l) g.pending,
      landing := (joinLanding n l due g.landing).getD
        ({ key := .v n, lanes := laneBit l, old := old, due := due, store := true } :: g.landing) }

/-- MTSR of trialwin: the new value governs from `due` on (R72). -/
def Group.writeWin (g : Group) (lanes : LaneMask) (f : Nat → Word) (due : Due) : Group :=
  let old := laneList.map (fun l => (g.th l).trialwin)
  let g' := (lanesOf lanes).foldl (fun h l => h.modLane l (fun t => { t with trialwin := f l })) g
  { g' with landing := { key := .win, lanes := lanes, old := old, due := due, store := false } :: g.landing }

/-! ## Flags (R51) -/

/-- The flag a set field names. -/
def setFlag (c : Ctl) : Option Nat := if c.set.toNat < 12 then some c.set.toNat else none

def Group.flagOf (g : Group) (n : Nat) : Nat := getD g.flags 0 n
def Group.chargeFlag (g : Group) (f : Option Nat) : Group :=
  match f with
  | some n => { g with flags := putD g.flags 0 n (g.flagOf n + 1) }
  | none => g
def Group.dischargeFlag (g : Group) (f : Option Nat) : Group :=
  match f with
  | some n => { g with flags := putD g.flags 0 n (g.flagOf n - 1) }
  | none => g

/-- Every flag of the wait mask reads zero. -/
def Group.flagsClear (g : Group) (wait : BitVec 12) : Bool :=
  (List.range 12).all (fun n => !(wait.getLsbD n) || g.flagOf n == 0)

/-- Records an issued instruction and charges its flag. -/
def State.addPend (s : State) (gid : Nat) (p : Pend) : State :=
  s.modGrp gid (fun g => ({ g with pending := g.pending ++ [p] }).chargeFlag p.flag)

/-- An instruction completes: its record goes, its flag is discharged, its results have landed (R51, R52). -/
def State.completePend (s : State) (gid id : Nat) : State :=
  match (s.grp gid).pend? id with
  | none => s
  | some p =>
    ({ s with cycle := max s.cycle p.due }).modGrp gid (fun g => (g.dropPend id).dischargeFlag p.flag)

/-- Every in-flight write of the group has landed (R54). -/
def State.landAll (s : State) (gid : Nat) : State := s.modGrp gid (fun g => { g with landing := [] })

/-- Completes every issued instruction of the group that waits for nothing but its own latency. -/
def State.completeAll (s : State) (gid : Nat) : State :=
  (((s.grp gid).pending.filter (fun p => p.kind == .result)).map (fun p => p.id)).foldl
    (fun s id => s.completePend gid id) s

end Sys2Proof.Machine
end

