-- ==== Sys2Proof/Machine/Memory.lean ====
section
/-! DEFINITION. Physical memory, translation, the TLBs, the dirty log, the store space and the constant space
(05). -/
namespace Sys2Proof.Machine

/-! ## Physical memory (R124, R125) -/

/-- Where a physical address leads. -/
inductive Target where
  /-- Memory: HBM by location stack * 2^36 + offset, host memory by its address. -/
  | mem (loc : Nat)
  /-- The device-register range. -/
  | dev (off : Nat)
  /-- A peer window. -/
  | peer (pa : Nat)
  deriving DecidableEq, Repr

/-- The location of an HBM byte after the remapping of retired granules (R309). -/
def State.remapped (s : State) (loc : Nat) : Nat :=
  match findK s.svc.remap (loc / 4096) with
  | some g => g * 4096 + loc % 4096
  | none => loc

/-- R124, R125: none outside the mapped ranges. -/
def State.target (s : State) (pa : Nat) : Option Target :=
  if pa < 2 ^ 39 then
    some (.mem (s.remapped (bits pa 14 12 * 2 ^ 36 + bits pa 38 15 * 4096 + bits pa 11 0)))
  else if pa < 2 ^ 40 then some (.mem (s.remapped (pa - 2 ^ 39)))
  else if pa < 2 ^ 40 + 2 ^ 32 then some (.dev (pa - 2 ^ 40))
  else if pa < 2 ^ 48 then none
  else if pa < 2 ^ 51 then some (.mem pa)
  else if pa < 2 ^ 51 + 2 ^ 48 then some (.peer pa)
  else none

/-- The byte at a location. -/
def State.byteAt (s : State) (loc : Nat) : Byte := getD s.mem memDefault loc
/-- `n` bytes from a location on. -/
def State.bytesAt (s : State) (loc n : Nat) : List Byte := (List.range n).map (fun i => s.byteAt (loc + i))

/-- Bytes written from a location on. -/
def putBytes (m : KMap Byte) (loc : Nat) : List Byte → KMap Byte
  | [] => m
  | b :: bs => putBytes (putD m memDefault loc b) (loc + 1) bs

/-- A write replaces bytes of a line that holds an uncorrectable error, and only those (R400). -/
def State.putAt (s : State) (loc : Nat) (bs : List Byte) : State :=
  { s with mem := putBytes s.mem loc bs,
           poison := s.poison.filter (fun x => !(decide (loc ≤ x) && decide (x < loc + bs.length))) }

/-- The canonical form of memory: addresses strictly rise and no entry equals what an unlisted address reads as. -/
def Memory.wf (m : List Host.Cell) : Bool := canonK m memDefault

/-- One of the `n` bytes from a location on holds an uncorrectable error (R128, R400). -/
def State.poisoned (s : State) (loc n : Nat) : Bool :=
  s.poison.any (fun x => decide (loc ≤ x) && decide (x < loc + n))

/-- Reads `n` bytes behind a target. -/
def State.loadT (s : State) (t : Target) (n : Nat) : Except Nat Nat :=
  match t with
  | .mem loc => if s.poisoned loc n then .error Code.memUncorrectable else .ok (natLE (s.bytesAt loc n))
  | .peer pa => .ok (natLE ((List.range n).map (fun i => Config.peerByte s.serial (pa + i))))
  | .dev _ => .error Code.accessDenied

/-- Writes bytes behind a target; those of a peer window go to another device. -/
def State.storeT (s : State) (t : Target) (bs : List Byte) : State :=
  match t with
  | .mem loc => s.putAt loc bs
  | _ => s

/-! ## Page tables (R126, R127) -/

/-- Kinds of access (R128). -/
inductive XKind where
  | read | write | rmw | fetch
  deriving DecidableEq, Repr

def XKind.writes : XKind → Bool
  | .write | .rmw => true
  | _ => false

/-- Lowest bit and width of the index of a level. -/
def levelShift : Nat → Nat × Nat
  | 1 => (45, 9)
  | 2 => (36, 9)
  | 3 => (26, 10)
  | _ => (16, 10)

def pteV (e : Word) : Bool := e.getLsbD 0
def pteR (e : Word) : Bool := e.getLsbD 1
def pteW (e : Word) : Bool := e.getLsbD 2
def pteX (e : Word) : Bool := e.getLsbD 3
def pteCache (e : Word) : Nat := bits e.toNat 6 5
def pteTrack (e : Word) : Bool := e.getLsbD 7
def pteDirty (e : Word) : Bool := e.getLsbD 8
def pteLeaf (e : Word) : Bool := e.getLsbD 12
def pteAfe (e : Word) : Bool := e.getLsbD 60
def pteAff (e : Word) : Nat := bits e.toNat 63 61
def pteAddr (e : Word) : Nat := bits e.toNat 51 13 * 8192

/-- A leaf of level `lev` obeys R127. -/
def leafOk (lev : Nat) (e : Word) : Bool :=
  let a := pteAddr e
  decide (2 ≤ lev) && e &&& 0x0FF0000000000C10#64 == 0 && a % 2 ^ (levelShift lev).1 == 0
    && (!pteAfe e || (decide (2 ^ 39 + pteAff e * 2 ^ 36 ≤ a) && decide (a < 2 ^ 39 + (pteAff e + 1) * 2 ^ 36)))

/-- A table entry of level `lev` obeys R127: only addr and v may be nonzero. -/
def tableOk (lev : Nat) (e : Word) : Bool :=
  decide (lev ≤ 3) && e &&& 0xFFF0000000001FFE#64 == 0

/-- A walk without side effects: the leaf, where it stands in memory and its page (a table that is no memory: DESIGN
CHOICE, log 35). -/
def State.walkFrom (s : State) (cid va : Nat) : List Nat → Nat → Except Nat TlbEnt
  | [], _ => .error Code.badPte
  | lev :: rest, table =>
    let sh := levelShift lev
    let a := table + 8 * ((va / 2 ^ sh.1) % 2 ^ sh.2)
    match s.target a with
    | some (.mem loc) =>
      match s.loadT (.mem loc) 8 with
      | .error c => .error c
      | .ok x =>
        let e := wordN x
        if !pteV e then .error Code.notPresent
        else if pteLeaf e then
          if leafOk lev e then
            .ok { ctx := cid, va := va / 2 ^ sh.1 * 2 ^ sh.1, size := 2 ^ sh.1, pte := e, loc := loc }
          else .error Code.badPte
        else if tableOk lev e then s.walkFrom cid va rest (pteAddr e)
        else .error Code.badPte
    | _ => .error Code.paUnmapped

def State.walk (s : State) (cid va : Nat) : Except Nat TlbEnt :=
  s.walkFrom cid va [1, 2, 3, 4] (s.ctx cid).root

/-- The physical address that an entry gives. -/
def TlbEnt.pa (e : TlbEnt) (va : Nat) : Nat := pteAddr e.pte + va % e.size

/-! ## The TLB (R128, R129) -/

def TlbEnt.covers (e : TlbEnt) (cid va : Nat) : Bool :=
  e.ctx == cid && decide (e.va ≤ va) && decide (va < e.va + e.size)

/-- A lookup; an entry may have been displaced (DESIGN CHOICE, log 8). -/
def State.tlbFind (s : State) (core cid va : Nat) : Option TlbEnt :=
  match (s.core core).tlb.find? (fun e => e.covers cid va) with
  | some e => if Config.displaced s.serial va then none else some e
  | none => none

/-- Installs an entry; a core holds 4,096. -/
def tlbInstall (l : List TlbEnt) (e : TlbEnt) : List TlbEnt :=
  (e :: l.filter (fun x => !(x.covers e.ctx e.va))).take 4096

/-- R132: the bits of the dirty logs that a first write to the page of `e` sets, in the log of every root of the context
that names one (DESIGN CHOICE, log 56). -/
def State.logDirty (s : State) (e : TlbEnt) : State :=
  s.regions.foldl (fun s r =>
    match r.2.ctx == e.ctx, r.2.dlog with
    | true, some (base, pages, bm) =>
      let lo := max e.va base
      let hi := min (e.va + e.size) (base + pages * 65536)
      (List.range ((hi - lo) / 65536)).foldl (fun s k =>
        let i := (lo - base) / 65536 + k
        match s.target (bm + i / 8) with
        | some (.mem loc) => s.putAt loc [s.byteAt loc ||| BitVec.ofNat 8 (2 ^ (i % 8))]
        | _ => s) s
    | _, _ => s) s

/-- R132: sets PTE.dirty and, when track = 1, the bits of the dirty log, in one update. -/
def State.markDirty (s : State) (e : TlbEnt) : State × TlbEnt :=
  let e' := { e with pte := e.pte ||| 0x100#64 }
  let s := s.putAt e.loc (bytesLE 8 e'.pte.toNat)
  (if pteTrack e.pte then s.logDirty e else s, e')

/-- The permissions of R128. -/
def permit (k : XKind) (e : Word) : Option Nat :=
  match k with
  | .read => if pteR e then none else some Code.accessDenied
  | .write => if pteW e then none else some Code.accessDenied
  | .rmw => if pteR e && pteW e then none else some Code.accessDenied
  | .fetch => if pteX e && pteCache e != 3 then none else some Code.execDenied

/-- R128. `core` holds the TLB; an engine has none. The answer is the entry used, or a fault code. -/
def State.translate (s : State) (core : Option Nat) (cid va : Nat) (k : XKind) : State × Except Nat TlbEnt :=
  let hit := match core with | some n => s.tlbFind n cid va | none => none
  let install (s : State) (e : TlbEnt) : State :=
    match core with
    | some n => s.modCore n (fun c => { c with tlb := tlbInstall c.tlb e })
    | none => s
  let finish (s : State) (e : TlbEnt) : State × Except Nat TlbEnt :=
    match permit k e.pte with
    | some c => (s, .error c)
    | none =>
      if k.writes && !pteDirty e.pte then
        let r := s.markDirty e
        (install r.1 r.2, .ok r.2)
      else (s, .ok e)
  let walked (s : State) : State × Except Nat TlbEnt :=
    match s.walk cid va with
    | .error c => (s, .error c)
    | .ok w =>
      let w := { w with pte := w.pte ||| 0x200#64 }
      finish (install (s.putAt w.loc (bytesLE 8 w.pte.toNat)) w) w
  match hit with
  | some e => if k.writes && !pteDirty e.pte then walked s else finish s e
  | none => walked s

/-- Bits [63:54] of an address are zero (R114). -/
def inSpace (a : Nat) : Bool := decide (a < 2 ^ 54)

/-- An access to a peer window: it may be left without a response, as it is where no route remains, and the target may refuse
it (R305; DESIGN CHOICE, log 7). -/
def State.peerAccess (s : State) (pa : Nat) (k : XKind) : Except Nat Target :=
  if !s.svc.routes || !Config.peerAnswers s.serial pa then .error Code.paUnmapped
  else if Config.peerRefuses s.serial pa k.writes then .error Code.accessDenied
  else .ok (.peer pa)

/-- An access of `n` bytes to the global space: range, translation, device and peer rules (R114, R122, R124,
R303, R305). A page of device registers takes accesses of four and eight bytes only. -/
def State.accessG (s : State) (core : Option Nat) (cid ea n : Nat) (k : XKind) :
    State × Except Nat Target :=
  if !inSpace ea then (s, .error Code.addrRange)
  else
    match s.translate core cid ea k with
    | (s, .error c) => (s, .error c)
    | (s, .ok e) =>
      if pteCache e.pte == 3 && (k == .rmw || !(n == 4 || n == 8)) then (s, .error Code.accessDenied)
      else
        match s.target (e.pa ea) with
        | none => (s, .error Code.paUnmapped)
        | some (.dev _) => (s, .error Code.accessDenied)
        | some (.peer pa) => (s, s.peerAccess pa k)
        | some t => (s, .ok t)

def State.loadG (s : State) (core : Option Nat) (cid ea n : Nat) : State × Except Nat Nat :=
  match s.accessG core cid ea n .read with
  | (s, .error c) => (s, .error c)
  | (s, .ok t) => (s, s.loadT t n)

def State.storeG (s : State) (core : Option Nat) (cid ea : Nat) (bs : List Byte) : State × Except Nat Unit :=
  match s.accessG core cid ea bs.length .write with
  | (s, .error c) => (s, .error c)
  | (s, .ok t) => (s.storeT t bs, .ok ())

/-- Bytes of global memory, each checked on its own: of engine and unit reads that span lines or pages. They are no
.b32 or .b64 loads, which alone a page of device registers takes (R122). -/
def State.loadBytes (s : State) (core : Option Nat) (cid ea : Nat) : Nat → State × Except (Nat × Nat) (List Byte)
  | 0 => (s, .ok [])
  | n + 1 =>
    match s.accessG core cid ea 1 .read with
    | (s, .error c) => (s, .error (c, ea))
    | (s, .ok t) =>
      match s.loadT t 1 with
      | .error c => (s, .error (c, ea))
      | .ok x =>
        match s.loadBytes core cid (ea + 1) n with
        | (s, .error c) => (s, .error c)
        | (s, .ok l) => (s, .ok (BitVec.ofNat 8 x :: l))

/-- Bytes stored one by one up to the first that fails. -/
def State.storeBytes (s : State) (core : Option Nat) (cid ea : Nat) : List Byte → State × Except (Nat × Nat) Unit
  | [] => (s, .ok ())
  | b :: bs =>
    match s.accessG core cid ea 1 .write with
    | (s, .error c) => (s, .error (c, ea))
    | (s, .ok t) => (s.storeT t [b]).storeBytes core cid (ea + 1) bs

/-! ## Instruction fetch (R61, R66, R263, R265) -/

/-- Segment kinds of R284. -/
def segText : Nat := 0
def segSys : Nat := 1
def segTrial : Nat := 2
def segConst : Nat := 4

/-- A segment covers a virtual address, to the end of its last page. -/
def Seg.covers (g : Seg) (va : Nat) : Bool :=
  decide (g.va ≤ va) && decide (va < g.va + (g.memsize + 65535) / 65536 * 65536)

/-- The object and the segment that hold a virtual address of a context. -/
def State.segAt (s : State) (cid va : Nat) : Option (CodeObj × Seg) :=
  s.objects.findSome? (fun o =>
    if o.2.ctx = cid then (o.2.segs.find? (fun g => g.covers va)).map (fun g => (o.2, g)) else none)

/-- A 64 KiB page of memory that holds a part of a revoked object, whatever the context that maps it (R263). -/
def State.revokedPage (s : State) (page : Nat) : Bool := s.objects.any (fun o => o.2.revoked && o.2.pages.contains page)

/-- The address lies on a page of a revoked object (R263). -/
def State.revokedAt (s : State) (cid va : Nat) : Bool :=
  (match s.segAt cid va with
    | some (o, _) => o.revoked
    | none => false)
  || (s.objects.any (fun o => o.2.revoked) && (match s.walk cid va with
    | .ok e => s.revokedPage (e.pa va / 65536)
    | .error _ => false))

/-- The trial segment that holds an address (R265). -/
def State.trialSeg (s : State) (cid va : Nat) : Option Seg :=
  match s.segAt cid va with
  | some (_, g) => if g.kind == segTrial && decide (va < g.va + g.memsize) then some g else none
  | none => none

/-- The address lies in system code (R69). -/
def State.systemCode (s : State) (cid va : Nat) : Bool :=
  match s.segAt cid va with
  | some (_, g) => g.kind == segSys
  | none => false

/-- A word fetched for issue by a core: from its copy while it has one (R356), else from memory. The device never
prefetches, as R65 lets it (DESIGN CHOICE, log 52). -/
def State.fetchWord (s : State) (core cid va : Nat) : State × Except Nat Word :=
  if s.revokedAt cid va then (s, .error Code.codeRevoked)
  else
    match s.translate (some core) cid va .fetch with
    | (s, .error c) => (s, .error c)
    | (s, .ok e) =>
      match s.target (e.pa va) with
      | some (.mem loc) =>
        let copy := (s.core core).icache.find? (fun x => x.ctx == cid && x.va == va && x.loc == loc)
        let fresh : State × Except Nat Word :=
          match s.loadT (.mem loc) 8 with
          | .error c => (s, .error c)
          | .ok x =>
            let new : ICopy := { ctx := cid, va := va, loc := loc, word := wordN x }
            (s.modCore core (fun c =>
              { c with icache := new :: c.icache.filter (fun y => !(y.ctx == cid && y.va == va)) }),
              .ok (wordN x))
        match copy with
        | some x => if Config.copyDropped s.serial va then fresh else (s, .ok x.word)
        | none => fresh
      | some (.peer pa) =>
        match s.peerAccess pa .fetch with
        | .ok t => (s, (s.loadT t 8).map wordN)
        | .error c => (s, .error c)
      | some (.dev _) => (s, .error Code.execDenied)
      | none => (s, .error Code.paUnmapped)

/-! ## The store space (R117, R118) -/

/-- A byte of a workgroup's visible store. -/
inductive StoreLoc where
  | pad (a : Nat)
  | win (gid n l b : Nat)
  deriving DecidableEq, Repr

/-- Scratchpad bytes of a workgroup. -/
def State.spBytes (s : State) (w : Wg) : Nat := (s.region w.rid).rcb.spbytes

/-- The register window that holds a store address, as a group sees it (R31, R117). -/
def State.windowAt (s : State) (core : Nat) (a : Nat) : List Nat → Option StoreLoc
  | [] => none
  | gid :: rest =>
    let g := s.grp gid
    if g.core = core ∧ g.regbase ≤ a ∧ a < g.regbase + g.valloc * 128 then
      some (.win gid ((a - g.regbase) / 128) ((a - g.regbase) % 128 / 4) (a % 4))
    else s.windowAt core a rest

/-- A byte of the store of a workgroup, as its groups on a core see it. -/
def State.storeAt (s : State) (wid core a : Nat) : Option StoreLoc :=
  let w := s.wg wid
  if a < s.spBytes w then some (.pad a)
  else if a < 2 ^ 22 then s.windowAt core a w.gids
  else none

def State.storeLoc (s : State) (gid a : Nat) : Option StoreLoc := s.storeAt (s.grp gid).wid (s.grp gid).core a

/-- `n` bytes from `a` on are visible to the group. -/
def State.storeVisible (s : State) (gid a n : Nat) : Bool :=
  (List.range n).all (fun i => (s.storeLoc gid (a + i)).isSome)

/-- A scratchpad byte; one that nothing has written since placement is a free value (R194, DESIGN CHOICE, log 6). -/
def Wg.padByte (w : Wg) (a : Nat) : Byte :=
  match findK w.scratch a with
  | some b => b
  | none => Config.freeScratch w.place a

def byteOf (x : Word) (b : Nat) : Byte := x.extractLsb' (8 * b) 8
def setByte (x : U32) (b : Nat) (v : Byte) : U32 :=
  (x &&& ~~~(0xFF#32 <<< (8 * b))) ||| (v.setWidth 32 <<< (8 * b))

/-- Reads one byte of the store for a group. -/
def State.storeByte (s : State) (gid : Nat) (loc : StoreLoc) : Byte :=
  match loc with
  | .pad a => (s.wgOf gid).padByte a
  | .win o n l b =>
    byteOf (if o = gid then s.storeRead o (.v n) l else s.otherRead o (.v n) l) b

/-- Writes one byte of the scratchpad. -/
def Wg.putPad (w : Wg) (a : Nat) (b : Byte) : Wg := { w with scratch := insK w.scratch a b }

/-- Writes one byte of a workgroup's store; a register byte is in flight until `due` (R118). -/
def State.putStoreAt (s : State) (wid : Nat) (loc : StoreLoc) (v : Byte) (due : Due) : State :=
  match loc with
  | .pad a => s.modWg wid (fun w => w.putPad a v)
  | .win o n l b => s.modGrp o (fun g => g.storeV n l (setByte (g.rawV n l) b v) due)

def State.putStoreByte (s : State) (gid : Nat) (loc : StoreLoc) (v : Byte) (due : Due) : State :=
  s.putStoreAt (s.grp gid).wid loc v due

def State.loadS (s : State) (gid a n : Nat) : Except Nat Nat :=
  if s.storeVisible gid a n then
    .ok (natLE ((List.range n).map (fun i =>
      match s.storeLoc gid (a + i) with
      | some loc => s.storeByte gid loc
      | none => 0)))
  else .error Code.storeRange

/-- Bytes written from a store address on. -/
def State.putStore (s : State) (gid a : Nat) (due : Due) : List Byte → State
  | [] => s
  | b :: bs =>
    match s.storeLoc gid a with
    | some loc => (s.putStoreByte gid loc b due).putStore gid (a + 1) due bs
    | none => s

def State.storeS (s : State) (gid a : Nat) (bs : List Byte) (due : Due) : State × Except Nat Unit :=
  if s.storeVisible gid a bs.length then (s.putStore gid a due bs, .ok ()) else (s, .error Code.storeRange)

/-! ## The constant space (R115) -/

/-- The constant block of the code object that holds the running kernel: address and length (DESIGN CHOICE, log 35). -/
def State.constBlock (s : State) (gid : Nat) : Option (Nat × Nat) :=
  match findK s.objects (s.regOf gid).object with
  | some o => (o.segs.find? (fun g => g.kind == segConst)).map (fun g => (g.va, g.filesize))
  | none => none

def State.loadK (s : State) (gid a n : Nat) : State × Except Nat Nat :=
  match s.constBlock gid with
  | some (va, len) =>
    if a < 2 ^ 32 ∧ a < len then s.loadG (some (s.grp gid).core) (s.cidOf gid) (va + a) n
    else (s, .error Code.constRange)
  | none => (s, .error Code.constRange)

end Sys2Proof.Machine
end

