-- ==== Sys2Proof/Machine/Control.lean ====
section
/-! DEFINITION. Where threads go: block headers, the advance past a word, reconvergence holds, transfers, and the
return of a lane from its candidate (01 R19 to R22, 02 R60 to R63, 14 R268). -/
namespace Sys2Proof.Machine

/-! ## Trial outcomes (R268) -/

/-- The in-flight writes of lane `l` have landed; nothing is left of one that touched no other lane. -/
def landLane (l : Nat) (x : Landing) : Option Landing :=
  let m := x.lanes &&& ~~~(laneBit l)
  if m == 0 then none else some { x with lanes := m }

/-- The last cycle by which a result of fixed latency of lane `l` has landed. -/
def Landing.fixedEnd (l : Nat) (n : Nat) (x : Landing) : Nat :=
  match x.due with
  | .fixed c _ => if bitOf x.lanes l then max n c else n
  | _ => n

/-- Completes what lane `l` still has in flight, before it returns, results of fixed latency included (R268). -/
def State.settleLane (s : State) (gid l : Nat) : State :=
  let ids := ((s.grp gid).pending.filter (fun p => p.kind == .result && bitOf p.lanes l)).map (fun p => p.id)
  let s := ids.foldl (fun s id => s.completePend gid id) s
  ({ s with cycle := (s.grp gid).landing.foldl (Landing.fixedEnd l) s.cycle }).modGrp gid
    (fun g => { g with landing := g.landing.filterMap (landLane l) })

/-- The record of a TRY, when its last lane has returned, completes (R267). -/
def Group.tryDone (g : Group) (pend : Nat) : Group :=
  match g.pend? pend with
  | some p => if p.lanes &&& ~~~p.done == 0 then (g.dropPend pend).dischargeFlag p.flag else g
  | none => g

/-- TRIAL_OUTCOME: outcome(cause, executed, x) in lane `l`, which continues at ret. The end of the block is
still to be checked there. -/
def State.outcome (s : State) (gid l cause : Nat) (x : Word) : State :=
  match ((s.grp gid).th l).trial with
  | none => s
  | some t =>
    let s := s.settleLane gid l
    s.modGrp gid (fun g =>
      let n := t.start - (g.th l).allow
      let g := g.writeV t.outReg (laneBit l) (fun _ => BitVec.ofNat 32 (n * 256 + cause)) (.on t.pend)
      let g := g.writeV (t.outReg + 1) (laneBit l) (fun _ => x.setWidth 32) (.on t.pend)
      let g := g.modLane l (fun th => { th with
        pc := t.ret, hdr := t.homeHdr, len := t.homeLen, kind := t.homeKind, roff := t.homeRoff, allow := 0,
        held := .no, entering := none, trial := none })
      let g := g.modPend t.pend (fun p => { p with done := p.done ||| laneBit l })
      let g := { g with trialSram := laneList.any (fun l => g.inTrial l) }
      g.tryDone t.pend)

/-- Byte offset of an address from the first byte of the lane's trial segment (R270). -/
def trialOff (t : Thread) (a : Word) : Word :=
  match t.trial with
  | some tr => a - tr.segBase
  | none => 0

/-- The trial cause of a fault code, where the fault is confined (R70, R270). -/
def trialCause (code : Nat) : Option Nat :=
  if code = Code.illegal ∨ code = Code.regRange then some 7
  else if code = Code.badTarget ∨ code = Code.execDenied then some 4
  else if code = Code.overrun ∨ code = Code.badHeader then some 5
  else if code = Code.privileged ∨ code = Code.trialIllegal then some 6
  else if code = Code.divZero then some 2
  else none

/-! ## Reconvergence (R19 to R22) -/

/-- Threads of the cohort of `j`: not exited, not in a trial, rc = j (R20, R22). -/
def Group.cohort (g : Group) (j : Word) : List Nat :=
  laneList.filter (fun l => let t := g.th l; !t.exited && t.trial.isNone && t.rc == some j)

def Held.atRc : Held → Bool
  | .rc _ => true
  | _ => false

/-- COHORT_RELEASE: every thread held at `j` goes on with rc cleared (R20). -/
def Group.releaseAt (g : Group) (j : Word) : Group :=
  { g with threads := g.threads.map (fun t =>
      if t.held.atRc && t.rc == some j then { t with held := .no, rc := none } else t) }

/-- Releases every cohort whose members are all held (R20, R22). -/
def Group.rejoin (g : Group) : Group :=
  let js := (laneList.filter (fun l => (g.th l).held.atRc)).filterMap (fun l => (g.th l).rc)
  js.foldl (fun g j => if (g.cohort j).all (fun l => (g.th l).held.atRc) then g.releaseAt j else g) g

/-- A thread leaves its block: a nonzero reconvergence offset replaces rc (R19). -/
def Thread.leave (t : Thread) : Thread :=
  if t.roff ≠ 0 ∧ t.trial.isNone then { t with rc := some (t.hdr + word (t.roff * 8)) } else t

/-- The cycle from which the hold at `j` counts: that of the first member held (R21). -/
def Group.holdStart (g : Group) (j : Word) (cycle : Nat) : Int :=
  (laneList.filterMap (fun l => match (g.th l).held with
    | .rc c => if (g.th l).rc == some j then some c else none
    | _ => none)).foldl min ((cycle : Int) + 1)

/-! ## Headers (R60, R61) -/

def hdrTag (w : Word) : Nat := bits w.toNat 63 60
def hdrKind (w : Word) : Nat := bits w.toNat 59 58
def hdrLen (w : Word) : Nat := bits w.toNat 57 48
def hdrRoff (w : Word) : Int := sextI (bits w.toNat 37 20) 18

/-- A well-formed header (R60). -/
def headerOk (w : Word) : Bool :=
  hdrTag w == 15 && bits w.toNat 12 0 == 0 && decide (1 ≤ hdrLen w) && decide (bits w.toNat 47 40 ≤ 160)
    && decide (bits w.toNat 19 13 ≤ 96)

/-- The thread stands at the first word of the block whose header `w` is at `a`; R20 holds it if it belongs to
the cohort of `a`. -/
def Group.enterBlock (g : Group) (l : Nat) (a w : Word) (cycle : Nat) : Group :=
  let start := g.holdStart a cycle
  g.modLane l (fun t =>
    { t with pc := a + 8, hdr := a, len := hdrLen w, kind := hdrKind w, roff := hdrRoff w, entering := none,
             held := (if t.rc == some a && t.trial.isNone then .rc start else t.held) })

/-- A lane outside a trial may not fetch from a trial segment, nor a trial lane from outside its own (R265,
R270). -/
def State.segmentOk (s : State) (gid l : Nat) (a : Word) : Bool :=
  match ((s.grp gid).th l).trial with
  | some t => decide (t.segBase.toNat ≤ a.toNat) && decide (a.toNat < t.segBase.toNat + t.segLen.toNat)
  | none => (s.trialSeg (s.cidOf gid) a.toNat).isNone

/-- The fault of a fetch by a lane outside a trial from a trial segment (R265), or from a revoked object (R66). -/
def State.strayCode (s : State) (gid : Nat) (a : Word) : Nat :=
  if s.revokedAt (s.cidOf gid) a.toNat then Code.codeRevoked else Code.execDenied

/-- The header word at `a`, fetched for issue (R61, R66) (DEDUCED, log 32). -/
def State.fetchHeader (s : State) (gid : Nat) (a : Word) : State × Except Nat Word :=
  if !inSpace a.toNat then (s, .error Code.addrRange)
  else s.fetchWord (s.grp gid).core (s.cidOf gid) a.toNat

/-- Enters the header at `a` by falling through (R63). The answer is a fault code when the lane cannot; an address
past the space is no header (DESIGN CHOICE, log 63). Outside a trial a revoked object is seen first (R66). -/
def State.fallInto (s : State) (gid l : Nat) (a : Word) : State × Option Nat :=
  let t := (s.grp gid).th l
  if t.kind = 1 then (s, some Code.overrun)
  else if !s.segmentOk gid l a then (s, some (if t.trial.isSome then Code.overrun else s.strayCode gid a))
  else
    match s.fetchHeader gid a with
    | (s, .error c) => (s, some (if c = Code.addrRange then Code.overrun else c))
    | (s, .ok w) =>
      if hdrTag w ≠ 15 then (s, some Code.overrun)
      else if !headerOk w then (s, some Code.badHeader)
      else (s.modGrp gid (fun g => g.enterBlock l a w (s.holdClock gid)), none)

/-- The header at `a`, which a transfer wants to enter (R61, R62): `call` asks for kind 11. Of a trial lane a target
outside its segment decides before a revoked object (R270). -/
def State.targetHeader (s : State) (gid l : Nat) (a : Word) (call : Bool) : State × Except Nat Word :=
  if !inSpace a.toNat || a.toNat % 8 != 0 then (s, .error Code.badTarget)
  else if !s.segmentOk gid l a then
    (s, .error (if ((s.grp gid).th l).trial.isSome then Code.badTarget else s.strayCode gid a))
  else
    match s.fetchHeader gid a with
    | (s, .error c) => (s, .error c)
    | (s, .ok w) => (s, if !headerOk w || (call && hdrKind w != 3) then .error Code.badTarget else .ok w)

/-- Enters the header at `a` after a transfer. -/
def State.transferInto (s : State) (gid l : Nat) (a : Word) (call : Bool) : State × Option Nat :=
  match s.targetHeader gid l a call with
  | (s, .error c) => (s, some c)
  | (s, .ok w) => (s.modGrp gid (fun g => g.enterBlock l a w (s.holdClock gid)), none)

/-! ## Faults of lanes that go somewhere -/

/-- Whether the address belongs in the record of a fetch fault (R245). -/
def fetchAddr (code : Nat) (a : Word) : Word :=
  if code = Code.execDenied ∨ code = Code.codeRevoked ∨ (Code.notPresent ≤ code ∧ code ≤ Code.memUncorrectable)
  then a else 0

/-- Of the faults met by several lanes, the lowest lane's code and the lanes that met it. -/
def worst : List (Nat × Nat × Word) → Option (Nat × Word × LaneMask)
  | [] => none
  | (l, c, a) :: rest =>
    some (c, a, maskOf (l :: (rest.filter (fun f => f.2.1 == c)).map (fun f => f.1)))

/-- Faults at the entry of a header: the lanes stand before it. -/
def State.faultEntry (s : State) (gid : Nat) (fs : List (Nat × Nat × Word)) : State :=
  match worst fs with
  | none => s
  | some (c, a, m) =>
    s.takeFault gid { code := c, pc := a, addr := fetchAddr c a, lanes := m, detail := 0, word := 0 } (.entry gid m)

/-- A thread past its block stands before the next header (R63). -/
def Thread.atEnd (t : Thread) : Bool := t.pc == t.hdr + wordN ((t.len + 1) * 8)
def Thread.markEnd (t : Thread) : Thread :=
  if t.atEnd && t.entering.isNone then { t with entering := some 0, via := t.pc - 8 } else t

/-- The last word that the thread has executed: the one before its pc, unless it stands behind the header of its block. -/
def Thread.lastWord (t : Thread) : Word := if t.entering.isSome || t.pc == t.hdr + 8 then t.via else t.pc - 8

/-- Tries every pending entry of these lanes; `fs` collects the faults. -/
def State.enterLanes (s : State) (gid : Nat) : List Nat → List (Nat × Nat × Word) → State × List (Nat × Nat × Word)
  | [], fs => (s, fs.reverse)
  | l :: ls, fs =>
    let t := (s.grp gid).th l
    match t.entering with
    | none => s.enterLanes gid ls fs
    | some how =>
      let r := if how = 0 then s.fallInto gid l t.pc else s.transferInto gid l t.pc (how == 2)
      match r with
      | (s, none) => s.enterLanes gid ls fs
      | (s, some c) =>
        match t.trial, trialCause c with
        | some _, some cause =>
          -- confined: R270
          let s := s.modGrp gid (fun g => g.modLane l (fun t => { t with entering := none }))
          (s.outcome gid l cause (trialOff t t.lastWord)).enterLanes gid ls fs
        | _, _ => s.enterLanes gid ls ((l, c, t.pc) :: fs)

/-- A thread that falls out of a block that may be left so leaves it (R19). -/
def Thread.fallOut (t : Thread) : Thread := if t.entering = some 0 ∧ t.kind ≠ 1 then t.leave else t

/-- Every thread of the group that stands before a header leaves its block, and then enters the header or meets a fault
there. -/
def State.enterEach (s : State) (gid : Nat) : State × List (Nat × Nat × Word) :=
  (s.modGrp gid (fun g => { g with threads := g.threads.map Thread.fallOut })).enterLanes gid laneList []

/-- The threads of a group that stand before a header try to enter it (R61, R236, R247). All of them leave their blocks
first and enter next; then R20 decides whom it holds. -/
def State.enterAll (s : State) (gid : Nat) : State :=
  let r := s.enterEach gid
  (r.1.modGrp gid Group.rejoin).faultEntry gid r.2

/-- These lanes pass their word; those at the end of their block stand before the next header (R63). -/
def State.passWord (s : State) (gid : Nat) (m : LaneMask) : State :=
  s.modGrp gid (fun g => g.modTh m (fun t => ({ t with pc := t.pc + 8 } : Thread).markEnd))

/-- R63: these lanes go on to the next word, and into the next header at the end of their block. -/
def State.advance (s : State) (gid : Nat) (m : LaneMask) : State :=
  let s := s.passWord gid m
  if laneList.any (fun l => bitOf m l && ((s.grp gid).th l).entering.isSome) then s.enterAll gid else s

/-- Lanes that returned from a candidate go on at ret; at the end of the block they enter the next header. -/
def State.afterReturn (s : State) (gid : Nat) (m : LaneMask) : State :=
  let s := s.modGrp gid (fun g => g.modTh m (fun t => if t.trial.isNone then t.markEnd else t))
  if laneList.any (fun l => bitOf m l && ((s.grp gid).th l).entering.isSome) then s.enterAll gid else s

/-- The lanes of a trial return with one cause; the offset is that of the word at pc (R270). -/
def State.outcomes (s : State) (gid : Nat) (m : LaneMask) (cause : Nat) : State :=
  let s' := (lanesOf m).foldl (fun s l =>
    let t := (s.grp gid).th l
    s.outcome gid l cause (trialOff t t.pc)) s
  s'.afterReturn gid m

/-! ## Transfers (R325, R383) -/

/-- Lane `l` takes a transfer to `a` from the word at its pc: the link first, then it leaves its block (R19, R325). It
stands before the header. -/
def Group.takeTransfer (g : Group) (l : Nat) (a : Word) (call : Bool) (link : Option Nat) : Group :=
  let t := g.th l
  let ret := t.hdr + wordN ((t.len + 1) * 8)
  let g := match link with
    | some n =>
      (g.writeV n (laneBit l) (fun _ => ret.setWidth 32) (.at 0)).writeV (n + 1) (laneBit l)
        (fun _ => (ret >>> 32).setWidth 32) (.at 0)
    | none => g
  g.modLane l (fun t => { t.leave with via := t.pc, pc := a, entering := some (if call then 2 else 1) })

/-- A transfer that faults: a trial lane returns where the fault is confined. -/
def State.transferFails (s : State) (gid l : Nat) (c : Nat) (a : Word) : State × List (Nat × Nat × Word) :=
  let t := (s.grp gid).th l
  match t.trial, trialCause c with
  | some _, some cause => (s.outcome gid l cause (trialOff t t.pc), [])
  | _, _ => (s, [(l, c, a)])

/-- Transfers of single lanes, with every check before any effect of the lane: `link` is the pair that gets the return
address, when there is one. The answer collects transfer faults; the lanes that go stand before their headers, one on a
page that is not present among them. -/
def State.transferLanes (s : State) (gid : Nat) (call : Bool) (link : Option Nat) :
    List (Nat × Word) → List (Nat × Nat × Word) → State × List (Nat × Nat × Word)
  | [], fs => (s, fs.reverse)
  | (l, a) :: ls, fs =>
    let r :=
      if call && ((s.grp gid).th l).kind == 1 then s.transferFails gid l Code.overrun 0
      else
        match s.targetHeader gid l a call with
        | (s, .error c) =>
          if c = Code.notPresent then (s.modGrp gid (fun g => g.takeTransfer l a call link), [])
          else s.transferFails gid l c a
        | (s, .ok _) => (s.modGrp gid (fun g => g.takeTransfer l a call link), [])
    r.1.transferLanes gid call link ls (r.2 ++ fs)

/-- Transfer faults: the lanes stand at the word (R70). -/
def State.faultTransfer (s : State) (gid : Nat) (pc w : Word) (fs : List (Nat × Nat × Word)) : State :=
  match worst fs with
  | none => s
  | some (c, a, m) =>
    s.takeFault gid { code := c, pc := pc, addr := fetchAddr c a, lanes := m, detail := 0, word := w } (.word gid m)

/-- Every taken lane leaves for its target, or meets a fault there, and the others pass the word. -/
def State.depart (s : State) (gid : Nat) (call : Bool) (link : Option Nat) (taken : List (Nat × Word)) (others : LaneMask) :
    State × List (Nat × Nat × Word) :=
  let r := s.transferLanes gid call link taken []
  ((r.1.passWord gid others).modGrp gid (fun g =>
    g.modTh (maskOf (taken.map (fun x => x.1))) (fun t => if t.trial.isNone then t.markEnd else t)), r.2)

/-- All leave first; only then do those that stand before a header enter it, so that R20 sees every member of a cohort
where it goes. -/
def State.transferAll (s : State) (gid : Nat) (pc w : Word) (call : Bool) (link : Option Nat)
    (taken : List (Nat × Word)) (others : LaneMask) : State :=
  let r := s.depart gid call link taken others
  (r.1.enterAll gid).faultTransfer gid pc w r.2

end Sys2Proof.Machine
end

