-- ==== Sys2Proof/Machine/Operands.lean ====
section
/-! DEFINITION. Every operand form of a word (02 R48, R49, R55, R56; 19 R313): guards, the active lanes, sources at
their widths, destinations, the registers a word names. -/
namespace Sys2Proof.Machine

/-! ## Reads at issue (R52) -/

/-- Lane `l` of vn as the issuing group reads it. -/
def State.readV (s : State) (n l : Nat) : U32 := (s.ownRead s.cur (.v n) l).setWidth 32
/-- sn as the issuing group reads it. -/
def State.readS (s : State) (n : Nat) : Word := s.ownRead s.cur (.s n) 0
/-- Lane `l` of pn as the issuing group reads it; p0 reads 1 (R47). -/
def State.readP (s : State) (n l : Nat) : Bool := n == 0 || s.ownRead s.cur (.p n) l == 1

/-- The guard in lane `l` (R49). -/
def State.guardAt (s : State) (c : Ctl) (l : Nat) : Bool := xor (s.readP c.pred.val l) c.neg

/-- The active threads of the issue set: with u = 0 those whose guard is true, with u = 1 all of them when the
guard is true in the lane that chose the set (R48, R49). -/
def State.active (s : State) (c : Ctl) : LaneMask :=
  if c.u then (if s.guardAt c s.ilane then s.iset else 0) else filterLanes s.iset (s.guardAt c)

/-- The address of the word being issued. -/
def State.issuePc (s : State) : Word := (s.g.th s.ilane).pc
/-- The header of the block being issued (R315, R325). -/
def State.issueHdr (s : State) : Word := (s.g.th s.ilane).hdr

/-! ## Sources (R56, R313) -/

/-- The width of a form with a width field: 64 with u = 1 but under b32, 32 with u = 0 but under b64 (R313). -/
def isWide (c : Ctl) (w : Width) : Bool :=
  match w with
  | .nat => c.u
  | .b32 => false
  | .b64 => true

/-- W of R313. -/
def widthOfWide (wide : Bool) : Nat := if wide then 64 else 32

/-- Bits [31:0] of a word, the rest zero. -/
def low32 (x : Word) : Word := x &&& 0xFFFFFFFF#64

/-- A source in lane `l`: 64 bits of a pair or of a scalar when `wide`, else 32 bits (R56). -/
def State.src (s : State) (wide : Bool) (r : Reg) (l : Nat) : Word :=
  match r with
  | .s n => if wide then s.readS n.val else low32 (s.readS n.val)
  | .v n =>
    if wide then (s.readV (n.val + 1) l).setWidth 64 <<< 32 ||| (s.readV n.val l).setWidth 64
    else (s.readV n.val l).setWidth 64

/-- A source in every lane. -/
def State.srcs (s : State) (wide : Bool) (r : Reg) : List Word := laneList.map (s.src wide r)

/-- An address base: the lane of a vector register zero-extended, or all of a scalar (R317, R361). -/
def State.bases (s : State) (r : Reg) : List Word :=
  laneList.map (fun l => match r with
    | .s n => s.readS n.val
    | .v n => (s.readV n.val l).setWidth 64)

def Ops.none : Ops := { a := [], b := [], c := [] }
def Ops.la (o : Ops) (l : Nat) : Word := nth o.a 0 l
def Ops.lb (o : Ops) (l : Nat) : Word := nth o.b 0 l
def Ops.lc (o : Ops) (l : Nat) : Word := nth o.c 0 l

/-- The sign extension of the low 32 bits (R56). -/
def sext32 (x : Word) : Word := (x.setWidth 32).signExtend 64

/-! ## Destinations (R48, R56) -/

/-- Writes a register result: lanes of a vector register or pair, or one scalar, taken from lane `sl`; a 32-bit
result is sign-extended into a scalar (R56). -/
def State.putReg (s : State) (gid : Nat) (d : Reg) (wide : Bool) (lanes : LaneMask) (sl : Nat) (f : Nat → Word)
    (due : Due) : State :=
  s.modGrp gid (fun g => match d with
    | .s n => g.writeS n.val (if wide then f sl else sext32 (f sl)) due
    | .v n =>
      let g := g.writeV n.val lanes (fun l => (f l).setWidth 32) due
      if wide then g.writeV (n.val + 1) lanes (fun l => (f l >>> 32).setWidth 32) due else g)

/-- Writes a predicate result in the active threads. -/
def State.putPred (s : State) (gid : Nat) (n : Nat) (lanes : LaneMask) (f : Nat → Bool) (due : Due) : State :=
  s.modGrp gid (fun g => g.writeP n lanes f due)

end Sys2Proof.Machine

namespace Sys2Proof

/-! ## Registers that a word names (R56) -/

/-- One above the highest vector register that a field names; `k` registers from it on. -/
def Reg.top (r : Reg) (k : Nat) : Nat :=
  match r with
  | .v n => n.val + k
  | .s _ => 0

def two (wide : Bool) : Nat := if wide then 2 else 1

def max3 (a b c : Nat) : Nat := max a (max b c)

/-- One above the highest vector register that a word names (REG_RANGE, R56). -/
def vtop : Instr → Nat
  | .addi _ d a _ | .fabs _ d a | .fneg _ d a | .fclass _ d a | .fsqrt _ _ d a | .frcp _ _ d a
  | .frsq _ _ d a | .fexp2 _ _ d a | .flog2 _ _ d a | .fsin _ _ d a | .fcos _ _ d a | .frnd _ _ d a
  | .fcvt _ _ _ _ _ _ d a | .icvtf _ _ _ d a | .fcvti _ _ _ d a =>
    max (d.top 1) (a.top 1)
  | .addpchi _ d _ => d.top 2
  | .movi _ d _ | .movhi _ d _ => d.top 1
  | .and c w d a b | .andn c w d a b | .or c w d a b | .xor c w d a b | .rotl c w d a b | .shl c w d a b
  | .shr c w d a b | .sar c w d a b | .iadd c w d a b | .isub c w d a b | .imul c w d a b
  | .iaddc c w d a b _ | .isubb c w d a b _ | .imulhi c w _ d a b | .imin c w _ d a b | .imax c w _ d a b
  | .idiv c w _ d a b | .irem c w _ d a b | .isel c w _ _ d a b =>
    let k := two (Machine.isWide c w)
    max3 (d.top k) (a.top k) (b.top k)
  | .brev c w d a | .not c w d a | .mov c w d a | .iabs c w d a | .ineg c w d a =>
    let k := two (Machine.isWide c w)
    max (d.top k) (a.top k)
  | .clz c w d a | .ctz c w d a | .popc c w d a => max (d.top 1) (a.top (two (Machine.isWide c w)))
  | .icmp c w _ _ _ a b => let k := two (Machine.isWide c w); max (a.top k) (b.top k)
  | .bfi _ d a b x | .bperm _ d a b x | .imad _ d a b x => max (max (d.top 1) (a.top 1)) (max (b.top 1) (x.top 1))
  | .bfx _ d a b | .fmin _ d a b | .fmax _ d a b | .fadd _ _ d a b | .fsub _ _ d a b | .fmul _ _ d a b | .ffma _ _ d a b
  | .fdiv _ _ d a b | .fdot4 _ _ _ d a b => max3 (d.top 1) (a.top 1) (b.top 1)
  | .fcmp _ _ _ a b => max (a.top 1) (b.top 1)
  | .vmxp _ d a b x => max (max (d.val + 2) (a.top 1)) (max (b.top 1) (x.top 1))
  | .atom _ _ z op _ _ d a b =>
    let k := two (z == .b64)
    max3 (d.top k) (a.top 1) (b.top (if op == .cas then 2 * k else k))
  | .red _ _ z _ _ _ a b => max (a.top 1) (b.top (two (z == .b64)))
  | .ld _ _ z _ _ d a _ | .st _ _ z _ _ d a _ => max (d.top (two (z == .b64))) (a.top 1)
  | .cflush _ _ _ a _ | .pref _ _ a _ => a.top 1
  | .call _ l _ => l.val + 2
  | .calli _ l a => max (l.val + 2) (a.top 2)
  | .ret _ a => a.top 2
  | .mfsr _ d r => d.top (two r.wide)
  | .mtsr _ a => a.top 2
  | .movri _ d i => max (d.val + 1) (i.top 1)
  | .movwi _ i b => max (i.top 1) (b.val + 1)
  | .pmov _ d => d.val + 1
  | .pmovPut _ a _ => a.top 1
  | .shfl _ _ d a b => max3 (d.val + 1) (a.val + 1) (b.top 1)
  | .vote _ op _ _ => (match op with | .ballot d => d.top 1 | _ => 0)
  | .vred _ _ d a => max (d.top 1) (a.val + 1)
  | .sprobe _ d _ a _ => max (d.val + 1) (a.top 1)
  | .tryT _ d a _ => max (d.val + 2) (a.val + 2)
  | .tret _ a => a.top 1
  | .swf _ d a => max (d.val + 3) (a.top 1)
  | .swc _ d a _ => max (d.val + 1) (a.val + 3)
  | .waitstamp _ _ _ d a _ => max (d.top 2) (a.top 1)
  | .wsync _ _ d _ _ _ | .wwait _ _ d _ _ _ | .wwaitseq _ _ d _ _ _ | .wtest _ _ d _ _ _ => d.top 1
  | _ => 0

/-- The control fields of an instruction word; none for a command or an event. -/
def Instr.ctl? : Instr → Option Ctl
  | .addi c _ _ _ | .addpchi c _ _ | .and c _ _ _ _ | .andn c _ _ _ _ | .atom c _ _ _ _ _ _ _ _
  | .bcopy c _ _ _ _ _ | .bfi c _ _ _ _ | .bfx c _ _ _ | .bperm c _ _ _ _ | .br c _ | .brc c _ _ _ _
  | .call c _ _ | .calli c _ _ | .brev c _ _ _ | .clz c _ _ _ | .ctz c _ _ _ | .brk c _ | .bseal c _ _
  | .bwait c _ | .cflush c _ _ _ _ | .exit c | .fmin c _ _ _ | .fmax c _ _ _ | .fabs c _ _ | .fneg c _ _
  | .fadd c _ _ _ _ | .fsub c _ _ _ _ | .fmul c _ _ _ _ | .ffma c _ _ _ _ | .fdiv c _ _ _ _
  | .fsqrt c _ _ _ | .frcp c _ _ _ | .frsq c _ _ _ | .fexp2 c _ _ _ | .flog2 c _ _ _ | .fsin c _ _ _
  | .fcos c _ _ _ | .fclass c _ _ | .frnd c _ _ _ | .fcmp c _ _ _ _ | .fcvt c _ _ _ _ _ _ _
  | .icvtf c _ _ _ _ | .fcvti c _ _ _ _ | .fdot4 c _ _ _ _ _ | .fence c _ _ | .iadd c _ _ _ _
  | .iaddc c _ _ _ _ _ | .isub c _ _ _ _ | .isubb c _ _ _ _ _ | .imul c _ _ _ _ | .imulhi c _ _ _ _ _
  | .imad c _ _ _ _ | .imin c _ _ _ _ _ | .imax c _ _ _ _ _ | .iabs c _ _ _ | .ineg c _ _ _ | .icinv c _
  | .icmp c _ _ _ _ _ _ | .isel c _ _ _ _ _ _ | .idiv c _ _ _ _ _ | .irem c _ _ _ _ _
  | .ld c _ _ _ _ _ _ _ | .mchk c _ | .mfsr c _ _ | .mtsr c _ | .mlda c _ _ | .msta c _ _ | .mzero c _
  | .mma c _ _ _ _ _ _ _ | .mov c _ _ _ | .movi c _ _ | .movhi c _ _ | .movri c _ _ | .movwi c _ _ | .nop c
  | .or c _ _ _ _ | .not c _ _ _ | .popc c _ _ _ | .rotl c _ _ _ _ | .pset c _ _ _ _ | .pmov c _
  | .pmovPut c _ _ | .pmv c _ _ _ _ | .pstat c _ _ | .pref c _ _ _ | .red c _ _ _ _ _ _ _ | .ret c _
  | .rlaunch c _ _ | .role c _ | .rstop c _ _ | .rstopResume c _ _ | .rstat c _ _ _ | .shl c _ _ _ _
  | .shr c _ _ _ _ | .sar c _ _ _ _ | .shfl c _ _ _ _ | .sign c _ _ | .spawn c _ _ | .sprobe c _ _ _ _
  | .st c _ _ _ _ _ _ _ | .swf c _ _ | .swc c _ _ _ | .tlbinv c _ | .trap c _ | .tryT c _ _ _ | .tret c _
  | .vmxp c _ _ _ _ | .vote c _ _ _ | .vred c _ _ _ | .waitstamp c _ _ _ _ _ | .winit c _ _ _
  | .warrive c _ _ _ | .wsync c _ _ _ _ _ | .wwait c _ _ _ _ _ | .wwaitseq c _ _ _ _ _ | .wtest c _ _ _ _ _
  | .xor c _ _ _ _ | .yield c => some c
  | _ => none

/-- Vector integer and vector floating-point forms, which issue in slot A with u = 0 (R25, R67). -/
def Instr.vectorForm : Instr → Bool
  | .addi .. | .addpchi .. | .and .. | .andn .. | .bfi .. | .bfx .. | .bperm .. | .brev .. | .clz .. | .ctz ..
  | .fmin .. | .fmax .. | .fabs .. | .fneg .. | .fadd .. | .fsub .. | .fmul .. | .ffma .. | .fdiv .. | .fsqrt ..
  | .frcp .. | .frsq .. | .fexp2 .. | .flog2 .. | .fsin .. | .fcos .. | .fclass .. | .frnd .. | .fcmp ..
  | .fcvt .. | .icvtf .. | .fcvti .. | .fdot4 .. | .iadd .. | .iaddc .. | .isub .. | .isubb .. | .imul ..
  | .imulhi .. | .imad .. | .imin .. | .imax .. | .iabs .. | .ineg .. | .icmp .. | .isel .. | .idiv .. | .irem ..
  | .mov .. | .movi .. | .movhi .. | .or .. | .not .. | .popc .. | .rotl .. | .shl .. | .shr .. | .sar ..
  | .xor .. | .vmxp .. => true
  | _ => false

/-- The slot of an instruction: true for B (R25, R67). -/
def Instr.slotB (i : Instr) : Bool :=
  match i.ctl? with
  | some c => c.u || !i.vectorForm
  | none => true

/-- Uses forbidden in a trial whatever the values (the cause-6 row of R270). -/
def trialForbidden (i : Instr) : Bool :=
  match i.ctl? with
  | none => false
  | some c =>
    c.u || (match i with
      | .shfl .. | .vote .. | .vred .. | .movri .. | .movwi .. | .sprobe .. | .mtsr .. | .spawn .. | .role ..
      | .exit .. | .brk .. | .trap .. | .atom .. | .red .. | .fence .. | .pref .. | .cflush .. | .bcopy ..
      | .bseal .. | .bwait .. | .waitstamp .. | .winit .. | .warrive .. | .wsync .. | .wwait .. | .wwaitseq ..
      | .wtest .. | .rlaunch .. | .rstop .. | .rstopResume .. | .rstat .. | .sign .. | .mma .. | .mlda ..
      | .msta .. | .mzero .. | .mchk .. | .pmv .. | .pstat .. | .tryT .. | .swf .. | .swc .. | .icinv ..
      | .tlbinv .. => true
      | .mfsr _ d r => d.isS || r == .cycle || r == .ebal || r == .tbal
      | .ld _ _ _ o _ _ _ _ => o != .rlx
      | .st _ _ _ o _ _ _ _ => o != .rlx
      | _ => false)

/-! ## Accesses and their orders (R136, R139, R351) -/

/-- The order of a form that has one; a form without one is rlx. -/
def Instr.order : Instr → Ord
  | .ld _ _ _ o _ _ _ _ | .st _ _ _ o _ _ _ _ | .atom _ _ _ _ o _ _ _ _ | .red _ _ _ _ o _ _ _ | .fence _ o _ => o
  | .waitstamp _ o _ _ _ _ | .winit _ o _ _ | .warrive _ o _ _ | .wsync _ o _ _ _ _ | .wwait _ o _ _ _ _
  | .wwaitseq _ o _ _ _ _ | .wtest _ o _ _ _ _ => o
  | _ => .rlx

/-- The order has a release half. -/
def Ord.rel? : Ord → Bool
  | .rel | .ar | .sc => true
  | _ => false

/-- The order has an acquire half. -/
def Ord.acq? : Ord → Bool
  | .acq | .ar | .sc => true
  | _ => false

/-- An instruction of the weirs. -/
def Instr.weirForm : Instr → Bool
  | .winit .. | .warrive .. | .wsync .. | .wwait .. | .wwaitseq .. | .wtest .. => true
  | _ => false

/-- Its threads read memory, or wait for what another party writes (R351). -/
def Instr.reads : Instr → Bool
  | .ld .. | .atom .. | .swc .. | .sprobe .. | .waitstamp .. | .mlda .. | .pmv .. => true
  | .wsync .. | .wwait .. | .wwaitseq .. | .wtest .. => true
  | _ => false

/-- Its threads write memory. -/
def Instr.writes : Instr → Bool
  | .st .. | .atom .. | .red .. | .swc .. | .msta .. | .pmv .. | .winit .. | .warrive .. | .wsync .. => true
  | _ => false

/-- What every earlier event of its threads happens before (R143, R149, R355, R388, R396). -/
def Instr.publishes : Instr → Bool
  | .bcopy .. | .rlaunch .. | .rstopResume .. | .spawn .. | .icinv .. | .tlbinv .. => true
  | _ => false

/-- A read or a write of memory, not an act on a weir or a wait for a stamp. -/
def Instr.access : Instr → Bool
  | .ld .. | .st .. | .atom .. | .red .. | .sprobe .. | .swc .. | .mlda .. | .msta .. | .mma .. | .pmv .. => true
  | _ => false

def Instr.isFence : Instr → Bool
  | .fence .. => true
  | _ => false

def Instr.isSeal : Instr → Bool
  | .bseal .. => true
  | _ => false

/-- It acts on memory, or orders what does. A seal stands behind the copies issued before it. -/
def Instr.inOrder (i : Instr) : Bool := i.reads || i.writes || i.publishes || i.isFence || i.isSeal

/-- It acts on the store space. -/
def Instr.onStore (i : Instr) : Bool :=
  match i with
  | .ld _ sp _ _ _ _ _ _ | .st _ sp _ _ _ _ _ _ | .atom _ sp _ _ _ _ _ _ _ | .red _ sp _ _ _ _ _ _ => sp == .s
  | _ => i.weirForm || i.publishes || i.isFence || i.isSeal || i.reads && i.writes

/-- The older instruction must complete before the younger one, of a common thread, is performed: an acquire holds all
that follows it (R351, R363), an acquire wait the accesses that follow it (R410, R413), a release waits for the writes
before it (R351, R401, R412) and an acquire FENCE for the reads, a command of a unit makes its accesses at its place in po
(R214, R215, R228), and what is not yet performed keeps its place (DEDUCED, log 54). -/
def mustPrecede (older : Instr) (behind : Bool) (younger : Instr) : Bool :=
  (behind && (!older.weirForm || younger.onStore))
  || (match older with
    | .ld .. | .atom .. => older.order.acq?
    | .waitstamp .. | .wsync .. | .wwait .. | .wwaitseq .. => older.order.acq? && younger.access
    | .fence .. | .mlda .. | .msta .. | .pmv .. => true
    | .mma .. => younger.order.rel? || younger.publishes || younger.isFence
    | _ => false)
  || ((younger.order.rel? || younger.publishes) && older.writes)
  || (younger.isFence && younger.order.acq? && older.reads)

/-- A privileged instruction (R69). -/
def Instr.privileged : Instr → Bool
  | .icinv .. | .tlbinv .. => true
  | _ => false

end Sys2Proof
end

