-- ==== Sys2Proof/Machine/Issue.lean ====
section
/-! DEFINITION. The issue of one instruction word: word faults, trial rules, and the shapes that most meanings
share (02 R48 to R52, R70; 13 R246, R257; 14 R269, R270). -/
namespace Sys2Proof.Machine

/-- The bits of an instruction word, for a fault record or an image. -/
def wordOf : Instr → Word
  | .reservedOpcode w => w
  | i => (encodeWord i).getD 0

/-- The accumulator tile that a word names (R203). -/
def tileOf : Instr → Option Nat
  | .mma _ _ t _ _ _ _ _ => some t.val
  | .mlda _ t _ => some t.val
  | .msta _ t _ => some t.val
  | .mzero _ t => some t.val
  | _ => none

/-- The word is no instruction: it does not decode, or its fields are refused. -/
def illegalWord : Instr → Bool
  | .reservedOpcode _ => true
  | i => !wellFormed i

/-- The tile of an MLDA or MSTA whose register a alone is refused: the word would be one with s0 there (R369). -/
def badPairTile (w : Word) : Option Nat :=
  match decodeWord ((w &&& ~~~0xFF0000#64) ||| 0xA00000#64) with
  | .ok (.mlda _ t _) => some t.val
  | .ok (.msta _ t _) => some t.val
  | _ => none

/-- The word faults of R70, in the order that it gives for every word, but that a tile past the allotment comes before the
descriptor register of MLDA and MSTA (R369; DEDUCED, log 53). -/
def State.wordFault (s : State) (i : Instr) : Option Nat :=
  if illegalWord i then
    match badPairTile (wordOf i) with
    | some t => if (s.regOf s.cur).rcb.tiles ≤ t then some Code.regRange else some Code.illegal
    | none => some Code.illegal
  else if i.privileged && !s.systemCode (s.cidOf s.cur) s.issuePc.toNat then some Code.privileged
  else if s.g.valloc < vtop i then some Code.regRange
  else match tileOf i with
    | some t => if (s.regOf s.cur).rcb.tiles ≤ t then some Code.regRange else none
    | none => none

/-- A word fault of the whole issue set, outside a trial (R70). -/
def State.faultWord (s : State) (w : Word) (code : Nat) : State :=
  s.takeFault s.cur
    { code := code, pc := s.issuePc, addr := (if code = Code.illegal ∨ code = Code.regRange then 0
        else fetchAddr code s.issuePc), lanes := s.iset, detail := 0, word := w } (.word s.cur s.iset)

/-! ## Trial lanes (R269, R270) -/

/-- Each word issued takes one from the allowance of its lanes (R269) (DEDUCED, log 30). -/
def State.spendAllowance (s : State) : State :=
  s.modG (fun g => g.modTh s.iset (fun t => if t.trial.isSome then { t with allow := t.allow - 1 } else t))

/-- A wait mask or set field that names the set flag of the lane's own TRY (R270). -/
def namesOwnFlag (c : Ctl) (t : Thread) : Bool :=
  match t.trial with
  | some tr => c.wait.getLsbD tr.flag || c.set.toNat == tr.flag
  | none => false

/-- A word faults in every lane of a trial issue set (R70, R270). -/
def State.faultTrial (s : State) (code : Nat) : State :=
  match trialCause code with
  | some cause => s.outcomes s.cur s.iset cause
  | none => s

/-- Keeps the lanes of `m` in the issue set, the lowest of them in place of the lane that chose it. -/
def State.keepLanes (s : State) (m : LaneMask) : State :=
  { s with iset := m, ilane := (if bitOf m s.ilane then s.ilane else lowLane m) }

/-- The lanes whose window forbids a register that the word names (R266, R270). -/
def State.overWindow (s : State) (i : Instr) : LaneMask :=
  filterLanes s.iset (fun l => match (s.g.th l).trial with
    | some t => decide (8 * t.vlim < vtop i)
    | none => false)

/-- A word issued for trial lanes: the first row of R270 that applies to a lane decides. -/
def State.issueTrial (s : State) (i : Instr) (eff : State → State) : State :=
  let s := s.spendAllowance
  match s.wordFault i with
  | some code => s.faultTrial code
  | none =>
    let past := s.overWindow i
    let s := if past == 0 then s else (s.outcomes s.cur past 7).keepLanes (s.iset &&& ~~~past)
    let six := filterLanes s.iset (fun l =>
      trialForbidden i || (match i.ctl? with | some c => namesOwnFlag c (s.g.th l) | none => false))
    let s := if six == 0 then s else (s.outcomes s.cur six 6).keepLanes (s.iset &&& ~~~six)
    if s.iset == 0 then s else eff s

/-- One instruction word is issued: `eff` is its effect past the checks that R70 makes of every word. -/
def issueWord (i : Instr) (eff : State → State) (s : State) : Host.Outcome State Fault Refusal :=
  match findK s.groups s.cur with
  | none => .fault .noGroup
  | some g =>
    .next (if g.inTrial s.ilane then s.issueTrial i eff
      else match s.wordFault i with
        | some code => s.faultWord (wordOf i) code
        | none => eff s)

/-! ## Fixed latency (R52, R67) -/

/-- The latency for u = 0 or for u = 1. -/
def lat (c : Ctl) (l0 l1 : Nat) : Nat := if c.u then l1 else l0

/-- A set flag named by a form of fixed latency is charged until its result is readable. -/
def State.chargeFixed (s : State) (i : Instr) (c : Ctl) (m : LaneMask) (due : Nat) : State :=
  match setFlag c with
  | none => s
  | some _ =>
    ({ s with nextId := s.nextId + 1 }).addPend s.cur
      { id := s.nextId, pc := s.issuePc, instr := i, lanes := m, done := m, flag := setFlag c, kind := .result,
        due := due, ops := Ops.none, recKey := 0, dead := [], entered := 0 }

/-- When a result of latency `L` of the word being issued is readable (R52). -/
def State.dueIn (s : State) (L : Nat) : Due := .fixed (s.cycle + L) (s.g.dists + L)

/-- A form of fixed latency: `write` makes its results in the active lanes, due at a cycle. -/
def State.fixedForm (s : State) (i : Instr) (c : Ctl) (L : Nat) (write : State → LaneMask → Due → State) : State :=
  let m := s.active c
  if m == 0 then s.advance s.cur s.iset
  else ((write s m (s.dueIn L)).chargeFixed i c m (s.cycle + L)).advance s.cur s.iset

/-- A form of fixed latency with one register result. -/
def State.fixedReg (s : State) (i : Instr) (c : Ctl) (L : Nat) (d : Reg) (wide : Bool) (f : Nat → Word) : State :=
  s.fixedForm i c L (fun t m due => t.putReg s.cur d wide m s.ilane f due)

/-- A form of fixed latency with one predicate result; with u = 1 every active thread gets lane l's (R48). -/
def State.fixedPred (s : State) (i : Instr) (c : Ctl) (L : Nat) (n : Nat) (f : Nat → Bool) : State :=
  s.fixedForm i c L (fun t m due => t.putPred s.cur n m (fun l => f (if c.u then s.ilane else l)) due)

/-! ## Instructions performed lane by lane (R130, R257) -/

/-- The cause-3 row of R270, as a code of its own. -/
def windowCode : Nat := 0x100

/-- The trial cause of a lane's fault. -/
def laneCause (code : Nat) : Option Nat := if code = windowCode then some 3 else trialCause code

/-- What a lane's fault says: code and address. -/
abbrev LaneFault := Option (Nat × Word)

/-- Performs lanes in order; the lanes done and the faults of the others. -/
def State.runLanes (f : Nat → State → State × LaneFault) :
    List Nat → State → LaneMask → List (Nat × Nat × Word) → State × LaneMask × List (Nat × Nat × Word)
  | [], s, done, fs => (s, done, fs.reverse)
  | l :: ls, s, done, fs =>
    match f l s with
    | (s, none) => State.runLanes f ls s (done ||| laneBit l) fs
    | (s, some (c, a)) => State.runLanes f ls s done ((l, c, a) :: fs)

/-- The lanes of a run whose fault a trial confines. -/
def State.confined (s : State) (gid : Nat) (fs : List (Nat × Nat × Word)) : List (Nat × Nat) :=
  fs.filterMap (fun f =>
    if (s.grp gid).inTrial f.1 then (laneCause f.2.1).map (fun cause => (f.1, cause)) else none)

/-- Trial lanes return with their causes from the word at `pc`. -/
def State.returnLanes (s : State) (gid : Nat) (pc : Word) : List (Nat × Nat) → State
  | [] => s
  | (l, cause) :: rest =>
    (s.outcome gid l cause (trialOff ((s.grp gid).th l) pc)).returnLanes gid pc rest

/-- The end of a run: confined lanes return, a fault of the others suspends the workgroup with the record of the
instruction and its done mask (R130, R246). -/
def State.finishRun (s : State) (gid id : Nat) (i : Instr) (done : LaneMask) (fs : List (Nat × Nat × Word)) : State :=
  let conf := s.confined gid fs
  let rest := fs.filter (fun f => !(conf.any (fun c => c.1 == f.1)))
  let full := done ||| maskOf (conf.map (fun c => c.1))
  let pc := match (s.grp gid).pend? id with | some p => p.pc | none => 0
  match worst rest with
  | none =>
    (s.modGrp gid (fun g => g.modPend id (fun p =>
      { p with done := p.done ||| full, kind := .result, recKey := 0 }))).returnLanes gid pc conf
  | some (c, a, m) =>
    let key := s.nextKey (s.cidOf gid)
    let s := s.modGrp gid (fun g => g.modPend id (fun p =>
      { p with done := p.done ||| full, kind := .faulted, recKey := key }))
    (s.returnLanes gid pc conf).takeFault gid
      { code := c, pc := pc, addr := a, lanes := m, detail := 0, word := wordOf i } (.instr gid id)

/-- Records an issued instruction of variable latency. -/
def State.startPend (s : State) (i : Instr) (c : Ctl) (m : LaneMask) (kind : PendKind) (ops : Ops) : State :=
  ({ s with nextId := s.nextId + 1 }).addPend s.cur
    { id := s.nextId, pc := s.issuePc, instr := i, lanes := m, done := 0, flag := setFlag c, kind := kind, due := 0,
      ops := ops, recKey := 0, dead := [], entered := 0 }

/-- The lanes in which an instruction acts: once for the group with u = 1 (R48). -/
def actLanes (c : Ctl) (m : LaneMask) (l : Nat) : List Nat := if c.u then [l] else lanesOf m

/-- With u = 1 the one act stands for every active thread. -/
def widen (c : Ctl) (m done : LaneMask) (fs : List (Nat × Nat × Word)) : LaneMask :=
  if c.u then (if fs.isEmpty then m else 0) else done

/-- A fault of that one act is one of every active thread. -/
def widenFaults (c : Ctl) (m : LaneMask) (fs : List (Nat × Nat × Word)) : List (Nat × Nat × Word) :=
  if c.u then
    match fs with
    | [] => []
    | f :: _ => (lanesOf m).map (fun l => (l, f.2))
  else fs

/-! ## Order among the accesses of a thread -/

/-- One of these records, older than `i`, must complete before `i` is performed in the lanes `m`. -/
def waitsFor (older : List Pend) (i : Instr) (m : LaneMask) : Bool :=
  older.any (fun p => p.lanes &&& m != 0 && mustPrecede p.instr (p.kind == .behind) i)

/-- The instruction at the issue port cannot be performed yet: it is issued, stands recorded whole, and the group goes on
(R412; log 54). A lane in its candidate has waited before, at the boundary of its trial (R17, R270). -/
def State.mustWait (s : State) (i : Instr) (m : LaneMask) : Bool :=
  i.inOrder && !(s.g.inTrial s.ilane) && waitsFor s.g.pending i m

/-- It is recorded to be performed later. -/
def State.putBehind (s : State) (i : Instr) (c : Ctl) (m : LaneMask) (ops : Ops) : State :=
  (s.startPend i c m .behind ops).advance s.cur s.iset

/-- A recorded instruction may be performed now. -/
def State.behindReady (s : State) (gid : Nat) (p : Pend) : Bool :=
  p.kind == .behind && !(waitsFor ((s.grp gid).pending.takeWhile (fun q => q.id != p.id)) p.instr p.lanes)

/-- Lane by lane at once: `f` is the act of one lane under the record's number. -/
def State.lanesNow (s : State) (i : Instr) (c : Ctl) (m : LaneMask) (ops : Ops)
    (f : Nat → Nat → State → State × LaneFault) : State :=
  let id := s.nextId
  let r := State.runLanes (f id) (actLanes c m s.ilane) (s.startPend i c m .result ops) 0 []
  let gone := maskOf ((r.1.confined s.cur r.2.2).map (fun x => x.1))
  let t := r.1.finishRun s.cur id i (widen c m r.2.1 r.2.2) (widenFaults c m r.2.2)
  (t.afterReturn s.cur gone).advance s.cur (s.iset &&& ~~~gone)

/-- An instruction of variable latency that acts lane by lane. One that `bad` says the checks at its issue refuse acts at
once, and so faults there, whatever is still to be performed before it. -/
def State.perLane (s : State) (i : Instr) (c : Ctl) (ops : Ops) (f : Nat → Nat → State → State × LaneFault)
    (bad : Bool := false) : State :=
  let m := s.active c
  if m == 0 then s.advance s.cur s.iset
  else if s.mustWait i m && !bad then s.putBehind i c m ops
  else s.lanesNow i c m ops f

/-- The lanes not yet done are performed again (R130, R247). -/
def State.redoLanes (s : State) (gid : Nat) (p : Pend) (f : Nat → State → State × LaneFault) : State :=
  let c := (p.instr.ctl?).getD { u := false, dist := 0, wait := 0, set := 15, neg := false, pred := 0 }
  let todo := p.lanes &&& ~~~p.done
  let r := State.runLanes f (actLanes c todo (lowLane todo)) s 0 []
  let gone := maskOf ((r.1.confined gid r.2.2).map (fun x => x.1))
  (r.1.finishRun gid p.id p.instr (widen c todo r.2.1 r.2.2) (widenFaults c todo r.2.2)).afterReturn gid gone

/-- An instruction that acts once for an issue set with an active thread, completing like one of variable
latency: `act` sees the record's number (DEDUCED, log 34). One that `bad` says the checks at its issue refuse acts at once. -/
def State.onceForm (s : State) (i : Instr) (c : Ctl) (ops : Ops) (act : Nat → LaneMask → State → State)
    (bad : Bool := false) : State :=
  let m := s.active c
  if m == 0 then s.advance s.cur s.iset
  else if s.mustWait i m && !bad then s.putBehind i c m ops
  else (act s.nextId m (s.startPend i c m .result ops)).advance s.cur s.iset

/-- A form that completes in its issue cycle: a set flag is charged and discharged there (R73, R374). -/
def State.plainForm (s : State) (c : Ctl) (act : LaneMask → State → State) : State :=
  let m := s.active c
  (if m == 0 then s else act m s).advance s.cur s.iset

end Sys2Proof.Machine
end

