-- ==== Sys2Proof/Machine/Sign.lean ====
section
/-! DEFINITION. Signing (11 R206 to R209; 22 R394). -/
namespace Sys2Proof.Machine

def State.conv (s : State) (wid k : Nat) : Conv := nth (s.wg wid).conv Conv.fresh k
def State.setConv (s : State) (wid k : Nat) (v : Conv) : State :=
  s.modWg wid (fun w => { w with conv := w.conv.set k v })

/-- What signing did in a lane (R207). -/
inductive SignRes where
  | signed
  | waits
  | faults (code : Nat)
  deriving DecidableEq, Repr

/-- sign(k, mask, l, g) up to the hold (R207). -/
def State.signLane (s : State) (gid k : Nat) (mask : LaneMask) (guard : Bool) (l : Nat) : State × SignRes :=
  let g := s.grp gid
  let v := s.conv g.wid k
  if v.state ≠ .empty ∧ v.owner ≠ g.grpid then (s, .waits)
  else if !bitOf mask l then (s, .faults Code.convMismatch)
  else if v.state = .complete then (s, .waits)
  else if v.state = .collecting ∧ v.declared ≠ mask then (s, .faults Code.convMismatch)
  else
    let v := if v.state = .empty then
        { state := .collecting, owner := g.grpid, declared := mask, signed := 0, zfrag := 0 }
      else v
    if (lanesOf mask).any (fun j => (g.th j).exited) then (s.setConv g.wid k v, .faults Code.convLost)
    else
      let z := if guard then v.zfrag else v.zfrag ||| laneBit l
      (s.setConv g.wid k { v with signed := v.signed ||| laneBit l, zfrag := z }, .signed)

def Held.signs (h : Held) (k : Nat) : Option Nat :=
  match h with
  | .sign j p => if j = k then some p else none
  | _ => none

/-- The held signers of the round that `k` collects or has just completed. -/
def State.signers (s : State) (gid k : Nat) : LaneMask :=
  let g := s.grp gid
  let v := s.conv g.wid k
  if v.owner = g.grpid ∧ v.state ≠ .empty then
    filterLanes v.signed (fun l => ((g.th l).held.signs k).isSome)
  else 0

/-- Lanes of a held instruction are done: its record completes with the last of them, and they advance. -/
def State.releaseLanes (s : State) (gid id : Nat) (m : LaneMask) : State :=
  let s := s.modGrp gid (fun g =>
    let g := g.modTh m (fun t => { t with held := .no })
    let g := g.modPend id (fun p => { p with done := p.done ||| m })
    match g.pend? id with
    | some p => if p.lanes &&& ~~~p.done == 0 then (g.dropPend id).dischargeFlag p.flag else g
    | none => g)
  s.advance gid m

/-- The records that hold some of these lanes at SIGN, each with its lanes. -/
def Group.signPends (g : Group) (k : Nat) (m : LaneMask) : List (Nat × LaneMask) :=
  g.pending.filterMap (fun p =>
    let h := filterLanes m (fun l => (g.th l).held.signs k == some p.id)
    if h == 0 then none else some (p.id, h))

/-- SIGN_RELEASE: the round is complete and every held signer goes on (R207). -/
def State.signRelease (s : State) (gid k : Nat) : State :=
  let m := s.signers gid k
  let v := s.conv (s.grp gid).wid k
  let s := s.setConv (s.grp gid).wid k { v with state := .complete }
  ((s.grp gid).signPends k m).foldl (fun s p => s.releaseLanes gid p.1 p.2) s

/-- The register is EMPTY: the lanes that wait for that sign next (R207). -/
def State.callSigners (s : State) (wid k : Nat) : State := { s with agenda := .signers wid k :: s.agenda }

/-- CONV_LOST and CONV_MISMATCH: the round is abandoned, and every thread that signed it and is still held faults
together with `extra`; with none of them nothing faults (R207, R394) (DEDUCED, log 31). -/
def State.abandonRound (s : State) (gid k code id : Nat) (extra : LaneMask) : State :=
  let g := s.grp gid
  let v := s.conv g.wid k
  let own := v.state = .collecting ∧ v.owner = g.grpid
  let m := (if own then s.signers gid k else 0) ||| extra
  let s := if own then (s.setConv g.wid k Conv.fresh).callSigners g.wid k else s
  if m = 0 then s else
  let key := s.nextKey (s.cidOf gid)
  let ids := ((s.grp gid).signPends k m).map (fun p => p.1)
  let s := s.modGrp gid (fun g => { g with pending := g.pending.map (fun p =>
    if ids.contains p.id || p.id == id then { p with kind := .faulted, recKey := key } else p) })
  let first := (s.grp gid).pending.find? (fun p => p.id == id || ids.contains p.id)
  s.takeFault gid
    { code := code, pc := (first.map (fun p => p.pc)).getD 0, addr := 0, lanes := m, detail := k,
      word := (first.map (fun p => wordOf p.instr)).getD 0 } (.pends gid)

/-- Lanes of one SIGN sign in ascending order; a fault stops the rest, which stay held (R207, R394). `guards`
are the lanes whose guard was true at issue. -/
def State.signLanes (s : State) (gid k id : Nat) (mask guards : LaneMask) : List Nat → State
  | [] => s
  | l :: ls =>
    match s.signLane gid k mask (bitOf guards l) l with
    | (s, .waits) => s.signLanes gid k id mask guards ls
    | (s, .faults code) => s.abandonRound gid k code id (laneBit l)
    | (s, .signed) =>
      let s := if bitOf guards l then s else s.releaseLanes gid id (laneBit l)
      let v := s.conv (s.grp gid).wid k
      let s := if v.signed == v.declared then s.signRelease gid k else s
      s.signLanes gid k id mask guards ls

/-- A SIGN performed for the lanes of its record that are not done. -/
def State.signAgain (s : State) (gid : Nat) (p : Pend) : State :=
  match p.instr with
  | .sign _ k _ =>
    let todo := p.lanes &&& ~~~p.done
    let s := s.modGrp gid (fun g => (g.modTh todo (fun t => { t with held := .sign k.val p.id })).modPend p.id
      (fun p => { p with kind := .sign, recKey := 0 }))
    s.signLanes gid k.val p.id ((p.ops.la 0).setWidth 32) ((p.ops.lb 0).setWidth 32) (lanesOf todo)
  | _ => s

/-- The lanes that wait at SIGN k for the register to become EMPTY sign now, groups by grpid (R207). -/
def State.wakeSigners (s : State) (wid k : Nat) : State :=
  (s.wg wid).gids.foldl (fun s gid =>
    (s.grp gid).pending.foldl (fun s p =>
      match p.instr, p.kind with
      | .sign _ j _, .sign =>
        if j.val = k then
          let w := filterLanes (p.lanes &&& ~~~p.done) (fun l => !bitOf (s.signers gid k) l)
          s.signLanes gid k p.id ((p.ops.la 0).setWidth 32) ((p.ops.lb 0).setWidth 32) (lanesOf w)
        else s
      | _, _ => s) s) s

/-- R207, R394: every thread of the issue set signs, whatever its guard; the active ones are held. With no active thread
the set flag is not charged (R49) (DEDUCED, log 31). -/
def execSign (c : Ctl) (k : Fin 8) (a : SR) (s : State) : Host.Outcome State Fault Refusal :=
  issueWord (.sign c k a) (fun s =>
    let gid := s.cur
    let guards := s.active c
    let m := s.iset
    let ops : Ops := { a := [s.readS a.val], b := [guards.setWidth 64], c := [] }
    let id := s.nextId
    let charge := if guards == 0 then { c with set := 15 } else c
    let t := (s.startPend (.sign c k a) charge m .sign ops).modG (fun g =>
      g.modTh m (fun t => { t with held := .sign k.val id }))
    t.signLanes gid k.val id ((s.readS a.val).setWidth 32) guards (lanesOf m)) s

end Sys2Proof.Machine
end

