-- ==== Sys2Proof/Machine/Branch.lean ====
section
/-! DEFINITION. Transfers, EXIT, BRK, TRAP and ROLE (19 R324 to R328, R334, R335; 21 R383, R386; 22 R404). -/
namespace Sys2Proof.Machine

/-- R62: hdr + sext(offset24) * 8. -/
def blockTarget (t : Thread) (off : BitVec 24) : Word := t.hdr + off.signExtend 64 * 8

/-- R324, R325. -/
def execBr (c : Ctl) (off : BitVec 24) (s : State) : Host.Outcome State Fault Refusal :=
  issueWord (.br c off) (fun s =>
    let m := s.active c
    s.transferAll s.cur s.issuePc (wordOf (.br c off)) false none
      ((lanesOf m).map (fun l => (l, blockTarget (s.g.th l) off))) (s.iset &&& ~~~m)) s

/-- The active threads that BRC takes (R325). -/
def brcTaken (md : BrcMode) (m q : LaneMask) : LaneMask :=
  match md with
  | .lane => q
  | .any => if q == 0 then 0 else m
  | .all => if q == m then m else 0

/-- R324, R325. -/
def execBrc (c : Ctl) (md : BrcMode) (neg : Bool) (n : PR) (off : BitVec 24) (s : State) :
    Host.Outcome State Fault Refusal :=
  issueWord (.brc c md neg n off) (fun s =>
    let m := s.active c
    let t := brcTaken md m (filterLanes m (fun l => xor (s.readP n.val l) neg))
    s.transferAll s.cur s.issuePc (wordOf (.brc c md neg n off)) false none
      ((lanesOf t).map (fun l => (l, blockTarget (s.g.th l) off))) (s.iset &&& ~~~t)) s

/-- R324, R325. -/
def execCall (c : Ctl) (l : VR) (off : BitVec 24) (s : State) : Host.Outcome State Fault Refusal :=
  issueWord (.call c l off) (fun s =>
    let m := s.active c
    s.transferAll s.cur s.issuePc (wordOf (.call c l off)) true (some l.val)
      ((lanesOf m).map (fun k => (k, blockTarget (s.g.th k) off))) (s.iset &&& ~~~m)) s

/-- R324, R325. -/
def execCalli (c : Ctl) (l : VR) (a : Reg) (s : State) : Host.Outcome State Fault Refusal :=
  issueWord (.calli c l a) (fun s =>
    let m := s.active c
    s.transferAll s.cur s.issuePc (wordOf (.calli c l a)) true (some l.val)
      ((lanesOf m).map (fun k => (k, s.src true a k))) (s.iset &&& ~~~m)) s

/-- R383. -/
def execRet (c : Ctl) (a : Reg) (s : State) : Host.Outcome State Fault Refusal :=
  issueWord (.ret c a) (fun s =>
    let m := s.active c
    s.transferAll s.cur s.issuePc (wordOf (.ret c a)) false none
      ((lanesOf m).map (fun k => (k, s.src true a k))) (s.iset &&& ~~~m)) s

/-- CONV_LOST: rounds that collect a lane which has exited are lost (R208, R335). -/
def State.loseRounds (s : State) (gid : Nat) (m : LaneMask) : State :=
  (List.range 8).foldl (fun s k =>
    let v := s.conv (s.grp gid).wid k
    if v.state = .collecting ∧ v.owner = (s.grp gid).grpid ∧ v.declared &&& m ≠ 0 then
      s.abandonRound gid k Code.convLost 0 0
    else s) s

/-- R334, R335: the active threads never issue again and leave every set they belonged to. -/
def execExit (c : Ctl) (s : State) : Host.Outcome State Fault Refusal :=
  issueWord (.exit c) (fun s =>
    let m := s.active c
    if m == 0 then s.advance s.cur s.iset
    else
      let t := s.modG (fun g => (g.modTh m (fun t => { t with exited := true, held := .no })).rejoin)
      (t.loseRounds s.cur m).advance s.cur (s.iset &&& ~~~m)) s

/-- R328, R404: the active lanes are done; the workgroup is suspended with the immediate in the record. -/
def State.stopForm (s : State) (i : Instr) (c : Ctl) (code : Nat) (imm : BitVec 20) : State :=
  let m := s.active c
  let t := s.advance s.cur s.iset
  if m == 0 then t
  else t.takeFault s.cur
    { code := code, pc := s.issuePc, addr := 0, lanes := m, detail := imm.toNat, word := wordOf i } (.done s.cur)

/-- R328. -/
def execBrk (c : Ctl) (imm : BitVec 20) (s : State) : Host.Outcome State Fault Refusal :=
  issueWord (.brk c imm) (fun s => s.stopForm (.brk c imm) c Code.breakpoint imm) s

/-- R404. -/
def execTrap (c : Ctl) (imm : BitVec 20) (s : State) : Host.Outcome State Fault Refusal :=
  issueWord (.trap c imm) (fun s => s.stopForm (.trap c imm) c Code.trap imm) s

/-! ## ROLE (R42 to R44, R386) -/

def Held.roleOf : Held → Option Nat
  | .role n _ => some n
  | _ => none

/-- The threads that wait at ROLE. -/
def Group.atRole (g : Group) : LaneMask := filterLanes g.live (fun l => (g.th l).held.roleOf.isSome)

/-- The records of waiting ROLE issues. -/
def Group.rolePends (g : Group) : List Pend := g.pending.filter (fun p => p.kind == .role)

/-- A record of waiting threads faults ROLE_UNDECLARED. -/
def State.roleFault (s : State) (gid : Nat) (ids : List Nat) (m : LaneMask) (n : Nat) : State :=
  let key := s.nextKey (s.cidOf gid)
  let first := (s.grp gid).pending.find? (fun p => ids.contains p.id)
  (s.modGrp gid (fun g => { g with pending := g.pending.map (fun p =>
      if ids.contains p.id then { p with kind := .faulted, recKey := key } else p) })).takeFault gid
    { code := Code.roleUndeclared, pc := (first.map (fun p => p.pc)).getD 0, addr := 0, lanes := m, detail := n,
      word := (first.map (fun p => wordOf p.instr)).getD 0 } (.pends gid)

/-- Threads arrive at ROLE n under record `id`: an undeclared role, or two roles at once, fault (R44, R386). -/
def State.roleArrive (s : State) (gid id n : Nat) (m : LaneMask) : State :=
  let s := s.modGrp gid (fun g => (g.modTh m (fun t => { t with held := .role n id })).modPend id
    (fun p => { p with kind := .role, recKey := 0 }))
  let g := s.grp gid
  if (s.regOf gid).rcb.roles.length < n then s.roleFault gid [id] m 0
  else
    let w := g.atRole
    if (lanesOf w).any (fun l => (g.th l).held.roleOf != some n) then
      s.roleFault gid (g.rolePends.map (fun p => p.id)) w (((g.th (lowLane w)).held.roleOf).getD 0)
    else s

/-- R43, R386: the active threads wait; a guarded-off thread advances. -/
def execRole (c : Ctl) (n : BitVec 2) (s : State) : Host.Outcome State Fault Refusal :=
  issueWord (.role c n) (fun s =>
    let m := s.active c
    let rest := s.iset &&& ~~~m
    if m == 0 then s.advance s.cur rest
    else ((s.startPend (.role c n) c m .role Ops.none).advance s.cur rest).roleArrive s.cur s.nextId n.toNat m) s

/-- ROLE performed again for the threads of a record (R247). -/
def State.roleAgain (s : State) (gid : Nat) (p : Pend) : State :=
  match p.instr with
  | .role _ n => s.roleArrive gid p.id n.toNat (p.lanes &&& ~~~p.done)
  | _ => s

end Sys2Proof.Machine
end

