-- ==== Sys2Proof/Machine/Number.lean ====
section
/-! DEFINITION. Numbers (04): exact dyadic values, decoding of the eight formats, the one rounding of R91 to R93,
LNS6 (R94 to R99), conversions (R100 to R105), and the exact operations behind the rounded forms. -/
namespace Sys2Proof.Machine

/-- An exact value: NaN, an infinity, or (-1)^neg * m * 2^e; m = 0 is a zero with its sign. -/
inductive FV where
  | nan
  | inf (neg : Bool)
  | fin (neg : Bool) (m : Nat) (e : Int)
  deriving DecidableEq, Repr

/-- 2^n for an integer n that is not negative. -/
def pow2 (n : Int) : Nat := 2 ^ n.toNat

/-! ## Formats (R86) -/

/-- A binary format: fraction bits, exponent bits, bias; `ieee` when the top exponent holds infinities and
NaNs, otherwise (E4M3) only its last code is NaN. -/
structure FF where
  p    : Nat
  x    : Nat
  bias : Nat
  ieee : Bool
  deriving DecidableEq, Repr

def ffFp32 : FF := { p := 23, x := 8, bias := 127, ieee := true }
def ffFp16 : FF := { p := 10, x := 5, bias := 15, ieee := true }
def ffBf16 : FF := { p := 7, x := 8, bias := 127, ieee := true }
def ffE4m3 : FF := { p := 3, x := 4, bias := 7, ieee := false }
def ffE5m2 : FF := { p := 2, x := 5, bias := 15, ieee := true }

def FF.width (f : FF) : Nat := f.p + f.x + 1
/-- The exponent field of all ones. -/
def FF.top (f : FF) : Nat := 2 ^ f.x - 1
/-- The code of the largest finite magnitude. -/
def FF.maxCode (f : FF) : Nat := if f.ieee then f.top * 2 ^ f.p - 1 else 2 ^ (f.p + f.x) - 2
/-- The canonical NaN (R89). -/
def FF.nanCode (f : FF) : Nat := if f.ieee then f.top * 2 ^ f.p + 2 ^ (f.p - 1) else 2 ^ (f.p + f.x) - 1
def FF.signed (f : FF) (neg : Bool) (c : Nat) : Nat := if neg then c + 2 ^ (f.p + f.x) else c

/-- The value of a code. -/
def FF.decode (f : FF) (c : Nat) : FV :=
  let neg := c.testBit (f.p + f.x)
  let ex := bits c (f.p + f.x - 1) f.p
  let fr := c % 2 ^ f.p
  if f.ieee && ex == f.top then (if fr == 0 then .inf neg else .nan)
  else if !f.ieee && ex == f.top && fr == 2 ^ f.p - 1 then .nan
  else if ex == 0 then .fin neg fr (1 - (f.bias : Int) - f.p)
  else .fin neg (fr + 2 ^ f.p) ((ex : Int) - f.bias - f.p)

/-- Whether a magnitude is rounded away from zero, given twice the remainder against the quantum: 0 exact, 1 below
half, 2 half, 3 above. -/
def roundUp (r : Rnd) (neg : Bool) (odd : Bool) (rem : Nat) : Bool :=
  match r with
  | .rne => rem == 3 || (rem == 2 && odd)
  | .rtz => false
  | .rup => !neg && rem != 0
  | .rdn => neg && rem != 0

/-- m / 2^k to an integer, under a mode. -/
def roundShift (r : Rnd) (neg : Bool) (m k : Nat) : Nat :=
  let q := m / 2 ^ k
  let rest := m % 2 ^ k
  let rem := if rest = 0 then 0 else if 2 * rest < 2 ^ k then 1 else if 2 * rest = 2 ^ k then 2 else 3
  if roundUp r neg (q % 2 == 1) rem then q + 1 else q

/-- m * 2^e as a multiple of 2^q, rounded under a mode. -/
def roundAt (r : Rnd) (neg : Bool) (m : Nat) (e q : Int) : Nat :=
  if q ≤ e then m * pow2 (e - q) else roundShift r neg m (q - e).toNat

/-- R92: the code of a result that overflows. -/
def FF.overflow (f : FF) (r : Rnd) (neg : Bool) : Nat :=
  let inf := f.top * 2 ^ f.p
  if !f.ieee then f.maxCode
  else match r with
    | .rne => inf
    | .rtz => f.maxCode
    | .rup => if neg then f.maxCode else inf
    | .rdn => if neg then inf else f.maxCode

/-- round_to: one rounding of an exact finite value (R91, R92); `flush` is the second rule of R93. -/
def FF.roundFin (f : FF) (r : Rnd) (flush : Bool) (neg : Bool) (m : Nat) (e : Int) : Nat :=
  if m = 0 then f.signed neg 0
  else
    let top : Int := e + Nat.log2 m
    let qmin : Int := 1 - (f.bias : Int) - f.p
    let emin : Int := 1 - (f.bias : Int)
    let q : Int := max (top - f.p) qmin
    let n := roundAt r neg m e q
    let c := (q - qmin).toNat * 2 ^ f.p + n
    let small := decide (top < emin) && !(decide (top = emin - 1) && roundAt r neg m e (top - f.p) == 2 ^ (f.p + 1))
    if flush && small then f.signed neg 0
    else f.signed neg (if f.maxCode < c then f.overflow r neg else c)

/-- The code of a value in a binary format (R100). -/
def FF.encode (f : FF) (r : Rnd) (flush : Bool) (v : FV) : Nat :=
  match v with
  | .nan => f.nanCode
  | .inf neg => if f.ieee then f.signed neg (f.top * 2 ^ f.p) else f.nanCode
  | .fin neg m e => f.roundFin r flush neg m e

/-! ## FP32 words -/

/-- R93: with nbv = 1 a subnormal FP32 operand reads as zero of its sign. -/
def flushIn (v1 : Bool) (x : U32) : U32 :=
  if v1 && bits x.toNat 30 23 == 0 then x &&& 0x80000000#32 else x

def fp32 (v1 : Bool) (x : U32) : FV := ffFp32.decode (flushIn v1 x).toNat
def toFp32 (v1 : Bool) (r : Rnd) (v : FV) : U32 := BitVec.ofNat 32 (ffFp32.encode r v1 v)
def canonNan : U32 := 0x7FC00000#32

def FV.isNan : FV → Bool
  | .nan => true
  | _ => false
def FV.isZero : FV → Bool
  | .fin _ m _ => m == 0
  | _ => false
def FV.neg : FV → Bool
  | .nan => false
  | .inf n => n
  | .fin n _ _ => n
def FV.negate : FV → FV
  | .nan => .nan
  | .inf n => .inf !n
  | .fin n m e => .fin (!n) m e

/-- A finite value as an integer multiple of 2^q, for q at most its exponent. -/
def scaled (neg : Bool) (m : Nat) (e q : Int) : Int :=
  if neg then -((m * pow2 (e - q) : Nat) : Int) else ((m * pow2 (e - q) : Nat) : Int)

/-- The finite value i * 2^q; an exact zero takes the sign given. -/
def ofScaled (i : Int) (q : Int) (zeroNeg : Bool) : FV :=
  if i = 0 then .fin zeroNeg 0 0 else .fin (decide (i < 0)) i.natAbs q

/-- The exact sum of two values; an exact zero from opposite signs is +0, or -0 under rdn (R92). -/
def FV.add (r : Rnd) (a b : FV) : FV :=
  match a, b with
  | .nan, _ => .nan
  | _, .nan => .nan
  | .inf x, .inf y => if x = y then .inf x else .nan
  | .inf x, _ => .inf x
  | _, .inf y => .inf y
  | .fin x m e, .fin y n f =>
    let q := min e f
    ofScaled (scaled x m e q + scaled y n f q) q (if x = y then x else r == .rdn)

/-- The exact product. -/
def FV.mul (a b : FV) : FV :=
  match a, b with
  | .nan, _ => .nan
  | _, .nan => .nan
  | .inf x, .inf y => .inf (xor x y)
  | .inf x, .fin y m _ => if m = 0 then .nan else .inf (xor x y)
  | .fin x m _, .inf y => if m = 0 then .nan else .inf (xor x y)
  | .fin x m e, .fin y n f => .fin (xor x y) (m * n) (e + f)

/-- The exact sum of a list of values with one zero rule: all terms zero of one sign keep it (R92, R349). -/
def FV.sum (r : Rnd) (vs : List FV) : FV :=
  match vs with
  | [] => .fin false 0 0
  | v :: rest => rest.foldl (FV.add r) v

/-- A value strictly between m * 2^e and (m + 1) * 2^e when `more`, else m * 2^e: it rounds alike. -/
def sticky (neg : Bool) (m : Nat) (e : Int) (more : Bool) : FV :=
  if more then .fin neg (2 * m + 1) (e - 1) else .fin neg m e

/-- a / b for rounding, with R341's special results. -/
def FV.div (a b : FV) : FV :=
  match a, b with
  | .nan, _ => .nan
  | _, .nan => .nan
  | .inf _, .inf _ => .nan
  | .inf x, .fin y _ _ => .inf (xor x y)
  | .fin x _ _, .inf y => .fin (xor x y) 0 0
  | .fin x m e, .fin y n f =>
    if n = 0 then (if m = 0 then .nan else .inf (xor x y))
    else
      let k := Nat.log2 n + 80
      let t := m * 2 ^ k
      sticky (xor x y) (t / n) (e - f - k) (t % n != 0)

/-- The integer square root, by its bits from 2^k down. -/
def isqrtFrom (n : Nat) : Nat → Nat → Nat
  | 0, r => if (r + 1) * (r + 1) ≤ n then r + 1 else r
  | k + 1, r => isqrtFrom n k (if (r + 2 ^ (k + 1)) * (r + 2 ^ (k + 1)) ≤ n then r + 2 ^ (k + 1) else r)

def isqrt (n : Nat) : Nat := isqrtFrom n (Nat.log2 n / 2 + 1) 0

/-- The square root for rounding (R341). -/
def FV.sqrt (a : FV) : FV :=
  match a with
  | .nan => .nan
  | .inf neg => if neg then .nan else .inf false
  | .fin neg m e =>
    if m = 0 then .fin neg 0 0
    else if neg then .nan
    else
      let odd : Int := e % 2
      let t := m * 2 ^ (80 + odd.toNat)
      let s := isqrt t
      sticky false s ((e - odd - 80) / 2) (s * s != t)

/-- 1 / sqrt for rounding (R341). -/
def FV.rsqrt (a : FV) : FV :=
  match a with
  | .nan => .nan
  | .inf neg => if neg then .nan else .fin false 0 0
  | .fin neg m e =>
    if m = 0 then .inf neg
    else if neg then .nan
    else
      let odd : Int := e % 2
      let m2 := m * 2 ^ odd.toNat
      let k := Nat.log2 m2 + 80
      let s := isqrt (2 ^ (2 * k) / m2)
      sticky false s (-(e - odd) / 2 - k) (s * s * m2 != 2 ^ (2 * k))

/-! ## Transcendental forms (R341): fixed point with `p` fraction bits, an error bound, and one rounding of both ends of
the interval. Where the ends round apart the work is done again with twice the bits (DEDUCED, log 9). -/

/-- Error bound of the series below, in units of 2^-p. -/
def serErr : Nat := 2 ^ 24

/-- The terms x^n / n! from n on: the sum of `fuel` of them. -/
def expSeries (p x : Nat) : Nat → Nat → Nat → Nat
  | 0, _, _ => 0
  | fuel + 1, n, t => t + expSeries p x fuel (n + 1) (t * x / 2 ^ p / (n + 1))

/-- exp(x) * 2^p for 0 ≤ x < 1. -/
def expFix (p x : Nat) : Nat := expSeries p x (p / 3) 0 (2 ^ p)

/-- The terms z^(2k+1) / (2k+1). -/
def atanhSeries (p z2 : Nat) : Nat → Nat → Nat → Nat
  | 0, _, _ => 0
  | fuel + 1, k, t => t / (2 * k + 1) + atanhSeries p z2 fuel (k + 1) (t * z2 / 2 ^ p)

/-- 2 atanh z * 2^p for z * 2^p at most a third. -/
def atanhFix (p z : Nat) : Nat := 2 * atanhSeries p (z * z / 2 ^ p) (p / 3 + 8) 0 z

/-- ln(m / 2^b) * 2^p for 2^b ≤ m < 2^(b + 1). -/
def lnFix (p m b : Nat) : Nat := atanhFix p ((m - 2 ^ b) * 2 ^ p / (m + 2 ^ b))

/-- ln 2 * 2^p, from ln 2 = 2 atanh (1/3). -/
def ln2Fix (p : Nat) : Nat := atanhFix p (2 ^ p / 3)

/-- The alternating series of sine and cosine: terms x^n / n! with n rising by 2. -/
def trigSeries (p x2 : Nat) : Nat → Nat → Bool → Int → Nat → Int
  | 0, _, _, acc, _ => acc
  | fuel + 1, n, minus, acc, t =>
    trigSeries p x2 fuel (n + 2) (!minus) (if minus then acc - t else acc + t)
      (t * x2 / 2 ^ p / ((n + 1) * (n + 2)))

def sinFix (p x : Nat) : Int := trigSeries p (x * x / 2 ^ p) (p / 4) 1 false 0 x
def cosFix (p x : Nat) : Int := trigSeries p (x * x / 2 ^ p) (p / 4) 0 false 0 (2 ^ p)

/-- The alternating series of the arc tangent of 1 / d: `t` is 2^p / d^(2k+1). -/
def atanSeries (d : Nat) : Nat → Nat → Bool → Int → Nat → Int
  | 0, _, _, acc, _ => acc
  | fuel + 1, k, minus, acc, t =>
    atanSeries d fuel (k + 1) (!minus) (if minus then acc - (t / (2 * k + 1) : Nat) else acc + (t / (2 * k + 1) : Nat))
      (t / (d * d))

/-- pi * 2^p, from pi = 16 atan (1/5) - 4 atan (1/239). -/
def piFix (p : Nat) : Nat :=
  (16 * atanSeries 5 (p / 4 + 8) 0 false 0 (2 ^ p / 5) - 4 * atanSeries 239 (p / 8 + 8) 0 false 0 (2 ^ p / 239)).toNat

/-- The FP32 result whose exact value lies within `serErr` units of y * 2^-p * 2^e, and whether both ends round to it. -/
def nearFix (v1 : Bool) (r : Rnd) (p : Nat) (y e : Int) : U32 × Bool :=
  let lo := toFp32 v1 r (ofScaled (y - serErr) (e - p) false)
  (lo, lo == toFp32 v1 r (ofScaled (y + serErr) (e - p) false))

/-- The result at `p` bits, or at twice as many where it is not decided. -/
def refined (f : Nat → U32 × Bool) : Nat → Nat → U32
  | 0, p => (f p).1
  | fuel + 1, p => if (f p).2 then (f p).1 else refined f fuel (2 * p)

/-- From 256 bits to 8,192. -/
def decided (f : Nat → U32 × Bool) : U32 := refined f 5 256

/-- |v| < 2^-40. -/
def tiny (m : Nat) (e : Int) : Bool := decide (e + Nat.log2 m < -41)

/-- 2^(a * 2^-p) for an integer a that is no multiple of 2^p, or its power of two. -/
def exp2At (v1 : Bool) (r : Rnd) (p : Nat) (a : Int) : U32 × Bool :=
  let k := a / (2 ^ p : Nat)
  let f := (a % (2 ^ p : Nat)).toNat
  if f = 0 then (toFp32 v1 r (.fin false 1 k), true) else nearFix v1 r p (expFix p (f * ln2Fix p / 2 ^ p)) k

/-- 2^a. -/
def exp2F (v1 : Bool) (r : Rnd) (x : U32) : U32 :=
  match fp32 v1 x with
  | .nan => canonNan
  | .inf neg => if neg then 0 else 0x7F800000#32
  | .fin neg m e =>
    if m = 0 then 0x3F800000#32
    else if tiny m e then
      toFp32 v1 r (.fin false (if neg then 2 ^ 70 - 1 else 2 ^ 70 + 1) (-70))
    else if 8 < e + Nat.log2 m then
      -- |a| is at least 512: the result lies beyond every finite value, or below every subnormal
      toFp32 v1 r (if neg then .fin false 1 (-1000) else .fin false 1 1000)
    else decided (fun p => exp2At v1 r p (scaled neg m (e + p) 0))   -- exact: e ≥ -149

/-- log2 a. -/
def log2F (v1 : Bool) (r : Rnd) (x : U32) : U32 :=
  match fp32 v1 x with
  | .nan => canonNan
  | .inf neg => if neg then canonNan else 0x7F800000#32
  | .fin neg m e =>
    if m = 0 then 0xFF800000#32
    else if neg then canonNan
    else
      let b := Nat.log2 m
      let k : Int := e + b
      if m = 2 ^ b then toFp32 v1 r (ofScaled k 0 false)
      else decided (fun p => nearFix v1 r p (k * (2 ^ p : Nat) + (lnFix p m b * 2 ^ p / ln2Fix p : Nat)) 0)

/-- A magnitude m * 2^e reduced by multiples of pi / 2: the quotient modulo 4 and the rest * 2^p. The quotient has at most
128 bits, so pi is taken to 192 more. -/
def reduce (p m : Nat) (e : Int) : Nat × Nat :=
  let half := piFix (p + 192) / 2
  let x := if 0 ≤ e + (p + 192 : Nat) then m * pow2 (e + (p + 192 : Nat)) else 0
  (x / half % 4, x % half / 2 ^ 192)

/-- The sine of a reduced argument in quadrant `q`, times 2^p. -/
def quadSin (p q rest : Nat) : Int :=
  match q with
  | 0 => sinFix p rest
  | 1 => cosFix p rest
  | 2 => -sinFix p rest
  | _ => -cosFix p rest

/-- sin a. -/
def sinF (v1 : Bool) (r : Rnd) (x : U32) : U32 :=
  match fp32 v1 x with
  | .nan => canonNan
  | .inf _ => canonNan
  | .fin neg m e =>
    if m = 0 then toFp32 v1 r (.fin neg 0 0)
    else if tiny m e then toFp32 v1 r (.fin neg (m * 2 ^ 60 - 1) (e - 60))
    else decided (fun p =>
      let q := reduce p m e
      let y := quadSin p q.1 q.2
      nearFix v1 r p (if neg then -y else y) 0)

/-- cos a. -/
def cosF (v1 : Bool) (r : Rnd) (x : U32) : U32 :=
  match fp32 v1 x with
  | .nan => canonNan
  | .inf _ => canonNan
  | .fin _ m e =>
    if m = 0 then 0x3F800000#32
    else if tiny m e then toFp32 v1 r (.fin false (2 ^ 70 - 1) (-70))
    else decided (fun p =>
      let q := reduce p m e
      nearFix v1 r p (quadSin p ((q.1 + 1) % 4) q.2) 0)

/-! ## Order (R338, R345) -/

/-- Comparison of values that are not NaN; zeros are equal. -/
def FV.cmp (a b : FV) : Ordering :=
  match a, b with
  | .inf x, .inf y => if x = y then .eq else if x then .lt else .gt
  | .inf x, _ => if x then .lt else .gt
  | _, .inf y => if y then .gt else .lt
  | .fin x m e, .fin y n f =>
    let q := min e f
    compare (scaled x m e q) (scaled y n f q)
  | _, _ => .eq

/-- R338: -0 below +0. -/
def FV.below (a b : FV) : Bool :=
  if a.isZero && b.isZero then a.neg && !b.neg else a.cmp b == .lt

def fminF (v1 : Bool) (x y : U32) : U32 :=
  let a := fp32 v1 x
  let b := fp32 v1 y
  if a.isNan && b.isNan then canonNan
  else if a.isNan then flushIn v1 y
  else if b.isNan then flushIn v1 x
  else if b.below a then flushIn v1 y else flushIn v1 x

def fmaxF (v1 : Bool) (x y : U32) : U32 :=
  let a := fp32 v1 x
  let b := fp32 v1 y
  if a.isNan && b.isNan then canonNan
  else if a.isNan then flushIn v1 y
  else if b.isNan then flushIn v1 x
  else if a.below b then flushIn v1 y else flushIn v1 x

/-- R345. -/
def fcmpF (v1 : Bool) (cond : FCond) (x y : U32) : Bool :=
  let a := fp32 v1 x
  let b := fp32 v1 y
  let un := a.isNan || b.isNan
  let o := a.cmp b
  match cond with
  | .eq => !un && o == .eq
  | .ne => un || o != .eq
  | .lt => !un && o == .lt
  | .le => !un && o != .gt
  | .gt => !un && o == .gt
  | .ge => !un && o != .lt
  | .un => un
  | .num => !un

/-! ## LNS6 (R94 to R99) -/

/-- T of R95, as FP32 significands: T[j] = lnsT j * 2^-23. -/
def lnsT : Nat → Nat
  | 0 => 0x800000
  | 1 => 0x9837F0
  | 2 => 0xB504F3
  | _ => 0xD744FD

/-- lns6_lin(q) as an exact magnitude: significand and exponent. -/
def lnsLin (q : Int) : Nat × Int := (lnsT (q % 4).toNat, q / 4 - 23)

/-- The value of a code (R94, R98). -/
def lnsVal (c : Nat) : FV :=
  let l := c % 32
  let s := c.testBit 5
  if l = 0 then (if s then .nan else .fin false 0 0)
  else
    let v := lnsLin ((l : Int) - 20)
    .fin s v.1 v.2

/-- Significand of the threshold of code L (R97), by (L mod 4): the FP32 values repeat with a factor 2. -/
def lnsThreshold (l : Nat) : Nat × Int :=
  let j := (l + 3) % 4   -- L = 1, 5, 9, ... first
  let t := match j with
    | 0 => 0x8B95C2
    | 1 => 0xA5FED7
    | 2 => 0xC5672A
    | _ => 0xEAC0C7
  (t, ((l + 3) / 4 : Nat) - 1 - 5 - 23)

/-- m * 2^e is at least t * 2^f. -/
def atLeast (m : Nat) (e : Int) (t : Nat) (f : Int) : Bool :=
  let q := min e f
  decide (t * pow2 (f - q) ≤ m * pow2 (e - q))

/-- The largest L up to `n` whose threshold a magnitude reaches. -/
def lnsSearch (m : Nat) (e : Int) : Nat → Nat
  | 0 => 0
  | n + 1 => if atLeast m e (lnsThreshold (n + 1)).1 (lnsThreshold (n + 1)).2 then n + 1 else lnsSearch m e n

/-- lns6_enc (R97). -/
def lnsEnc (v : FV) : Nat :=
  match v with
  | .fin neg m e =>
    if m = 0 then 0
    else
      let l := lnsSearch m e 31
      if l = 0 then 0 else if neg then l + 32 else l
  | _ => 0x20

/-- R97: a finite magnitude at or above theta[32] overflows. -/
def lnsOver (v : FV) : Bool :=
  match v with
  | .fin _ m e => m != 0 && atLeast m e (lnsThreshold 32).1 (lnsThreshold 32).2
  | _ => false

/-- v * 2^k. -/
def FV.scale (v : FV) (k : Int) : FV :=
  match v with
  | .fin n m e => .fin n m (e + k)
  | _ => v

/-- lns6_mul (R96): an exact product; a zero product is +0. -/
def lnsMul (a b ea eb : Nat) : FV :=
  if a % 64 = 0x20 ∨ b % 64 = 0x20 ∨ ea = 0xFF ∨ eb = 0xFF then .nan
  else if a % 32 = 0 ∨ b % 32 = 0 then .fin false 0 0
  else
    let v := lnsLin (((a % 32 : Nat) : Int) + (b % 32 : Nat) - 40)
    .fin (xor (a.testBit 5) (b.testBit 5)) v.1 (v.2 + ea + eb - 254)

/-! ## Elements of every format -/

/-- R93 applies to FP32 sources and results alone. -/
def decodeFmt (v1 : Bool) (f : Fmt) (c : Nat) : FV :=
  match f with
  | .fp32 => fp32 v1 (BitVec.ofNat 32 c)
  | .fp16 => ffFp16.decode c
  | .bf16 => ffBf16.decode c
  | .e4m3 => ffE4m3.decode c
  | .e5m2 => ffE5m2.decode c
  | .lns6 => lnsVal (c % 64)
  | .i8 => ofScaled (sextI c 8) 0 false
  | .i32 => ofScaled (sextI c 32) 0 false

/-- R101: to an integer of `n` bits, signed or not, with saturation. -/
def toInt (r : Rnd) (uns : Bool) (n : Nat) (v : FV) : Int :=
  let lo : Int := if uns then 0 else -(2 ^ (n - 1) : Nat)
  let hi : Int := if uns then (2 ^ n : Nat) - 1 else (2 ^ (n - 1) : Nat) - 1
  match v with
  | .nan => 0
  | .inf neg => if neg then lo else hi
  | .fin neg m e =>
    let k : Int := roundAt r neg m e 0
    max lo (min hi (if neg then -k else k))

/-- convert: the code of a value in a format (R97, R98, R100, R101). -/
def encodeFmt (v1 : Bool) (r : Rnd) (f : Fmt) (v : FV) : Nat :=
  match f with
  | .fp32 => ffFp32.encode r v1 v
  | .fp16 => ffFp16.encode r false v
  | .bf16 => ffBf16.encode r false v
  | .e4m3 => ffE4m3.encode r false v
  | .e5m2 => ffE5m2.encode r false v
  | .lns6 => lnsEnc v
  | .i8 => (toInt r false 8 v % 256).toNat
  | .i32 => (toInt r false 32 v % 4294967296).toNat

/-- FRND (R344). -/
def frndF (v1 : Bool) (r : Rnd) (x : U32) : U32 :=
  match fp32 v1 x with
  | .nan => canonNan
  | .inf _ => x
  | .fin neg m e =>
    if 0 ≤ e then flushIn v1 x
    else toFp32 v1 .rne (.fin neg (roundAt r neg m e 0) 0)

/-- FCLASS (R343). -/
def fclassF (x : U32) : U32 :=
  let neg := x.getLsbD 31
  let ex := bits x.toNat 30 23
  let fr := bits x.toNat 22 0
  let k := if ex = 255 then (if fr ≠ 0 then 8 else if neg then 0 else 7)
    else if ex = 0 then
      (if fr = 0 then (if neg then 3 else 4) else if neg then 2 else 5)
    else if neg then 1 else 6
  1#32 <<< k

/-- Element `k` of a 32-bit lane (R87). -/
def elemOf (f : Fmt) (x : U32) (k : Nat) : Nat :=
  match f with
  | .fp32 | .i32 => x.toNat
  | .fp16 | .bf16 => bits x.toNat (16 * k + 15) (16 * k)
  | .lns6 => bits x.toNat (8 * k + 5) (8 * k)
  | _ => bits x.toNat (8 * k + 7) (8 * k)

/-- A lane with element `k` replaced (R347). -/
def setElem (f : Fmt) (x : U32) (k c : Nat) : U32 :=
  match f with
  | .fp32 | .i32 => BitVec.ofNat 32 c
  | .fp16 | .bf16 =>
    (x &&& ~~~(0xFFFF#32 <<< (16 * k))) ||| (BitVec.ofNat 32 (c % 65536) <<< (16 * k))
  | _ => (x &&& ~~~(0xFF#32 <<< (8 * k))) ||| (BitVec.ofNat 32 (c % 256) <<< (8 * k))

/-- FDOT4 (R349). -/
def fdot4F (v1 : Bool) (f : DotFmt) (r : Rnd) (d a b : U32) : U32 :=
  let prod (i : Nat) : FV :=
    match f with
    | .e4m3 => (ffE4m3.decode (elemOf .e4m3 a i)).mul (ffE4m3.decode (elemOf .e4m3 b i))
    | .e5m2 => (ffE5m2.decode (elemOf .e5m2 a i)).mul (ffE5m2.decode (elemOf .e5m2 b i))
    | .lns6 => lnsMul (elemOf .lns6 a i) (elemOf .lns6 b i) 127 127
  toFp32 v1 r (FV.sum r [fp32 v1 d, prod 0, prod 1, prod 2, prod 3])

end Sys2Proof.Machine
end

