-- ==== Sys2Proof/Machine/Float.lean ====
section
/-! DEFINITION. Floating-point forms (20 R337 to R349; 22 R406), with the check of the shadow units (11 R230). -/
namespace Sys2Proof.Machine

/-! ## The value of each form in one lane -/

/-- nbv = 1 (R112). -/
def State.nbv1 (s : State) (gid : Nat) : Bool := (s.regOf gid).rcb.nbv == 1

/-- The low 32 bits of an operand. -/
def opnd32 (x : Word) : U32 := x.setWidth 32

def faddV (v1 : Bool) (r : Rnd) (a b : U32) : U32 := toFp32 v1 r (FV.add r (fp32 v1 a) (fp32 v1 b))
def fsubV (v1 : Bool) (r : Rnd) (a b : U32) : U32 := toFp32 v1 r (FV.add r (fp32 v1 a) (fp32 v1 b).negate)
def fmulV (v1 : Bool) (r : Rnd) (a b : U32) : U32 := toFp32 v1 r ((fp32 v1 a).mul (fp32 v1 b))
def ffmaV (v1 : Bool) (r : Rnd) (a b d : U32) : U32 :=
  toFp32 v1 r (FV.add r ((fp32 v1 a).mul (fp32 v1 b)) (fp32 v1 d))
def fdivV (v1 : Bool) (r : Rnd) (a b : U32) : U32 := toFp32 v1 r ((fp32 v1 a).div (fp32 v1 b))
def fsqrtV (v1 : Bool) (r : Rnd) (a : U32) : U32 := toFp32 v1 r (fp32 v1 a).sqrt
def frcpV (v1 : Bool) (r : Rnd) (a : U32) : U32 := toFp32 v1 r (FV.div (.fin false 1 0) (fp32 v1 a))
def frsqV (v1 : Bool) (r : Rnd) (a : U32) : U32 := toFp32 v1 r (fp32 v1 a).rsqrt

/-- FCVT in one lane (R347). -/
def fcvtV (v1 : Bool) (fo fi : Fmt) (ko ki : Nat) (r : Rnd) (a d : U32) : U32 :=
  let y := encodeFmt v1 r fo (decodeFmt v1 fi (elemOf fi a ki))
  if fo = .fp32 then BitVec.ofNat 32 y else setElem fo d ko y

/-- ICVTF in one lane (R102, R348). -/
def icvtfV (v1 uns : Bool) (r : Rnd) (a : U32) : U32 :=
  toFp32 v1 r (ofScaled (if uns then (a.toNat : Int) else a.toInt) 0 false)

/-- FCVTI in one lane (R101, R348). -/
def fcvtiV (v1 uns : Bool) (r : Rnd) (a : U32) : U32 := BitVec.ofInt 32 (toInt r uns 32 (fp32 v1 a))

/-- VMXP in one lane: the new score and back-pointer. R406 puts the sum alone under R93. -/
def vmxpV (v1 : Bool) (a b c d e : U32) : U32 × U32 :=
  let x := faddV v1 .rne a b
  if fcmpF false .gt x d then (x, c) else (d, e)

/-- The value of a form of R90 or FDOT4, which the shadow units check (R230, R342): operands a, b and the old d. -/
def checkedVal (v1 : Bool) (i : Instr) (a b d : U32) : U32 :=
  match i with
  | .fadd _ r .. => faddV v1 r a b
  | .fsub _ r .. => fsubV v1 r a b
  | .fmul _ r .. => fmulV v1 r a b
  | .ffma _ r .. => ffmaV v1 r a b d
  | .fdiv _ r .. => fdivV v1 r a b
  | .fsqrt _ r .. => fsqrtV v1 r a
  | .frcp _ r .. => frcpV v1 r a
  | .frsq _ r .. => frsqV v1 r a
  | .fexp2 _ r .. => exp2F v1 r a
  | .flog2 _ r .. => log2F v1 r a
  | .fsin _ r .. => sinF v1 r a
  | .fcos _ r .. => cosF v1 r a
  | .fdot4 _ f r .. => fdot4F v1 f r d a b
  | .fmin .. => fminF v1 a b
  | .fmax .. => fmaxF v1 a b
  | .frnd _ r .. => frndF v1 r a
  | _ => 0

/-! ## Shadow units (R230) -/

/-- Sets a health bit and REPLACE_REQUESTED (R303, R310). -/
def State.fenceHealth (s : State) (n : Nat) : State :=
  { s with mgmt := { s.mgmt with health := s.mgmt.health ||| (1#64 <<< n), irq := s.mgmt.irq ||| 4#64 } }

/-- The uniform pipe of a partition, beside its lanes 0 to 31 in a core's list of fenced units. -/
def uniformUnit : Nat := 32

/-- The units of the lanes `m` that an instruction used: the uniform pipe with u = 1. -/
def unitsOf (c : Ctl) (m : LaneMask) : List Nat := if c.u then [uniformUnit] else lanesOf m

/-- Fences floating-point units of a group's partition. -/
def State.fenceUnits (s : State) (gid : Nat) (us : List Nat) : State :=
  let g := s.grp gid
  (s.modCore g.core (fun c =>
    { c with laneFenced := us.map (fun l => (g.part, l)) ++ c.laneFenced })).fenceHealth 0

/-- Forms of R90 that raise no execution fault (R339, R344, R345). -/
def faultless : Instr → Bool
  | .fmin .. | .fmax .. | .frnd .. | .fcmp .. => true
  | _ => false

/-- The check of the shadow units around a form: `run` writes its results. A lane that diverges twice has its unit fenced
and makes the instruction write nothing and fault SDC_SUSPECT (R230, R342); one that raises no execution fault is performed on
the unit that takes the lane's place (DEDUCED, log 64). -/
def State.checked (s : State) (i : Instr) (c : Ctl) (ops : Ops) (run : State → State) : State :=
  let m := s.active c
  let unit := if c.u then (if m == 0 then 0 else laneBit s.ilane) else m
  if s.inject.shadow1 &&& unit == 0 then run s
  else
    let again := s.inject.shadow2 &&& s.inject.shadow1 &&& unit
    let s := { s with inject := { s.inject with shadow1 := 0, shadow2 := 0 } }
    if again == 0 then run s
    else if faultless i then run (s.fenceUnits s.cur (unitsOf c again))
    else
      let key := s.nextKey (s.cidOf s.cur)
      let t := (s.startPend i c m .faulted ops).modG (fun g =>
        g.modPend s.nextId (fun p => { p with recKey := key }))
      ((t.fenceUnits s.cur (unitsOf c again)).takeFault s.cur
        { code := Code.sdcSuspect, pc := s.issuePc, addr := 0, lanes := again, detail := 0, word := wordOf i }
        (.instr s.cur s.nextId)).advance s.cur s.iset

/-- The operands of a checked form. -/
def State.floatOps (s : State) (d a b : Reg) : Ops :=
  { a := s.srcs false a, b := s.srcs false b, c := s.srcs false d }

/-- The value of a checked form in a lane, from its operands. -/
def checkedLane (v1 : Bool) (i : Instr) (ops : Ops) (l : Nat) : Word :=
  (checkedVal v1 i (opnd32 (ops.la l)) (opnd32 (ops.lb l)) (opnd32 (ops.lc l))).setWidth 64

/-- A checked form of fixed latency. -/
def State.checkedFixed (s : State) (i : Instr) (c : Ctl) (L : Nat) (d a b : Reg) : State :=
  let ops := s.floatOps d a b
  s.checked i c ops (fun t => t.fixedReg i c L d false (checkedLane (s.nbv1 s.cur) i ops))

/-- One lane of a checked form of variable latency, or of one performed again. -/
def checkedAct (i : Instr) (d : Reg) (gid : Nat) (ops : Ops) (id l : Nat) (s : State) : State × LaneFault :=
  (s.putReg gid d false (laneBit l) l (checkedLane (s.nbv1 gid) i ops) (.on id), none)

/-- FCMP in one lane, from its operands (R345). -/
def fcmpLane (v1 : Bool) (cond : FCond) (ops : Ops) (l : Nat) : Bool :=
  fcmpF v1 cond (opnd32 (ops.la l)) (opnd32 (ops.lb l))

/-- One lane of FCMP performed again; with u = 1 for every thread of the record (R48). -/
def fcmpAct (c : Ctl) (cond : FCond) (pd : PR) (m : LaneMask) (gid : Nat) (ops : Ops) (id l : Nat) (s : State) :
    State × LaneFault :=
  (s.putPred gid pd.val (if c.u then m else laneBit l) (fun _ => fcmpLane (s.nbv1 gid) cond ops l) (.on id), none)

/-- A checked form of variable latency. -/
def State.checkedVar (s : State) (i : Instr) (c : Ctl) (d a b : Reg) : State :=
  let ops := s.floatOps d a b
  s.checked i c ops (fun t => t.perLane i c ops (checkedAct i d s.cur ops))

/-- Operands of VMXP: a, b, c and the old pair, packed two to a word. -/
def State.vmxpOps (s : State) (d : VR) (a b x : Reg) : Ops :=
  { a := laneList.map (fun l => s.src false b l <<< 32 ||| s.src false a l),
    b := s.srcs false x, c := s.srcs true (.v d) }

def vmxpLane (v1 : Bool) (ops : Ops) (l : Nat) : Word :=
  let r := vmxpV v1 (opnd32 (ops.la l)) (opnd32 (ops.la l >>> 32)) (opnd32 (ops.lb l)) (opnd32 (ops.lc l))
    (opnd32 (ops.lc l >>> 32))
  r.2.setWidth 64 <<< 32 ||| r.1.setWidth 64

/-- The sum is greater than the old score: the lane takes the candidate. -/
def vmxpTakes (v1 : Bool) (ops : Ops) (l : Nat) : Bool :=
  fcmpF false .gt (faddV v1 .rne (opnd32 (ops.la l)) (opnd32 (ops.la l >>> 32))) (opnd32 (ops.lc l))

/-- One lane of VMXP performed again. -/
def vmxpAct (d : VR) (gid : Nat) (ops : Ops) (id l : Nat) (s : State) : State × LaneFault :=
  if d.val + 1 < 160 && vmxpTakes (s.nbv1 gid) ops l then
    (s.modGrp gid (fun g =>
      (g.writeV d.val (laneBit l) (fun k => (vmxpLane (s.nbv1 gid) ops k).setWidth 32) (.on id)).writeV (d.val + 1)
        (laneBit l) (fun k => (vmxpLane (s.nbv1 gid) ops k >>> 32).setWidth 32) (.on id)), none)
  else (s, none)

/-! ## Meanings -/

/-- R340, R341. -/
def execFadd (c : Ctl) (r : Rnd) (d a b : Reg) (s : State) :
    Host.Outcome State Fault Refusal :=
  issueWord (.fadd c r d a b) (fun s => s.checkedFixed (.fadd c r d a b) c (lat c 6 4) d a b) s

/-- R340, R341. -/
def execFsub (c : Ctl) (r : Rnd) (d a b : Reg) (s : State) :
    Host.Outcome State Fault Refusal :=
  issueWord (.fsub c r d a b) (fun s => s.checkedFixed (.fsub c r d a b) c (lat c 6 4) d a b) s

/-- R340, R341. -/
def execFmul (c : Ctl) (r : Rnd) (d a b : Reg) (s : State) :
    Host.Outcome State Fault Refusal :=
  issueWord (.fmul c r d a b) (fun s => s.checkedFixed (.fmul c r d a b) c (lat c 6 4) d a b) s

/-- R340, R341. -/
def execFfma (c : Ctl) (r : Rnd) (d a b : Reg) (s : State) :
    Host.Outcome State Fault Refusal :=
  issueWord (.ffma c r d a b) (fun s => s.checkedFixed (.ffma c r d a b) c (lat c 6 4) d a b) s

/-- R340, R341. -/
def execFdiv (c : Ctl) (r : Rnd) (d a b : Reg) (s : State) :
    Host.Outcome State Fault Refusal :=
  issueWord (.fdiv c r d a b) (fun s => s.checkedVar (.fdiv c r d a b) c d a b) s

/-- R340, R341. -/
def execFsqrt (c : Ctl) (r : Rnd) (d a : Reg) (s : State) :
    Host.Outcome State Fault Refusal :=
  issueWord (.fsqrt c r d a) (fun s => s.checkedVar (.fsqrt c r d a) c d a a) s

/-- R340, R341. -/
def execFrcp (c : Ctl) (r : Rnd) (d a : Reg) (s : State) :
    Host.Outcome State Fault Refusal :=
  issueWord (.frcp c r d a) (fun s => s.checkedVar (.frcp c r d a) c d a a) s

/-- R340, R341. -/
def execFrsq (c : Ctl) (r : Rnd) (d a : Reg) (s : State) :
    Host.Outcome State Fault Refusal :=
  issueWord (.frsq c r d a) (fun s => s.checkedVar (.frsq c r d a) c d a a) s

/-- R340, R341. -/
def execFexp2 (c : Ctl) (r : Rnd) (d a : Reg) (s : State) :
    Host.Outcome State Fault Refusal :=
  issueWord (.fexp2 c r d a) (fun s => s.checkedVar (.fexp2 c r d a) c d a a) s

/-- R340, R341. -/
def execFlog2 (c : Ctl) (r : Rnd) (d a : Reg) (s : State) :
    Host.Outcome State Fault Refusal :=
  issueWord (.flog2 c r d a) (fun s => s.checkedVar (.flog2 c r d a) c d a a) s

/-- R340, R341. -/
def execFsin (c : Ctl) (r : Rnd) (d a : Reg) (s : State) :
    Host.Outcome State Fault Refusal :=
  issueWord (.fsin c r d a) (fun s => s.checkedVar (.fsin c r d a) c d a a) s

/-- R340, R341. -/
def execFcos (c : Ctl) (r : Rnd) (d a : Reg) (s : State) :
    Host.Outcome State Fault Refusal :=
  issueWord (.fcos c r d a) (fun s => s.checkedVar (.fcos c r d a) c d a a) s

/-- R349. -/
def execFdot4 (c : Ctl) (f : DotFmt) (r : Rnd) (d a b : Reg) (s : State) :
    Host.Outcome State Fault Refusal :=
  issueWord (.fdot4 c f r d a b) (fun s => s.checkedFixed (.fdot4 c f r d a b) c (lat c 8 6) d a b) s

/-- A form of fixed latency on the low halves of two sources. -/
def State.plain2 (s : State) (i : Instr) (c : Ctl) (L : Nat) (d a b : Reg) (f : U32 → U32 → U32) : State :=
  s.fixedReg i c L d false (fun l => (f (opnd32 (s.src false a l)) (opnd32 (s.src false b l))).setWidth 64)

/-- A form of fixed latency on the low half of one source. -/
def State.plain1 (s : State) (i : Instr) (c : Ctl) (L : Nat) (d a : Reg) (f : U32 → U32) : State :=
  s.fixedReg i c L d false (fun l => (f (opnd32 (s.src false a l))).setWidth 64)

/-- R338. -/
def execFmin (c : Ctl) (d a b : Reg) (s : State) :
    Host.Outcome State Fault Refusal :=
  issueWord (.fmin c d a b) (fun s => s.checkedFixed (.fmin c d a b) c (lat c 6 4) d a b) s

/-- R338. -/
def execFmax (c : Ctl) (d a b : Reg) (s : State) :
    Host.Outcome State Fault Refusal :=
  issueWord (.fmax c d a b) (fun s => s.checkedFixed (.fmax c d a b) c (lat c 6 4) d a b) s

/-- R339. -/
def execFabs (c : Ctl) (d a : Reg) (s : State) :
    Host.Outcome State Fault Refusal :=
  issueWord (.fabs c d a) (fun s => s.plain1 (.fabs c d a) c (lat c 4 2) d a (fun x => x &&& 0x7FFFFFFF#32)) s

/-- R339. -/
def execFneg (c : Ctl) (d a : Reg) (s : State) :
    Host.Outcome State Fault Refusal :=
  issueWord (.fneg c d a) (fun s => s.plain1 (.fneg c d a) c (lat c 4 2) d a (fun x => x ^^^ 0x80000000#32)) s

/-- R343. -/
def execFclass (c : Ctl) (d a : Reg) (s : State) :
    Host.Outcome State Fault Refusal :=
  issueWord (.fclass c d a) (fun s => s.plain1 (.fclass c d a) c (lat c 6 4) d a fclassF) s

/-- R344. -/
def execFrnd (c : Ctl) (r : Rnd) (d a : Reg) (s : State) :
    Host.Outcome State Fault Refusal :=
  issueWord (.frnd c r d a) (fun s => s.checkedFixed (.frnd c r d a) c (lat c 6 4) d a a) s

/-- R345. -/
def execFcmp (c : Ctl) (cond : FCond) (pd : PR) (a b : Reg) (s : State) : Host.Outcome State Fault Refusal :=
  issueWord (.fcmp c cond pd a b) (fun s =>
    let ops : Ops := { a := s.srcs false a, b := s.srcs false b, c := [] }
    s.checked (.fcmp c cond pd a b) c ops (fun t =>
      t.fixedPred (.fcmp c cond pd a b) c (lat c 6 4) pd.val (fcmpLane (s.nbv1 s.cur) cond ops))) s

/-- R346, R347: d is read at issue. -/
def execFcvt (c : Ctl) (fo fi : Fmt) (ko ki : BitVec 2) (r : Rnd) (d a : Reg) (s : State) :
    Host.Outcome State Fault Refusal :=
  issueWord (.fcvt c fo fi ko ki r d a) (fun s =>
    s.plain2 (.fcvt c fo fi ko ki r d a) c (lat c 6 4) d a d
      (fcvtV (s.nbv1 s.cur) fo fi ko.toNat ki.toNat r)) s

/-- R348. -/
def execIcvtf (c : Ctl) (uns : Bool) (r : Rnd) (d a : Reg) (s : State) :
    Host.Outcome State Fault Refusal :=
  issueWord (.icvtf c uns r d a) (fun s => s.plain1 (.icvtf c uns r d a) c (lat c 6 4) d a (icvtfV (s.nbv1 s.cur) uns r)) s

/-- R348. -/
def execFcvti (c : Ctl) (uns : Bool) (r : Rnd) (d a : Reg) (s : State) :
    Host.Outcome State Fault Refusal :=
  issueWord (.fcvti c uns r d a) (fun s => s.plain1 (.fcvti c uns r d a) c (lat c 6 4) d a (fcvtiV (s.nbv1 s.cur) uns r)) s

/-- R406: a lane whose sum is not greater writes nothing. -/
def execVmxp (c : Ctl) (d : VR) (a b x : Reg) (s : State) : Host.Outcome State Fault Refusal :=
  issueWord (.vmxp c d a b x) (fun s =>
    let ops := s.vmxpOps d a b x
    s.checked (.vmxp c d a b x) c ops (fun t =>
      t.fixedForm (.vmxp c d a b x) c 6 (fun u m due =>
        u.putReg s.cur (.v d) true (filterLanes m (vmxpTakes (s.nbv1 s.cur) ops)) s.ilane (vmxpLane (s.nbv1 s.cur) ops) due))) s

end Sys2Proof.Machine
end

