-- ==== Sys2Proof/Machine/Integer.lean ====
section
/-! DEFINITION. Integer and bit forms (19, 20, 21, 22): one meaning per instruction over shared shapes, and the
arithmetic of each at any width. -/
namespace Sys2Proof.Machine

/-! ## Arithmetic at width W (R313, R353) -/

/-- Two operands at width W; a narrow result stands in the low half. -/
def at2 (wide : Bool) (f : (w : Nat) → BitVec w → BitVec w → BitVec w) (a b : Word) : Word :=
  if wide then f 64 a b else (f 32 (a.setWidth 32) (b.setWidth 32)).setWidth 64

/-- One operand at width W. -/
def at1 (wide : Bool) (f : (w : Nat) → BitVec w → BitVec w) (a : Word) : Word :=
  if wide then f 64 a else (f 32 (a.setWidth 32)).setWidth 64

/-- A test of two operands at width W. -/
def test2 (wide : Bool) (f : (w : Nat) → BitVec w → BitVec w → Bool) (a b : Word) : Bool :=
  if wide then f 64 a b else f 32 (a.setWidth 32) (b.setWidth 32)

/-- R327: leading zero bits, from the most significant down. -/
def clzFrom {w : Nat} (x : BitVec w) : Nat → Nat
  | 0 => 0
  | n + 1 => if x.getLsbD n then 0 else 1 + clzFrom x n

def opClz (w : Nat) (x : BitVec w) : BitVec w := BitVec.ofNat w (clzFrom x w)

/-- R327: bit i moved to bit W - 1 - i. -/
def opBrev (w : Nat) (x : BitVec w) : BitVec w := x.reverse

/-- R327: trailing zero bits. -/
def opCtz (w : Nat) (x : BitVec w) : BitVec w := opClz w x.reverse

/-- R375: set bits. -/
def popCount {w : Nat} (x : BitVec w) : Nat → Nat
  | 0 => 0
  | n + 1 => (if x.getLsbD n then 1 else 0) + popCount x n

def opPopc (w : Nat) (x : BitVec w) : BitVec w := BitVec.ofNat w (popCount x w)

/-- R392: the count is bits [31:0] of b. -/
def opShl (w : Nat) (a : BitVec w) (k : Nat) : BitVec w := if w ≤ k then 0 else a <<< k
def opShr (w : Nat) (a : BitVec w) (k : Nat) : BitVec w := if w ≤ k then 0 else a >>> k
def opSar (w : Nat) (a : BitVec w) (k : Nat) : BitVec w := a.sshiftRight (min k (w - 1))

/-- A shift at width W. -/
def atShift (wide : Bool) (f : (w : Nat) → BitVec w → Nat → BitVec w) (a b : Word) : Word :=
  at1 wide (fun w x => f w x (low32 b).toNat) a

/-- R375. -/
def opRotl (w : Nat) (a b : BitVec w) : BitVec w := a.rotateLeft (b.toNat % w)

/-- R353: the high half of the product. -/
def opMulhiS (w : Nat) (a b : BitVec w) : BitVec w := BitVec.ofInt w (a.toInt * b.toInt / 2 ^ w)
def opMulhiU (w : Nat) (a b : BitVec w) : BitVec w := BitVec.ofNat w (a.toNat * b.toNat / 2 ^ w)

/-- R353: the smaller or the larger, signed or unsigned. -/
def opMin (uns : Bool) (w : Nat) (a b : BitVec w) : BitVec w :=
  if (if uns then decide (a.toNat ≤ b.toNat) else decide (a.toInt ≤ b.toInt)) then a else b
def opMax (uns : Bool) (w : Nat) (a b : BitVec w) : BitVec w :=
  if (if uns then decide (a.toNat ≤ b.toNat) else decide (a.toInt ≤ b.toInt)) then b else a

/-- R353: the most negative value is returned unchanged. -/
def opAbs (w : Nat) (a : BitVec w) : BitVec w := if a.toInt < 0 then -a else a

/-- R357. -/
def opCmp (cond : ICond) (uns : Bool) (w : Nat) (a b : BitVec w) : Bool :=
  let x : Int := if uns then a.toNat else a.toInt
  let y : Int := if uns then b.toNat else b.toInt
  match cond with
  | .eq => decide (x = y)
  | .ne => decide (x ≠ y)
  | .lt => decide (x < y)
  | .le => decide (x ≤ y)
  | .gt => decide (y < x)
  | .ge => decide (y ≤ x)

/-- R359: truncated division; the overflow case returns the dividend by wrapping. -/
def opDiv (uns : Bool) (w : Nat) (a b : BitVec w) : BitVec w :=
  if uns then BitVec.ofNat w (a.toNat / b.toNat) else BitVec.ofInt w (a.toInt.tdiv b.toInt)
def opRem (uns : Bool) (w : Nat) (a b : BitVec w) : BitVec w := a - opDiv uns w a b * b

/-- R322. -/
def opBfx (w : Nat) (x : BitVec w) (ctl : Word) : BitVec w :=
  let pos := bits ctl.toNat 7 0
  let len := bits ctl.toNat 15 8
  if w ≤ pos ∨ len = 0 then 0
  else
    let n := min len (w - pos)
    let f := x.toNat / 2 ^ pos % 2 ^ n
    BitVec.ofNat w (if ctl.getLsbD 16 && f.testBit (n - 1) then f + 2 ^ w - 2 ^ n else f)

def opBfi (w : Nat) (x y : BitVec w) (ctl : Word) : BitVec w :=
  let pos := bits ctl.toNat 7 0
  let len := bits ctl.toNat 15 8
  if w ≤ pos ∨ len = 0 then y
  else
    let n := min len (w - pos)
    let m := BitVec.ofNat w ((2 ^ n - 1) * 2 ^ pos)
    (y &&& ~~~m) ||| ((x <<< pos) &&& m)

/-- R323: one byte of the result of BPERM. -/
def permByte (x : Word) (sel : Nat) : Nat :=
  let e := bits x.toNat (8 * (sel % 8) + 7) (8 * (sel % 8))
  if sel < 8 then e else if 128 ≤ e then 255 else 0

def opBperm (a b ctl : Word) : Word :=
  let x := low32 b <<< 32 ||| low32 a
  let k (i : Nat) : Nat := permByte x (bits ctl.toNat (4 * i + 3) (4 * i))
  wordN (k 0 + 256 * k 1 + 65536 * k 2 + 16777216 * k 3)

/-! ## Shapes -/

/-- A two-source form at width W with a register result. -/
def State.bin (s : State) (i : Instr) (c : Ctl) (w : Width) (L : Nat) (d a b : Reg) (f : Bool → Word → Word → Word) :
    State :=
  let wide := isWide c w
  s.fixedReg i c L d wide (fun l => f wide (s.src wide a l) (s.src wide b l))

/-- A one-source form at width W; `one` when the result is a single register (R327, R375). -/
def State.un (s : State) (i : Instr) (c : Ctl) (w : Width) (L : Nat) (one : Bool) (d a : Reg) (f : Bool → Word → Word) :
    State :=
  let wide := isWide c w
  s.fixedReg i c L d (wide && !(one && !c.u)) (fun l => f wide (s.src wide a l))

/-- Carry or borrow through a predicate (R354): `f` gives the result and the new bit. -/
def State.carryForm (s : State) (i : Instr) (c : Ctl) (w : Width) (d a b : Reg) (n : PR)
    (f : Nat → Nat → Nat → Nat → Int × Bool) : State :=
  let wide := isWide c w
  let W := widthOfWide wide
  let at' (l : Nat) : Int × Bool :=
    f W (s.src wide a l).toNat (s.src wide b l).toNat (if s.readP n.val l then 1 else 0)
  let L := lat c 4 2
  s.fixedForm i c L (fun t m due =>
    (t.putReg s.cur d wide m s.ilane (fun l => word ((at' l).1 % 2 ^ W)) due).putPred s.cur n.val m
      (fun l => (at' (if c.u then s.ilane else l)).2) due)

/-- One lane of IDIV or IREM (R359): a zero divisor faults in that lane alone. -/
def divLane (c : Ctl) (w : Width) (d : Reg) (gid : Nat) (ops : Ops) (f : (w : Nat) → BitVec w → BitVec w → BitVec w)
    (id l : Nat) (s : State) : State × LaneFault :=
  let wide := isWide c w
  if ops.lb l == 0 then (s, some (Code.divZero, 0))
  else (s.putReg gid d wide (laneBit l) l (fun k => at2 wide f (ops.la k) (ops.lb k)) (.on id), none)

/-- IDIV and IREM. -/
def State.divForm (s : State) (i : Instr) (c : Ctl) (w : Width) (d a b : Reg)
    (f : (w : Nat) → BitVec w → BitVec w → BitVec w) : State :=
  let wide := isWide c w
  let ops : Ops := { a := s.srcs wide a, b := s.srcs wide b, c := [] }
  s.perLane i c ops (divLane c w d s.cur ops f)

/-! ## Meanings -/

/-- R314. -/
def execAddi (c : Ctl) (d a : Reg) (imm : BitVec 12) (s : State) : Host.Outcome State Fault Refusal :=
  issueWord (.addi c d a imm) (fun s =>
    s.fixedReg (.addi c d a imm) c (lat c 4 2) d c.u (fun l => s.src c.u a l + imm.signExtend 64)) s

/-- R315. -/
def execAddpchi (c : Ctl) (d : Reg) (imm : BitVec 20) (s : State) : Host.Outcome State Fault Refusal :=
  issueWord (.addpchi c d imm) (fun s =>
    s.fixedReg (.addpchi c d imm) c (lat c 4 2) d true
      (fun l => (s.g.th l).hdr + imm.signExtend 64 <<< 12)) s

/-- R316. -/
def execAnd (c : Ctl) (w : Width) (d a b : Reg) (s : State) : Host.Outcome State Fault Refusal :=
  issueWord (.and c w d a b) (fun s => s.bin (.and c w d a b) c w (lat c 4 2) d a b (fun _ x y => x &&& y)) s

/-- R316. -/
def execAndn (c : Ctl) (w : Width) (d a b : Reg) (s : State) : Host.Outcome State Fault Refusal :=
  issueWord (.andn c w d a b) (fun s =>
    s.bin (.andn c w d a b) c w (lat c 4 2) d a b (fun wide => at2 wide (fun _ x y => x &&& ~~~y))) s

/-- R375. -/
def execOr (c : Ctl) (w : Width) (d a b : Reg) (s : State) : Host.Outcome State Fault Refusal :=
  issueWord (.or c w d a b) (fun s => s.bin (.or c w d a b) c w (lat c 4 2) d a b (fun _ x y => x ||| y)) s

/-- R416. -/
def execXor (c : Ctl) (w : Width) (d a b : Reg) (s : State) : Host.Outcome State Fault Refusal :=
  issueWord (.xor c w d a b) (fun s => s.bin (.xor c w d a b) c w (lat c 4 2) d a b (fun _ x y => x ^^^ y)) s

/-- R375. -/
def execNot (c : Ctl) (w : Width) (d a : Reg) (s : State) : Host.Outcome State Fault Refusal :=
  issueWord (.not c w d a) (fun s =>
    s.un (.not c w d a) c w (lat c 4 2) false d a (fun wide => at1 wide (fun _ x => ~~~x))) s

/-- R375. -/
def execRotl (c : Ctl) (w : Width) (d a b : Reg) (s : State) : Host.Outcome State Fault Refusal :=
  issueWord (.rotl c w d a b) (fun s =>
    s.bin (.rotl c w d a b) c w (lat c 4 2) d a b (fun wide => at2 wide opRotl)) s

/-- R375. -/
def execPopc (c : Ctl) (w : Width) (d a : Reg) (s : State) : Host.Outcome State Fault Refusal :=
  issueWord (.popc c w d a) (fun s =>
    s.un (.popc c w d a) c w (lat c 4 2) true d a (fun wide => at1 wide opPopc)) s

/-- R327. -/
def execClz (c : Ctl) (w : Width) (d a : Reg) (s : State) : Host.Outcome State Fault Refusal :=
  issueWord (.clz c w d a) (fun s => s.un (.clz c w d a) c w (lat c 4 2) true d a (fun wide => at1 wide opClz)) s

/-- R327. -/
def execCtz (c : Ctl) (w : Width) (d a : Reg) (s : State) : Host.Outcome State Fault Refusal :=
  issueWord (.ctz c w d a) (fun s => s.un (.ctz c w d a) c w (lat c 4 2) true d a (fun wide => at1 wide opCtz)) s

/-- R327. -/
def execBrev (c : Ctl) (w : Width) (d a : Reg) (s : State) : Host.Outcome State Fault Refusal :=
  issueWord (.brev c w d a) (fun s =>
    s.un (.brev c w d a) c w (lat c 4 2) false d a (fun wide => at1 wide opBrev)) s

/-- R392. -/
def execShl (c : Ctl) (w : Width) (d a b : Reg) (s : State) : Host.Outcome State Fault Refusal :=
  issueWord (.shl c w d a b) (fun s =>
    s.bin (.shl c w d a b) c w (lat c 4 2) d a b (fun wide => atShift wide opShl)) s

/-- R392. -/
def execShr (c : Ctl) (w : Width) (d a b : Reg) (s : State) : Host.Outcome State Fault Refusal :=
  issueWord (.shr c w d a b) (fun s =>
    s.bin (.shr c w d a b) c w (lat c 4 2) d a b (fun wide => atShift wide opShr)) s

/-- R392. -/
def execSar (c : Ctl) (w : Width) (d a b : Reg) (s : State) : Host.Outcome State Fault Refusal :=
  issueWord (.sar c w d a b) (fun s =>
    s.bin (.sar c w d a b) c w (lat c 4 2) d a b (fun wide => atShift wide opSar)) s

/-- R353. -/
def execIadd (c : Ctl) (w : Width) (d a b : Reg) (s : State) : Host.Outcome State Fault Refusal :=
  issueWord (.iadd c w d a b) (fun s => s.bin (.iadd c w d a b) c w (lat c 4 2) d a b (fun _ x y => x + y)) s

/-- R353. -/
def execIsub (c : Ctl) (w : Width) (d a b : Reg) (s : State) : Host.Outcome State Fault Refusal :=
  issueWord (.isub c w d a b) (fun s => s.bin (.isub c w d a b) c w (lat c 4 2) d a b (fun _ x y => x - y)) s

/-- R353. -/
def execImul (c : Ctl) (w : Width) (d a b : Reg) (s : State) : Host.Outcome State Fault Refusal :=
  issueWord (.imul c w d a b) (fun s => s.bin (.imul c w d a b) c w (lat c 6 4) d a b (fun _ x y => x * y)) s

/-- R353. -/
def execImulhi (c : Ctl) (w : Width) (uns : Bool) (d a b : Reg) (s : State) : Host.Outcome State Fault Refusal :=
  issueWord (.imulhi c w uns d a b) (fun s =>
    s.bin (.imulhi c w uns d a b) c w (lat c 6 4) d a b
      (fun wide => at2 wide (if uns then opMulhiU else opMulhiS))) s

/-- R353. -/
def execImin (c : Ctl) (w : Width) (uns : Bool) (d a b : Reg) (s : State) : Host.Outcome State Fault Refusal :=
  issueWord (.imin c w uns d a b) (fun s =>
    s.bin (.imin c w uns d a b) c w (lat c 4 2) d a b (fun wide => at2 wide (opMin uns))) s

/-- R353. -/
def execImax (c : Ctl) (w : Width) (uns : Bool) (d a b : Reg) (s : State) : Host.Outcome State Fault Refusal :=
  issueWord (.imax c w uns d a b) (fun s =>
    s.bin (.imax c w uns d a b) c w (lat c 4 2) d a b (fun wide => at2 wide (opMax uns))) s

/-- R353. -/
def execIabs (c : Ctl) (w : Width) (d a : Reg) (s : State) : Host.Outcome State Fault Refusal :=
  issueWord (.iabs c w d a) (fun s =>
    s.un (.iabs c w d a) c w (lat c 4 2) false d a (fun wide => at1 wide opAbs)) s

/-- R353. -/
def execIneg (c : Ctl) (w : Width) (d a : Reg) (s : State) : Host.Outcome State Fault Refusal :=
  issueWord (.ineg c w d a) (fun s =>
    s.un (.ineg c w d a) c w (lat c 4 2) false d a (fun wide => at1 wide (fun _ x => -x))) s

/-- R353: at the natural width. -/
def execImad (c : Ctl) (d a b x : Reg) (s : State) : Host.Outcome State Fault Refusal :=
  issueWord (.imad c d a b x) (fun s =>
    s.fixedReg (.imad c d a b x) c (lat c 6 4) d c.u
      (fun l => s.src c.u a l * s.src c.u b l + s.src c.u x l)) s

/-- R354. -/
def execIaddc (c : Ctl) (w : Width) (d a b : Reg) (n : PR) (s : State) : Host.Outcome State Fault Refusal :=
  issueWord (.iaddc c w d a b n) (fun s =>
    s.carryForm (.iaddc c w d a b n) c w d a b n
      (fun W x y k => (((x + y + k : Nat) : Int), decide (2 ^ W ≤ x + y + k)))) s

/-- R354. -/
def execIsubb (c : Ctl) (w : Width) (d a b : Reg) (n : PR) (s : State) : Host.Outcome State Fault Refusal :=
  issueWord (.isubb c w d a b n) (fun s =>
    s.carryForm (.isubb c w d a b n) c w d a b n
      (fun _ x y k => ((x : Int) - y - k, decide (x < y + k)))) s

/-- R357. -/
def execIcmp (c : Ctl) (w : Width) (uns : Bool) (cond : ICond) (pd : PR) (a b : Reg) (s : State) :
    Host.Outcome State Fault Refusal :=
  issueWord (.icmp c w uns cond pd a b) (fun s =>
    let wide := isWide c w
    s.fixedPred (.icmp c w uns cond pd a b) c (lat c 4 2) pd.val
      (fun l => test2 wide (opCmp cond uns) (s.src wide a l) (s.src wide b l))) s

/-- R358. -/
def execIsel (c : Ctl) (w : Width) (inv : Bool) (n : PR) (d a b : Reg) (s : State) :
    Host.Outcome State Fault Refusal :=
  issueWord (.isel c w inv n d a b) (fun s =>
    let wide := isWide c w
    s.fixedReg (.isel c w inv n d a b) c (lat c 4 2) d wide
      (fun l => if xor (s.readP n.val l) inv then s.src wide a l else s.src wide b l)) s

/-- R359, R360. -/
def execIdiv (c : Ctl) (w : Width) (uns : Bool) (d a b : Reg) (s : State) : Host.Outcome State Fault Refusal :=
  issueWord (.idiv c w uns d a b) (fun s => s.divForm (.idiv c w uns d a b) c w d a b (opDiv uns)) s

/-- R359, R360. -/
def execIrem (c : Ctl) (w : Width) (uns : Bool) (d a b : Reg) (s : State) : Host.Outcome State Fault Refusal :=
  issueWord (.irem c w uns d a b) (fun s => s.divForm (.irem c w uns d a b) c w d a b (opRem uns)) s

/-- R322. -/
def execBfx (c : Ctl) (d a b : Reg) (s : State) : Host.Outcome State Fault Refusal :=
  issueWord (.bfx c d a b) (fun s =>
    s.fixedReg (.bfx c d a b) c (lat c 4 2) d c.u
      (fun l => at1 c.u (fun w x => opBfx w x (s.src c.u b l)) (s.src c.u a l))) s

/-- R322. -/
def execBfi (c : Ctl) (d a b x : Reg) (s : State) : Host.Outcome State Fault Refusal :=
  issueWord (.bfi c d a b x) (fun s =>
    s.fixedReg (.bfi c d a b x) c (lat c 4 2) d c.u
      (fun l => at2 c.u (fun w p q => opBfi w p q (s.src c.u x l)) (s.src c.u a l) (s.src c.u b l))) s

/-- R323: 32 bits under either value of u. -/
def execBperm (c : Ctl) (d a b x : Reg) (s : State) : Host.Outcome State Fault Refusal :=
  issueWord (.bperm c d a b x) (fun s =>
    s.fixedReg (.bperm c d a b x) c (lat c 4 2) d false
      (fun l => opBperm (s.src false a l) (s.src false b l) (s.src false x l))) s

end Sys2Proof.Machine
end

