-- ==== Sys2Proof/Machine/Moves.lean ====
section
/-! DEFINITION. Moves, predicates, special registers and the forms that combine lanes (21 R366 to R377; 22 R393,
R407, R408, R417). -/
namespace Sys2Proof.Machine

/-- R371. -/
def execMov (c : Ctl) (w : Width) (d a : Reg) (s : State) : Host.Outcome State Fault Refusal :=
  issueWord (.mov c w d a) (fun s => s.un (.mov c w d a) c w (lat c 4 2) false d a (fun _ x => x)) s

/-- R372. -/
def execMovi (c : Ctl) (d : Reg) (imm : BitVec 20) (s : State) : Host.Outcome State Fault Refusal :=
  issueWord (.movi c d imm) (fun s =>
    s.fixedReg (.movi c d imm) c (lat c 4 2) d c.u (fun _ => imm.signExtend 64)) s

/-- R372. -/
def execMovhi (c : Ctl) (d : Reg) (imm : BitVec 20) (s : State) : Host.Outcome State Fault Refusal :=
  issueWord (.movhi c d imm) (fun s =>
    s.fixedReg (.movhi c d imm) c (lat c 4 2) d c.u (fun _ => imm.signExtend 64 <<< 12)) s

/-- One lane of MOVRI (R373). -/
def movriLane (d : VR) (gid : Nat) (ops : Ops) (id l : Nat) (s : State) : State × LaneFault :=
  let n := (low32 (ops.la l)).toNat
  if (s.grp gid).valloc ≤ n then (s, some (Code.regRange, 0))
  else
    let x := (s.ownRead gid (.v n) l).setWidth 32
    (s.modGrp gid (fun g => g.writeV d.val (laneBit l) (fun _ => x) (.on id)), none)

/-- R373. -/
def execMovri (c : Ctl) (d : VR) (i : Reg) (s : State) : Host.Outcome State Fault Refusal :=
  issueWord (.movri c d i) (fun s =>
    let ops : Ops := { a := s.srcs false i, b := [], c := [] }
    s.perLane (.movri c d i) c ops (movriLane d s.cur ops)) s

/-- One lane of MOVWI (R373). -/
def movwiLane (gid : Nat) (ops : Ops) (id l : Nat) (s : State) : State × LaneFault :=
  let n := (low32 (ops.la l)).toNat
  if (s.grp gid).valloc ≤ n then (s, some (Code.regRange, 0))
  else (s.modGrp gid (fun g => g.writeV n (laneBit l) (fun _ => (ops.lb l).setWidth 32) (.on id)), none)

/-- R373. -/
def execMovwi (c : Ctl) (i : Reg) (b : VR) (s : State) : Host.Outcome State Fault Refusal :=
  issueWord (.movwi c i b) (fun s =>
    let ops : Ops := { a := s.srcs false i, b := s.srcs false (.v b), c := [] }
    s.perLane (.movwi c i b) c ops (movwiLane s.cur ops)) s

/-- R374. -/
def execNop (c : Ctl) (s : State) : Host.Outcome State Fault Refusal :=
  issueWord (.nop c) (fun s => s.plainForm c (fun _ t => t)) s

/-- R417: the ages in both slots become zero. -/
def execYield (c : Ctl) (s : State) : Host.Outcome State Fault Refusal :=
  issueWord (.yield c) (fun s => s.plainForm c (fun _ t =>
    t.modG (fun g => { g with ageA := t.cycle, ageB := t.cycle }))) s

/-- R376. -/
def psetBit (f : PFn) (a b : Bool) : Bool :=
  match f with
  | .and => a && b
  | .or => a || b
  | .xor => xor a b
  | .andn => a && !b
  | .set => true
  | .clr => false

/-- R376. -/
def execPset (c : Ctl) (f : PFn) (pd pa pb : PR) (s : State) : Host.Outcome State Fault Refusal :=
  issueWord (.pset c f pd pa pb) (fun s =>
    s.fixedPred (.pset c f pd pa pb) c 4 pd.val (fun l => psetBit f (s.readP pa.val l) (s.readP pb.val l))) s

/-- The predicates of a lane, pn in bit n. -/
def State.predByte (s : State) (l : Nat) : Word :=
  (List.range 8).foldl (fun x n => if s.readP n l then x ||| (1#64 <<< n) else x) 0

/-- R377. -/
def execPmov (c : Ctl) (d : VR) (s : State) : Host.Outcome State Fault Refusal :=
  issueWord (.pmov c d) (fun s => s.fixedReg (.pmov c d) c 4 (.v d) false (fun l => s.predByte l)) s

/-- R377. -/
def execPmovPut (c : Ctl) (a : Reg) (mask : Byte) (s : State) : Host.Outcome State Fault Refusal :=
  issueWord (.pmovPut c a mask) (fun s =>
    s.fixedForm (.pmovPut c a mask) c 4 (fun t m due =>
      (List.range 8).foldl (fun t n =>
        if mask.getLsbD n then t.putPred s.cur n m (fun l => (s.src false a l).getLsbD n) due else t) t)) s

/-! ## Special registers (R71, R367, R368) -/

/-- The value of a special register as lane `l` of the issuing group sees it. -/
def State.special (s : State) (r : SReg) (l : Nat) : Word :=
  let g := s.g
  let w := s.wgOf s.cur
  let rg := s.regOf s.cur
  match r with
  | .laneid => wordN l
  | .grpid => wordN g.grpid
  | .wgid => wordN w.wgid
  | .coreid => wordN g.core
  | .partid => wordN g.part
  | .wgsize => wordN rg.rcb.wgsize
  | .wgcount => wordN rg.rcb.wgcount
  | .roleid => wordN g.role
  | .prio => wordN g.prio
  | .cycle => wordN s.cycle
  | .regbase => wordN g.regbase
  | .spsize => wordN rg.rcb.spbytes
  | .valloc => wordN g.valloc
  | .nbv => wordN rg.rcb.nbv
  | .ebal => word rg.ebal
  | .tbal => word rg.tbal
  | .allow => if g.inTrial l then wordN (g.th l).allow else 0
  | .trialwin => s.ownRead s.cur .win l
  | .rowprog => wordN g.rowprog

/-- R367: a scalar destination with u = 0 takes the lowest active thread's value. -/
def execMfsr (c : Ctl) (d : Reg) (r : SReg) (s : State) : Host.Outcome State Fault Refusal :=
  issueWord (.mfsr c d r) (fun s =>
    s.fixedForm (.mfsr c d r) c 4 (fun t m due =>
      t.putReg s.cur d r.wide m (if c.u then s.ilane else lowLane m) (s.special r) due)) s

/-- R368. -/
def execMtsr (c : Ctl) (a : Reg) (s : State) : Host.Outcome State Fault Refusal :=
  issueWord (.mtsr c a) (fun s =>
    s.plainForm c (fun m t => t.modG (fun g => g.writeWin m (fun l => s.src true a l) (.at (s.cycle + 4))))) s

/-! ## Forms that combine lanes -/

/-- The source lane of SHFL (R393). -/
def shflLane (md : ShflMode) (m : LaneMask) (l k : Nat) : Nat :=
  let j : Int := match md with
    | .idx => (k % 32 : Nat)
    | .up => (l : Int) - k
    | .down => (l : Int) + k
    | .xor => ((l ^^^ (k % 32) : Nat) : Int)
  if 0 ≤ j ∧ j ≤ 31 ∧ bitOf m j.toNat = true then j.toNat else l

/-- R393. -/
def execShfl (c : Ctl) (md : ShflMode) (d a : VR) (b : Reg) (s : State) : Host.Outcome State Fault Refusal :=
  issueWord (.shfl c md d a b) (fun s =>
    s.onceForm (.shfl c md d a b) c Ops.none (fun id m t =>
      t.putReg s.cur (.v d) false m 0
        (fun l => s.src false (.v a) (shflLane md m l (s.src false b l).toNat)) (.on id))) s

/-- R407. -/
def execVote (c : Ctl) (op : VoteOp) (neg : Bool) (n : PR) (s : State) : Host.Outcome State Fault Refusal :=
  issueWord (.vote c op neg n) (fun s =>
    s.onceForm (.vote c op neg n) c Ops.none (fun id m t =>
      let q := filterLanes m (fun l => xor (s.readP n.val l) neg)
      match op with
      | .ballot d => t.putReg s.cur d false m (lowLane m) (fun _ => q.setWidth 64) (.on id)
      | .any d => t.putPred s.cur d.val m (fun _ => q != 0) (.on id)
      | .all d => t.putPred s.cur d.val m (fun _ => q == m) (.on id)
      | .eq d => t.putPred s.cur d.val m (fun _ => q == m || q == 0) (.on id))) s

/-- Adjacent pairs combined (R107, R408). -/
def pairUp (f : U32 → U32 → U32) : List U32 → List U32
  | a :: b :: rest => f a b :: pairUp f rest
  | l => l

/-- A balanced tree over 2^n slots. -/
def treeUp (f : U32 → U32 → U32) : Nat → List U32 → U32
  | 0, l => nth l 0 0
  | n + 1, l => treeUp f n (pairUp f l)

/-- The reduction of VRED over the active lanes (R408). -/
def vredVal (v1 : Bool) (op : VRedOp) (m : LaneMask) (x : Nat → U32) : U32 :=
  let act := (lanesOf m).map x
  let slots (idle : U32) : List U32 := laneList.map (fun l => if bitOf m l then x l else idle)
  match op with
  | .iadd => act.foldl (· + ·) 0
  | .smin => (act.tail).foldl (opMin false 32) (nth act 0 0)
  | .smax => (act.tail).foldl (opMax false 32) (nth act 0 0)
  | .umin => (act.tail).foldl (opMin true 32) (nth act 0 0)
  | .umax => (act.tail).foldl (opMax true 32) (nth act 0 0)
  | .and => act.foldl (· &&& ·) (BitVec.allOnes 32)
  | .or => act.foldl (· ||| ·) 0
  | .xor => act.foldl (· ^^^ ·) 0
  | .fadd => treeUp (faddV v1 .rne) 5 (slots 0x80000000#32)
  | .fmin => treeUp (fminF v1) 5 (slots canonNan)
  | .fmax => treeUp (fmaxF v1) 5 (slots canonNan)

/-- R408. -/
def execVred (c : Ctl) (op : VRedOp) (d : Reg) (a : VR) (s : State) : Host.Outcome State Fault Refusal :=
  issueWord (.vred c op d a) (fun s =>
    s.onceForm (.vred c op d a) c Ops.none (fun id m t =>
      let y := vredVal (s.nbv1 s.cur) op m (fun l => s.readV a.val l)
      t.putReg s.cur d false m (lowLane m) (fun _ => y.setWidth 64) (.on id))) s

end Sys2Proof.Machine
end

