-- ==== Sys2Proof/Machine/MemOps.lean ====
section
/-! DEFINITION. Loads, stores, atomics, fences, cache and TLB maintenance, the store probe (19 R317 to R319, R332,
R333; 20 R350 to R352, R355, R356, R361 to R363; 21 R379 to R382; 22 R397 to R403). -/
namespace Sys2Proof.Machine

def sizeBytes : Size → Nat
  | .b8 => 1
  | .b16 => 2
  | .b32 => 4
  | .b64 => 8

/-- R55, R114: base + sext(offset11) * size. -/
def effAddr (base : Word) (off : BitVec 11) (n : Nat) : Word := base + off.signExtend 64 * wordN n

/-- R266: the window holds these bytes. -/
def windowHolds (w : Word) (a n : Nat) : Bool :=
  let z := bits w.toNat 63 58
  let b := bits w.toNat 53 0
  decide (b ≤ a) && decide (a + n ≤ b + 2 ^ z)

/-- Trial scratch bytes (R270). -/
def TrialLane.read (t : TrialLane) (a n : Nat) : Nat := natLE ((List.range n).map (fun i => getD t.scratch 0 (a + i)))
def putScratch (m : KMap Byte) (a : Nat) : List Byte → KMap Byte
  | [] => m
  | b :: bs => putScratch (putD m 0 a b) (a + 1) bs

/-- The fault of an access in a trial window: what R270 confines becomes cause 3. -/
def inWindow (c : Nat) : Nat := if c = Code.accessDenied ∨ c = Code.addrRange ∨ c = Code.storeRange then windowCode else c

/-- One lane's read of `n` bytes at `ea` (R114, R270, R362). -/
def State.laneLoad (s : State) (gid l : Nat) (sp : Space) (ea n : Nat) : State × Except Nat Nat :=
  let g := s.grp gid
  match (g.th l).trial with
  | some t =>
    match sp with
    | .g =>
      if ea % n ≠ 0 ∨ !windowHolds t.window ea n then (s, .error windowCode)
      else
        match s.loadG (some g.core) (s.cidOf gid) ea n with
        | (s, .error c) => (s, .error (inWindow c))
        | (s, .ok x) => (s, .ok x)
    | .s => if ea % n ≠ 0 ∨ 256 < ea + n then (s, .error windowCode) else (s, .ok (t.read ea n))
    | .k => (s, .error windowCode)
  | none =>
    if ea % n ≠ 0 then (s, .error Code.misaligned)
    else
      match sp with
      | .g => s.loadG (some g.core) (s.cidOf gid) ea n
      | .s => (s, s.loadS gid ea n)
      | .k => s.loadK gid ea n

/-- One lane's write of bytes at `ea` (R114, R270, R400). -/
def State.laneStore (s : State) (gid l : Nat) (sp : Space) (ea : Nat) (bs : List Byte) (due : Due) :
    State × Except Nat Unit :=
  let g := s.grp gid
  let n := bs.length
  match (g.th l).trial with
  | some _ =>
    if sp ≠ .s ∨ ea % n ≠ 0 ∨ 256 < ea + n then (s, .error windowCode)
    else
      (s.modGrp gid (fun g => g.modLane l (fun th =>
        { th with trial := th.trial.map (fun t => { t with scratch := putScratch t.scratch ea bs }) })), .ok ())
  | none =>
    if ea % n ≠ 0 then (s, .error Code.misaligned)
    else
      match sp with
      | .g => s.storeG (some g.core) (s.cidOf gid) ea bs
      | .s => s.storeS gid ea bs due
      | .k => (s, .error Code.accessDenied)

/-- One lane of LD (R362). -/
def ldLane (sp : Space) (z : Size) (d : Reg) (off : BitVec 11) (gid : Nat) (ops : Ops) (id l : Nat) (s : State) :
    State × LaneFault :=
  let n := sizeBytes z
  let ea := effAddr (ops.la l) off n
  match s.laneLoad gid l sp ea.toNat n with
  | (s, .error c) => (s, some (c, ea))
  | (s, .ok x) => (s.putReg gid d (z == .b64) (laneBit l) l (fun _ => wordN x) (.on id), none)

/-- R361 to R363. -/
def execLd (c : Ctl) (sp : Space) (z : Size) (o : Ord) (sc : Scope) (d a : Reg) (off : BitVec 11) (s : State) :
    Host.Outcome State Fault Refusal :=
  issueWord (.ld c sp z o sc d a off) (fun s =>
    let ops : Ops := { a := s.bases a, b := [], c := [] }
    s.perLane (.ld c sp z o sc d a off) c ops (ldLane sp z d off s.cur ops)) s

/-- One lane of ST (R400). -/
def stLane (sp : Space) (z : Size) (off : BitVec 11) (gid : Nat) (ops : Ops) (id l : Nat) (s : State) :
    State × LaneFault :=
  let n := sizeBytes z
  let ea := effAddr (ops.la l) off n
  match s.laneStore gid l sp ea.toNat (bytesLE n (ops.lb l).toNat) (.on id) with
  | (s, .error c) => (s, some (c, ea))
  | (s, .ok _) => (s, none)

/-- R399 to R401. -/
def execSt (c : Ctl) (sp : Space) (z : Size) (o : Ord) (sc : Scope) (d a : Reg) (off : BitVec 11) (s : State) :
    Host.Outcome State Fault Refusal :=
  issueWord (.st c sp z o sc d a off) (fun s =>
    let ops : Ops := { a := s.bases a, b := s.srcs (z == .b64) d, c := [] }
    s.perLane (.st c sp z o sc d a off) c ops (stLane sp z off s.cur ops)) s

/-! ## ATOM and RED -/

/-- combine(op, old, x, y) at a width; none when nothing is written (R317). -/
def combine (op : AtomOp) (w : Nat) (old x y : BitVec w) : Option (BitVec w) :=
  match op with
  | .add => some (old + x)
  | .smin => some (opMin false w old x)
  | .smax => some (opMax false w old x)
  | .and => some (old &&& x)
  | .or => some (old ||| x)
  | .xor => some (old ^^^ x)
  | .xchg => some x
  | .cas => if old = x then some y else none

def combineN (op : AtomOp) (n : Nat) (old : Nat) (x y : Word) : Option (List Byte) :=
  if n = 8 then (combine op 64 (wordN old) x y).map (fun v => bytesLE 8 v.toNat)
  else (combine op 32 (BitVec.ofNat 32 old) (x.setWidth 32) (y.setWidth 32)).map (fun v => bytesLE 4 v.toNat)

/-- One read-modify-write of a lane: the old value (R318). -/
def State.laneRmw (s : State) (gid : Nat) (sp : Space) (ea n : Nat) (op : AtomOp) (x y : Word) (due : Due) :
    State × Except Nat Nat :=
  if ea % n ≠ 0 then (s, .error Code.misaligned)
  else
    match sp with
    | .s =>
      match s.loadS gid ea n with
      | .error c => (s, .error c)
      | .ok old =>
        match combineN op n old x y with
        | some bs => (s.putStore gid ea due bs, .ok old)
        | none => (s, .ok old)
    | _ =>
      match s.accessG (some (s.grp gid).core) (s.cidOf gid) ea n .rmw with
      | (s, .error c) => (s, .error c)
      | (s, .ok t) =>
        match s.loadT t n with
        | .error c => (s, .error c)
        | .ok old =>
          match combineN op n old x y with
          | some bs => (s.storeT t bs, .ok old)
          | none => (s, .ok old)

/-- One lane of ATOM (R318); of RED when there is no destination (R382). -/
def atomLane (sp : Space) (z : Size) (op : AtomOp) (d : Option Reg) (gid : Nat) (ops : Ops) (id l : Nat) (s : State) :
    State × LaneFault :=
  let n := sizeBytes z
  match s.laneRmw gid sp (ops.la l).toNat n op (ops.lb l) (ops.lc l) (.on id) with
  | (s, .error c) => (s, some (c, ops.la l))
  | (s, .ok old) =>
    match d with
    | some r => (s.putReg gid r (z == .b64) (laneBit l) l (fun _ => wordN old) (.on id), none)
    | none => (s, none)

/-- The register `k` places after a field, as a source. -/
def State.srcAfter (s : State) (wide : Bool) (r : Reg) (k l : Nat) : Word :=
  match r with
  | .s n => if wide then s.readS (n.val + 1) else low32 (s.readS (n.val + 1))
  | .v n =>
    if wide then (s.readV (n.val + k + 1) l).setWidth 64 <<< 32 ||| (s.readV (n.val + k) l).setWidth 64
    else (s.readV (n.val + k) l).setWidth 64

/-- R317: the operands of ATOM and RED. -/
def State.atomOps (s : State) (z : Size) (op : AtomOp) (a b : Reg) : Ops :=
  let wide := z == .b64
  { a := s.bases a, b := s.srcs wide b,
    c := if op = .cas then laneList.map (s.srcAfter wide b (two wide)) else [] }

/-- R317 to R319. -/
def execAtom (c : Ctl) (sp : Space) (z : Size) (op : AtomOp) (o : Ord) (sc : Scope) (d a b : Reg) (s : State) :
    Host.Outcome State Fault Refusal :=
  issueWord (.atom c sp z op o sc d a b) (fun s =>
    let ops := s.atomOps z op a b
    s.perLane (.atom c sp z op o sc d a b) c ops (atomLane sp z op (some d) s.cur ops)) s

/-- R381, R382. -/
def execRed (c : Ctl) (sp : Space) (z : Size) (op : AtomOp) (o : Ord) (sc : Scope) (a b : Reg) (s : State) :
    Host.Outcome State Fault Refusal :=
  issueWord (.red c sp z op o sc a b) (fun s =>
    let ops := s.atomOps z op a b
    s.perLane (.red c sp z op o sc a b) c ops (atomLane sp z op none s.cur ops)) s

/-! ## FENCE, PREF, CFLUSH: no value changes in a machine that performs each access at its issue (R333, R351,
R380; DESIGN CHOICE, log 11) -/

/-- R350 to R352: the FENCE waits for the accesses before it, and later ones wait for it (`mustPrecede`). -/
def execFence (c : Ctl) (o : Ord) (sc : Scope) (s : State) : Host.Outcome State Fault Refusal :=
  issueWord (.fence c o sc) (fun s => s.onceForm (.fence c o sc) c Ops.none (fun _ _ t => t)) s

/-- R379, R380. -/
def execPref (c : Ctl) (l2 : Bool) (a : Reg) (off : BitVec 11) (s : State) : Host.Outcome State Fault Refusal :=
  issueWord (.pref c l2 a off) (fun s => s.plainForm c (fun _ t => t)) s

/-- R332, R333. -/
def execCflush (c : Ctl) (inv : Bool) (sc : Scope) (a : Reg) (off : BitVec 11) (s : State) :
    Host.Outcome State Fault Refusal :=
  issueWord (.cflush c inv sc a off) (fun s => s.onceForm (.cflush c inv sc a off) c Ops.none (fun _ _ t => t)) s

/-! ## ICINV and TLBINV -/

/-- Changes every core that has been touched. -/
def State.mapCores (s : State) (f : Core → Core) : State :=
  (s.cores.map (fun p => p.1)).foldl (fun s n => s.modCore n f) s

/-- [lo, lo + n) and [a, a + len) share a byte. -/
def overlaps (lo n a len : Nat) : Bool := decide (lo < a + len) && decide (a < lo + n) && decide (0 < len)

/-- The line of an address lies in the range of ICINV. -/
def lineIn (r : Option (Nat × Nat)) (va : Nat) : Bool :=
  match r with
  | none => true
  | some (a, len) => overlaps (va / 128 * 128) 128 a len

/-- A group of the context drops the word that it has fetched and not issued. -/
def State.dropFetched (s : State) (cid : Nat) (r : Option (Nat × Nat)) : State :=
  { s with groups := s.groups.map (fun q => (q.1, { q.2 with
      fetched := q.2.fetched.filter (fun x => !((s.wg q.2.wid).ctx == cid && lineIn r x.1.toNat)) })) }

/-- R355: every core drops its copies of the context's lines in the range, a word fetched for issue among them. -/
def State.dropCopies (s : State) (cid : Nat) (r : Option (Nat × Nat)) : State :=
  (s.mapCores (fun c => { c with icache := c.icache.filter (fun x => !(x.ctx == cid && lineIn r x.va)) })).dropFetched cid r

/-- R129, R403: every core drops the context's entries whose page overlaps the range. -/
def State.dropTlb (s : State) (cid : Nat) (r : Option (Nat × Nat)) : State :=
  s.mapCores (fun c => { c with tlb := c.tlb.filter (fun e =>
    !(e.ctx == cid && (match r with
      | none => true
      | some (a, len) => overlaps e.va e.size a len))) })

/-- The operands of ICINV and TLBINV. -/
def State.invOps (s : State) (r : InvRange) : Ops :=
  match r with
  | .all => Ops.none
  | .range a b => { a := [s.readS a.val], b := [s.readS b.val], c := [] }

def invRange (r : InvRange) (ops : Ops) : Option (Nat × Nat) :=
  match r with
  | .all => none
  | .range _ _ => some ((ops.la 0).toNat, (ops.lb 0).toNat)

/-- The drop of copies or entries, after which nothing remains to be done. -/
def State.invAct (s : State) (gid id : Nat) (i : Instr) (ops : Ops) (m : LaneMask) : State :=
  (match i with
    | .icinv _ r => s.dropCopies (s.cidOf gid) (invRange r ops)
    | .tlbinv _ r => s.dropTlb (s.cidOf gid) (invRange r ops)
    | _ => s).finishRun gid id i m []

/-- R355, R356 (DESIGN CHOICE, log 33). -/
def execIcinv (c : Ctl) (r : InvRange) (s : State) : Host.Outcome State Fault Refusal :=
  issueWord (.icinv c r) (fun s =>
    s.onceForm (.icinv c r) c (s.invOps r) (fun id m t => t.invAct s.cur id (.icinv c r) (s.invOps r) m)) s

/-- R403 (DESIGN CHOICE, log 33). -/
def execTlbinv (c : Ctl) (r : InvRange) (s : State) : Host.Outcome State Fault Refusal :=
  issueWord (.tlbinv c r) (fun s =>
    s.onceForm (.tlbinv c r) c (s.invOps r) (fun id m t => t.invAct s.cur id (.tlbinv c r) (s.invOps r) m)) s

/-! ## SPROBE (R397, R398) -/

/-- The fault of a table descriptor (R398). -/
def State.probeFault (s : State) (gid : Nat) (b : Word) : Option Nat :=
  let z := bits b.toNat 31 27
  let base := bits b.toNat 21 0
  if base % 8 ≠ 0 then some Code.misaligned
  else if bits b.toNat 63 32 ≠ 0 ∨ bits b.toNat 26 22 ≠ 0 ∨ 19 < z then some Code.storeRange
  else if s.storeVisible gid base (8 * 2 ^ z) then none else some Code.storeRange

/-- Probes from slot h + j on; `fuel` probes remain. -/
def State.probe (s : State) (gid base z key h : Nat) : Nat → Nat → Option Nat
  | 0, _ => none
  | fuel + 1, j =>
    match s.loadS gid (base + 8 * ((h + j) % 2 ^ z)) 8 with
    | .error _ => none
    | .ok x =>
      if x % 2 ^ 32 = 0xFFFFFFFF then none
      else if x % 2 ^ 32 = key then some (x / 2 ^ 32)
      else s.probe gid base z key h fuel (j + 1)

/-- One lane of SPROBE. -/
def sprobeLane (d : VR) (f : PR) (gid : Nat) (ops : Ops) (id l : Nat) (s : State) : State × LaneFault :=
  match s.probeFault gid (ops.lb l) with
  | some c => (s, some (c, (ops.lb l) &&& 0x3FFFFF#64))
  | none =>
    let z := bits (ops.lb l).toNat 31 27
    let key := (low32 (ops.la l)).toNat
    let h := if z = 0 then 0 else (key * 0x9E3779B9) % 2 ^ 32 / 2 ^ (32 - z)
    let r := s.probe gid (bits (ops.lb l).toNat 21 0) z key h (min (2 ^ z) 64) 0
    let s := s.putReg gid (.v d) false (laneBit l) l (fun _ => wordN (r.getD 0)) (.on id)
    (s.putPred gid f.val (laneBit l) (fun _ => r.isSome) (.on id), none)

/-- R397, R398. -/
def execSprobe (c : Ctl) (d : VR) (f : PR) (a : Reg) (b : SR) (s : State) : Host.Outcome State Fault Refusal :=
  issueWord (.sprobe c d f a b) (fun s =>
    let ops : Ops := { a := s.srcs false a, b := s.srcs true (.s b), c := [] }
    s.perLane (.sprobe c d f a b) c ops (sprobeLane d f s.cur ops) (s.probeFault s.cur (s.readS b.val)).isSome) s

end Sys2Proof.Machine
end

