-- ==== Sys2Proof/Machine/Trial.lean ====
section
/-! DEFINITION. Trial execution and swatches (14; 22 R402, R405). -/
namespace Sys2Proof.Machine

/-- R266. -/
def windowOk (w : Word) : Bool :=
  let z := bits w.toNat 63 58
  let v := bits w.toNat 57 54
  decide (6 ≤ z) && decide (z ≤ 40) && decide (1 ≤ v) && bits w.toNat 53 0 % 2 ^ z == 0

/-- What TRY does in a lane. -/
inductive TryRes where
  | enters (seg : Seg) (hdr : Word)
  | returns (cause : Nat)
  | faults (code : Nat)
  deriving DecidableEq, Repr

/-- The checks of TRY in a lane (R268). -/
def State.tryCheck (s : State) (gid : Nat) (win e : Word) : State × TryRes :=
  let cid := s.cidOf gid
  if !windowOk win then (s, .returns 3)
  else if s.revokedAt cid e.toNat then (s, .faults Code.codeRevoked)
  else if !inSpace e.toNat || e.toNat % 8 != 0 then (s, .returns 4)
  else
    match s.trialSeg cid e.toNat with
    | none => (s, .returns 4)
    | some seg =>
      match s.fetchWord (s.grp gid).core cid e.toNat with
      | (s, .error c) => (s, if c = Code.execDenied then .returns 4 else .faults c)
      | (s, .ok w) => (s, if headerOk w && hdrKind w == 2 then .enters seg w else .returns 4)

/-- Lane `l` enters its candidate at the header `w` at `e` (R268). -/
def Group.beginTrial (g : Group) (l id out : Nat) (flag : Nat) (seg : Seg) (win e w : Word) (a cycle : Nat) : Group :=
  let g := g.modLane l (fun t => { t with
    allow := a, via := Config.lostPc id,
    trial := some { pend := id, ret := t.pc + 8, segBase := wordN seg.va, segLen := wordN seg.memsize, scratch := [],
                    start := a, outReg := out, flag := flag, vlim := bits win.toNat 57 54, window := win,
                    homeHdr := t.hdr, homeLen := t.len, homeKind := t.kind, homeRoff := t.roff } })
  ({ (g.enterBlock l e w cycle) with trialSram := true }.modPend id (fun p =>
    { p with entered := p.entered ||| laneBit l })).rejoin

/-- TRY in lanes: `ret` collects those that returned at once, `fs` the faults. -/
def State.tryLanes (s : State) (gid id out flag : Nat) (ops : Ops) :
    List Nat → LaneMask → List (Nat × Nat × Word) → State × LaneMask × List (Nat × Nat × Word)
  | [], ret, fs => (s, ret, fs.reverse)
  | l :: ls, ret, fs =>
    let win := ops.lc l
    let e := ops.la l
    let a := min (low32 (ops.lb l)).toNat 0xFFFFFF
    match s.tryCheck gid win e with
    | (s, .faults c) => s.tryLanes gid id out flag ops ls ret ((l, c, fetchAddr c e) :: fs)
    | (s, .returns cause) =>
      let s := s.modGrp gid (fun g =>
        let g := g.writeV out (laneBit l) (fun _ => BitVec.ofNat 32 cause) (.on id)
        let g := g.writeV (out + 1) (laneBit l) (fun _ => 0) (.on id)
        g.modPend id (fun p => { p with done := p.done ||| laneBit l }))
      s.tryLanes gid id out flag ops ls (ret ||| laneBit l) fs
    | (s, .enters seg w) =>
      (s.modGrp gid (fun g => g.beginTrial l id out flag seg win e w a (s.holdClock gid))).tryLanes gid id out flag ops ls ret fs

/-- TRY for lanes of its record: those refused go on after it; a fault suspends the workgroup. -/
def State.tryRun (s : State) (gid id : Nat) (i : Instr) (out flag : Nat) (ops : Ops) (pc : Word) (todo : LaneMask) :
    State :=
  let r := s.tryLanes gid id out flag ops (lanesOf todo) 0 []
  let s := r.1.advance gid r.2.1
  match worst r.2.2 with
  | none => s.modGrp gid (fun g => (g.modPend id (fun p => { p with kind := .inTrial, recKey := 0 })).tryDone id)
  | some (c, a, m) =>
    let key := s.nextKey (s.cidOf gid)
    (s.modGrp gid (fun g => g.modPend id (fun p => { p with kind := .faulted, recKey := key }))).takeFault gid
      { code := c, pc := pc, addr := a, lanes := m, detail := 0, word := wordOf i } (.instr gid id)

/-- R267, R268: a lane's window is the value of trialwin that governs at the issue (R72). -/
def execTry (c : Ctl) (d a : VR) (b : SR) (s : State) : Host.Outcome State Fault Refusal :=
  issueWord (.tryT c d a b) (fun s =>
    let m := s.active c
    let rest := s.iset &&& ~~~m
    if m == 0 then s.advance s.cur rest
    else
      let ops : Ops := { a := s.srcs true (.v a), b := s.srcs true (.s b),
                         c := laneList.map (s.ownRead s.cur .win) }
      let t := (s.startPend (.tryT c d a b) c m .inTrial ops).advance s.cur rest
      t.tryRun s.cur s.nextId (.tryT c d a b) d.val c.set.toNat ops s.issuePc m) s

/-- TRY performed again for the lanes that have neither returned nor entered (R247). -/
def State.tryAgain (s : State) (gid : Nat) (p : Pend) : State :=
  match p.instr with
  | .tryT c d _ _ =>
    let todo := filterLanes (p.lanes &&& ~~~p.done) (fun l => !(s.grp gid).inTrial l)
    s.tryRun gid p.id p.instr d.val c.set.toNat p.ops p.pc todo
  | _ => s

/-- TRET in trial lanes ends the trial with the value of vR; outside a trial it faults (R268, R405). -/
def execTret (c : Ctl) (a : Reg) (s : State) : Host.Outcome State Fault Refusal :=
  issueWord (.tret c a) (fun s =>
    let m := s.active c
    if s.g.inTrial s.ilane then
      let x := s.srcs false a
      let t := (s.advance s.cur (s.iset &&& ~~~m))
      let t := (lanesOf m).foldl (fun t l => t.outcome s.cur l 0 (nth x 0 l)) t
      t.afterReturn s.cur m
    else s.perLane (.tret c a) c Ops.none (fun _ _ t => (t, some (Code.trialIllegal, 0)))) s

/-- ALLOWANCE_SPENT: the lanes of the issue set with allow = 0 return with cause 1; the word has no effect
(R269). -/
def execAllowanceSpent (gid : Nat) (s : State) : Host.Outcome State Fault Refusal :=
  .next (s.outcomes gid (filterLanes s.iset (fun l =>
    (s.grp gid).inTrial l && ((s.grp gid).th l).allow == 0)) 1)

/-! ## Swatches (R274 to R276) -/

/-- R274: one fold. -/
def swatchFold (sw : Word) (c x : U32) : Word × U32 :=
  (sw.rotateLeft 7 ^^^ x.setWidth 64, c.rotateLeft 11 + x)

/-- R274, R402. -/
def execSwf (c : Ctl) (d : VR) (a : Reg) (s : State) : Host.Outcome State Fault Refusal :=
  issueWord (.swf c d a) (fun s =>
    let new (l : Nat) : Word × U32 :=
      swatchFold (s.src true (.v d) l) (s.readV (d.val + 2) l) ((s.src false a l).setWidth 32)
    s.onceForm (.swf c d a) c Ops.none (fun id m t =>
      t.modG (fun g =>
        let g := g.writeV d.val m (fun l => (new l).1.setWidth 32) (.on id)
        let g := g.writeV (d.val + 1) m (fun l => ((new l).1 >>> 32).setWidth 32) (.on id)
        g.writeV (d.val + 2) m (fun l => (new l).2) (.on id)))) s

/-- A way of a bucket (R275). -/
structure Way where
  primary : Nat
  check   : Nat
  refs    : Nat
  valid   : Bool
  deriving DecidableEq, Repr

def wayOf (bs : List Byte) (k : Nat) : Way :=
  let w := bs.drop (16 * k)
  { primary := natLE (w.take 8), check := natLE ((w.drop 8).take 4), refs := natLE ((w.drop 12).take 2),
    valid := (natLE ((w.drop 14).take 2)).testBit 0 }

def wayBytes (w : Way) : List Byte :=
  bytesLE 8 w.primary ++ bytesLE 4 w.check ++ bytesLE 2 w.refs ++ bytesLE 2 (if w.valid then 1 else 0)

/-- R276: the commit of one swatch: the way written, and the verdict word. -/
def swatchCommit (ways : List Way) (sw c : Nat) : Option (Nat × Way) × Nat :=
  match (List.range 4).find? (fun k => let w := nth ways ⟨0, 0, 0, false⟩ k; w.valid && w.primary == sw) with
  | some k =>
    let w := nth ways ⟨0, 0, 0, false⟩ k
    let r := min (w.refs + 1) 0xFFFF
    (some (k, { w with refs := r }), r * 65536 + (if w.check = c then 1 else 2))
  | none =>
    match (List.range 4).find? (fun k => !(nth ways ⟨0, 0, 0, false⟩ k).valid) with
    | some k => (some (k, { primary := sw, check := c, refs := 1, valid := true }), 65536)
    | none => (none, 3)

/-- The bucket of a swatch (R276). -/
def bucketOf (sw : Word) : Nat := (sw * 0x9E3779B97F4A7C15#64).toNat / 2 ^ 44

/-- One lane of SWC: operands s, c and the table (R275, R276, R402). -/
def swcLane (d : VR) (gid : Nat) (ops : Ops) (id l : Nat) (s : State) : State × LaneFault :=
  let table := (ops.lc l).toNat
  if table % 2 ^ 26 ≠ 0 then (s, some (Code.misaligned, ops.lc l))
  else if 2 ^ 54 < table + 2 ^ 26 then (s, some (Code.addrRange, ops.lc l))
  else
    let ea := table + 64 * bucketOf (ops.la l)
    match s.accessG (some (s.grp gid).core) (s.cidOf gid) ea 8 .rmw with
    | (s, .error c) => (s, some (c, wordN ea))
    | (s, .ok t) =>
      match s.loadT t 64 with
      | .error c => (s, some (c, wordN ea))
      | .ok x =>
        let bs := bytesLE 64 x
        let r := swatchCommit ((List.range 4).map (wayOf bs)) (ops.la l).toNat (ops.lb l).toNat
        let s := match r.1, t with
          | some (k, w), .mem loc => s.putAt (loc + 16 * k) (wayBytes w)
          | _, _ => s
        (s.putReg gid (.v d) false (laneBit l) l (fun _ => wordN r.2) (.on id), none)

/-- R275, R276, R402: lanes commit in ascending order. -/
def execSwc (c : Ctl) (d a : VR) (b : SR) (s : State) : Host.Outcome State Fault Refusal :=
  issueWord (.swc c d a b) (fun s =>
    let ops : Ops := { a := s.srcs true (.v a), b := laneList.map (fun l => (s.readV (a.val + 2) l).setWidth 64),
                       c := s.srcs true (.s b) }
    s.perLane (.swc c d a b) c ops (swcLane d s.cur ops)) s

end Sys2Proof.Machine
end

