-- ==== Sys2Proof/Machine/Weirs.lean ====
section
/-! DEFINITION. Weirs, rings and the waits on them, and WAITSTAMP (07 R156 to R167; 22 R409 to R415). -/
namespace Sys2Proof.Machine

/-! ## The weir (R157) -/

/-- The fields of a weir; `resv` says that a reserved bit is set. -/
structure Weir where
  expected : Nat
  count    : Nat
  window   : Nat
  phase    : Bool
  err      : Bool
  code     : Nat
  seqbase  : Nat
  detail   : Nat
  resv     : Bool
  deriving DecidableEq, Repr

/-- The weir in sixteen bytes (R157). -/
def weirOf (bs : List Byte) : Weir :=
  let x := natLE bs
  { expected := bits x 15 0, count := bits x 31 16, window := bits x 39 32, phase := x.testBit 40, err := x.testBit 41,
    code := bits x 55 48, seqbase := bits x 95 64, detail := bits x 127 96,
    resv := bits x 47 42 != 0 || bits x 63 56 != 0 }

/-- The sixteen bytes of a weir whose reserved bits are zero. -/
def weirBytes (x : Weir) : List Byte :=
  bytesLE 2 x.expected ++ bytesLE 2 x.count ++ bytesLE 1 x.window
    ++ bytesLE 1 ((if x.phase then 1 else 0) + (if x.err then 2 else 0)) ++ bytesLE 1 x.code ++ bytesLE 1 0
    ++ bytesLE 4 x.seqbase ++ bytesLE 4 x.detail

def Wg.padBytes (w : Wg) (a n : Nat) : List Byte := (List.range n).map (fun i => w.padByte (a + i))
def Wg.putPads (w : Wg) (a : Nat) : List Byte → Wg
  | [] => w
  | b :: bs => (w.putPad a b).putPads (a + 1) bs

def Wg.weir (w : Wg) (a : Nat) : Weir := weirOf (w.padBytes a 16)
def State.putWeir (s : State) (wid a : Nat) (x : Weir) : State := s.modWg wid (fun w => w.putPads a (weirBytes x))

/-- R156: the address of a weir of a scratchpad. -/
def weirAddrOk (a sp : Nat) : Bool := a % 16 == 0 && decide (a + 16 ≤ sp)

/-- An arrival at a weir: count, expected-count operand, error code and detail (R159). -/
def Weir.arrive (x : Weir) (n e : Nat) (error : Option (Nat × Nat)) : Except Nat Weir :=
  if x.resv || (x.expected == 0 && e == 0) then .error Code.badWeir
  else if e ≠ 0 ∧ x.count ≠ 0 ∧ x.expected ≠ e then .error Code.weirMismatch
  else
    let exp := if e ≠ 0 then e else x.expected
    if exp < x.count + n then .error Code.weirOverflow
    else
      let x := { x with expected := exp }
      let x := match error with
        | some (c, d) => if x.err then x else { x with err := true, code := c, detail := d }
        | none => x
      if x.count + n = exp then
        .ok { x with phase := !x.phase, count := 0, seqbase := (x.seqbase + 1) % 2 ^ 32 }
      else .ok { x with count := x.count + n }

/-- R161. -/
def Weir.done (x : Weir) (p : Bool) : Bool := x.phase != p

/-- R161: (code << 24) | detail[23:0]. -/
def Weir.report (x : Weir) : Nat := x.code * 2 ^ 24 + x.detail % 2 ^ 24

/-- The waits of a workgroup that the weir at `a` now satisfies come next, before any other turn and so before a later
phase can complete (R161). -/
def State.wakeWeir (s : State) (wid a : Nat) : State :=
  let x := (s.wg wid).weir a
  let turns := (s.wg wid).gids.flatMap (fun gid => (s.grp gid).pending.filterMap (fun p =>
    match p.kind with
    | .weir w par _ _ => if w = a ∧ x.done par then some (Turn.run (.weirWaitReturn gid p.id)) else none
    | _ => none))
  { s with agenda := turns ++ s.agenda }

/-- WEIR_ARRIVE at a weir of a workgroup. -/
def State.weirArrive (s : State) (wid a n e : Nat) (error : Option (Nat × Nat)) : State × Except Nat Unit :=
  let x := (s.wg wid).weir a
  match x.arrive n e error with
  | .error c => (s, .error c)
  | .ok y =>
    let s := s.putWeir wid a y
    (if y.phase != x.phase then s.wakeWeir wid a else s, .ok ())

/-! ## Rings (R165, R166) -/

structure Ring where
  depth : Nat
  slotbytes : Nat
  slotbase : Nat
  deriving DecidableEq, Repr

def fullWeir (g i : Nat) : Nat := g + 16 + 16 * i
def emptyWeir (g d i : Nat) : Nat := g + 16 + 16 * (d + i)

/-- The ring at `g` in a scratchpad of `sp` bytes, when it is well-formed (R166). -/
def Wg.ring (w : Wg) (sp g : Nat) : Option Ring :=
  if !(g % 16 == 0 && decide (g + 16 ≤ sp)) then none
  else
    let x := natLE (w.padBytes g 16)
    let d := bits x 71 64
    let b := bits x 63 32
    let base := bits x 21 0
    if bits x 127 72 == 0 && bits x 31 22 == 0 && decide (1 ≤ d) && decide (d ≤ 64) && b % 16 == 0 && decide (16 ≤ b)
      && decide (b ≤ 4194304) && base % 16 == 0 && decide (base + d * b ≤ sp) && decide (g + 16 + 32 * d ≤ sp)
      && (List.range (2 * d)).all (fun i => (w.weir (fullWeir g i)).window == d)
    then some { depth := d, slotbytes := b, slotbase := base }
    else none

/-! ## Instructions that act once for the group -/

/-- A fault of all the lanes of an instruction, or its end. -/
def State.finishOnce (s : State) (gid id : Nat) (i : Instr) (m : LaneMask) (f : LaneFault) : State :=
  match f with
  | none => s.finishRun gid id i m []
  | some (c, a) => s.finishRun gid id i 0 ((lanesOf m).map (fun l => (l, c, a)))

def optReg (s : State) (b : Option SR) : Word := match b with | some r => s.readS r.val | none => 0

/-- The result of a wait or test: pE := err and d := the report, in every active thread (R161, R413). -/
def State.weirResult (s : State) (gid id : Nat) (m : LaneMask) (d : Reg) (pn : PR) (pv : Bool) (x : Weir) : State :=
  let s := s.putReg gid d false m (lowLane m) (fun _ => wordN x.report) (.on id)
  s.putPred gid pn.val m (fun _ => pv) (.on id)

/-- A wait at the weir `a`: it returns at once when its condition holds, else it stands recorded (DEDUCED, log 36). -/
def State.weirWait (s : State) (gid id : Nat) (m : LaneMask) (a : Nat) (par : Bool) (d : Reg) (pe : PR) : State :=
  let x := (s.wgOf gid).weir a
  if x.done par then
    (s.weirResult gid id m d pe x.err x).modGrp gid (fun g => g.modPend id (fun p =>
      { p with done := m, kind := .result, recKey := 0 }))
  else
    s.modGrp gid (fun g => g.modPend id (fun p => { p with kind := .weir a par d pe, recKey := 0 }))

/-- The effect of a weir instruction for the lanes `m` of its record: at issue, or again (R411 to R415). -/
def State.weirAct (s : State) (gid id : Nat) (i : Instr) (ops : Ops) (m : LaneMask) : State :=
  let a := (ops.la 0).toNat
  let b := (ops.lb 0).toNat
  let wid := (s.grp gid).wid
  let sp := s.spBytes (s.wg wid)
  let n := (lanesOf m).length
  let bad : State := s.finishOnce gid id i m (some (Code.storeRange, ops.la 0))
  match i with
  | .winit _ _ _ _ =>
    if !weirAddrOk a sp then bad
    else if bits b 31 24 ≠ 0 then s.finishOnce gid id i m (some (Code.badWeir, ops.la 0))
    else
      (s.putWeir wid a { expected := bits b 15 0, count := 0, window := bits b 23 16, phase := false, err := false,
                         code := 0, seqbase := bits b 63 32, detail := 0, resv := false }).finishOnce gid id i m none
  | .warrive _ _ _ _ =>
    if !weirAddrOk a sp then bad
    else
      match s.weirArrive wid a n (bits b 15 0) none with
      | (s, .error c) => s.finishOnce gid id i m (some (c, ops.la 0))
      | (s, .ok _) => s.finishOnce gid id i m none
  | .wsync _ _ d pe _ _ =>
    if !weirAddrOk a sp then bad
    else
      let par := ((s.wg wid).weir a).phase
      match s.weirArrive wid a n (bits b 15 0) none with
      | (s, .error c) => s.finishOnce gid id i m (some (c, ops.la 0))
      | (s, .ok _) => s.weirWait gid id m a par d pe
  | .wwait _ _ d pe _ _ => if !weirAddrOk a sp then bad else s.weirWait gid id m a (b % 2 == 1) d pe
  | .wwaitseq _ _ d pe _ _ =>
    match (s.wg wid).ring sp a with
    | none => s.finishOnce gid id i m (some (Code.badRing, ops.la 0))
    | some r =>
      let n := bits b 31 0
      s.weirWait gid id m (fullWeir a (n % r.depth)) (n / r.depth % 2 == 1) d pe
  | .wtest _ _ d pt _ _ =>
    if !weirAddrOk a sp then bad
    else
      let x := (s.wg wid).weir a
      (s.weirResult gid id m d pt (x.done (b % 2 == 1)) x).finishOnce gid id i m none
  | _ => s

/-- R411 refuses the address at the issue: of a ring with BAD_RING, of a weir with STORE_RANGE. -/
def State.weirRefused (s : State) (i : Instr) (a : Nat) : Bool :=
  let w := s.wgOf s.cur
  match i with
  | .wwaitseq .. => (w.ring (s.spBytes w) a).isNone
  | _ => !weirAddrOk a (s.spBytes w)

/-- The shared form of the six: operands at issue, then the act once for the active threads (R411). -/
def State.weirForm (s : State) (i : Instr) (c : Ctl) (a : SR) (b : Option SR) : State :=
  let ops : Ops := { a := [s.readS a.val], b := [optReg s b], c := [] }
  s.onceForm i c ops (fun id m t => t.weirAct s.cur id i ops m) (s.weirRefused i (s.readS a.val).toNat)

/-- R414. -/
def execWinit (c : Ctl) (o : Ord) (a : SR) (b : Option SR) (s : State) : Host.Outcome State Fault Refusal :=
  issueWord (.winit c o a b) (fun s => s.weirForm (.winit c o a b) c a b) s

/-- R412. -/
def execWarrive (c : Ctl) (o : Ord) (a : SR) (b : Option SR) (s : State) : Host.Outcome State Fault Refusal :=
  issueWord (.warrive c o a b) (fun s => s.weirForm (.warrive c o a b) c a b) s

/-- R412, R413. -/
def execWsync (c : Ctl) (o : Ord) (d : Reg) (pe : PR) (a : SR) (b : Option SR) (s : State) :
    Host.Outcome State Fault Refusal :=
  issueWord (.wsync c o d pe a b) (fun s => s.weirForm (.wsync c o d pe a b) c a b) s

/-- R413. -/
def execWwait (c : Ctl) (o : Ord) (d : Reg) (pe : PR) (a : SR) (b : Option SR) (s : State) :
    Host.Outcome State Fault Refusal :=
  issueWord (.wwait c o d pe a b) (fun s => s.weirForm (.wwait c o d pe a b) c a b) s

/-- R413. -/
def execWwaitseq (c : Ctl) (o : Ord) (d : Reg) (pe : PR) (a : SR) (b : Option SR) (s : State) :
    Host.Outcome State Fault Refusal :=
  issueWord (.wwaitseq c o d pe a b) (fun s => s.weirForm (.wwaitseq c o d pe a b) c a b) s

/-- R415. -/
def execWtest (c : Ctl) (o : Ord) (d : Reg) (pt : PR) (a : SR) (b : Option SR) (s : State) :
    Host.Outcome State Fault Refusal :=
  issueWord (.wtest c o d pt a b) (fun s => s.weirForm (.wtest c o d pt a b) c a b) s

/-- A wait of the group's workgroup may return: it is on a core (R251). -/
def State.waitsHere (s : State) (gid : Nat) : Bool := (s.wgOf gid).onCore

/-- WEIR_WAIT_RETURN: once the condition holds, the results are written and the wait completes (R413). -/
def execWeirWaitReturn (gid pend : Nat) (s : State) : Host.Outcome State Fault Refusal :=
  .next (match (s.grp gid).pend? pend with
    | some p =>
      match p.kind with
      | .weir a par d pe =>
        let x := (s.wgOf gid).weir a
        if x.done par && s.waitsHere gid then
          (s.weirResult gid pend p.lanes d pe x.err x).completePend gid pend
        else s
      | _ => s
    | none => s)

/-! ## WAITSTAMP (R409, R410) -/

/-- One lane of a stamp wait: none while the word is too small. -/
def State.stampLane (s : State) (gid : Nat) (ops : Ops) (l : Nat) : State × Except Nat (Option Nat) :=
  let ea := (ops.la l).toNat
  if ea % 8 ≠ 0 then (s, .error Code.misaligned)
  else
    match s.loadG (some (s.grp gid).core) (s.cidOf gid) ea 8 with
    | (s, .error c) => (s, .error c)
    | (s, .ok x) => (s, .ok (if bits (ops.lb l).toNat 47 0 ≤ x % 2 ^ 48 then some x else none))

/-- Polls lanes: those that return, those that fault. -/
def State.stampLanes (s : State) (gid id : Nat) (u : Bool) (d : Reg) (ops : Ops) :
    List Nat → LaneMask → List (Nat × Nat × Word) → State × LaneMask × List (Nat × Nat × Word)
  | [], done, fs => (s, done, fs.reverse)
  | l :: ls, done, fs =>
    match s.stampLane gid ops l with
    | (s, .error c) => s.stampLanes gid id u d ops ls done ((l, c, ops.la l) :: fs)
    | (s, .ok none) => s.stampLanes gid id u d ops ls done fs
    | (s, .ok (some x)) =>
      (s.putReg gid d true (laneBit l) l (fun _ => wordN x) (.on id)).stampLanes gid id u d ops ls
        (done ||| laneBit l) fs

/-- A poll of the lanes of a record that have not returned; a fault suspends the workgroup, and only the lanes
that returned are done. -/
def State.stampPoll (s : State) (gid id : Nat) (i : Instr) (c : Ctl) (d : Reg) (ops : Ops) (todo : LaneMask) : State :=
  let r := s.stampLanes gid id c.u d ops (actLanes c todo (lowLane todo)) 0 []
  let done := if c.u then (if r.2.1 == 0 then 0 else todo) else r.2.1
  if r.2.2.isEmpty then
    r.1.modGrp gid (fun g => g.modPend id (fun p =>
      let full := p.done ||| done
      { p with done := full, recKey := 0,
               kind := (if p.lanes &&& ~~~full == 0 then PendKind.result else .stampWait c.u d) }))
  else r.1.finishRun gid id i done (widenFaults c todo r.2.2)

/-- R409, R410. -/
def execWaitstamp (c : Ctl) (o : Ord) (sc : Scope) (d a : Reg) (b : SR) (s : State) :
    Host.Outcome State Fault Refusal :=
  issueWord (.waitstamp c o sc d a b) (fun s =>
    let ops : Ops := { a := s.bases a, b := s.srcs true (.s b), c := [] }
    s.onceForm (.waitstamp c o sc d a b) c ops (fun id m t =>
      t.stampPoll s.cur id (.waitstamp c o sc d a b) c d ops m)) s

/-- A stamp wait polled again for the lanes that have not returned. -/
def State.stampAgain (s : State) (gid : Nat) (p : Pend) : State :=
  match p.instr with
  | .waitstamp c _ _ d _ _ => s.stampPoll gid p.id p.instr c d p.ops (p.lanes &&& ~~~p.done)
  | _ => s

/-- WAITSTAMP_RETURN: the words are read again; when the last lane has returned the wait completes (R410). -/
def execWaitstampReturn (gid pend : Nat) (s : State) : Host.Outcome State Fault Refusal :=
  .next (match (s.grp gid).pend? pend with
    | some p =>
      match p.kind with
      | .stampWait _ _ =>
        if (s.wgOf gid).issues then
          let t := s.stampAgain gid p
          match (t.grp gid).pend? pend with
          | some q => if q.kind == .result then t.completePend gid pend else t
          | none => t
        else s
      | _ => s
    | none => s)

end Sys2Proof.Machine
end

