-- ==== Sys2Proof/Machine/Copies.lean ====
section
/-! DEFINITION. Copies, seals, batches and their stamps (07 R168 to R170; 19 R320, R321, R329 to R331). -/
namespace Sys2Proof.Machine

/-! ## BCOPY -/

def insertSlice (x : Slice) : List Slice → List Slice
  | [] => [x]
  | y :: ys => if x.grpid < y.grpid then x :: y :: ys else y :: insertSlice x ys

/-- Adds a slice to the workgroup's k-th copy. -/
def addSlice (k : Nat) (x : Slice) : List Copy → List Copy
  | [] => [{ index := k, slices := [x], started := false, done := 0, batch := 0 }]
  | c :: cs => if c.index = k then { c with slices := insertSlice x c.slices } :: cs else c :: addSlice k x cs

/-- A span of BCOPY is refused (R321). -/
def State.spanFault (s : State) (gid : Nat) (inS : Bool) (a : Word) (n : Nat) : LaneFault :=
  if inS then
    if n ≠ 0 ∧ !s.storeVisible gid a.toNat n then some (Code.storeRange, a) else none
  else if !inSpace a.toNat || !inSpace (a.toNat + (n - 1)) then some (Code.addrRange, a) else none

/-- Every group that has not retired has supplied its slice of the copy (R168). -/
def Wg.copyFull (w : Wg) (c : Copy) : Bool :=
  (List.range w.ngroups).all (fun g => c.slices.any (fun x => x.grpid == g) || w.retiredGroups.contains g)

/-- The next copy to start, if its slices are all there. -/
def Wg.nextStart (w : Wg) : Option Copy :=
  match w.copies.find? (fun c => !c.started) with
  | some c => if w.copyFull c then some c else none
  | none => none

/-- A copy whose slices are all there starts next. -/
def State.copyReady (s : State) (wid : Nat) : State :=
  match (s.wg wid).nextStart with
  | some _ => { s with agenda := s.agenda ++ [.run (.copyStart wid)] }
  | none => s

/-- BCOPY for its record (R321). -/
def State.bcopyAct (s : State) (gid id : Nat) (i : Instr) (ops : Ops) (m : LaneMask) : State :=
  match i with
  | .bcopy _ srcS dstS _ _ _ =>
    let n := (low32 (ops.lc 0)).toNat
    match s.spanFault gid srcS (ops.la 0) n, s.spanFault gid dstS (ops.lb 0) n with
    | some f, _ => s.finishOnce gid id i m (some f)
    | none, some f => s.finishOnce gid id i m (some f)
    | none, none =>
      let g := s.grp gid
      let x : Slice := { grpid := g.grpid, src := (ops.la 0).toNat, dst := (ops.lb 0).toNat, len := n, srcS := srcS,
                         dstS := dstS }
      let s := s.modWg g.wid (fun w => { w with copies := addSlice g.nCopy x w.copies })
      let s := s.modGrp gid (fun g => { g with nCopy := g.nCopy + 1 })
      (s.copyReady g.wid).finishOnce gid id i m none
  | _ => s

/-- The checks of BCOPY at its issue (R321). -/
def State.copyRefused (s : State) (gid : Nat) (srcS dstS : Bool) (ops : Ops) : Bool :=
  let n := (low32 (ops.lc 0)).toNat
  (s.spanFault gid srcS (ops.la 0) n).isSome || (s.spanFault gid dstS (ops.lb 0) n).isSome

/-- R320, R321. -/
def execBcopy (c : Ctl) (srcS dstS : Bool) (d a b : SR) (s : State) : Host.Outcome State Fault Refusal :=
  issueWord (.bcopy c srcS dstS d a b) (fun s =>
    let ops : Ops := { a := [s.readS d.val], b := [s.readS a.val], c := [s.readS b.val] }
    s.onceForm (.bcopy c srcS dstS d a b) c ops (fun id m t =>
      t.bcopyAct s.cur id (.bcopy c srcS dstS d a b) ops m) (s.copyRefused s.cur srcS dstS ops)) s

/-- A BCOPY of the group that follows `k` unperformed ones would supply a slice to a 65th copy (R321). -/
def State.copyStalls (s : State) (gid k : Nat) : Bool :=
  let g := s.grp gid
  let w := s.wg g.wid
  decide (64 ≤ w.copies.length + k) && !(w.copies.any (fun c => c.index == g.nCopy + k))

/-- COPY_START (R168): the next copy whose slices are all there. -/
def execCopyStart (wid : Nat) (s : State) : Host.Outcome State Fault Refusal :=
  .next (match (s.wg wid).nextStart with
    | some c => s.modWg wid (fun w => { w with copies := w.copies.map (fun x =>
        if x.index = c.index then { x with started := true } else x) })
    | none => s)

/-! ## COPY_TRANSFER (R168, R170, R321) -/

/-- A byte read or written by an engine of the core: done, not possible with an error code of R163, or waiting
for a page. -/
inductive ByteRes (α : Type) where
  | ok (x : α)
  | err (code : Nat)
  | page (va : Nat)
  deriving DecidableEq, Repr

/-- The error code of R163 for an access fault. -/
def engineErr (code : Nat) : Nat := if code = Code.memUncorrectable then 7 else 8

/-- The core that holds the windows of this group of a workgroup (R24, R30). -/
def Wg.coreOf (w : Wg) (grpid : Nat) : Nat := if w.spread then w.home / 4 * 4 + grpid % 4 else w.home

/-- A byte of a workgroup's store as anyone but its group sees it (R54). -/
def State.engineByte (s : State) (wid : Nat) (loc : StoreLoc) : Byte :=
  match loc with
  | .pad a => (s.wg wid).padByte a
  | .win o n l b => byteOf (s.otherRead o (.v n) l) b

/-- A source byte of a slice that a group on `core` supplied. -/
def State.copyRead (s : State) (wid core : Nat) (inS : Bool) (a : Nat) : State × ByteRes Byte :=
  if inS then
    match s.storeAt wid core a with
    | some loc => (s, .ok (s.engineByte wid loc))
    | none => (s, .err 8)
  else
    match s.accessG (some (s.wg wid).home) (s.wg wid).ctx a 1 .read with
    | (s, .error c) => (s, if c = Code.notPresent then .page a else .err (engineErr c))
    | (s, .ok t) =>
      match s.loadT t 1 with
      | .error c => (s, .err (engineErr c))
      | .ok x => (s, .ok (BitVec.ofNat 8 x))

/-- Whether a destination byte can be written now. -/
def State.copyCheck (s : State) (wid core : Nat) (inS : Bool) (a : Nat) : State × ByteRes Unit :=
  if inS then (s, if (s.storeAt wid core a).isSome then .ok () else .err 8)
  else
    match s.accessG (some (s.wg wid).home) (s.wg wid).ctx a 1 .write with
    | (s, .error c) => (s, if c = Code.notPresent then .page a else .err (engineErr c))
    | (s, .ok t) =>
      match t with
      | .mem loc => (s, if s.poisoned loc 1 then .err 7 else .ok ())
      | _ => (s, .ok ())

def State.copyWrite (s : State) (wid core : Nat) (inS : Bool) (a : Nat) (v : Byte) : State :=
  if inS then
    match s.storeAt wid core a with
    | some loc => s.putStoreAt wid loc v (.at s.cycle)
    | none => s
  else
    match s.accessG (some (s.wg wid).home) (s.wg wid).ctx a 1 .write with
    | (s, .ok t) => s.storeT t [v]
    | (s, .error _) => s

/-- Source bytes from `a` on: none for one that cannot be read; the first error, and the first page missed. -/
def State.copyReads (s : State) (wid core : Nat) (inS : Bool) (a : Nat) :
    Nat → List (Option Byte) → Nat → State × List (Option Byte) × Nat × Option Nat
  | 0, acc, e => (s, acc.reverse, e, none)
  | n + 1, acc, e =>
    match s.copyRead wid core inS a with
    | (s, .ok x) => s.copyReads wid core inS (a + 1) n (some x :: acc) e
    | (s, .err c) => s.copyReads wid core inS (a + 1) n (none :: acc) (if e = 0 then c else e)
    | (s, .page va) => (s, acc.reverse, e, some va)

/-- The first destination byte that waits for a page. -/
def State.copyChecks (s : State) (wid core : Nat) (inS : Bool) (a : Nat) : Nat → State × Option Nat
  | 0 => (s, none)
  | n + 1 =>
    match s.copyCheck wid core inS a with
    | (s, .page va) => (s, some va)
    | (s, _) => s.copyChecks wid core inS (a + 1) n

/-- Destination bytes from `a` on; what cannot be written is skipped. -/
def State.copyWrites (s : State) (wid core : Nat) (inS : Bool) (a : Nat) : List (Option Byte) → Nat → State × Nat
  | [], e => (s, e)
  | none :: bs, e => s.copyWrites wid core inS (a + 1) bs e
  | some v :: bs, e =>
    match s.copyCheck wid core inS a with
    | (s, .ok _) => (s.copyWrite wid core inS a v).copyWrites wid core inS (a + 1) bs e
    | (s, .err c) => s.copyWrites wid core inS (a + 1) bs (if e = 0 then c else e)
    | (s, .page _) => s.copyWrites wid core inS (a + 1) bs e

/-- A record of kind 2 (R245). -/
def State.copyRecord (s : State) (wid code va : Nat) (sub : Subject) : State :=
  let w := s.wg wid
  s.raiseRecord w.ctx
    { domain := (s.region w.rid).rcb.domain, code := code, kind := 2, rid := w.rid,
      regno := (s.region w.rid).regno, wid := wid, wgid := w.wgid, grpid := 0xFFFF, unit := w.home, pc := 0,
      addr := wordN va, lanes := 0, detail := 0, word := 0, subject := sub, seq := 0, va := 0, host := false }

/-- The copy engine waits for this workgroup's record to be resolved. -/
def State.copyPaused (s : State) (wid : Nat) : Bool :=
  (s.ctx (s.wg wid).ctx).recs.any (fun r => r.2.subject == .copy wid)

/-- The copy that the engine performs. -/
def Wg.runningCopy (w : Wg) : Option Copy := w.copies.find? (fun c => c.started)

def Wg.setCopy (w : Wg) (c : Copy) : Wg :=
  { w with copies := w.copies.map (fun x => if x.index = c.index then c else x) }

/-- A first error of a copy goes to its batch, or waits for it (R170) (DEDUCED, log 37). -/
def Wg.copyError (w : Wg) (batch e : Nat) : Wg :=
  if e = 0 then w
  else if batch = 0 then { w with openErr := (if w.openErr = 0 then e else w.openErr) }
  else { w with batches := w.batches.map (fun b =>
    if b.n = batch ∧ b.err = 0 then { b with err := e } else b) }

/-- The slice is copied in one piece: its destination overlaps its source from above, so that in ascending order its first
pieces would overwrite source bytes of later ones before they are read (R168, R321; DEDUCED, log 37). -/
def Slice.whole (x : Slice) : Bool :=
  x.srcS == x.dstS && decide (x.src < x.dst) && decide (x.dst < x.src + x.len)

/-- The slice at the head of a copy is done. -/
def Wg.sliceDone (w : Wg) (c : Copy) : Wg :=
  match c.slices.drop 1 with
  | [] => { w with copies := w.copies.filter (fun x => !(x.index == c.index)) }
  | rest => w.setCopy { c with slices := rest, done := 0 }

/-- The next piece of a slice, in ascending order, offset and length: up to the next 4 KiB boundary of its destination, or all
that is left. -/
def Slice.piece (x : Slice) (done : Nat) : Nat × Nat :=
  let left := x.len - done
  (done, if x.whole then left else min left (4096 - (x.dst + done) % 4096))

/-- COPY_TRANSFER: the next piece of the running copy, read whole and then written. -/
def execCopyTransfer (wid : Nat) (s : State) : Host.Outcome State Fault Refusal :=
  .next (
    let w := s.wg wid
    match w.runningCopy with
    | none => s
    | some c =>
      match c.slices with
      | [] => s.modWg wid (fun w => w.sliceDone c)
      | x :: _ =>
        let core := w.coreOf x.grpid
        if x.len ≤ c.done then s.modWg wid (fun w => w.sliceDone c)
        else
          let p := x.piece c.done
          match s.copyReads wid core x.srcS (x.src + p.1) p.2 [] 0 with
          | (s, _, _, some va) => s.copyRecord wid Code.enginePage va (.copy wid)
          | (s, bs, e, none) =>
            match s.copyChecks wid core x.dstS (x.dst + p.1) p.2 with
            | (s, some va) => s.copyRecord wid Code.enginePage va (.copy wid)
            | (s, none) =>
              let t := s.copyWrites wid core x.dstS (x.dst + p.1) bs e
              t.1.modWg wid (fun w =>
                let w := w.copyError c.batch t.2
                let c := { c with done := c.done + p.2 }
                if x.len ≤ c.done then w.sliceDone c else w.setCopy c))

/-- The copies that share a paused copy's batch are lost with the code ACCESS (R170, R247). -/
def Wg.loseBatch (w : Wg) : Wg :=
  match w.runningCopy with
  | none => w
  | some c =>
    ({ w with copies := w.copies.filter (fun x => !(x.started && x.batch == c.batch)) }).copyError c.batch 8

/-! ## BSEAL -/

/-- A group that has supplied `n` copies records the workgroup's k-th seal. -/
def addSeal (k n : Nat) (e : Nat × Nat × Nat) : List Seal → List Seal
  | [] => [{ k := k, before := n, entries := [e] }]
  | x :: xs =>
    if x.k = k then { x with before := max x.before n, entries := x.entries ++ [e] } :: xs else x :: addSeal k n e xs

/-- The entry of the lowest grpid, of a group that has not retired when there is one (DEDUCED, log 37). -/
def sealEntry (retired : List Nat) (es : List (Nat × Nat × Nat)) : Option (Nat × Nat × Nat) :=
  let live := es.filter (fun e => !(retired.contains e.1))
  let l := if live.isEmpty then es else live
  l.foldl (fun b e => match b with
    | some x => if e.1 < x.1 then some e else some x
    | none => some e) none

/-- The copies before the n-th whose slices are all there have started. -/
def Wg.startBefore (w : Wg) (n : Nat) : Wg :=
  { w with copies := w.copies.map (fun c => { c with started := c.started || (decide (c.index < n) && w.copyFull c) }) }

/-- BATCH_CLOSE: the first seal, when every group that has not retired has recorded it. Its batch takes the copies started
before it, those among them that a retirement has just filled (R169, R330). -/
def Wg.closeBatch (w : Wg) : Wg :=
  match w.seals with
  | [] => w
  | x :: xs =>
    if (List.range w.ngroups).all (fun g => x.entries.any (fun e => e.1 == g) || w.retiredGroups.contains g) then
      match sealEntry w.retiredGroups x.entries with
      | none => w
      | some (_, n, a) =>
        let w := w.startBefore x.before
        { w with
          seals := xs,
          closed := max w.closed n,
          openErr := 0,
          copies := w.copies.map (fun c => if c.started && c.batch == 0 then { c with batch := n } else c),
          batches := w.batches ++ [{ n := n, stamp := a, err := w.openErr, heldRec := 0, dropped := false }] }
    else w

/-- Closes every batch that can close; `fuel` seals at most. -/
def Wg.closeBatches (w : Wg) : Nat → Wg
  | 0 => w
  | fuel + 1 => (w.closeBatch).closeBatches fuel

def State.closeAll (s : State) (wid : Nat) : State :=
  s.modWg wid (fun w => w.closeBatches w.seals.length)

/-- BSEAL for its record (R330). -/
def State.bsealAct (s : State) (gid id : Nat) (i : Instr) (ops : Ops) (m : LaneMask) : State :=
  let n := (ops.la 0).toNat
  let a := (ops.lb 0).toNat
  let g := s.grp gid
  if n = 0 ∨ 2 ^ 48 ≤ n ∨ n ≤ g.lastSeal then s.finishOnce gid id i m (some (Code.mmaDesc, 0))
  else if a % 8 ≠ 0 then s.finishOnce gid id i m (some (Code.misaligned, ops.lb 0))
  else if !inSpace a then s.finishOnce gid id i m (some (Code.addrRange, ops.lb 0))
  else
    let s := s.modWg g.wid (fun w => { w with seals := addSeal g.nSeal g.nCopy (g.grpid, n, a) w.seals })
    let s := s.modGrp gid (fun g => { g with nSeal := g.nSeal + 1, lastSeal := n })
    (s.closeAll g.wid).finishOnce gid id i m none

/-- R329, R330. -/
def execBseal (c : Ctl) (a b : SR) (s : State) : Host.Outcome State Fault Refusal :=
  issueWord (.bseal c a b) (fun s =>
    let ops : Ops := { a := [s.readS a.val], b := [s.readS b.val], c := [] }
    s.onceForm (.bseal c a b) c ops (fun id m t => t.bsealAct s.cur id (.bseal c a b) ops m)) s

/-! ## BWAIT -/

/-- The condition of R331. -/
def Wg.batchesDone (w : Wg) (n : Nat) : Bool :=
  n == 0 || (decide (n ≤ w.closed) && w.copies.all (fun c => c.batch == 0 || decide (n < c.batch)))

/-- R331: the active threads are held until the condition holds; the others advance. -/
def execBwait (c : Ctl) (a : SR) (s : State) : Host.Outcome State Fault Refusal :=
  issueWord (.bwait c a) (fun s =>
    let m := s.active c
    let rest := s.iset &&& ~~~m
    if m == 0 then s.advance s.cur rest
    else
      let n := (s.readS a.val).toNat
      let id := s.nextId
      let t := s.startPend (.bwait c a) c m (.bwait n) Ops.none
      let t := (t.modG (fun g => g.modTh m (fun t => { t with held := .bwait id }))).advance s.cur rest
      if (t.wgOf s.cur).batchesDone n then t.releaseLanes s.cur id m else t) s

/-- BWAIT_RELEASE: the held threads are released together (R331). -/
def execBwaitRelease (gid pend : Nat) (s : State) : Host.Outcome State Fault Refusal :=
  .next (match (s.grp gid).pend? pend with
    | some p =>
      match p.kind with
      | .bwait n =>
        if (s.wgOf gid).batchesDone n && s.waitsHere gid then s.releaseLanes gid pend p.lanes else s
      | _ => s
    | none => s)

/-! ## BATCH_STAMP_WRITE (R169, R170) -/

/-- The first batch whose payload is complete and whose stamp is not held. -/
def Wg.stampDue (w : Wg) : Option Batch :=
  w.batches.find? (fun b => b.heldRec == 0 && w.copies.all (fun c => !(c.batch == b.n)))

def Wg.dropBatch (w : Wg) (n : Nat) : Wg := { w with batches := w.batches.filter (fun b => !(b.n == n)) }

/-- The stamp of the first batch whose payload is complete; one that cannot be written is held (R170). -/
def execBatchStampWrite (wid : Nat) (s : State) : Host.Outcome State Fault Refusal :=
  .next (
    let w := s.wg wid
    match w.stampDue with
    | none => s
    | some b =>
      match s.storeG (some w.home) w.ctx b.stamp (bytesLE 8 (b.err * 2 ^ 56 + b.n)) with
      | (s, .ok _) => s.modWg wid (fun w => w.dropBatch b.n)
      | (s, .error c) =>
        let key := s.nextKey w.ctx
        let s := s.copyRecord wid (if c = Code.notPresent then Code.enginePage else c) b.stamp (.stampOf wid b.n)
        s.modWg wid (fun w => { w with batches := w.batches.map (fun x =>
          if x.n = b.n then { x with heldRec := key } else x) }))

end Sys2Proof.Machine
end

