-- ==== Sys2Proof/Machine/Matrix.lean ====
section
/-! DEFINITION. The matrix unit (11 R203 to R221; 04 R103 to R111; 21 R365, R369, R370). -/
namespace Sys2Proof.Machine

/-! ## Descriptors (R211) -/

/-- Row length in bytes (R211). -/
def rowLen : MmaFmt → Nat
  | .lns6 => 48
  | .bf16 | .fp16 => 128
  | _ => 64

/-- A pair of scalars is refused as an operand descriptor, for rows of `len` bytes: the checks up to ADDR_RANGE,
in the order of R211, over a list of descriptors. -/
def descFault (ds : List (Word × Word)) (vsMax : Option Nat) (zeroVs : Bool) (len : Nat) : LaneFault :=
  if ds.any (fun d => bits d.2.toNat 63 40 != 0 || (zeroVs && bits d.2.toNat 39 32 != 0)
      || (match vsMax with | some m => decide (m < bits d.2.toNat 39 32) | none => false)) then
    some (Code.mmaDesc, 0)
  else
    match ds.find? (fun d => d.1.toNat % 16 != 0 || bits d.2.toNat 31 0 % 16 != 0) with
    | some d => some (Code.misaligned, d.1)
    | none =>
      match ds.find? (fun d => decide (2 ^ 54 < d.1.toNat + 63 * bits d.2.toNat 31 0 + len)) with
      | some d => some (Code.addrRange, d.1)
      | none => none

/-! ## Elements and products (R87, R99, R103, R106) -/

/-- Width of an element code (R217). -/
def codeBits : MmaFmt → Nat
  | .lns6 => 6
  | .bf16 | .fp16 => 16
  | _ => 8

/-- Element `k` of a row read as one little-endian number. -/
def elemCode (f : MmaFmt) (row k : Nat) : Nat := row / 2 ^ (codeBits f * k) % 2 ^ codeBits f

/-- The value of an element without its scale. -/
def elemVal (f : MmaFmt) (c : Nat) : FV :=
  match f with
  | .lns6 => lnsVal c
  | .e4m3 => ffE4m3.decode c
  | .e5m2 => ffE5m2.decode c
  | .i8 => ofScaled (sextI c 8) 0 false
  | .bf16 => ffBf16.decode c
  | .fp16 => ffFp16.decode c

/-- The exact product of two elements with their block scales. -/
def elemProd (f : MmaFmt) (a b sa sb : Nat) : FV :=
  match f with
  | .lns6 => lnsMul a b sa sb
  | .e4m3 | .e5m2 =>
    if sa = 0xFF ∨ sb = 0xFF then .nan
    else ((elemVal f a).mul (elemVal f b)).scale (((sa + sb : Nat) : Int) - 254)
  | _ => (elemVal f a).mul (elemVal f b)

/-! ## One chunk -/

/-- What a chunk works on. -/
structure ChunkIn where
  v1    : Bool
  fmt   : MmaFmt
  first : Nat            -- its first row
  rowsA : List Nat       -- eight rows; those of zero fragments are 0
  rowsB : List Nat
  scA   : List Byte
  scB   : List Byte
  zero  : LaneMask       -- lanes whose fragments are zero
  deriving DecidableEq, Repr

/-- Rows and columns of zero fragments (R209). -/
def ChunkIn.zeroAt (x : ChunkIn) (i : Nat) : Bool := bitOf x.zero (i % 32)

/-- The 64 products of cell (i, j), i counted in the chunk. -/
def ChunkIn.terms (x : ChunkIn) (i j : Nat) : List FV :=
  (List.range 64).map (fun k =>
    elemProd x.fmt (elemCode x.fmt (nth x.rowsA 0 i) k) (elemCode x.fmt (nth x.rowsB 0 k) j)
      (nth x.scA 0 (2 * (x.first + i) + k / 32)).toNat (nth x.scB 0 (2 * j + k / 32)).toNat)

def roundNode (a b : FV) : FV := ffFp32.decode (toFp32 false .rne (a.add .rne b)).toNat

def pairFV (f : FV → FV → FV) : List FV → List FV
  | a :: b :: rest => f a b :: pairFV f rest
  | l => l

/-- chunk_sum_tree (R107): `n` levels. -/
def treeFV : Nat → List FV → FV
  | 0, l => nth l (.fin false 0 0) 0
  | n + 1, l => treeFV n (pairFV roundNode l)

/-- The cell after the chunk, and the chunk's contribution c[i][j] of R218. -/
def ChunkIn.cell (x : ChunkIn) (old : U32) (ps : List FV) : U32 × FV :=
  match x.fmt with
  | .i8 =>
    let s := FV.sum .rne ps
    (BitVec.ofInt 32 (old.toInt + toInt .rtz false 64 s), s)
  | _ =>
    if x.v1 then
      let y := ps.foldl (fun acc p => toFp32 true .rne ((fp32 true acc).add .rne p)) old
      (y, (fp32 true y).add .rne (fp32 true old).negate)
    else
      let s := if x.fmt = .lns6 then FV.sum .rne ps else treeFV 6 ps
      (toFp32 false .rne ((fp32 false old).add .rne s), s)

/-- The computed cells of a chunk: row in the chunk, column, products, old and new cell, contribution. -/
structure CellOut where
  i   : Nat
  j   : Nat
  ps  : List FV
  old : U32
  new : U32
  c   : FV
  deriving DecidableEq, Repr

def ChunkIn.cells (x : ChunkIn) (tile : KMap U32) : List CellOut :=
  (List.range 8).flatMap (fun i =>
    if x.zeroAt (x.first + i) then []
    else
      (List.range 64).filterMap (fun j =>
        if x.zeroAt j then none
        else
          let ps := x.terms i j
          let old := getD tile 0 (64 * (x.first + i) + j)
          let r := x.cell old ps
          some { i := i, j := j, ps := ps, old := old, new := r.1, c := r.2 }))

def FV.finite : FV → Bool
  | .fin _ _ _ => true
  | _ => false
def FV.abs : FV → FV
  | .fin _ m e => .fin false m e
  | v => v

/-- An operand element is an infinity, a NaN, a NaR or of a NaN block. -/
def elemOdd (f : MmaFmt) (c : Nat) (scale : Byte) : Bool := !(elemVal f c).finite || (f.scaled && scale == 0xFF#8)

/-- Such an element in the chunk's rows of A or in the columns of B, but for those of zero fragments, which are not read as
operands (R209, R211). -/
def ChunkIn.operandsOdd (x : ChunkIn) : Bool :=
  (List.range 8).any (fun i => !x.zeroAt (x.first + i) && (List.range 64).any (fun k =>
    elemOdd x.fmt (elemCode x.fmt (nth x.rowsA 0 i) k) (nth x.scA 0 (2 * (x.first + i) + k / 32))))
  || (List.range 64).any (fun j => !x.zeroAt j && (List.range 64).any (fun k =>
    elemOdd x.fmt (elemCode x.fmt (nth x.rowsB 0 k) j) (nth x.scB 0 (2 * j + k / 32))))

/-- R219: operands or results that hold an infinity, a NaN, a NaR or a NaN block. -/
def ChunkIn.unchecked (x : ChunkIn) (cs : List CellOut) : Bool :=
  x.fmt != .i8 && (x.operandsOdd || cs.any (fun c => !c.c.finite || !(fp32 false c.new).finite))

/-- One row or column check: |Δ| against 2^-10 of the sum of the terms' magnitudes (R218). -/
def ChunkIn.lineOk (x : ChunkIn) (line : List CellOut) : Bool :=
  let ps := line.flatMap (fun c => c.ps)
  let delta := (FV.sum .rne (line.map (fun c => c.c))).add .rne (FV.sum .rne ps).negate
  let terms := ps ++ (if x.v1 then line.map (fun c => fp32 true c.old) else [])
  (delta.abs.scale 10).cmp (FV.sum .rne (terms.map FV.abs)) != .gt

/-- The checks of a chunk on what the unit computed (R218). The exact paths always agree (DESIGN CHOICE, log 40). -/
def ChunkIn.checkOk (x : ChunkIn) (cs : List CellOut) : Bool :=
  if x.fmt = .i8 ∨ (x.fmt = .lns6 ∧ !x.v1) then true
  else
    (List.range 8).all (fun i => x.lineOk (cs.filter (fun c => c.i == i)))
      && (List.range 64).all (fun j => x.lineOk (cs.filter (fun c => c.j == j)))

/-- Bits that differ. -/
def flips (a b n : Nat) : Nat := ((List.range n).filter (fun k => a.testBit k != b.testBit k)).length

/-- The charge of a chunk (R217). -/
def ChunkIn.charge (x : ChunkIn) : Nat :=
  let w := codeBits x.fmt
  let ks := (List.range 63).map (· + 1)
  let a (i k : Nat) : Nat := if x.zeroAt (x.first + i) then 0 else elemCode x.fmt (nth x.rowsA 0 i) k
  let b (k j : Nat) : Nat := if x.zeroAt j then 0 else elemCode x.fmt (nth x.rowsB 0 k) j
  let f := ks.foldl (fun t k =>
    let t := (List.range 8).foldl (fun t i => t + flips (a i k) (a i (k - 1)) w) t
    (List.range 64).foldl (fun t j => t + flips (b k j) (b (k - 1) j) w) t) 0
  (match x.fmt with
    | .lns6 => 64
    | .bf16 | .fp16 => 128
    | _ => 96) + f / 512

def putCells (tile : KMap U32) (first : Nat) (cs : List CellOut) : KMap U32 :=
  cs.foldl (fun t c => putD t 0 (64 * (first + c.i) + c.j) c.new) tile

/-! ## The state of a command -/

def Wg.tile (w : Wg) (t : Nat) : KMap U32 := getD w.tiles [] t
def Wg.putTile (w : Wg) (t : Nat) (x : KMap U32) : Wg := { w with tiles := putD w.tiles [] t x }

/-- A row of operand bytes as one number. -/
def State.loadRow (s : State) (gid a n : Nat) : State × Except (Nat × Nat) Nat :=
  match s.loadBytes (some (s.grp gid).core) (s.cidOf gid) a n with
  | (s, .error e) => (s, .error e)
  | (s, .ok bs) => (s, .ok (natLE bs))

/-- Rows at base + i * stride for these i; those that `skip` names read as 0 and are not accessed (R211). -/
def State.loadRows (s : State) (gid base stride n : Nat) (skip : Nat → Bool) :
    List Nat → List Nat → State × Except (Nat × Nat) (List Nat)
  | [], acc => (s, .ok acc.reverse)
  | i :: is, acc =>
    if skip i then s.loadRows gid base stride n skip is (0 :: acc)
    else
      match s.loadRow gid (base + i * stride) n with
      | (s, .error e) => (s, .error e)
      | (s, .ok x) => s.loadRows gid base stride n skip is (x :: acc)

/-- A fault of the command in flight stops it at the start of its chunk and suspends the workgroup (R213). -/
def State.matFault (s : State) (gid : Nat) (m : MatCmd) (code : Nat) (addr : Word) : State :=
  let key := s.nextKey (s.cidOf gid)
  let pc := match (s.grp gid).pend? m.pend with | some p => p.pc | none => 0
  (s.modGrp gid (fun g => { g with mat := some { m with recKey := key, inService := false } })).takeFault gid
    { code := code, pc := pc, addr := addr, lanes := m.lanes, detail := 0, word := wordOf m.instr } (.matrix gid)

/-- The command completes and discharges its flag. -/
def State.matDone (s : State) (gid pend : Nat) : State :=
  (s.modGrp gid (fun g => { g with mat := none })).completePend gid pend

/-- Debits a region's energy (R35). -/
def State.debitEnergy (s : State) (rid n : Nat) : State := s.modRegion rid (fun r => { r with ebal := r.ebal - n })

/-- R221. -/
def mchkWord (retried skipped passed : Nat) : Word := wordN (retried * 65536 + skipped * 256 + passed)

/-- Raises bits of irq and health (R303, R310). -/
def State.raiseIrq (s : State) (irq health : Word) : State :=
  { s with mgmt := { s.mgmt with irq := s.mgmt.irq ||| irq, health := s.mgmt.health ||| health } }

/-- The outcome of a chunk's checks, with the errors that the world injects: passed, passed on the second attempt,
failed twice (R220). -/
def checkResult (ok : Bool) (inject : Nat) : Nat :=
  if ok && inject == 0 then 0 else if ok && inject == 1 then 1 else 2

/-- The chunk is added, charged and counted (R212, R217, R221). -/
def State.addChunk (s : State) (gid : Nat) (m : MatCmd) (x : ChunkIn) (cs : List CellOut) (m' : MatCmd) : State :=
  let wid := (s.grp gid).wid
  let q := x.charge
  let s := s.modWg wid (fun w => w.putTile m.tile (putCells (w.tile m.tile) x.first cs))
  let s := s.debitEnergy (s.wg wid).rid q
  let m' := { m' with rows := m.rows + 8, charge := m.charge + q }
  let s := s.modGrp gid (fun g => { g with
    mat := some m', rowprog := m'.rows, mchk := mchkWord m'.retried m'.skipped m'.passed })
  if m'.rows < 64 then s
  else (s.modGrp gid (fun g => { g with mest := m'.charge })).matDone gid m.pend

/-- R112. -/
def State.v1Of (s : State) (gid : Nat) : Bool := (s.regOf gid).rcb.nbv == 1

/-- The command's accesses stand at its place in the program order of its threads, those of an MMA behind what the threads of
its round did before they signed: something older must complete first (R149, R214; DEDUCED, log 54). -/
def State.matBlocked (s : State) (gid : Nat) (m : MatCmd) : Bool :=
  waitsFor ((s.grp gid).pending.takeWhile (fun p => p.id != m.pend)) m.instr (m.lanes ||| m.declared)

/-- Another group's command on the same tile is half done: commands on one tile are each performed whole, over whatever stops
one meanwhile (R215). -/
def State.tileTaken (s : State) (gid : Nat) (m : MatCmd) : Bool :=
  s.groups.any (fun q => q.1 != gid && q.2.wid == (s.grp gid).wid && (match q.2.mat with
    | some x => x.tile == m.tile && x.rows != 0
    | none => false))

/-- The unit of a core serves this command from now to its end (R216). -/
def State.serve (s : State) (gid : Nat) : State :=
  let home := (s.wgOf gid).home
  { s with groups := s.groups.map (fun q =>
      match q.2.mat with
      | some m =>
        if (s.wg q.2.wid).home = home then (q.1, { q.2 with mat := some { m with inService := q.1 == gid } }) else q
      | none => q) }

/-- MMA_CHUNK: the next chunk of the group's MMA (R212, R213, R217 to R220). -/
def execMmaChunk (gid : Nat) (s : State) : Host.Outcome State Fault Refusal :=
  .next (match ((s.serve gid).grp gid).mat with
    | none => s
    | some m =>
      let s := s.serve gid
      match m.instr with
      | .mma _ f _ _ _ _ _ _ =>
        let zero := ~~~m.declared ||| m.zfrag
        let n := rowLen f
        match s.loadRows gid m.baseA m.strideA n (fun i => bitOf zero (i % 32))
            ((List.range 8).map (· + m.rows)) [] with
        | (s, .error e) => s.matFault gid m e.1 (wordN e.2)
        | (s, .ok ra) =>
          match s.loadRows gid m.baseB m.strideB n (fun _ => false) (List.range 64) [] with
          | (s, .error e) => s.matFault gid m e.1 (wordN e.2)
          | (s, .ok rb) =>
            let x : ChunkIn := { v1 := s.v1Of gid, fmt := f, first := m.rows, rowsA := ra, rowsB := rb,
                                 scA := m.scalesA, scB := m.scalesB, zero := zero }
            let cs := x.cells ((s.wgOf gid).tile m.tile)
            if x.unchecked cs then s.addChunk gid m x cs { m with skipped := m.skipped + 1 }
            else
              let k := checkResult (x.checkOk cs) s.inject.chunk
              let s := { s with inject := { s.inject with chunk := 0 } }
              match k with
              | 0 => s.addChunk gid m x cs { m with passed := m.passed + 1 }
              | 1 => s.addChunk gid m x cs { m with retried := m.retried + 1 }
              | _ =>
                let s := s.modCore (s.wgOf gid).home (fun c => { c with matFenced := true })
                (s.raiseIrq 4 8).matFault gid m Code.sdcSuspect 0
      | _ => s)

/-! ## Issue -/

/-- The scale bytes that one operand's four registers give (R104). -/
def State.scaleBytes (s : State) (vs n : Nat) : List Byte :=
  (List.range 128).map (fun b => byteOf ((s.readV (vs + b / 32) (b % 32)).setWidth 64) n)

def packBytes (bs : List Byte) : List Word := (List.range 32).map (fun j => wordN (natLE ((bs.drop (8 * j)).take 8)))
def unpackBytes (ws : List Word) : List Byte := ws.flatMap (fun w => bytesLE 8 w.toNat)

/-- The command of a record, before its first chunk. -/
def matCmd (i : Instr) (id : Nat) (m : LaneMask) (tile : Nat) (ops : Ops) (scales : List Byte) (zfrag declared : LaneMask) :
    MatCmd :=
  { instr := i, pend := id, lanes := m, tile := tile, baseA := (ops.la 0).toNat,
    strideA := bits (ops.la 1).toNat 31 0, baseB := (ops.la 2).toNat, strideB := bits (ops.la 3).toNat 31 0,
    scalesA := scales.take 128, scalesB := (scales.drop 128).take 128, zfrag := zfrag, declared := declared, rows := 0,
    charge := 0, passed := 0, skipped := 0, retried := 0, recKey := 0, inService := false }

/-- The group's command goes to the unit. -/
def State.startMat (s : State) (gid id : Nat) (m : MatCmd) : State :=
  s.modGrp gid (fun g => { (g.modPend id (fun p => { p with kind := .unit, recKey := 0 })) with mat := some m })

/-- MMA for its record: the descriptors, then the round, then the unit (R209, R370). -/
def State.mmaAct (s : State) (gid id : Nat) (i : Instr) (ops : Ops) (m : LaneMask) : State :=
  match i with
  | .mma _ f t k _ _ _ _ =>
    let ds := [(ops.la 0, ops.la 1), (ops.la 2, ops.la 3)]
    let scaled := f.scaled
    match descFault ds (if scaled then some 159 else none) false (rowLen f) with
    | some e => s.finishOnce gid id i m (some e)
    | none =>
      if scaled && ds.any (fun d => decide ((s.grp gid).valloc ≤ bits d.2.toNat 39 32 + 3)) then
        s.finishOnce gid id i m (some (Code.regRange, 0))
      else
        let g := s.grp gid
        let v := s.conv g.wid k.val
        if v.state ≠ ConvState.complete ∨ v.owner ≠ g.grpid ∨ v.signed &&& m = 0 then
          s.finishOnce gid id i m (some (Code.convUnsigned, 0))
        else
          let s := s.setConv g.wid k.val Conv.fresh
          let s := s.startMat gid id (matCmd i id m t.val ops (unpackBytes ops.c) v.zfrag v.declared)
          (s.modGrp gid (fun g => { g with rowprog := 0, mchk := 0 })).callSigners g.wid k.val
  | _ => s

/-- R209 to R213, R370: descriptors and scale registers are read at issue. -/
def execMma (c : Ctl) (f : MmaFmt) (t : Fin 16) (k : Fin 8) (a b : SR) (na nb : BitVec 2) (s : State) :
    Host.Outcome State Fault Refusal :=
  issueWord (.mma c f t k a b na nb) (fun s =>
    let pa := s.readS (a.val + 1)
    let pb := s.readS (b.val + 1)
    let ops : Ops :=
      { a := [s.readS a.val, pa, s.readS b.val, pb], b := [],
        c := if f.scaled then packBytes (s.scaleBytes (bits pa.toNat 39 32) na.toNat
          ++ s.scaleBytes (bits pb.toNat 39 32) nb.toNat) else [] }
    s.onceForm (.mma c f t k a b na nb) c ops (fun id m t' =>
      t'.mmaAct s.cur id (.mma c f t k a b na nb) ops m)) s

/-- The descriptor check of MLDA and MSTA (R369). -/
def tileFault (ops : Ops) : LaneFault := if ops.a.isEmpty then none else descFault [(ops.la 0, ops.la 1)] none true 256

/-- MLDA, MSTA and MZERO for their record (R215, R369). -/
def State.tileAct (s : State) (gid id : Nat) (i : Instr) (ops : Ops) (m : LaneMask) : State :=
  match tileOf i with
  | none => s
  | some t =>
    match tileFault ops with
    | some e => s.finishOnce gid id i m (some e)
    | none => s.startMat gid id (matCmd i id m t ops [] 0 0)

/-- R215, R369. -/
def execMlda (c : Ctl) (t : Fin 16) (a : SR) (s : State) : Host.Outcome State Fault Refusal :=
  issueWord (.mlda c t a) (fun s =>
    let ops : Ops := { a := [s.readS a.val, s.readS (a.val + 1)], b := [], c := [] }
    s.onceForm (.mlda c t a) c ops (fun id m t' => t'.tileAct s.cur id (.mlda c t a) ops m) (tileFault ops).isSome) s

/-- R215, R369. -/
def execMsta (c : Ctl) (t : Fin 16) (a : SR) (s : State) : Host.Outcome State Fault Refusal :=
  issueWord (.msta c t a) (fun s =>
    let ops : Ops := { a := [s.readS a.val, s.readS (a.val + 1)], b := [], c := [] }
    s.onceForm (.msta c t a) c ops (fun id m t' => t'.tileAct s.cur id (.msta c t a) ops m) (tileFault ops).isSome) s

/-- R215, R369. -/
def execMzero (c : Ctl) (t : Fin 16) (s : State) : Host.Outcome State Fault Refusal :=
  issueWord (.mzero c t) (fun s =>
    s.onceForm (.mzero c t) c Ops.none (fun id m t' => t'.tileAct s.cur id (.mzero c t) Ops.none m)) s

/-- R221, R365. -/
def execMchk (c : Ctl) (d : SR) (s : State) : Host.Outcome State Fault Refusal :=
  issueWord (.mchk c d) (fun s =>
    s.onceForm (.mchk c d) c Ops.none (fun id m t =>
      t.putReg s.cur (.s d) true m 0 (fun _ => s.g.mchk) (.on id))) s

/-! ## TILE_CHUNK -/

/-- The 64 words of a row, written to a tile. -/
def putRow (tile : KMap U32) (i : Nat) (x : Nat) : KMap U32 :=
  (List.range 64).foldl (fun t j => putD t 0 (64 * i + j) (BitVec.ofNat 32 (x / 2 ^ (32 * j)))) tile

def putRows (tile : KMap U32) (i : Nat) : List Nat → KMap U32
  | [] => tile
  | x :: xs => putRows (putRow tile i x) (i + 1) xs

/-- A row of a tile as bytes. -/
def rowBytesOf (tile : KMap U32) (i : Nat) : List Byte :=
  (List.range 64).flatMap (fun j => bytesLE 4 (getD tile 0 (64 * i + j)).toNat)

/-- The first fault of writes of `n` words from `a` on. They are no .b32 stores, so a page of device registers refuses them
(R122). -/
def State.writeFault (s : State) (gid : Nat) (a : Nat) : Nat → State × Option (Nat × Nat)
  | 0 => (s, none)
  | n + 1 =>
    match s.accessG (some (s.grp gid).core) (s.cidOf gid) a 1 .write with
    | (s, .error c) => (s, some (c, a))
    | (s, .ok _) => s.writeFault gid (a + 4) n

def State.rowsFault (s : State) (gid base stride : Nat) : List Nat → State × Option (Nat × Nat)
  | [] => (s, none)
  | i :: is =>
    match s.writeFault gid (base + i * stride) 64 with
    | (s, some e) => (s, some e)
    | (s, none) => s.rowsFault gid base stride is

/-- The rows of a chunk to global memory, after every one of them has been checked (DESIGN CHOICE, log 39). -/
def State.storeRows (s : State) (gid base stride : Nat) (tile : KMap U32) : List Nat → State
  | [] => s
  | i :: is =>
    (s.storeBytes (some (s.grp gid).core) (s.cidOf gid) (base + i * stride) (rowBytesOf tile i)).1.storeRows gid base
      stride tile is

/-- Eight more rows of MLDA or MSTA are done. -/
def State.tileRows (s : State) (gid : Nat) (m : MatCmd) : State :=
  let m := { m with rows := m.rows + 8 }
  let s := s.modGrp gid (fun g => { g with mat := some m })
  if m.rows < 64 then s else s.matDone gid m.pend

/-- MZERO, which is finished whole (R215, R250). -/
def State.zeroTile (s : State) (gid : Nat) (m : MatCmd) : State :=
  (s.modWg (s.grp gid).wid (fun w => w.putTile m.tile [])).matDone gid m.pend

/-- TILE_CHUNK: eight rows of MLDA or MSTA, or MZERO whole (R213, R215, R369). -/
def execTileChunk (gid : Nat) (s : State) : Host.Outcome State Fault Refusal :=
  .next (match ((s.serve gid).grp gid).mat with
    | none => s
    | some m =>
      let s := s.serve gid
      let wid := (s.grp gid).wid
      let rows := (List.range 8).map (· + m.rows)
      match m.instr with
      | .mzero _ _ => s.zeroTile gid m
      | .mlda _ _ _ =>
        match s.loadRows gid m.baseA m.strideA 256 (fun _ => false) rows [] with
        | (s, .error e) => s.matFault gid m e.1 (wordN e.2)
        | (s, .ok xs) =>
          (s.modWg wid (fun w => w.putTile m.tile (putRows (w.tile m.tile) m.rows xs))).tileRows gid m
      | .msta _ _ _ =>
        match s.rowsFault gid m.baseA m.strideA rows with
        | (s, some e) => s.matFault gid m e.1 (wordN e.2)
        | (s, none) =>
          (s.storeRows gid m.baseA m.strideA ((s.wg wid).tile m.tile) rows).tileRows gid m
      | _ => s)

end Sys2Proof.Machine
end

