-- ==== Sys2Proof/Machine/Palette.lean ====
section
/-! DEFINITION. The palette unit (11 R222 to R229; 21 R378). -/
namespace Sys2Proof.Machine

/-! ## Tokens (R222, R223) -/

/-- A token outside the row index. -/
inductive Token where
  | position (p : Nat)
  | value (code : Nat)
  | scale (e8 : Nat)
  | start | seam | stop | bad
  deriving DecidableEq, Repr

/-- R222. -/
def tokenOf (t : Nat) : Token :=
  if t < 0x8000 then .position t
  else if t ≤ 0x803F then .value (t - 0x8000)
  else if 0x9000 ≤ t ∧ t ≤ 0x90FF then .scale (t - 0x9000)
  else if t = 0xFFFC then .start
  else if t = 0xFFFE then .seam
  else if t = 0xFFFF then .stop
  else .bad

/-- What a token asks of the store. -/
inductive PalAct where
  /-- The token breaks the grammar (R223). -/
  | format
  /-- The cursor moves on. -/
  | go (c : Cursor)
  /-- The first position of a group: the basin becomes x[p]. -/
  | first (p : Nat) (c : Cursor)
  /-- A further position. -/
  | more (p : Nat) (c : Cursor)
  /-- The row ends with this sum; none without groups. -/
  | row (r : Option U32)
  deriving DecidableEq, Repr

/-- Closing a group (R225) (DEDUCED, log 38). -/
def Cursor.close (v1 : Bool) (c : Cursor) : Cursor :=
  let m := toFp32 v1 .rne ((fp32 v1 c.basin).mul (lnsVal c.code.toNat))
  { c with part := if c.groups = 1 then m else toFp32 v1 .rne ((fp32 v1 c.part).add .rne (fp32 v1 m)) }

/-- The row's sum times its scale (R225). -/
def Cursor.scaled (v1 : Bool) (c : Cursor) : U32 :=
  if c.e8 = 0xFF#8 then canonNan
  else toFp32 v1 .rne ((fp32 v1 c.part).scale ((c.e8.toNat : Int) - 127))

/-- The next token of a stream in the cursor's state (R222, R223, R226). -/
def Cursor.take (v1 : Bool) (c : Cursor) (t : Nat) : PalAct :=
  match c.state with
  | 1 => .go { c with idx := BitVec.ofNat 32 (t * 65536), state := 2 }
  | 2 => .go { c with idx := c.idx ||| BitVec.ofNat 32 t, state := 3 }
  | _ =>
    match tokenOf t with
    | .position p =>
      if c.state = 4 then .first p { c with state := 5, last := p }
      else if c.state = 5 ∧ c.last < p then .more p { c with last := p }
      else .format
    | .value k =>
      if (c.state = 3 ∨ c.state = 6 ∨ c.state = 7) ∧ c.seen.getLsbD k = false ∧ c.groups < 64 then
        .go { c with state := 4, code := BitVec.ofNat 8 k, seen := c.seen ||| (1#64 <<< k), groups := c.groups + 1 }
      else .format
    | .scale e => if c.state = 3 then .go { c with state := 7, e8 := BitVec.ofNat 8 e } else .format
    | .start => if c.state = 0 then .go { Cursor.fresh with state := 1 } else .format
    | .seam => if c.state = 5 then .go { (c.close v1) with state := 6 } else .format
    | .stop =>
      if c.state = 5 then .row (some ((c.close v1).scaled v1))
      else if c.state = 3 ∨ c.state = 7 then .row none
      else .format
    | .bad => .format

/-! ## Running PMV -/

/-- An FP32 word of the store; none outside it. -/
def State.palRead (s : State) (gid a : Nat) : Option U32 :=
  match s.loadS gid a 4 with
  | .ok x => some (BitVec.ofNat 32 x)
  | .error _ => none

/-- What a token did: the cursor goes on, or a fault with its code and store address. -/
inductive PalRes where
  | on (c : Cursor)
  | stop (code : Nat) (addr : Nat)
  deriving DecidableEq, Repr

/-- One token of the group's PMV (R225, R227). -/
def State.palToken (s : State) (gid : Nat) (m : PalCmd) (c : Cursor) : State × PalRes :=
  let v1 := s.v1Of gid
  let at_ := m.base + 2 * c.next
  match s.loadS gid at_ 2 with
  | .error _ => (s, .stop Code.storeRange at_)
  | .ok t =>
    let step (d : Cursor) : PalRes := .on { d with next := c.next + 1 }
    match c.take v1 t with
    | .format => (s, .stop Code.paletteFormat 0)
    | .go d => (s, step d)
    | .first p d =>
      match s.palRead gid (m.x + 4 * p) with
      | none => (s, .stop Code.storeRange (m.x + 4 * p))
      | some x => (s, step { d with basin := x })
    | .more p d =>
      match s.palRead gid (m.x + 4 * p) with
      | none => (s, .stop Code.storeRange (m.x + 4 * p))
      | some x => (s, step { d with basin := toFp32 v1 .rne ((fp32 v1 c.basin).add .rne (fp32 v1 x)) })
    | .row none => (s, step Cursor.fresh)
    | .row (some r) =>
      let a := m.y + 4 * c.idx.toNat
      match s.palRead gid a with
      | none => (s, .stop Code.storeRange a)
      | some y =>
        let v := toFp32 v1 .rne ((fp32 v1 y).add .rne (fp32 v1 r))
        (s.putStore gid a (.on m.pend) (bytesLE 4 v.toNat), step Cursor.fresh)

/-- The command completes: its energy is debited by the tokens it consumed (R228). -/
def State.palDone (s : State) (gid : Nat) (m : PalCmd) (c : Cursor) : State :=
  ((s.debitEnergy (s.wgOf gid).rid ((c.next + 15) / 16)).modGrp gid (fun g =>
    { g with pal := none, cursor := c })).completePend gid m.pend

/-- Up to `fuel` tokens. -/
def State.palTokens (s : State) (gid : Nat) (m : PalCmd) : Nat → State
  | 0 => s
  | fuel + 1 =>
    let c := (s.grp gid).cursor
    if m.count ≤ c.next then s.palDone gid m c
    else
      match s.palToken gid m c with
      | (s, .on d) =>
        let s := s.modGrp gid (fun g => { g with cursor := d })
        if m.count ≤ d.next then s.palDone gid m d else s.palTokens gid m fuel
      | (s, .stop code addr) =>
        let p := (s.grp gid).pend? m.pend
        let s := s.palDone gid m { Cursor.fresh with next := c.next }
        s.takeFault gid
          { code := code, pc := (p.map (fun p => p.pc)).getD 0, addr := wordN addr, lanes := m.lanes, detail := c.next,
            word := (p.map (fun p => wordOf p.instr)).getD 0 } (.done gid)

/-- PMV_CHUNK: 32 tokens of the group's PMV (R227). -/
def execPmvChunk (gid : Nat) (s : State) : Host.Outcome State Fault Refusal :=
  .next (match (s.grp gid).pal with
    | some m => s.palTokens gid m 32
    | none => s)

/-! ## Issue -/

/-- The checks of PMV at its issue (R378). -/
def pmvFault (ops : Ops) : LaneFault :=
  let n := (ops.la 1).toNat
  if n = 0 ∨ 2097152 < n then some (Code.mmaDesc, 0)
  else if (ops.la 0).toNat % 2 ≠ 0 then some (Code.misaligned, ops.la 0)
  else if (ops.la 2).toNat % 4 ≠ 0 then some (Code.misaligned, ops.la 2)
  else if (ops.la 3).toNat % 4 ≠ 0 then some (Code.misaligned, ops.la 3)
  else none

/-- PMV for its record (R224, R378). -/
def State.pmvAct (s : State) (gid id : Nat) (i : Instr) (ops : Ops) (m : LaneMask) : State :=
  match i with
  | .pmv _ cont _ _ _ =>
    match pmvFault ops with
    | some e => s.finishOnce gid id i m (some e)
    | none =>
      let cmd : PalCmd := { pend := id, lanes := m, base := (ops.la 0).toNat, count := (ops.la 1).toNat,
                            x := (ops.la 2).toNat, y := (ops.la 3).toNat }
      s.modGrp gid (fun g =>
        let c := if cont then { g.cursor with next := 0 } else Cursor.fresh
        { (g.modPend id (fun p => { p with kind := .unit, recKey := 0 })) with pal := some cmd, cursor := c })
  | _ => s

/-- R224, R378 (DEDUCED, log 38). -/
def execPmv (c : Ctl) (cont : Bool) (t x y : SR) (s : State) : Host.Outcome State Fault Refusal :=
  issueWord (.pmv c cont t x y) (fun s =>
    let ops : Ops := { a := [s.readS t.val, s.readS (t.val + 1), s.readS x.val, s.readS y.val], b := [], c := [] }
    s.onceForm (.pmv c cont t x y) c ops (fun id m t' => t'.pmvAct s.cur id (.pmv c cont t x y) ops m)
      (pmvFault ops).isSome) s

/-- The cursor's 32 bytes (R226). -/
def Cursor.bytes (c : Cursor) : List Byte :=
  bytesLE 4 c.next ++ bytesLE 4 c.idx.toNat ++ bytesLE 4 c.basin.toNat ++ bytesLE 4 c.part.toNat
    ++ bytesLE 8 c.seen.toNat ++ bytesLE 1 c.state ++ [c.code] ++ bytesLE 1 c.groups ++ [c.e8] ++ bytesLE 2 c.last
    ++ bytesLE 2 0

/-- R229, R378. -/
def execPstat (c : Ctl) (d : SR) (w : BitVec 2) (s : State) : Host.Outcome State Fault Refusal :=
  issueWord (.pstat c d w) (fun s =>
    s.onceForm (.pstat c d w) c Ops.none (fun id m t =>
      t.putReg s.cur (.s d) true m 0
        (fun _ => wordN (natLE ((s.g.cursor.bytes.drop (8 * w.toNat)).take 8))) (.on id))) s

end Sys2Proof.Machine
end

