-- ==== Sys2Proof/Machine/Engine.lean ====
section
/-! DEFINITION. Rill engines: programs, stacks and queues, stops, faults, and RLAUNCH, RSTOP and RSTAT (07 R171 to
R176, R190, R191; 21 R384, R385, R387 to R389). -/
namespace Sys2Proof.Machine

/-! ## Stacks and queues (R171) -/

/-- The stack that serves a command list: by affinity, by interleaving, or by the by-stack address. -/
def stackOf (e : TlbEnt) (va : Nat) : Nat :=
  let pa := e.pa va
  if pteAfe e.pte then pteAff e.pte
  else if 2 ^ 39 ≤ pa ∧ pa < 2 ^ 40 then (pa - 2 ^ 39) / 2 ^ 36
  else bits pa 14 12

def Prog.queued (p : Prog) : Bool := p.engine.isNone && p.state == .waiting

/-- The lowest-numbered free engine of a stack. -/
def State.freeEngine (s : State) (stack : Nat) : Option Nat :=
  (List.range 16).find? (fun e => !(s.progs.any (fun q => q.2.stack == stack && q.2.engine == some e)))

/-- The programs queued at a stack; those of a halted context among them. -/
def State.queueOf (s : State) (stack : Nat) : List (Nat × Prog) :=
  s.progs.filter (fun q => q.2.stack == stack && q.2.queued)

/-- The state in which a stopped program goes on (R191). -/
def Prog.afterStop (p : Prog) : EngState :=
  match p.prior with
  | .waiting => .waiting
  | .page => .page
  | _ => .running

/-- A program goes on in its prior state on a free engine of its stack, from PAGE with a new walk of its page, or queues
(R171, R191). An engine that has just been freed goes to whoever asks first, a queued program or this one: R171 does not
order them (DESIGN CHOICE, log 55). -/
def State.startProg (s : State) (pid : Nat) : State :=
  let p := s.prog pid
  match s.freeEngine p.stack with
  | some e => s.modProg pid (fun p =>
      { p with engine := some e, engineNo := 16 * p.stack + e, state := p.afterStop, prior := .idle,
               rewalk := p.prior == .page || p.rewalk })
  | none => { s with nextId := s.nextId + 1 }.modProg pid (fun p =>
      { p with engine := none, engineNo := 16 * p.stack, state := .waiting, order := s.nextId })

/-- The queued program whose turn it is; a halted context takes no engine (R253). -/
def State.nextQueued (s : State) (stack : Nat) : Option Nat :=
  (((s.queueOf stack).filter (fun q => !(s.ctx q.2.ctx).halted)).foldl (fun b q => match b with
    | some (i, o) => if q.2.order < o then some (q.1, q.2.order) else some (i, o)
    | none => some (q.1, q.2.order)) none).map (fun x => x.1)

/-- RILL_DEQUEUE: the first queued program takes the lowest-numbered free engine of its stack (R171). -/
def execRillDequeue (stack : Nat) (s : State) : Host.Outcome State Fault Refusal :=
  .next (match s.freeEngine stack, s.nextQueued stack with
    | some _, some pid => s.startProg pid
    | _, _ => s)

/-! ## Stops (R191) -/

def Prog.ended (p : Prog) : Bool := p.state == .done || p.state == .error

/-- A program on an engine stops at its chunk boundary; a queued one leaves the queue, its prior state WAITING, and still
walks the page for which it stood in PAGE (R191, R388). -/
def Prog.stop (p : Prog) (hold : Bool) : Prog :=
  match p.state with
  | .running | .waiting | .page =>
    { p with prior := p.state, hold := hold, state := .stopped, engine := none,
             rewalk := p.engine.isNone && (p.rewalk || p.prior == .page) }
  | _ => p

/-- ENGINE_STOP: by RSTOP, a pre-emption or HALT (R191); one that is already stopped keeps what holds it. -/
def execEngineStop (pid : Nat) (held : Bool) (s : State) : Host.Outcome State Fault Refusal :=
  .next (s.modProg pid (fun p => p.stop held))

/-- ENGINE_RESUME: a program that RSTOP does not hold goes on once its owner is resident (R191). -/
def execEngineResume (pid : Nat) (s : State) : Host.Outcome State Fault Refusal :=
  .next (
    let p := s.prog pid
    if p.state = .stopped ∧ p.hold = false ∧ (s.wg p.wid).issues = true then s.startProg pid else s)

/-- A record of kind 1 (R245). -/
def State.engineRecord (s : State) (pid code : Nat) (addr : Word) (detail : Nat) (word : Word) : State :=
  let p := s.prog pid
  s.raiseRecord p.ctx
    { domain := (s.region p.rid).rcb.domain, code := code, kind := 1, rid := p.rid,
      regno := (s.region p.rid).regno, wid := p.wid, wgid := p.ownerWg, grpid := 0xFFFF, unit := p.engineNo,
      pc := wordN p.index, addr := addr, lanes := 0, detail := detail, word := word, subject := .engine pid, seq := 0,
      va := 0, host := false }

/-- The first eight bytes of a command. -/
def cmdWord (i : Instr) : Word :=
  match i with
  | .rillBadCommand raw => (quadsOf raw).q0
  | _ => ((encodeQuads i).map (fun q => q.q0)).getD 0

/-- The engine stops in ERROR with a code of R163, reported to the owner's fault domain with the address that it met, if
it was one (R245). -/
def State.engineError (s : State) (pid code addr : Nat) (word : Word) : State :=
  let key := s.nextKey (s.prog pid).ctx
  (s.engineRecord pid Code.engineStop (wordN addr) code word).modProg pid (fun p =>
    { p with state := .error, err := code, engine := none, prior := .idle, recKey := key })

/-- An access found a page not present: state PAGE at the chunk's start, with one record (R190). -/
def State.enginePage (s : State) (pid va : Nat) (word : Word) : State :=
  let p := s.prog pid
  if p.recKey ≠ 0 then s.modProg pid (fun p => { p with state := .page })
  else
    let key := s.nextKey p.ctx
    (s.engineRecord pid Code.enginePage (wordN va) 0 word).modProg pid (fun p =>
      { p with state := .page, recKey := key })

/-- A WAITS or STAMP access fault: the engine waits at the command for the record's resolution (R182). -/
def State.engineHeld (s : State) (pid code va : Nat) (word : Word) : State :=
  let p := s.prog pid
  if p.recKey ≠ 0 then s.modProg pid (fun p => { p with state := .waiting })
  else
    let key := s.nextKey p.ctx
    (s.engineRecord pid code (wordN va) 0 word).modProg pid (fun p => { p with state := .waiting, recKey := key })

def State.engineWait (s : State) (pid : Nat) : State := s.modProg pid (fun p => { p with state := .waiting })

/-- The command at `idx` becomes the current one. The index is a field of 32 bits: past 2^32 - 1 comes command 0 (R173; DESIGN
CHOICE, log 41). -/
def Prog.toCmd (p : Prog) (idx : Nat) : Prog :=
  { p with index := idx % 2 ^ 32, done := 0, slotErr := none, owed := none, blk := 0, blkAddr := 0, blkDone := 0, cmd := none }

/-- The program goes on with the command at `idx`. -/
def State.engineNext (s : State) (pid idx : Nat) : State :=
  s.modProg pid (fun p => { p.toCmd idx with state := .running })

/-- The record of its stop is resolved: a program on an engine runs; one that is stopped or queued goes on when it has an
engine (R190, R191, R247). -/
def Prog.resolved (p : Prog) : Prog :=
  if p.state = .stopped ∨ p.engine = none then { p with recKey := 0 }
  else { p with recKey := 0, state := .running, rewalk := false }

/-- The first eight bytes of a program's current command, where they can be read. -/
def State.peekCmd (s : State) (p : Prog) : Word :=
  let a := p.list.toNat + 32 * p.index
  match s.walk p.ctx a with
  | .error _ => 0
  | .ok e =>
    match s.target (e.pa a) with
    | some (.mem loc) => (match s.loadT (.mem loc) 8 with | .ok x => wordN x | .error _ => 0)
    | _ => 0

/-- OWNER_GONE: the programs of a retiring workgroup that have not ended stop in ERROR (R191). -/
def State.ownerGone (s : State) (wid : Nat) : State :=
  s.progs.foldl (fun s q =>
    if q.2.wid = wid ∧ q.2.ended = false then s.engineError q.1 0x0E 0 (s.peekCmd q.2) else s) s

/-! ## Fetching a command (R176) -/

/-- What an engine's turn comes to: a command to perform, or the state without one. -/
inductive EngineTurn where
  | perform (i : Instr)
  | idle
  deriving DecidableEq, Repr

/-- A command that fills or drains slots of a ring, and so owes slots when it is abandoned (R190). -/
def Instr.slots : Instr → Bool
  | .stream .. | .rillDrain .. | .palette .. | .decode .. => true
  | _ => false

/-- The command that a program has abandoned and of which it may owe slots, if it has been fetched. -/
def Prog.abandoned (p : Prog) : Option Instr := if p.owed.isSome then p.cmd else none

/-- The program performs a command; one that was abandoned and owes no slots is passed (R182, R190, R247). A REDUCE whose PAGE
stop SKIP has resolved is such a one: it owes no slot, and its stamp is not written (DESIGN CHOICE, log 41). -/
def State.turnTo (s : State) (pid : Nat) (i : Instr) : State × EngineTurn :=
  if (s.prog pid).owed.isSome && !(Instr.slots i) then (s.engineNext pid ((s.prog pid).index + 1), .idle) else (s, .perform i)

/-- The current command of a program (R163, R176). One that SKIP has abandoned before it could be fetched is passed (R247). -/
def State.fetchCmd (s : State) (pid : Nat) : State × EngineTurn :=
  let p := s.prog pid
  let a := p.list.toNat + 32 * p.index
  let failed (s : State) (c : Nat) : State × EngineTurn :=
    if p.owed.isSome then (s.engineNext pid (p.index + 1), .idle)
    else if c = Code.notPresent then (s.enginePage pid a 0, .idle)
    else (s.engineError pid (engineErr c) a 0, .idle)
  match p.abandoned with
  | some i => s.turnTo pid i
  | none =>
    match s.accessG none p.ctx a 1 .read with
    | (s, .error c) => failed s c
    | (s, .ok t) =>
      match s.loadT t 32 with
      | .error c => failed s c
      | .ok x =>
        let i := decodeCmd (BitVec.ofNat 256 x)
        (s.modProg pid (fun p => { p with cmd := some i })).turnTo pid i

/-- RILL_BAD_COMMAND (R176). -/
def execRillBadCommand (raw : BitVec 256) (s : State) : Host.Outcome State Fault Refusal :=
  .next (s.engineError s.eng 0x0A 0 (cmdWord (.rillBadCommand raw)))

/-! ## RLAUNCH (R384, R385) -/

/-- The program record of a workgroup with this list. -/
def State.progOf (s : State) (wid : Nat) (list : Word) : Option (Nat × Prog) :=
  s.progs.find? (fun q => q.2.wid == wid && q.2.list == list)

/-- The oldest record of a workgroup in DONE or ERROR: numbers rise with every launch. -/
def State.oldestEnded (s : State) (wid : Nat) : Option Nat :=
  (s.progs.find? (fun q => q.2.wid == wid && q.2.ended)).map (fun q => q.1)

/-- The status of a launch and the state after it. -/
def State.launchProg (s : State) (gid : Nat) (list : Word) (stack : Nat) : State × Nat :=
  let wid := (s.grp gid).wid
  let w := s.wg wid
  let old := s.progOf wid list
  let busy : Bool := match old with
    | some q => !(q.2.ended || q.2.state == .stopped)
    | none => false
  let full : Bool := old.isNone && decide (16 ≤ (s.progs.filter (fun q => q.2.wid == wid)).length)
  if busy then (s, 2)
  else if full && (s.oldestEnded wid).isNone then (s, 3)
  else if 64 ≤ (s.queueOf stack).length then (s, 1)
  else
    let drop := match old with | some q => some q.1 | none => s.oldestEnded wid
    let s := match drop with | some k => { s with progs := delK s.progs k } | none => s
    let pid := s.nextId
    let p : Prog := { Prog.absent with wid := wid, ctx := w.ctx, rid := w.rid, ownerWg := w.wgid, list := list,
                                       stack := stack, engineNo := 16 * stack, order := pid }
    (({ s with progs := insK s.progs pid p, nextId := s.nextId + 1 }).startProg pid, 0)

/-- RLAUNCH for its record. -/
def State.rlaunchAct (s : State) (gid id : Nat) (i : Instr) (ops : Ops) (m : LaneMask) : State :=
  match i with
  | .rlaunch _ d _ =>
    let a := (ops.la 0).toNat
    if a % 32 ≠ 0 then s.finishOnce gid id i m (some (Code.misaligned, ops.la 0))
    else if !inSpace a then s.finishOnce gid id i m (some (Code.addrRange, ops.la 0))
    else
      match s.translate (some (s.grp gid).core) (s.cidOf gid) a .read with
      | (s, .error c) => s.finishOnce gid id i m (some (c, ops.la 0))
      | (s, .ok e) =>
        match s.target (e.pa a) with
        | none => s.finishOnce gid id i m (some (Code.paUnmapped, ops.la 0))
        | some (.dev _) => s.finishOnce gid id i m (some (Code.accessDenied, ops.la 0))
        | some _ =>
          let r := s.launchProg gid (ops.la 0) (stackOf e a)
          (r.1.putReg gid (.s d) true m 0 (fun _ => wordN r.2) (.on id)).finishOnce gid id i m none
  | _ => s

/-- R384, R385. -/
def execRlaunch (c : Ctl) (d a : SR) (s : State) : Host.Outcome State Fault Refusal :=
  issueWord (.rlaunch c d a) (fun s =>
    let ops : Ops := { a := [s.readS a.val], b := [], c := [] }
    s.onceForm (.rlaunch c d a) c ops (fun id m t => t.rlaunchAct s.cur id (.rlaunch c d a) ops m)
      (decide ((s.readS a.val).toNat % 32 ≠ 0) || !inSpace (s.readS a.val).toNat)) s

/-! ## RSTOP and RSTAT (R387 to R389) -/

/-- RSTOP of a record: the status and the state after it. -/
def State.rstopStatus (s : State) (q : Option (Nat × Prog)) : State × Nat :=
  match q with
  | none => (s, 1)
  | some (pid, p) =>
    if p.ended then (s, 2)
    else if p.state = .stopped then (s.modProg pid (fun p => { p with hold := true }), 0)
    else (s.modProg pid (fun p => p.stop true), 0)

/-- RSTOP.resume of a record. -/
def State.rresumeStatus (s : State) (q : Option (Nat × Prog)) : State × Nat :=
  match q with
  | none => (s, 1)
  | some (pid, p) =>
    if p.ended then (s, 2)
    else if p.state = .stopped ∧ p.hold = true then ((s.modProg pid (fun p => { p with hold := false })).startProg pid, 0)
    else (s, 3)

/-- R388. -/
def execRstop (c : Ctl) (d a : SR) (s : State) : Host.Outcome State Fault Refusal :=
  issueWord (.rstop c d a) (fun s =>
    s.onceForm (.rstop c d a) c Ops.none (fun id m t =>
      let r := t.rstopStatus (t.progOf s.g.wid (s.readS a.val))
      r.1.putReg s.cur (.s d) true m 0 (fun _ => wordN r.2) (.on id))) s

/-- RSTOP.resume for its record. -/
def State.rresumeAct (s : State) (gid id : Nat) (i : Instr) (ops : Ops) (m : LaneMask) : State :=
  match i with
  | .rstopResume _ d _ =>
    let r := s.rresumeStatus (s.progOf (s.grp gid).wid (ops.la 0))
    (r.1.putReg gid (.s d) true m 0 (fun _ => wordN r.2) (.on id)).finishOnce gid id i m none
  | _ => s

/-- R388: like RLAUNCH it waits for the writes before it (R149). -/
def execRstopResume (c : Ctl) (d a : SR) (s : State) : Host.Outcome State Fault Refusal :=
  issueWord (.rstopResume c d a) (fun s =>
    let ops : Ops := { a := [s.readS a.val], b := [], c := [] }
    s.onceForm (.rstopResume c d a) c ops (fun id m t => t.rresumeAct s.cur id (.rstopResume c d a) ops m)) s

def EngState.code : EngState → Nat
  | .idle => 0
  | .running => 1
  | .waiting => 2
  | .page => 3
  | .stopped => 4
  | .done => 5
  | .error => 6

/-- The 64-byte context (R173). -/
def Prog.bytes (p : Prog) (regno : Nat) : List Byte :=
  bytesLE 8 p.list.toNat ++ bytesLE 4 p.index ++ bytesLE 1 p.state.code ++ bytesLE 1 p.err
    ++ bytesLE 2 (if p.queued then 128 + 16 * p.stack else p.engineNo)
    ++ bytesLE 8 p.done ++ p.loop.flatMap (fun n => bytesLE 4 n) ++ bytesLE 4 p.seqf ++ bytesLE 4 p.seqd
    ++ bytesLE 4 p.ownerWg ++ bytesLE 4 regno ++ bytesLE 1 p.prior.code ++ bytesLE 1 (if p.hold then 1 else 0)
    ++ bytesLE 6 0

/-- R389. -/
def State.rstatWord (s : State) (q : Option (Nat × Prog)) (w : Nat) : Word :=
  match q with
  | none => 0
  | some (_, p) => wordN (natLE (((p.bytes (s.region p.rid).regno).drop (8 * w)).take 8))

/-- R389. -/
def execRstat (c : Ctl) (d a : SR) (w : BitVec 3) (s : State) : Host.Outcome State Fault Refusal :=
  issueWord (.rstat c d a w) (fun s =>
    s.onceForm (.rstat c d a w) c Ops.none (fun id m t =>
      t.putReg s.cur (.s d) true m 0 (fun _ => t.rstatWord (t.progOf s.g.wid (s.readS a.val)) w.toNat) (.on id))) s

end Sys2Proof.Machine
end

