-- ==== Sys2Proof/Machine/Rill.lean ====
section
/-! DEFINITION. The rill commands (07 R177 to R190; 18 R306, R307). -/
namespace Sys2Proof.Machine

/-! ## Conversion of elements (R105, R179) -/

/-- The binary format behind a code, for what is a binary format. -/
def fmtBinary : Fmt → Option FF
  | .fp32 => some ffFp32
  | .fp16 => some ffFp16
  | .bf16 => some ffBf16
  | .e4m3 => some ffE4m3
  | .e5m2 => some ffE5m2
  | _ => none

/-- A finite value overflows the format under rne (R92). -/
def FF.overflows (f : FF) (v : FV) : Bool :=
  match v with
  | .fin neg m e =>
    if m = 0 then false
    else
      let qmin : Int := 1 - (f.bias : Int) - f.p
      let q : Int := max (e + Nat.log2 m - f.p) qmin
      decide (f.maxCode < (q - qmin).toNat * 2 ^ f.p + roundAt .rne neg m e q)
  | _ => false

def FF.subnormal (f : FF) (c : Nat) : Bool := bits c (f.p + f.x - 1) f.p == 0 && c % 2 ^ f.p != 0

/-- A conversion: the value to encode (R105). nbv flushes a result only, no source (R112). -/
def scaledSource (f : Affine) (c : Nat) : FV :=
  let v := decodeFmt false f.fmtin c
  if !f.scl then v
  else if f.e8 = 0xFF#8 then .nan
  else
    let k := (f.e8.toNat : Int) - 127
    let v := if Fmt.scaled f.fmtin then v.scale k else v
    if Fmt.scaled f.fmtout then v.scale (-k) else v

/-- The converted code and the reported condition, if any (R179). A conversion to the source's own format is one too: its NaNs
become the one code, and under nbv = 1 its FP32 subnormals are flushed (R112, R175; DESIGN CHOICE, log 41). The elements of a
NaN block are NaNs, whatever their codes (R105). -/
def convElem (v1 : Bool) (f : Affine) (c : Nat) : Nat × Option Nat :=
  let v := scaledSource f c
  let y := encodeFmt v1 .rne f.fmtout v
  let raw := decodeFmt false f.fmtin c
  let block := f.scl && f.e8 == 0xFF#8
  let isNan := raw.isNan || block
  let isInf := !block && (match raw with | .inf _ => true | _ => false)
  let tooBig := !block && raw.finite && (match fmtBinary f.fmtout with
    | some g => g.overflows v
    | none => f.fmtout == .lns6 && lnsOver v)
  let subIn := !block && (match fmtBinary f.fmtin with | some g => g.subnormal c | none => false)
  let subOut := !block && raw.finite && (match fmtBinary f.fmtout with
    | some g => g.subnormal (encodeFmt false .rne f.fmtout v)
    | none => false)
  let cond := if f.rep.getLsbD 0 && isNan then some 3
    else if f.rep.getLsbD 1 && isInf then some 4
    else if f.rep.getLsbD 2 && tooBig then some 5
    else if f.rep.getLsbD 3 && (subIn || subOut) then some 6
    else none
  (y, cond)

/-! ## The affine pattern (R177) -/

def affDim (c : BitVec 16) : Nat := max 1 c.toNat
/-- Elements of the pattern. -/
def affCount (f : Affine) : Nat := affDim f.c0 * affDim f.c1 * affDim f.c2 * affDim f.c3
def affStride (f : Affine) (st : BitVec 21) : Int := st.toInt * ((2 ^ f.sh.toNat : Nat) : Int)

/-- Address of element `j`, i0 fastest; modulo 2^64. -/
def affAddr (f : Affine) (size j : Nat) : Nat :=
  let n0 := affDim f.c0
  let n1 := affDim f.c1
  let n2 := affDim f.c2
  let i0 := j % n0
  let i1 := j / n0 % n1
  let i2 := j / n0 / n1 % n2
  let i3 := j / n0 / n1 / n2
  (word (f.base.toNat + i0 * size + i1 * affStride f f.st1 + i2 * affStride f f.st2 + i3 * affStride f f.st3)).toNat

/-! ## Rings (R167, R178) -/

/-- Payload per chunk: 2,048 engine cycles of 128 bytes (R172). -/
def chunkBytes : Nat := 262144

/-- The stop code of an engine arrival's fault (R163). -/
def arriveErr (code : Nat) : Nat := if code = Code.weirOverflow then 0x0D else 0x0C

/-- An engine's arrival; a fault of it stops the engine. True when it was counted. -/
def State.engineArrive (s : State) (pid : Nat) (i : Instr) (w n : Nat) (error : Option (Nat × Nat)) : State × Bool :=
  match s.weirArrive (s.prog pid).wid w n 0 error with
  | (s, .error c) => (s.engineError pid (arriveErr c) w (cmdWord i), false)
  | (s, .ok _) => (s, true)

/-- The owner's store can be reached (R191). -/
def State.ownerHere (s : State) (pid : Nat) : Bool := (s.wg (s.prog pid).wid).issues

/-- A transfer between global memory and a ring. -/
structure Xfer where
  fill : Bool            -- into the ring; otherwise out of it
  ring : Nat
  n    : Nat             -- elements
  gsz  : Nat
  ssz  : Nat
  unit : Nat             -- units of `done` per element
  deriving DecidableEq, Repr

def Xfer.slotWeir (x : Xfer) (r : Ring) (seq : Nat) : Nat :=
  if x.fill then fullWeir x.ring (seq % r.depth) else emptyWeir x.ring r.depth (seq % r.depth)

/-- The slot may be used: the empty weir has completed the previous lap, or the full weir this one (R167). -/
def State.slotReady (s : State) (pid : Nat) (x : Xfer) (r : Ring) (seq : Nat) : Bool :=
  let w := s.wg (s.prog pid).wid
  let i := seq % r.depth
  if x.fill then
    decide (seq < r.depth) || (w.weir (emptyWeir x.ring r.depth i)).done ((seq / r.depth - 1) % 2 == 1)
  else (w.weir (fullWeir x.ring i)).done (seq / r.depth % 2 == 1)

def Xfer.seq (x : Xfer) (p : Prog) : Nat := if x.fill then p.seqf else p.seqd
def Xfer.advance (x : Xfer) (p : Prog) : Prog :=
  if x.fill then { p with seqf := (p.seqf + 1) % 2 ^ 32 } else { p with seqd := (p.seqd + 1) % 2 ^ 32 }

/-- The slot in use is finished: its arrival, then the next slot (R172). -/
def State.slotArrive (s : State) (pid : Nat) (i : Instr) (x : Xfer) (r : Ring) (error : Option (Nat × Nat)) :
    State × Bool :=
  let seq := x.seq (s.prog pid)
  match s.engineArrive pid i (x.slotWeir r seq) 1 error with
  | (s, false) => (s, false)
  | (s, true) => (s.modProg pid (fun p => { x.advance p with slotErr := none }), true)

/-- Elements read from global memory, up to the first that fails. -/
inductive Stop where
  | none
  | page (va : Nat)
  | err (code : Nat)
  deriving DecidableEq, Repr

def stopOf (c va : Nat) : Stop := if c = Code.notPresent then .page va else .err (engineErr c)

def State.readElems (s : State) (cid size : Nat) : List Nat → List Nat → State × List Nat × Stop
  | [], acc => (s, acc.reverse, .none)
  | a :: as, acc =>
    match s.accessG none cid a 1 .read with
    | (s, .error c) => (s, acc.reverse, stopOf c a)
    | (s, .ok t) =>
      match s.loadT t size with
      | .error c => (s, acc.reverse, stopOf c a)
      | .ok x => s.readElems cid size as (x :: acc)

/-- How many elements can be written, and what stops the next. -/
def State.checkElems (s : State) (cid : Nat) : List Nat → Nat → State × Nat × Stop
  | [], k => (s, k, .none)
  | a :: as, k =>
    match s.accessG none cid a 1 .write with
    | (s, .error c) => (s, k, stopOf c a)
    | (s, .ok _) => s.checkElems cid as (k + 1)

def State.writeElems (s : State) (cid size : Nat) : List (Nat × Nat) → State
  | [] => s
  | (a, v) :: rest =>
    match s.accessG none cid a 1 .write with
    | (s, .error _) => s.writeElems cid size rest
    | (s, .ok t) => (s.storeT t (bytesLE size v)).writeElems cid size rest

/-- The first reported condition among converted elements from element `e` on. -/
def firstCond (e : Nat) : List (Nat × Option Nat) → Option (Nat × Nat)
  | [] => none
  | (_, some c) :: _ => some (c, e)
  | (_, none) :: rest => firstCond (e + 1) rest

def orCond (a b : Option (Nat × Nat)) : Option (Nat × Nat) := match a with | some x => some x | none => b

/-- The chunk of `k` converted elements is in place: the cursor advances, with the slot's arrival at its end, and
the command ends with its last element (R172, R178). -/
def State.chunkDone (s : State) (pid : Nat) (i : Instr) (x : Xfer) (r : Ring) (el k : Nat)
    (cond : Option (Nat × Nat)) : State :=
  let per := r.slotbytes / x.ssz
  let e := el + k
  let s := s.modProg pid (fun p => { p with done := e * x.unit, state := .running, slotErr := orCond p.slotErr cond })
  if e % per = 0 ∨ x.n ≤ e then
    match s.slotArrive pid i x r (s.prog pid).slotErr with
    | (s, false) => s
    | (s, true) => if x.n ≤ e then s.engineNext pid ((s.prog pid).index + 1) else s
  else s

/-- An abandoned command: one error arrival at each slot still owed (R190); after a stop that SKIP resolved, a slot whose
arrival cannot be made is passed (R247; DEDUCED, log 46). -/
def State.oweSlot (s : State) (pid : Nat) (i : Instr) (x : Xfer) (r : Ring) (el code det : Nat) : State :=
  let per := r.slotbytes / x.ssz
  let e := (el / per + 1) * per
  let pass (r : State × Bool) : State × Bool := if 0x0A ≤ code then (s.modProg pid x.advance, true) else r
  match (match s.slotArrive pid i x r (some (code, det % 2 ^ 32)) with
    | (t, true) => (t, true)
    | (t, false) => pass (t, false)) with
  | (s, false) => s
  | (s, true) =>
    if x.n ≤ e then s.engineNext pid ((s.prog pid).index + 1)
    else s.modProg pid (fun p => { p with done := e * x.unit, owed := some (code, some det), state := .running })

/-- A chunk stopped by an access fault after `k` of its elements: the command is abandoned. -/
def State.abandonChunk (s : State) (pid : Nat) (x : Xfer) (el k code : Nat) (cond : Option (Nat × Nat)) : State :=
  s.modProg pid (fun p => { p with done := (el + k) * x.unit, state := .running, owed := some (code, some (el + k)),
                                   slotErr := orCond p.slotErr cond })

/-- The ring is malformed: the engine stops, unless SKIP has abandoned the command, which is then passed (R163, R247). -/
def State.ringLost (s : State) (pid ring : Nat) (word : Word) : State :=
  if (s.prog pid).owed.isSome then s.engineNext pid ((s.prog pid).index + 1) else s.engineError pid 0x0B ring word

/-- One chunk of STREAM, PALETTE or DRAIN: `addr` places element j in global memory, `conv` converts one (DEDUCED,
log 41). -/
def State.xferChunk (s : State) (pid : Nat) (i : Instr) (x : Xfer) (addr : Nat → Nat)
    (conv : Nat → Nat × Option Nat) : State :=
  let p := s.prog pid
  let w := s.wg p.wid
  if !s.ownerHere pid then s.engineWait pid
  else
    match w.ring (s.spBytes w) x.ring with
    | none => s.ringLost pid x.ring (cmdWord i)
    | some r =>
      let per := r.slotbytes / x.ssz
      let el := p.done / x.unit
      let seq := x.seq p
      if el % per = 0 ∧ s.slotReady pid x r seq = false then s.engineWait pid
      else
        match p.owed with
        | some (code, det) => s.oweSlot pid i x r el code (det.getD el)
        | none =>
          let m := min (min (per - el % per) (x.n - el)) (chunkBytes / max x.gsz x.ssz)
          let as := (List.range m).map (fun j => addr (el + j))
          let pos := r.slotbase + (seq % r.depth) * r.slotbytes + (el % per) * x.ssz
          if x.fill then
            match s.readElems p.ctx x.gsz as [] with
            | (s, _, .page va) => s.enginePage pid va (cmdWord i)
            | (s, vals, stop) =>
              let ys := vals.map conv
              let s := s.modWg p.wid (fun w => w.putPads pos (ys.flatMap (fun y => bytesLE x.ssz y.1)))
              match stop with
              | .err code => s.abandonChunk pid x el ys.length code (firstCond el ys)
              | _ => s.chunkDone pid i x r el m (firstCond el ys)
          else
            match s.checkElems p.ctx as 0 with
            | (s, _, .page va) => s.enginePage pid va (cmdWord i)
            | (s, k, stop) =>
              let ys := (List.range k).map (fun j => conv (natLE (w.padBytes (pos + j * x.ssz) x.ssz)))
              let s := s.writeElems p.ctx x.gsz (as.zip (ys.map (fun y => y.1)))
              match stop with
              | .err code => s.abandonChunk pid x el k code (firstCond el ys)
              | _ => s.chunkDone pid i x r el m (firstCond el ys)

/-- R112. -/
def State.progV1 (s : State) (pid : Nat) : Bool := (s.region (s.prog pid).rid).rcb.nbv == 1

/-- STREAM (R177, R178). -/
def execStream (f : Affine) (s : State) : Host.Outcome State Fault Refusal :=
  .next (
    let g := Fmt.bytes f.fmtin
    s.xferChunk s.eng (.stream f)
      { fill := true, ring := f.ring.toNat, n := affCount f, gsz := g, ssz := Fmt.bytes f.fmtout,
        unit := Fmt.bytes f.fmtout }
      (affAddr f g) (convElem (s.progV1 s.eng) f))

/-- DRAIN (R177, R178). -/
def execRillDrain (f : Affine) (s : State) : Host.Outcome State Fault Refusal :=
  .next (
    let g := Fmt.bytes f.fmtout
    s.xferChunk s.eng (.rillDrain f)
      { fill := false, ring := f.ring.toNat, n := affCount f, gsz := g, ssz := Fmt.bytes f.fmtin, unit := g }
      (affAddr f g) (convElem (s.progV1 s.eng) f))

/-- PALETTE (R181). -/
def execPalette (ring : BitVec 22) (src : BitVec 54) (count : BitVec 32) (s : State) :
    Host.Outcome State Fault Refusal :=
  .next (s.xferChunk s.eng (.palette ring src count)
    { fill := true, ring := ring.toNat, n := count.toNat, gsz := 2, ssz := 2, unit := 1 }
    (fun j => src.toNat + 2 * j) (fun c => (c, none)))

/-! ## DECODE (R185 to R189) -/

/-- CRC-32C of bytes, from a running value (R188). -/
def crcBits : Nat → Nat → Nat
  | 0, c => c
  | k + 1, c => crcBits k (if c % 2 = 1 then (c / 2) ^^^ 0x82F63B78 else c / 2)
def crcRun : List Byte → Nat → Nat
  | [], c => c
  | b :: bs, c => crcRun bs (crcBits 8 (c ^^^ b.toNat))
/-- R188. -/
def crc32c (bs : List Byte) : Nat := crcRun bs 0xFFFFFFFF ^^^ 0xFFFFFFFF

/-- The fields of a block header (R185). -/
structure BlockHdr where
  fmt   : Nat
  emin  : Nat
  emax  : Nat
  count : Nat
  eoff  : Nat
  moff  : Nat
  total : Nat
  crc   : Nat
  deriving DecidableEq, Repr

def fieldLE (bs : List Byte) (off n : Nat) : Nat := natLE ((bs.drop off).take n)

def BlockHdr.lens (h : BlockHdr) : Nat := (h.emax - h.emin + 2) / 2
def BlockHdr.raw (h : BlockHdr) : Nat := if h.fmt = 2 then h.count else (h.count + 1) / 2

/-- A header that R185 does not call malformed. -/
def blockHdr (bs : List Byte) : Option BlockHdr :=
  let h : BlockHdr := { fmt := fieldLE bs 4 1, emin := fieldLE bs 5 1, emax := fieldLE bs 6 1, count := fieldLE bs 8 2,
                        eoff := fieldLE bs 12 4, moff := fieldLE bs 16 4, total := fieldLE bs 20 4,
                        crc := fieldLE bs 24 4 }
  let top := if h.fmt = 2 then 255 else if h.fmt = 3 then 15 else 31
  let most := if h.fmt = 2 then 2048 else 4096
  if fieldLE bs 0 4 == 0x4553424B && decide (2 ≤ h.fmt) && decide (h.fmt ≤ 4) && decide (h.emin ≤ h.emax)
    && decide (h.emax ≤ top) && fieldLE bs 7 1 == 0 && fieldLE bs 10 2 == 0 && fieldLE bs 28 4 == 0
    && decide (1 ≤ h.count) && decide (h.count ≤ most) && h.total % 64 == 0 && decide (0x20 + h.lens ≤ h.eoff)
    && decide (h.eoff ≤ h.moff) && decide (h.moff + h.raw ≤ h.total)
  then some h else none

/-- The code lengths of the symbols, ascending. -/
def BlockHdr.lengths (h : BlockHdr) (bs : List Byte) : List Nat :=
  (List.range (h.emax - h.emin + 1)).map (fun j => fieldLE bs (0x20 + j / 2) 1 / 16 ^ (j % 2) % 16)

/-- A codeword: length, code, symbol. -/
abbrev Codeword := Nat × Nat × Nat

/-- The symbols of one length take successive codes; none when over-subscribed (R186). -/
def assignLen (len : Nat) : List (Nat × Nat) → Nat → List Codeword → Option (Nat × List Codeword)
  | [], code, acc => some (code, acc)
  | (sym, l) :: rest, code, acc =>
    if l = len then
      if 2 ^ len ≤ code then none else assignLen len rest (code + 1) ((len, code, sym) :: acc)
    else assignLen len rest code acc

/-- The canonical code (R186): lengths from `len` on. -/
def assignCodes (syms : List (Nat × Nat)) : Nat → Nat → Nat → List Codeword → Option (List Codeword)
  | 0, _, _, acc => some acc
  | fuel + 1, len, code, acc =>
    match assignLen len syms code acc with
    | none => none
    | some (c, acc) => assignCodes syms fuel (len + 1) (2 * c) acc

def BlockHdr.codes (h : BlockHdr) (bs : List Byte) : Option (List Codeword) :=
  let ls := h.lengths bs
  let odd := (h.emax - h.emin + 1) % 2 == 1
  if (odd && fieldLE bs (0x20 + h.lens - 1) 1 / 16 != 0) || ls.all (fun l => l == 0) then none
  else assignCodes ((List.range ls.length).map (fun j => (h.emin + j, nth ls 0 j))) 15 1 0 []

/-- The bits of the exponent stream, first bit first (R187). -/
def bitsMsb (bs : List Byte) : List Bool :=
  bs.flatMap (fun b => (List.range 8).map (fun k => b.getLsbD (7 - k)))

/-- Reads one codeword of at most 15 bits. -/
def readCode (cs : List Codeword) : Nat → List Bool → Nat → Nat → Option (Nat × List Bool)
  | 0, _, _, _ => none
  | _ + 1, [], _, _ => none
  | fuel + 1, b :: rest, len, code =>
    let code := 2 * code + (if b then 1 else 0)
    match cs.find? (fun c => c.1 == len + 1 && c.2.1 == code) with
    | some c => some (c.2.2, rest)
    | none => readCode cs fuel rest (len + 1) code

/-- The exponents of `n` elements. -/
def readCodes (cs : List Codeword) : Nat → List Bool → List Nat → Option (List Nat)
  | 0, _, acc => some acc.reverse
  | n + 1, bits, acc =>
    match readCode cs 15 bits 0 0 with
    | some (x, rest) => readCodes cs n rest (x :: acc)
    | none => none

/-- Element `i` with exponent `x` (R187); none for a nonzero bit 3 of an e5m2 nibble. -/
def BlockHdr.element (h : BlockHdr) (bs : List Byte) (i x : Nat) : Option (List Byte) :=
  if h.fmt = 2 then
    let r := fieldLE bs (h.moff + i) 1
    some (bytesLE 2 (r / 128 * 32768 + x * 128 + r % 128))
  else
    let r := fieldLE bs (h.moff + i / 2) 1 / 16 ^ (i % 2) % 16
    if h.fmt = 3 then some (bytesLE 1 (r / 8 * 128 + x * 8 + r % 8))
    else if 8 ≤ r then none
    else some (bytesLE 1 (r / 4 * 128 + x * 4 + r % 4))

def BlockHdr.elements (h : BlockHdr) (bs : List Byte) : List Nat → Nat → List Byte → Option (List Byte)
  | [], _, acc => some acc
  | x :: xs, i, acc =>
    match h.element bs i x with
    | some e => h.elements bs xs (i + 1) (acc ++ e)
    | none => none

/-- The decoded bytes of a whole block; none when its bitstream is malformed. -/
def BlockHdr.decode (h : BlockHdr) (bs : List Byte) : Option (List Byte) :=
  match h.codes bs with
  | none => none
  | some cs =>
    match readCodes cs h.count (bitsMsb ((bs.drop h.eoff).take (h.moff - h.eoff))) [] with
    | none => none
    | some xs => h.elements bs xs 0 []

/-- A block read and decoded: its decoded bytes, its length, and whether the CRC agrees. -/
inductive BlockRes where
  | ok (data : List Byte) (total : Nat) (good : Bool)
  | page (va : Nat)
  | bad (code : Nat)
  deriving DecidableEq, Repr

def State.loadBlock (s : State) (cid a : Nat) : State × BlockRes :=
  let res (c va : Nat) : BlockRes := if c = Code.notPresent then .page va else .bad (engineErr c)
  match s.loadBytes none cid a 32 with
  | (s, .error e) => (s, res e.1 e.2)
  | (s, .ok hd) =>
    match blockHdr hd with
    | none => (s, .bad 2)
    | some h =>
      match s.loadBytes none cid a h.total with
      | (s, .error e) => (s, res e.1 e.2)
      | (s, .ok bs) =>
        match h.decode bs with
        | none => (s, .bad 2)
        | some data => (s, .ok data h.total (crc32c data == h.crc))

/-- All bytes of the current block, and some of later ones, were delivered before a RESUME that could not read it: the program
goes on to the next block (R189). A wrong checksum belongs to the slot in use when the block ended in it. -/
def Prog.passBlock (p : Prog) (slotbytes ibase a len total : Nat) (good : Bool) : Prog :=
  let left := p.blkDone - len
  let here := !good && decide (p.done / slotbytes * slotbytes < p.done - left)
  { p with blk := p.blk + 1, blkAddr := a + total, blkDone := left, state := .running,
           slotErr := orCond p.slotErr (if here then some (1, (ibase + p.blk) % 2 ^ 32) else none) }

/-- DECODE: the decoded bytes of the current block that fall in the current slot (R180, R189) (DEDUCED, log 41). -/
def State.decodeChunk (s : State) (pid : Nat) (i : Instr) (g src blocks ibase : Nat) : State :=
  let p := s.prog pid
  let w := s.wg p.wid
  if !s.ownerHere pid then s.engineWait pid
  else
    match w.ring (s.spBytes w) g with
    | none => s.ringLost pid g (cmdWord i)
    | some r =>
      let x : Xfer := { fill := true, ring := g, n := 0, gsz := 1, ssz := 1, unit := 1 }
      let pos := p.done % r.slotbytes
      if pos = 0 ∧ s.slotReady pid x r p.seqf = false then s.engineWait pid
      else
        let owe (s : State) (code det : Nat) : State := s.oweSlot pid i x r p.done code det
        match p.owed with
        | some (code, det) => owe s code (det.getD (ibase + p.blk))
        | none =>
          let a := if p.blk = 0 then src else p.blkAddr
          match s.loadBlock p.ctx a with
          | (s, .page va) => s.enginePage pid va (cmdWord i)
          | (s, .bad code) => owe s code (ibase + p.blk)
          | (s, .ok data total good) =>
            if data.length ≤ p.blkDone then s.modProg pid (fun p => p.passBlock r.slotbytes ibase a data.length total good)
            else
            let n := min (data.length - p.blkDone) (r.slotbytes - pos)
            let at_ := r.slotbase + (p.seqf % r.depth) * r.slotbytes + pos
            let s := s.modWg p.wid (fun w => w.putPads at_ ((data.drop p.blkDone).take n))
            let ends := decide (data.length ≤ p.blkDone + n)
            let cond := if ends && !good then some (1, (ibase + p.blk) % 2 ^ 32) else none
            let last := ends && decide (blocks ≤ p.blk + 1)
            let s := s.modProg pid (fun p =>
              let p := { p with done := p.done + n, state := .running, slotErr := orCond p.slotErr cond }
              if ends then { p with blk := p.blk + 1, blkAddr := a + total, blkDone := 0 }
              else { p with blkAddr := a, blkDone := p.blkDone + n })
            if last || pos + n == r.slotbytes then
              match s.slotArrive pid i x r (s.prog pid).slotErr with
              | (s, false) => s
              | (s, true) => if last then s.engineNext pid (p.index + 1) else s
            else s

/-- DECODE (R180). -/
def execDecode (ring : BitVec 22) (src : BitVec 54) (blocks ibase : BitVec 32) (s : State) :
    Host.Outcome State Fault Refusal :=
  .next (s.decodeChunk s.eng (.decode ring src blocks ibase) ring.toNat src.toNat blocks.toNat ibase.toNat)

/-! ## Synchronisation (R182, R183) -/

/-- The 16 bytes of a weir lie in the owner's scratchpad (R182). -/
def State.weirHere (s : State) (pid w : Nat) : Bool :=
  decide (w + 16 ≤ s.spBytes (s.wg (s.prog pid).wid))

/-- ARRIVE. -/
def execArrive (n : BitVec 16) (weir : BitVec 22) (s : State) : Host.Outcome State Fault Refusal :=
  .next (
    let pid := s.eng
    let i := Instr.arrive n weir
    if !s.ownerHere pid then s.engineWait pid
    else if !s.weirHere pid weir.toNat then s.engineError pid 0x0C weir.toNat (cmdWord i)
    else
      match s.engineArrive pid i weir.toNat n.toNat none with
      | (s, true) => s.engineNext pid ((s.prog pid).index + 1)
      | (s, false) => s)

/-- WAITW. -/
def execWaitw (p : Bool) (weir : BitVec 22) (s : State) : Host.Outcome State Fault Refusal :=
  .next (
    let pid := s.eng
    if !s.ownerHere pid then s.engineWait pid
    else if !s.weirHere pid weir.toNat then s.engineError pid 0x0C weir.toNat (cmdWord (.waitw p weir))
    else if ((s.wg (s.prog pid).wid).weir weir.toNat).done p then s.engineNext pid ((s.prog pid).index + 1)
    else s.engineWait pid)

/-- WAITS. -/
def execWaits (addr : BitVec 54) (val : Word) (s : State) : Host.Outcome State Fault Refusal :=
  .next (
    let pid := s.eng
    match s.loadG none (s.prog pid).ctx addr.toNat 8 with
    | (s, .error c) =>
      if c = Code.notPresent then s.enginePage pid addr.toNat (cmdWord (.waits addr val))
      else s.engineHeld pid c addr.toNat (cmdWord (.waits addr val))
    | (s, .ok x) => if val.toNat ≤ x then s.engineNext pid ((s.prog pid).index + 1) else s.engineWait pid)

/-- STAMP. -/
def execStamp (addr : BitVec 54) (val : Word) (s : State) : Host.Outcome State Fault Refusal :=
  .next (
    let pid := s.eng
    match s.storeG none (s.prog pid).ctx addr.toNat (bytesLE 8 val.toNat) with
    | (s, .error c) =>
      if c = Code.notPresent then s.enginePage pid addr.toNat (cmdWord (.stamp addr val))
      else s.engineHeld pid c addr.toNat (cmdWord (.stamp addr val))
    | (s, .ok _) => s.engineNext pid ((s.prog pid).index + 1))

/-- LOOP (R183); a target at or above its own index is a bad command (R176). -/
def execLoop (level : BitVec 2) (target count : BitVec 32) (s : State) : Host.Outcome State Fault Refusal :=
  .next (
    let pid := s.eng
    let p := s.prog pid
    let l := level.toNat
    if p.index ≤ target.toNat then s.engineError pid 0x0A 0 (cmdWord (.loop level target count))
    else if nth p.loop 0 l + 1 < count.toNat then
      (s.modProg pid (fun p => { p with loop := p.loop.set l (nth p.loop 0 l + 1) })).engineNext pid target.toNat
    else (s.modProg pid (fun p => { p with loop := p.loop.set l 0 })).engineNext pid (p.index + 1))

/-- JUMP (R183). -/
def execJump (target : BitVec 32) (s : State) : Host.Outcome State Fault Refusal :=
  .next (s.engineNext s.eng target.toNat)

/-- FENCE: the commands of a program are performed one after the other. -/
def execRillFence (s : State) : Host.Outcome State Fault Refusal :=
  .next (s.engineNext s.eng ((s.prog s.eng).index + 1))

/-- The program has ended; its engine is free. -/
def State.engineDone (s : State) (pid : Nat) : State :=
  s.modProg pid (fun p => { p with state := .done, engine := none, prior := .idle, done := 0 })

/-- END. -/
def execRillEnd (a : Bool) (n : BitVec 16) (weir : BitVec 22) (s : State) : Host.Outcome State Fault Refusal :=
  .next (
    let pid := s.eng
    let i := Instr.rillEnd a n weir
    if !a then s.engineDone pid
    else if !s.ownerHere pid then s.engineWait pid
    else if !s.weirHere pid weir.toNat then s.engineError pid 0x0C weir.toNat (cmdWord i)
    else
      match s.engineArrive pid i weir.toNat n.toNat none with
      | (s, true) => s.engineDone pid
      | (s, false) => s)

/-! ## REDUCE (R184, R306, R307) -/

/-- A REDUCE descriptor: ranks, own rank, stamp address. -/
structure RedDesc where
  nranks : Nat
  rank   : Nat
  stamp  : Nat
  deriving DecidableEq, Repr

def redDesc (bs : List Byte) : Option RedDesc :=
  let d : RedDesc := { nranks := fieldLE bs 4 2, rank := fieldLE bs 6 2, stamp := fieldLE bs 8 8 }
  if fieldLE bs 0 4 == 0x4C4C4352 && decide (2 ≤ d.nranks) && decide (d.nranks ≤ 256) && decide (d.rank < d.nranks)
    && d.stamp % 8 == 0 && decide (fieldLE bs 16 1 ≤ 1) && (bs.drop 17).all (fun b => b == 0)
  then some d else none

/-- A result of nbv = 1 is flushed (R112). -/
def flushOut (v1 : Bool) (x : U32) : Nat := (flushIn v1 x).toNat

/-- r op x, rounded once; an i32 sum saturates as a narrowing to int32 does (R85, R101, R306; DEDUCED, log 4). Of NaNs and of
zeros of opposite sign max and min take what FMAX and FMIN take (R338; DESIGN CHOICE, log 4). -/
def redOp (v1 : Bool) (fn : RedFn) (f : Fmt) (a b : Nat) : Nat :=
  match f with
  | .i32 =>
    let x := sextI a 32
    let y := sextI b 32
    match fn with
    | .sum => (max (-2147483648) (min 2147483647 (x + y)) % 4294967296).toNat
    | .max => if x < y then b else a
    | .min => if y < x then b else a
  | .bf16 =>
    match fn with
    | .sum => ffBf16.encode .rne false ((ffBf16.decode a).add .rne (ffBf16.decode b))
    | .max => (fmaxF false (BitVec.ofNat 32 (a * 65536)) (BitVec.ofNat 32 (b * 65536))).toNat / 65536
    | .min => (fminF false (BitVec.ofNat 32 (a * 65536)) (BitVec.ofNat 32 (b * 65536))).toNat / 65536
  | _ =>
    let x := BitVec.ofNat 32 a
    let y := BitVec.ofNat 32 b
    match fn with
    | .sum => (toFp32 v1 .rne ((fp32 false x).add .rne (fp32 false y))).toNat
    | .max => flushOut v1 (fmaxF false x y)
    | .min => flushOut v1 (fminF false x y)

/-- One element of the chain in ascending rank order: `own` is this device's value, `other k` that of rank k. -/
def redChain (v1 : Bool) (fn : RedFn) (f : Fmt) (rank own : Nat) (other : Nat → Nat) : Nat → Nat
  | 0 => if rank = 0 then own else other 0
  | k + 1 =>
    let r := redChain v1 fn f rank own other k
    redOp v1 fn f r (if rank = k + 1 then own else other (k + 1))

/-- Bytes of the command's chunk from offset `off` on, after the all-reduce. -/
def redBytes (v1 : Bool) (fn : RedFn) (f : Fmt) (g chunk off : Nat) (d : RedDesc) (own : List Byte) : List Byte :=
  let n := Fmt.bytes f
  (List.range (own.length / n)).flatMap (fun e =>
    let other (k : Nat) : Nat := natLE ((List.range n).map (fun b => Config.rankByte g k chunk (off + e * n + b)))
    bytesLE n (redChain v1 fn f d.rank (fieldLE own (e * n) n) other (d.nranks - 1)))

/-- The all-reduce of at most `chunkBytes` bytes in place from offset `done` on; when all `total` are done `stamp` follows,
and an access fault of the buffer gives the stamp its code (R172, R173, R190). -/
def State.reducePart (s : State) (pid cid buf total : Nat) (word : Word) (f : List Byte → List Byte)
    (stamp : State → Nat → State) : State :=
  let off := (s.prog pid).done
  let n := min chunkBytes (total - off)
  let at_ := buf + off
  match s.loadBytes none cid at_ n with
  | (s, .error e) => if e.1 = Code.notPresent then s.enginePage pid e.2 word else stamp s (engineErr e.1)
  | (s, .ok own) =>
    match s.checkElems cid ((List.range n).map (fun k => at_ + k)) 0 with
    | (s, _, .page va) => s.enginePage pid va word
    | (s, k, stop) =>
      let s := (s.storeBytes none cid at_ ((f own).take k)).1
      match stop with
      | .err code => stamp s code
      | _ =>
        if total ≤ off + n then stamp s 0
        else s.modProg pid (fun p => { p with done := off + n, state := .running })

/-- REDUCE: the chunk is all-reduced in place and the stamp written; without a route the stamp carries LINK_LOST (R184,
R306, R307) (DEDUCED, log 41). -/
def execReduce (fn : RedFn) (fmt : Fmt) (group : Byte) (chunk : BitVec 32) (buf : BitVec 54) (bytes : BitVec 32)
    (desc : BitVec 54) (s : State) : Host.Outcome State Fault Refusal :=
  .next (
    let pid := s.eng
    let i := Instr.reduce fn fmt group chunk buf bytes desc
    let cid := (s.prog pid).ctx
    let next (s : State) : State := s.engineNext pid ((s.prog pid).index + 1)
    match s.loadBytes none cid desc.toNat 64 with
    | (s, .error e) => if e.1 = Code.notPresent then s.enginePage pid e.2 (cmdWord i) else next s
    | (s, .ok db) =>
      match redDesc db with
      | none => s.engineError pid 0x0A 0 (cmdWord i)
      | some d =>
        let stamp (s : State) (code : Nat) : State :=
          match s.storeG none cid d.stamp (bytesLE 8 (code * 2 ^ 56 + (chunk.toNat + 1))) with
          | (s, _) => next s
        match s.accessG none cid d.stamp 8 .write with
        | (s, .error c) =>
          if c = Code.notPresent then s.enginePage pid d.stamp (cmdWord i)
          else s.engineHeld pid c d.stamp (cmdWord i)
        | (s, .ok _) =>
          if !s.svc.routes then stamp s 9
          else
            s.reducePart pid cid buf.toNat bytes.toNat (cmdWord i)
              (redBytes (s.progV1 pid) fn fmt group.toNat chunk.toNat (s.prog pid).done d) stamp)

end Sys2Proof.Machine
end

