-- ==== Sys2Proof/Machine/Places.lean ====
section
/-! DEFINITION. What the resident workgroups of a core hold, and whether one more fits (01 R24, R29 to R32; 05 R116,
R117, R123; 13 R238). -/
namespace Sys2Proof.Machine

/-- What windows and scratchpads may take of a core's store (R29, R116). -/
def storeLimit : Nat := 3932160

def sumOf (l : List Nat) : Nat := l.foldl (fun a b => a + b) 0

/-- Bytes of a group's register window (R116). -/
def Group.windowBytes (g : Group) : Nat := g.valloc * 128

/-- Store that a workgroup holds on a core (R29, R30). -/
def State.heldBy (s : State) (w : Wg) (core : Nat) : Nat :=
  sumOf ((w.gids.filter (fun gid => (s.grp gid).core == core)).map (fun gid => (s.grp gid).windowBytes))
    + (if w.home = core then s.spBytes w else 0)

/-- The workgroups that hold a core, but for those in `out`. -/
def State.residents (s : State) (core : Nat) (out : List Nat) : List (Nat × Wg) :=
  s.wgs.filter (fun q => q.2.onCore && !(out.contains q.1) &&
    (q.2.home == core || q.2.gids.any (fun gid => (s.grp gid).core == core)))

def State.coreUsed (s : State) (core : Nat) (out : List Nat) : Nat :=
  sumOf ((s.residents core out).map (fun q => s.heldBy q.2 core))

/-- Tiles in use at a home core (R203). -/
def State.tilesUsed (s : State) (core : Nat) (out : List Nat) : Nat :=
  sumOf (((s.residents core out).filter (fun q => q.2.home == core)).map (fun q => (s.region q.2.rid).rcb.tiles))

/-- Groups of a partition (R24). -/
def State.partGroups (s : State) (core part : Nat) (out : List Nat) : Nat :=
  sumOf ((s.residents core out).map (fun q =>
    (q.2.gids.filter (fun gid => (s.grp gid).core == core && (s.grp gid).part == part)).length))

/-- What a workgroup asks of the cores that take it. -/
structure Need where
  ctx    : Nat
  spread : Bool
  /-- grpid and allotment of its groups. -/
  groups : List (Nat × Nat)
  sp     : Nat
  tiles  : Nat
  fused  : Bool
  /-- Home index within the cluster, for one that re-enters (R120). -/
  index  : Option Nat
  deriving DecidableEq, Repr

/-- The core of a group (R24, R30). -/
def Need.core (n : Need) (home grpid : Nat) : Nat := if n.spread then home / 4 * 4 + grpid % 4 else home
/-- The partition of a group (R24, R30). -/
def partOf (spread : Bool) (grpid : Nat) : Nat := if spread then grpid / 4 % 4 else grpid % 4

/-- The cores that take it. -/
def Need.cores (n : Need) (home : Nat) : List Nat :=
  if n.spread then (List.range 4).map (fun i => home / 4 * 4 + i) else [home]

/-- A group count that is the same everywhere: bytes a core must give. -/
def Need.bytes (n : Need) (home core : Nat) : Nat :=
  sumOf ((n.groups.filter (fun g => n.core home g.1 == core)).map (fun g => g.2 * 128))
    + (if core = home then n.sp else 0)

/-- R29: one core, or spread over a cluster. -/
def spreads (ngroups valloc sp : Nat) : Bool := decide (storeLimit < ngroups * valloc * 128 + sp)

/-- R29, R30: the groups, allotment and scratchpad fit one core or a cluster. -/
def footprintOk (ngroups valloc sp : Nat) : Bool :=
  !spreads ngroups valloc sp
    || (List.range 4).all (fun c =>
      decide (((ngroups + 3 - c) / 4) * valloc * 128 + (if c = 0 then sp else 0) ≤ storeLimit))

/-- Firmware has drained the core or its cluster (R309). -/
def State.drainedCore (s : State) (core : Nat) : Bool :=
  (s.core core).drained || s.svc.drainedClusters.contains (core / 4)

/-- A core can take its share: store, partitions, one context, no fenced or drained unit (R116, R238). -/
def State.coreTakes (s : State) (n : Need) (home : Nat) (out : List Nat) (core : Nat) : Bool :=
  let c := s.core core
  decide (s.coreUsed core out + n.bytes home core ≤ storeLimit)
    && (List.range 4).all (fun p =>
      let k := (n.groups.filter (fun g => n.core home g.1 == core && partOf n.spread g.1 == p)).length
      decide (s.partGroups core p out + k ≤ 256) && (k == 0 || !(c.partFailed.contains p)))
    && (s.residents core out).all (fun q => q.2.ctx == n.ctx)
    && !c.failed && !s.drainedCore core

/-- R238, but for the switch that a core may be in and the reservations. -/
def State.fits (s : State) (n : Need) (home : Nat) (out : List Nat) : Bool :=
  decide (home < 160)
    && (!n.spread || home % 4 == 0)
    && (match n.index with | some i => home % 4 == i | none => true)
    && (n.cores home).all (s.coreTakes n home out)
    && decide (s.tilesUsed home out + n.tiles ≤ 16)
    && (n.tiles == 0 || !(s.core home).matFenced)
    && s.fused.contains (home / 4) == (n.fused || n.spread)

/-- Two spans share a byte. -/
def meets (a n b m : Nat) : Bool := decide (a < b + m) && decide (b < a + n)

/-- A window of `n` bytes at `a` stands free in the store space of the group's workgroup on its core, and leaves the
L1 share of R116. -/
def State.windowFree (s : State) (gid a n : Nat) : Bool :=
  let g := s.grp gid
  let w := s.wg g.wid
  a % 256 == 0 && decide (s.spBytes w ≤ a) && decide (a + n ≤ 2 ^ 22)
    && w.gids.all (fun h => h == gid || (s.grp h).core != g.core || !(meets a n (s.grp h).regbase (s.grp h).windowBytes))
    && decide (s.coreUsed g.core [] + n ≤ storeLimit + g.windowBytes)

/-- R117: where the window of a ROLE with allotment `v` stands: where it is if it fits there, else at a free range
that the device chooses; none when there is no room (DESIGN CHOICE, log 43). -/
def State.roleWindow (s : State) (gid v : Nat) : Option Nat :=
  let g := s.grp gid
  if s.windowFree gid g.regbase (v * 128) then some g.regbase
  else
    let pick := 256 * Config.choice 3 s.serial
    if s.windowFree gid pick (v * 128) then some pick
    else ((List.range 16384).map (fun k => 256 * k)).find? (fun a => s.windowFree gid a (v * 128))

end Sys2Proof.Machine
end

