-- ==== Sys2Proof/Machine/Objects.lean ====
section
/-! DEFINITION. Code objects in a context: pins, mappings, removal and revocation (05 R126, R127, R129; 13 R262, R263;
16 R288, R289). -/
namespace Sys2Proof.Machine

/-! ## Pins (R262) -/

/-- The context is halted, or one of its workgroups is suspended, pre-empted or saved. -/
def State.ctxPins (s : State) (cid : Nat) : Bool :=
  (s.ctx cid).halted || s.wgs.any (fun q => q.2.ctx == cid && q.2.state != .resident)

/-- A code object is pinned. -/
def State.pinned (s : State) (handle : Nat) : Bool :=
  match findK s.objects handle with
  | none => false
  | some o => s.regions.any (fun q => q.2.object == handle && !q.2.closed) || s.ctxPins o.ctx

/-! ## Mappings -/

/-- Drops a 4 KiB granule's bytes; it reads as memory that nothing has written. -/
def State.clearGranule (s : State) (loc : Nat) : State :=
  { s with mem := s.mem.filter (fun x => !(decide (loc ≤ x.1) && decide (x.1 < loc + 4096))),
           poison := s.poison.filter (fun x => !(decide (loc ≤ x) && decide (x < loc + 4096))) }

/-- The loader takes a zeroed 64 KiB frame from the top of HBM (DESIGN CHOICE, log 16). -/
def State.takeFrame (s : State) : Nat × State :=
  let pa := 2 ^ 39 - 65536 * (s.frames + 1)
  (pa, (List.range 16).foldl (fun s k =>
    match s.target (pa + 4096 * k) with
    | some (.mem loc) => s.clearGranule loc
    | _ => s) { s with frames := s.frames + 1 })

/-- Writes the leaf of a 64 KiB page, with the tables on the way to it (R126, R127). -/
def State.mapFrom (s : State) (va : Nat) (leaf : Word) : List Nat → Nat → State
  | [], _ => s
  | lev :: rest, table =>
    let sh := levelShift lev
    match s.target (table + 8 * ((va / 2 ^ sh.1) % 2 ^ sh.2)) with
    | some (.mem loc) =>
      if lev = 4 then s.putAt loc (bytesLE 8 leaf.toNat)
      else
        let e := wordN (natLE (s.bytesAt loc 8))
        if pteV e then s.mapFrom va leaf rest (pteAddr e)
        else
          let f := s.takeFrame
          (f.2.putAt loc (bytesLE 8 (f.1 + 1))).mapFrom va leaf rest f.1
    | _ => s

/-- A leaf with these permission bits (R127): [1] r, [2] w, [3] x. -/
def leafWord (pa perm : Nat) : Word := wordN (pa + perm + 4097)

def State.mapPage (s : State) (cid va pa perm : Nat) : State :=
  s.mapFrom va (leafWord pa perm) [1, 2, 3, 4] (s.ctx cid).root

/-- Changes the leaf that maps `va`, if one does. -/
def State.modLeaf (s : State) (cid va : Nat) (f : Word → Word) : State :=
  match s.walk cid va with
  | .ok e => s.putAt e.loc (bytesLE 8 (f e.pte).toNat)
  | .error _ => s

/-- The 64 KiB pages of a segment. -/
def Seg.pages (g : Seg) : List Nat := (List.range ((g.memsize + 65535) / 65536)).map (fun k => g.va + 65536 * k)

/-- Every page of an object's segments changes, and every core drops what it held of them. -/
def State.changePages (s : State) (cid : Nat) (segs : List Seg) (f : Word → Word) : State :=
  segs.foldl (fun s g =>
    let s := g.pages.foldl (fun s va => s.modLeaf cid va f) s
    let r := some (g.va, g.pages.length * 65536)
    (s.dropTlb cid r).dropCopies cid r) s

/-- The object is removed: its pages are unmapped and its handle names nothing (R263). -/
def State.removeObject (s : State) (handle : Nat) : State :=
  match findK s.objects handle with
  | none => s
  | some o => { s.changePages o.ctx o.segs (fun _ => 0) with objects := delK s.objects handle }

/-- The 64 KiB pages of memory behind an object's segments. -/
def State.objectPages (s : State) (o : CodeObj) : List Nat :=
  o.segs.flatMap (fun g => g.pages.filterMap (fun va => match s.walk o.ctx va with
    | .ok e => some (e.pa va / 65536)
    | .error _ => none))

/-- The object is revoked: its pages lose execute permission in every context that lists them, and it stays listed
(R263). -/
def State.revokeObject (s : State) (handle : Nat) : State :=
  match findK s.objects handle with
  | none => s
  | some o =>
    let pages := s.objectPages o
    let same := s.objects.filter (fun q => q.1 == handle || (s.objectPages q.2).any (fun p => pages.contains p))
    let s := same.foldl (fun s q => s.changePages q.2.ctx q.2.segs (fun e => e &&& ~~~(8#64))) s
    { s with objects := modK s.objects handle (fun o => { o with revoked := true, pages := pages }) }

/-- Revoked objects that nothing pins any more are removed (R263). -/
def State.reap (s : State) : State :=
  ((s.objects.filter (fun q => q.2.revoked)).map (fun q => q.1)).foldl (fun s h =>
    if s.pinned h then s else s.removeObject h) s

/-- The handle of the object that holds a kernel entry; 0 for none. -/
def State.objectAt (s : State) (cid va : Nat) : Nat :=
  (s.objects.findSome? (fun o =>
    if o.2.ctx = cid ∧ (o.2.segs.any (fun g => g.covers va)) = true then some o.1 else none)).getD 0

end Sys2Proof.Machine
end

