-- ==== Sys2Proof/Machine/Events.lean ====
section
/-! DEFINITION. Events of groups: completion, hold expiry, the taking effect of ROLE, retirement, the starvation
rule (01 R15, R21, R43, R45; 02 R51, R68; 13 R242; 19 R334, R335; 21 R386). -/
namespace Sys2Proof.Machine

/-- INSTRUCTION_COMPLETE: an issued instruction that waits only for its latency completes (R51, R52). -/
def execInstructionComplete (gid pend : Nat) (s : State) : Host.Outcome State Fault Refusal :=
  .next (match (s.grp gid).pend? pend with
    | some p => if p.kind = .result then (s.completePend gid pend).prune gid else s
    | none => s)

/-- RESERVED_OPCODE: a word that decodes to nothing faults ILLEGAL_OPCODE when it is issued (R68, R70). -/
def execReservedOpcode (w : Word) (s : State) : Host.Outcome State Fault Refusal :=
  issueWord (.reservedOpcode w) (fun s => s) s

/-! ## Hold expiry (R21) -/

/-- The count of the hold at `j` is spent: 256 issue opportunities have passed. -/
def State.holdSpent (s : State) (gid : Nat) (j : Word) : Bool :=
  (s.wgOf gid).issues
    && laneList.any (fun l => match ((s.grp gid).th l).held with
      | .rc c => ((s.grp gid).th l).rc == some j && decide (c + 255 ≤ s.cycle)
      | _ => false)

/-- HOLD_EXPIRY: every thread held at `j` goes on with rc cleared (DESIGN CHOICE, log 50). -/
def execHoldExpiry (gid : Nat) (j : Word) (s : State) : Host.Outcome State Fault Refusal :=
  .next (if s.holdSpent gid j then s.modGrp gid (fun g => g.releaseAt j) else s)

/-! ## ROLE_TAKES_EFFECT (R42 to R44, R386) -/

/-- Role `n` of a region (R42). -/
def Rcb.role (r : Rcb) (n : Nat) : Role :=
  if n = 0 then { valloc := r.valloc, prio := r.prio, entry := r.entry }
  else nth r.roles { valloc := r.valloc, prio := r.prio, entry := r.entry } (n - 1)

/-- The role that every live thread of the group waits for. -/
def Group.roleAwaited (g : Group) : Option Nat :=
  if g.live == 0 then none
  else
    match (g.th (lowLane g.live)).held.roleOf with
    | none => none
    | some n => if (lanesOf g.live).all (fun l => (g.th l).held.roleOf == some n) then some n else none

/-- The flags read zero but for what the waiting ROLE issues hold on theirs, and no command is outstanding (R43,
R205). -/
def Group.roleDrained (g : Group) : Bool :=
  (List.range 12).all (fun f => g.flagOf f == (g.rolePends.filter (fun p => p.flag == some f)).length)
    && g.mat.isNone && g.pal.isNone
    && g.pending.all (fun p => p.kind == .role)

/-- The role that takes effect now and where its window goes. -/
def State.roleReady (s : State) (gid : Nat) : Option (Role × Nat × Nat) :=
  let g := s.grp gid
  match g.roleAwaited with
  | none => none
  | some n =>
    if g.roleDrained && s.waitsHere gid then
      let r := (s.regOf gid).rcb.role n
      (s.roleWindow gid r.valloc).map (fun a => (r, n, a))
    else none

/-- The group in its new role: registers below both allotments are kept, gained ones read zero, every thread stands
before the entry header. -/
def Group.takeRole (g : Group) (r : Role) (n base : Nat) : Group :=
  let keep := min g.valloc r.valloc
  let g := g.rolePends.foldl (fun g p => (g.dropPend p.id).dischargeFlag p.flag) g
  { g with
    vregs := g.vregs.filter (fun x => decide (x.1 < 32 * keep))
    landing := g.landing.filter (fun x => match x.key with | .v k => decide (k < keep) | _ => true)
    valloc := r.valloc
    prio := r.prio
    role := n
    regbase := base
    threads := g.threads.map (fun t =>
      if t.exited then t else { t with rc := none, held := .no, pc := r.entry, hdr := 0, len := 0, entering := some 2 }) }

/-- ROLE_TAKES_EFFECT. -/
def execRoleTakesEffect (gid : Nat) (s : State) : Host.Outcome State Fault Refusal :=
  .next (match s.roleReady gid with
    | some (r, n, a) => s.modGrp gid (fun g => g.takeRole r n a)
    | none => s)

/-! ## Retirement (R15, R334, R335) -/

/-- Every thread has exited, every flag reads zero and every command has completed. -/
def Group.spent (g : Group) : Bool :=
  g.live == 0 && g.pending.isEmpty && g.mat.isNone && g.pal.isNone && (List.range 12).all (fun f => g.flagOf f == 0)

/-- A group of the workgroup that has not retired and can. -/
def State.retireReady (s : State) (gid : Nat) : Bool :=
  (findK s.groups gid).isSome && (s.grp gid).spent && (s.wgOf gid).onCore
    && !((s.wgOf gid).retiredGroups.contains (s.grp gid).grpid)

/-- Bytes of a context's save pool given back (R246). -/
def State.freeArea (s : State) (cid : Nat) (area : Option Nat) : State :=
  match area with
  | none => s
  | some a => s.modCtx cid (fun c => { c with poolUsed := c.poolUsed.filter (fun x => !(x.1 == a)) })

/-- Cycles of residence not yet debited. -/
def State.undebited (s : State) (wid : Nat) : Nat :=
  let w := s.wg wid
  w.carry + (if w.onCore then s.cycle - w.since else 0)

/-- Core-time that is due in whole units is debited, one unit for each core that the workgroup occupies (R35). -/
def State.debitDue (s : State) (wid : Nat) : State :=
  let w := s.wg wid
  let n := s.undebited wid
  (s.modWg wid (fun w => { w with carry := n % 4096, since := s.cycle })).modRegion w.rid (fun r =>
    { r with tbal := r.tbal - (n / 4096 * (if w.spread then 4 else 1) : Nat) })

/-- What is due of a region's workgroups is debited. -/
def State.debitRegion (s : State) (rid : Nat) : State :=
  ((s.wgs.filter (fun q => q.2.rid == rid)).map (fun q => q.1)).foldl (fun s wid => s.debitDue wid) s

/-- Every group has retired, and what they had the copy engine do is done (R15, R334; DEDUCED, log 37). -/
def Wg.finished (w : Wg) : Bool :=
  decide (w.retiredGroups.length = w.ngroups) && w.copies.isEmpty && w.seals.isEmpty && w.batches.isEmpty

/-- A workgroup retires: its groups, its store and its programs are released and its region counts it (R15, R191). -/
def State.retireWg (s : State) (wid : Nat) : State :=
  match findK s.wgs wid with
  | none => s
  | some w =>
    let s := (s.debitDue wid).ownerGone wid
    let s := s.freeArea w.ctx w.saved
    let s := w.gids.foldl (fun s gid => { s with groups := delK s.groups gid }) s
    let s := { s with wgs := delK s.wgs wid, progs := s.progs.filter (fun q => !(q.2.wid == wid)) }
    s.modRegion w.rid (fun r => { r with
      retired := r.retired + 1,
      state := (if r.retired + 1 = r.rcb.wgcount then RegionState.awaiting else r.state) })

/-- A finished workgroup retires. -/
def State.retireFinished (s : State) (wid : Nat) : State :=
  if (s.wg wid).finished then (s.retireWg wid).reap else s

/-- GROUP_RETIRE: the group counts as having supplied empty slices and every later seal; the workgroup retires with the last
one, once its copies are done. -/
def execGroupRetire (gid : Nat) (s : State) : Host.Outcome State Fault Refusal :=
  .next (
    if s.retireReady gid then
      let g := s.grp gid
      let s := s.modWg g.wid (fun w => { w with retiredGroups := w.retiredGroups ++ [g.grpid] })
      ((s.closeAll g.wid).copyReady g.wid).retireFinished g.wid
    else s)

/-! ## STARVATION_FIRST (R242) -/

def Group.eligible (g : Group) (slotB : Bool) : Option Nat := if slotB then g.eligB else g.eligA

/-- The group has been eligible in the slot for 4,096 consecutive cycles without issuing there. -/
def State.starves (s : State) (gid : Nat) (slotB : Bool) : Bool :=
  match (s.grp gid).eligible slotB with
  | some c => decide (c + 4096 ≤ s.cycle)
  | none => false

/-- STARVATION_FIRST: the group is chosen first in the slot's next cycle. -/
def execStarvationFirst (gid : Nat) (slotB : Bool) (s : State) : Host.Outcome State Fault Refusal :=
  .next (if s.starves gid slotB && !(s.first.contains (gid, slotB)) then { s with first := s.first ++ [(gid, slotB)] }
    else s)

end Sys2Proof.Machine
end

