-- ==== Sys2Proof/Machine/Regions.lean ====
section
/-! DEFINITION. Regions: the RCB, acceptance, SPAWN and the root launch, starts-after, completion, budgets (01 R28 to
R44; 05 R131; 13 R235, R236; 18 R303; 22 R395, R396). -/
namespace Sys2Proof.Machine

/-! ## The RCB (R33, R235) -/

def zeros (bs : List Byte) (off n : Nat) : Bool := ((bs.drop off).take n).all (fun b => b == 0)

/-- A kind-11 header stands at `va` on an executable page outside every trial segment (R33, R265). -/
def State.entryOk (s : State) (cid : Nat) (va : Word) : Bool :=
  inSpace va.toNat && va.toNat % 8 == 0 && !s.revokedAt cid va.toNat && (s.trialSeg cid va.toNat).isNone
    && (match s.walk cid va.toNat with
      | .error _ => false
      | .ok e =>
        (permit .fetch e.pte).isNone
          && (match s.target (e.pa va.toNat) with
            | some (.mem loc) =>
              (match s.loadT (.mem loc) 8 with
                | .ok x => headerOk (wordN x) && hdrKind (wordN x) == 3
                | .error _ => false)
            | _ => false))

def vallocOk (a : Nat) : Bool := decide (8 ≤ a) && decide (a ≤ 160) && a % 8 == 0

/-- A parent's field, or the root value (R33). -/
def inherit (par : Option Region) (f : Rcb → Nat) (root : Nat) : Nat :=
  match par with
  | some r => f r.rcb
  | none => root

/-- A budget: stated, half of the parent's balance, or the root value (R33, R35). -/
def budgetOf (own : Bool) (x : Nat) (bal : Option Int) : Nat :=
  if own then x
  else
    match bal with
    | some b => (b / 2).toNat
    | none => 2 ^ 62 - 1

/-- Roles 1 to 3 as the block states them. -/
def rolesOf (bs : List Byte) : List Role :=
  (List.range (fieldLE bs 0x32 1 - 1)).map (fun k =>
    { valloc := fieldLE bs (0x40 + 16 * k) 1, prio := fieldLE bs (0x41 + 16 * k) 1,
      entry := wordN (fieldLE bs (0x48 + 16 * k) 8) })

/-- The block with inherited fields filled in, unchecked. -/
def fillRcb (bs : List Byte) (par : Option Region) : Rcb :=
  let f := fieldLE bs
  let o (k : Nat) : Bool := (f 6 2).testBit k
  let g (k own : Nat) (p : Rcb → Nat) (root : Nat) : Nat := if o k then own else inherit par p root
  let sp := g 5 (f 0x2C 4) (fun r => r.spbytes) 4096
  let va := g 4 (f 0x2A 1) (fun r => r.valloc) 32
  let wgsize := f 0x14 4
  { entry := wordN (f 8 8), wgcount := f 0x10 4, wgsize := wgsize,
    ebudget := budgetOf (o 0) (f 0x18 8) (par.map (fun r => r.ebal)),
    tbudget := budgetOf (o 1) (f 0x20 8) (par.map (fun r => r.tbal)),
    prio := min (g 2 (f 0x28 1) (fun r => r.prio) 3) (inherit par (fun r => r.prio) 255),
    domain := g 3 (f 0x29 1) (fun r => r.domain) 0, valloc := va, tiles := g 6 (f 0x2B 1) (fun r => r.tiles) 0,
    spbytes := sp,
    fuse := if spreads ((wgsize + 31) / 32) va sp then 1 else g 7 (f 0x30 1) (fun r => r.fuse) 0,
    nbv := g 9 (f 0x31 1) (fun r => r.nbv) 2,
    roles := if o 8 then rolesOf bs else (match par with | some r => r.rcb.roles | none => []),
    handler := wordN (f 0x38 8), afterA := wordN (f 0x70 8), afterV := wordN (f 0x78 8), doneA := wordN (f 0x80 8),
    doneV := wordN (f 0x88 8), dirtylog := if par.isNone then wordN (f 0x90 8) else 0, args := wordN (f 0x98 8) }

/-- The bytes obey R235 and the stated fields the ranges of R33; nroles belongs to the layout and is checked whether or
not the role table is stated (DESIGN CHOICE, log 62). -/
def rcbBytesOk (bs : List Byte) : Bool :=
  let f := fieldLE bs
  let o (k : Nat) : Bool := (f 6 2).testBit k
  f 0 4 == 0x4B524342 && f 4 2 == 1 && decide (f 6 2 < 1024) && zeros bs 0x33 5 && zeros bs 0xA0 80 && f 0xF0 1 == 0
    && zeros bs 0xF2 2 && zeros bs 0xF8 8
    && decide (1 ≤ f 0x32 1) && decide (f 0x32 1 ≤ 4)
    && (List.range 3).all (fun k => zeros bs (0x42 + 16 * k) 6 && (decide (k + 1 < f 0x32 1) || zeros bs (0x40 + 16 * k) 16))
    && (!o 0 || decide (f 0x18 8 < 2 ^ 63)) && (!o 1 || decide (f 0x20 8 < 2 ^ 63)) && (!o 2 || decide (f 0x28 1 ≤ 7))
    && (!o 7 || decide (f 0x30 1 ≤ 1))

/-- The descriptor of a dirty log (R131): base, pages and bitmap. -/
def dlogOf (bs : List Byte) : Option (Nat × Nat × Nat) :=
  let base := fieldLE bs 8 8
  let pages := fieldLE bs 16 8
  let bm := fieldLE bs 24 8
  if fieldLE bs 0 4 == 0x4B444C31 && fieldLE bs 4 4 == 1 && base % 65536 == 0 && decide (1 ≤ pages)
    && decide (pages ≤ 2 ^ 38) && bm % 8 == 0
  then some (base, pages, bm) else none

/-- The dirty log of a root: none when it names none; an error when its descriptor is malformed, or cannot be read, which
counts as malformed (DESIGN CHOICE, log 56). -/
def State.readDlog (s : State) (cid : Nat) (va : Word) : Except Unit (Option (Nat × Nat × Nat)) :=
  if va = 0 then .ok none
  else if va.toNat % 8 ≠ 0 then .error ()
  else
    match (s.loadBytes none cid va.toNat 32).2 with
    | .error _ => .error ()
    | .ok bs => match dlogOf bs with
      | some d => .ok (some d)
      | none => .error ()

/-- The filled-in block is acceptable (R29, R30, R33, R42). A handler address need not be aligned; an address of a stamp or
of the arguments beyond the space is refused here (R34; DESIGN CHOICE, log 62). -/
def State.rcbOk (s : State) (cid : Nat) (r : Rcb) : Bool :=
  decide (1 ≤ r.wgcount) && decide (1 ≤ r.wgsize) && decide (r.wgsize ≤ 16384) && s.entryOk cid r.entry
    && (findK (s.ctx cid).domains r.domain).isSome && vallocOk r.valloc && r.spbytes % 256 == 0
    && decide (256 ≤ r.spbytes) && decide (r.spbytes ≤ storeLimit) && decide (r.tiles ≤ 16)
    && decide (1 ≤ r.nbv) && decide (r.nbv ≤ 2)
    && r.roles.all (fun x => vallocOk x.valloc && decide (x.prio ≤ r.prio) && s.entryOk cid x.entry)
    && r.afterA.toNat % 8 == 0 && r.doneA.toNat % 8 == 0 && r.args.toNat % 8 == 0
    && inSpace r.afterA.toNat && inSpace r.doneA.toNat && inSpace r.args.toNat
    && footprintOk ((r.wgsize + 31) / 32) r.valloc r.spbytes

/-! ## Device writes into the context (R236) -/

/-- A record of kind 3 (R245). -/
def State.regionRecord (s : State) (rid code va : Nat) (sub : Subject) : State :=
  let r := s.region rid
  s.raiseRecord r.ctx
    { domain := r.rcb.domain, code := code, kind := 3, rid := rid, regno := r.regno, wid := 0, wgid := 0xFFFFFFFF,
      grpid := 0xFFFF, unit := 0, pc := 0, addr := wordN va, lanes := 0, detail := 0, word := 0, subject := sub,
      seq := 0, va := 0, host := false }

/-- A write of the device for a region: performed, or held with a record. True when performed. -/
def State.deviceStore (s : State) (rid va : Nat) (bs : List Byte) (done : Bool) : State × Bool :=
  match s.storeG none (s.region rid).ctx va bs with
  | (s, .ok _) => (s, true)
  | (s, .error c) =>
    let key := s.nextKey (s.region rid).ctx
    ((s.regionRecord rid c va (.rcbWrite rid)).modRegion rid (fun r =>
      { r with held := r.held ++ [{ va := va, bytes := bs, recKey := key, done := done }] }), false)

/-! ## Acceptance (R33 to R35, R39, R396) -/

/-- A region at zero or below in a balance (R36). -/
def Region.dry (r : Region) : Bool := decide (r.ebal ≤ 0) || decide (r.tbal ≤ 0)

/-- Open regions of a context. -/
def State.openOf (s : State) (cid : Nat) : List (Nat × Region) :=
  s.regions.filter (fun q => q.2.ctx == cid && !q.2.closed)

/-- A region number that no open region of the context has: the device's choice where it is free (DESIGN CHOICE, log 13). -/
def State.freeRegno (s : State) (cid : Nat) : Nat :=
  let free (n : Nat) : Bool := (s.openOf cid).all (fun q => q.2.regno != n)
  let pick := Config.choice 0 s.serial % 65536
  if free pick then pick else ((List.range 65536).find? free).getD 0

/-- Why a block is refused; 0 when it is not. -/
def State.refusal (s : State) (cid : Nat) (bs : List Byte) (par : Option Region) : Nat :=
  let r := fillRcb bs par
  let badLog : Bool := match par, s.readDlog cid r.dirtylog with
    | none, .error _ => true
    | _, _ => false
  if !rcbBytesOk bs || !s.rcbOk cid r || badLog then 2
  else
    match par with
    | some p =>
      if 16 ≤ p.level then 3
      else if p.ebal < r.ebudget ∨ p.tbal < r.tbudget then 1
      else if 65536 ≤ (s.regions.filter (fun q => !q.2.closed)).length then 4
      else 0
    | none => if 65536 ≤ (s.regions.filter (fun q => !q.2.closed)).length then 4 else 0

/-- The region record of an accepted block. -/
def State.newRegion (s : State) (cid : Nat) (va : Word) (bs : List Byte) (par : Option (Nat × Region)) : Region :=
  let r := fillRcb bs (par.map (fun p => p.2))
  { Region.absent with
    ctx := cid, regno := s.freeRegno cid, parent := par.map (fun p => p.1),
    level := (match par with | some p => p.2.level + 1 | none => 1), rcb := r,
    dlog := (match s.readDlog cid r.dirtylog with | .ok d => d | .error _ => none), rcbaddr := va,
    ebal := r.ebudget, tbal := r.tbudget,
    state := (if r.afterA = 0 then RegionState.eligible else RegionState.afterWait), order := s.nextId,
    object := s.objectAt cid r.entry.toNat, waitSince := s.cycle }

/-- Accepts the block at `va` as region `s.nextId`: the parent's balances are carved and the block is written. -/
def State.addRegion (s : State) (cid : Nat) (va : Word) (bs : List Byte) (par : Option (Nat × Region)) : State :=
  let rid := s.nextId
  let r := s.newRegion cid va bs par
  let s := { s with regions := insK s.regions rid r, nextId := s.nextId + 1 }
  let s := match par with
    | some p => s.modRegion p.1 (fun q =>
        { q with ebal := q.ebal - r.rcb.ebudget, tbal := q.tbal - r.rcb.tbudget, openKids := q.openKids + 1 })
    | none => s
  (s.deviceStore rid (va.toNat + 0xF0) ([1, 0, 0, 0] ++ bytesLE 4 r.regno) false).1

/-- A block of 256 bytes at `va` is accepted or refused: the status of R39. -/
def State.offerRegion (s : State) (cid : Nat) (va : Word) (bs : List Byte) (par : Option (Nat × Region)) :
    State × Nat :=
  match s.refusal cid bs (par.map (fun p => p.2)) with
  | 0 => (s.addRegion cid va bs par, 0)
  | n =>
    match par with
    | some p => ((s.deviceStore p.1 (va.toNat + 0xF0) [4, BitVec.ofNat 8 n] false).1, n)
    | none => ((s.storeG none cid (va.toNat + 0xF0) [4, BitVec.ofNat 8 n]).1, n)

/-! ## SPAWN -/

/-- SPAWN for its record; a debit that is due comes before it (R396, R418). -/
def State.spawnAct (s : State) (gid id : Nat) (i : Instr) (ops : Ops) (m : LaneMask) : State :=
  match i with
  | .spawn _ d _ =>
    let a := (ops.la 0).toNat
    let cid := s.cidOf gid
    let rid := (s.wgOf gid).rid
    let answer (r : State × Nat) : State :=
      (r.1.putReg gid (.s d) true m 0 (fun _ => wordN r.2) (.on id)).finishOnce gid id i m none
    let s := s.debitRegion rid
    if !inSpace a then s.finishOnce gid id i m (some (Code.addrRange, ops.la 0))
    else if (s.region rid).dry then answer (s, 1)
    else if a % 256 ≠ 0 then answer (s, 2)
    else
      match s.accessG (some (s.grp gid).core) cid a 256 .rmw with
      | (s, .error c) => s.finishOnce gid id i m (some (c, ops.la 0))
      | (s, .ok t) =>
        match s.loadT t 256 with
        | .error c => s.finishOnce gid id i m (some (c, ops.la 0))
        | .ok x => answer (s.offerRegion cid (ops.la 0) (bytesLE 256 x) (some (rid, s.region rid)))
  | _ => s

/-- R395, R396. -/
def execSpawn (c : Ctl) (d a : SR) (s : State) : Host.Outcome State Fault Refusal :=
  issueWord (.spawn c d a) (fun s =>
    let ops : Ops := { a := [s.readS a.val], b := [], c := [] }
    s.onceForm (.spawn c d a) c ops (fun id m t => t.spawnAct s.cur id (.spawn c d a) ops m)
      (!inSpace (s.readS a.val).toNat)) s

/-! ## ROOT_LAUNCH (R38, R303, R311, R312) -/

/-- The cstat bits of a write that is dropped: busy and overrun. -/
def Mgmt.drop (m : Mgmt) : Mgmt := { m with cstat := m.cstat ||| 0x300 }

/-- The context that the ctx register names, unless it is halted. -/
def State.namedCtx (s : State) : Option Nat :=
  let cid := s.mgmt.ctx.toNat
  match findK s.ctxs cid with
  | some c => if c.halted then none else some cid
  | none => none

/-- The status of a launch: 5 without a context, BAD_RCB for a block that cannot be read. -/
def State.launchRoot (s : State) (va : Word) : State × Nat :=
  match s.namedCtx with
  | none => (s, 5)
  | some cid =>
    if !inSpace va.toNat || va.toNat % 256 != 0 then (s, 2)
    else
      match s.accessG none cid va.toNat 256 .read with
      | (s, .error _) => (s, 2)
      | (s, .ok t) =>
        match s.loadT t 256 with
        | .error _ => (s, 2)
        | .ok x => s.offerRegion cid va (bytesLE 256 x) none

/-- ROOT_LAUNCH: lstat reports the status. -/
def execRootLaunch (va : Word) (s : State) : Host.Outcome State Fault Refusal :=
  .next (
    if !s.mgmt.ready then { s with mgmt := s.mgmt.drop }
    else
      let r := s.launchRoot va
      { r.1 with mgmt := { r.1.mgmt with launch := va, lstat := wordN r.2 } })

/-! ## STARTS_AFTER_CHECK (R40) -/

/-- The region's location is read: it becomes eligible when the value suffices; one that cannot be read posts a
record. -/
def State.checkAfter (s : State) (rid : Nat) : State :=
  let r := s.region rid
  match s.loadG none r.ctx r.rcb.afterA.toNat 8 with
  | (s, .ok x) =>
    if r.rcb.afterV.toNat ≤ x then
      s.modRegion rid (fun r => { r with state := .eligible, waitSince := s.cycle })
    else s
  | (s, .error _) =>
    let key := s.nextKey r.ctx
    (s.regionRecord rid Code.afterUnreadable r.rcb.afterA.toNat (.after rid)).modRegion rid (fun r =>
      { r with recKey := key })

/-- A region waits on its location and has no record of it. -/
def Region.watching (r : Region) : Bool := r.state == .afterWait && r.recKey == 0 && !r.abandoned && !r.closed

/-- STARTS_AFTER_CHECK. -/
def execStartsAfterCheck (rid : Nat) (s : State) : Host.Outcome State Fault Refusal :=
  .next (if (s.region rid).watching then s.checkAfter rid else s)

/-! ## Completion (R35, R41, R236) -/

/-- Every workgroup has retired, or none will be placed, and every child has completed. -/
def State.completable (s : State) (rid : Nat) : Bool :=
  let r := s.region rid
  (findK s.regions rid).isSome && !r.closed && !r.finished && r.openKids == 0
    && (r.abandoned || (r.nextwg == r.rcb.wgcount && r.state != .afterWait))
    && s.wgs.all (fun q => q.2.rid != rid)

/-- The region is complete: its balances go to its parent, which has one child less (R35). -/
def State.closeRegion (s : State) (rid : Nat) : State :=
  let r := s.region rid
  let s := match r.parent with
    | some p => s.modRegion p (fun q =>
        { q with ebal := q.ebal + r.ebal, tbal := q.tbal + r.tbal, openKids := q.openKids - 1 })
    | none => s
  let s := if r.held.isEmpty then { s with regions := delK s.regions rid }
    else s.modRegion rid (fun r => { r with closed := true, finished := true, ebal := 0, tbal := 0 })
  s.reap

/-- COMPLETION_STORE, then the region closes, unless the store is held. -/
def State.completeRegion (s : State) (rid : Nat) : State :=
  let r := s.region rid
  let s := (s.deviceStore rid (r.rcbaddr.toNat + 0xF0) [if r.abandoned then 3 else 2] false).1
  let s := s.modRegion rid (fun r => { r with finished := true })
  if r.rcb.doneA = 0 then s.closeRegion rid
  else
    match s.deviceStore rid r.rcb.doneA.toNat (bytesLE 8 r.rcb.doneV.toNat) true with
    | (s, true) => s.closeRegion rid
    | (s, false) => s

/-- REGION_COMPLETE. -/
def execRegionComplete (rid : Nat) (s : State) : Host.Outcome State Fault Refusal :=
  .next (if s.completable rid then s.completeRegion rid else s)

/-! ## CORE_TIME_DEBIT (R35) -/

/-- CORE_TIME_DEBIT: one unit for each core that the workgroup occupies. -/
def execCoreTimeDebit (wid : Nat) (s : State) : Host.Outcome State Fault Refusal :=
  .next (
    let n := s.undebited wid
    if n < 4096 then s
    else
      let w := s.wg wid
      (s.modWg wid (fun w => { w with carry := n - 4096, since := s.cycle })).modRegion w.rid (fun r =>
        { r with tbal := r.tbal - (if w.spread then 4 else 1) }))

end Sys2Proof.Machine
end

