-- ==== Sys2Proof/Machine/Again.lean ====
section
/-! DEFINITION. An issued instruction performed after its issue: again for the lanes not done (02 R54; 05 R130; 13 R247), or
for the first time once what stood before it is complete (06 R138, R154). -/
namespace Sys2Proof.Machine

/-- The destination of a floating-point form that is checked by a shadow (R230). -/
def floatDst : Instr → Option Reg
  | .fmin _ d _ _ | .fmax _ d _ _ | .frnd _ _ d _ => some d
  | .fadd _ _ d _ _ | .fsub _ _ d _ _ | .fmul _ _ d _ _ | .ffma _ _ d _ _ | .fdiv _ _ d _ _ | .fdot4 _ _ _ d _ _ => some d
  | .fsqrt _ _ d _ | .frcp _ _ d _ | .frsq _ _ d _ | .fexp2 _ _ d _ | .flog2 _ _ d _ | .fsin _ _ d _
  | .fcos _ _ d _ => some d
  | _ => none

/-- An issued instruction is performed again for the lanes of its record that are not done, with the operands it read at
issue (R130, R247) (DEDUCED, log 46). -/
def State.redo (s : State) (gid : Nat) (p : Pend) : State :=
  let todo := p.lanes &&& ~~~p.done
  match p.instr with
  | .idiv c w uns d _ _ => s.redoLanes gid p (divLane c w d gid p.ops (opDiv uns) p.id)
  | .irem c w uns d _ _ => s.redoLanes gid p (divLane c w d gid p.ops (opRem uns) p.id)
  | .fcmp c cond pd _ _ => s.redoLanes gid p (fcmpAct c cond pd todo gid p.ops p.id)
  | .vmxp _ d _ _ _ => s.redoLanes gid p (vmxpAct d gid p.ops p.id)
  | .movri _ d _ => s.redoLanes gid p (movriLane d gid p.ops p.id)
  | .movwi _ _ _ => s.redoLanes gid p (movwiLane gid p.ops p.id)
  | .ld _ sp z _ _ d _ off => s.redoLanes gid p (ldLane sp z d off gid p.ops p.id)
  | .st _ sp z _ _ _ _ off => s.redoLanes gid p (stLane sp z off gid p.ops p.id)
  | .atom _ sp z op _ _ d _ _ => s.redoLanes gid p (atomLane sp z op (some d) gid p.ops p.id)
  | .red _ sp z op _ _ _ _ => s.redoLanes gid p (atomLane sp z op none gid p.ops p.id)
  | .sprobe _ d f _ _ => s.redoLanes gid p (sprobeLane d f gid p.ops p.id)
  | .swc _ d _ _ => s.redoLanes gid p (swcLane d gid p.ops p.id)
  | .tret _ _ => s.redoLanes gid p (fun _ t => (t, some (Code.trialIllegal, 0)))
  | .tryT _ _ _ _ => s.tryAgain gid p
  | .winit _ _ _ _ | .warrive _ _ _ _ | .wsync _ _ _ _ _ _ | .wwait _ _ _ _ _ _ | .wwaitseq _ _ _ _ _ _
  | .wtest _ _ _ _ _ _ => s.weirAct gid p.id p.instr p.ops todo
  | .waitstamp _ _ _ _ _ _ => s.stampAgain gid p
  | .bcopy _ _ _ _ _ _ => s.bcopyAct gid p.id p.instr p.ops todo
  | .bseal _ _ _ => s.bsealAct gid p.id p.instr p.ops todo
  | .mma _ _ _ _ _ _ _ _ => s.mmaAct gid p.id p.instr p.ops todo
  | .mlda _ _ _ | .msta _ _ _ | .mzero _ _ => s.tileAct gid p.id p.instr p.ops todo
  | .pmv _ _ _ _ _ => s.pmvAct gid p.id p.instr p.ops todo
  | .icinv _ _ | .tlbinv _ _ => s.invAct gid p.id p.instr p.ops todo
  | .fence _ _ _ => s.finishRun gid p.id p.instr todo []
  | .rlaunch _ _ _ => s.rlaunchAct gid p.id p.instr p.ops todo
  | .rstopResume _ _ _ => s.rresumeAct gid p.id p.instr p.ops todo
  | .spawn _ _ _ => s.spawnAct gid p.id p.instr p.ops todo
  | i =>
    match floatDst i with
    | some d => s.redoLanes gid p (checkedAct i d gid p.ops p.id)
    | none => s

/-! ## Instructions that stand behind older ones -/

/-- A recorded instruction that has not been performed may be performed now; a BCOPY also needs room for its slice (R321). -/
def State.performReady (s : State) (gid : Nat) (p : Pend) : Bool :=
  s.behindReady gid p && !((match p.instr with | .bcopy .. => true | _ => false) && s.copyStalls gid 0)

/-- It is performed, with the operands that it read at issue. -/
def State.perform (s : State) (gid id : Nat) : State :=
  match (s.grp gid).pend? id with
  | some p => if s.performReady gid p then s.redo gid p else s
  | none => s

/-- What waits only for its latency completes; then everything that has become ready is performed. -/
def State.settleOnce (s : State) (gid : Nat) : State :=
  let s := s.completeAll gid
  ((s.grp gid).pending.map (fun p => p.id)).foldl (fun s id => s.perform gid id) s

/-- `n` rounds of it. -/
def State.settleRounds (s : State) (gid : Nat) : Nat → State
  | 0 => s
  | n + 1 => (s.settleOnce gid).settleRounds gid n

/-- Everything that the group has issued and that can complete completes, and its results have landed (R54). -/
def State.settle (s : State) (gid : Nat) : State :=
  ((s.settleRounds gid ((s.grp gid).pending.length + 1)).completeAll gid).landAll gid

end Sys2Proof.Machine
end

