-- ==== Sys2Proof/Machine/Image.lean ====
section
/-! DEFINITION. The layout of a context image and of a save area, and the image of a context (13 R251, R254 to R259; 14
R278). -/
namespace Sys2Proof.Machine

def zeroBytes (n : Nat) : List Byte := List.replicate n 0

/-- A list of bytes cut or filled with zeros to a length. -/
def padTo (n : Nat) (bs : List Byte) : List Byte := bs.take n ++ zeroBytes (n - bs.length)

/-! ## Fault records (R245) -/

/-- The 64 bytes of a record. -/
def FaultRec.bytes (r : FaultRec) : List Byte :=
  bytesLE 2 r.code ++ bytesLE 1 r.kind ++ bytesLE 1 0 ++ bytesLE 4 r.regno ++ bytesLE 8 r.seq ++ bytesLE 4 r.wgid
    ++ bytesLE 2 r.grpid ++ bytesLE 2 r.unit ++ bytesLE 8 r.pc.toNat ++ bytesLE 8 r.addr.toNat
    ++ bytesLE 4 r.lanes.toNat ++ bytesLE 4 r.detail ++ bytesLE 8 r.word.toNat ++ bytesLE 4 0 ++ bytesLE 4 0

/-- Code and address of an unresolved record, as a saved record names it: ten bytes apart by six zeros. -/
def State.recName (s : State) (cid key : Nat) : Nat × Nat :=
  match findK (s.ctx cid).recs key with
  | some r => (r.code, r.va)
  | none => (0, 0)

/-! ## Threads, pending records, groups (R256, R257, R278) -/

def laneBits (bs : List Bool) : Nat := (bs.foldr (fun b n => 2 * n + (if b then 1 else 0)) 0)

/-- The 48 bytes of a thread. A thread before a header to which it has transferred has left its block: its len is 0
(DESIGN CHOICE, log 17). -/
def Thread.image (t : Thread) : List Byte :=
  let off : Bool := match t.entering with | some n => n != 0 | none => false
  let rc := match t.held with | .rc _ => true | _ => false
  let sg := match t.held with | .sign _ _ => true | _ => false
  let ro := match t.held with | .role _ _ => true | _ => false
  let hold : Nat := match t.held with | .rc c => (1 - c).toNat | _ => 0
  bytesLE 8 t.pc.toNat ++ bytesLE 8 (if off then 0 else t.hdr.toNat)
    ++ bytesLE 8 (match t.rc with | some a => a.toNat | none => 0)
    ++ bytesLE 2 (if off then 0 else t.len)
    ++ bytesLE 1 (if off then (if t.entering = some 2 then 3 else 0) else t.kind)
    ++ bytesLE 1 (laneBits [t.exited, rc, sg, ro]) ++ bytesLE 2 hold ++ bytesLE 2 0 ++ bytesLE 4 t.allow ++ bytesLE 4 0
    ++ bytesLE 8 t.trialwin.toNat

def laneWords (ws : List Word) : List Byte := laneList.flatMap (fun l => bytesLE 8 (nth ws 0 l).toNat)

/-- The operands that a record carries; the parity and the weir of a wait stand in lanes 0 and 1 of c, the number of a
batch wait in lane 0 of a (DESIGN CHOICE, log 17). -/
def Pend.savedOps (p : Pend) : Ops :=
  match p.kind with
  | .weir w par _ _ => { p.ops with c := [if par then 1 else 0, wordN w] }
  | .bwait n => { p.ops with a := [wordN n] }
  | _ => p.ops

def Pend.waits (p : Pend) : Bool :=
  match p.kind with
  | .weir _ _ _ _ | .stampWait _ _ | .bwait _ | .inTrial | .role | .sign => true
  | _ => false

def isPmv : Instr → Bool
  | .pmv .. => true
  | _ => false

/-- The trial state after a TRY's record (R278). -/
def Group.trialImage (g : Group) (p : Pend) : List Byte :=
  let inIt := filterLanes (BitVec.allOnes 32) (fun l => match (g.th l).trial with
    | some t => t.pend == p.id
    | none => false)
  bytesLE 4 (inIt ||| p.entered).toNat ++ bytesLE 4 (p.entered &&& p.done &&& ~~~inIt).toNat ++ bytesLE 8 0
    ++ laneList.flatMap (fun l => match (g.th l).trial with
      | some t =>
        if t.pend = p.id then
          bytesLE 8 t.ret.toNat ++ bytesLE 8 t.segBase.toNat ++ bytesLE 8 t.segLen.toNat
            ++ (List.range 256).map (fun a => getD t.scratch 0 a)
        else zeroBytes 280
      | none => zeroBytes 280)

/-- A pending record; the done mask has a one for every lane for which nothing remains to be done (DESIGN CHOICE, log 17). -/
def State.pendImage (s : State) (cid : Nat) (g : Group) (p : Pend) : List Byte :=
  let o := p.savedOps
  let r := if p.recKey = 0 then (0, 0) else s.recName cid p.recKey
  bytesLE 8 (wordOf p.instr).toNat ++ bytesLE 4 (~~~(p.lanes &&& ~~~p.done)).toNat
    ++ bytesLE 4 (laneBits [p.kind == .faulted, p.waits, p.kind == .unit && isPmv p.instr])
    ++ laneWords o.a ++ laneWords o.b ++ laneWords o.c ++ bytesLE 2 r.1 ++ bytesLE 6 0 ++ bytesLE 8 r.2
    ++ (match p.instr with | .tryT _ _ _ _ => g.trialImage p | _ => [])

/-- A group record. -/
def State.groupImage (s : State) (cid : Nat) (g : Group) : List Byte :=
  bytesLE 2 g.grpid ++ bytesLE 1 g.role ++ bytesLE 1 g.prio ++ bytesLE 1 g.valloc ++ bytesLE 1 g.q
    ++ bytesLE 1 g.pending.length ++ bytesLE 1 0 ++ (List.range 12).flatMap (fun f => bytesLE 1 (g.flagOf f))
    ++ bytesLE 4 g.regbase ++ bytesLE 8 g.mest ++ zeroBytes 16
    ++ (List.range 8).flatMap (fun n => bytesLE 4 (g.rawP n).toNat)
    ++ (List.range 96).flatMap (fun n => bytesLE 8 (g.rawS n).toNat)
    ++ laneList.flatMap (fun l => (g.th l).image) ++ g.cursor.bytes ++ zeroBytes 16
    ++ g.pending.flatMap (fun p => s.pendImage cid g p)
    ++ (List.range g.valloc).flatMap (fun n => laneList.flatMap (fun l => bytesLE 4 (g.rawV n l).toNat))

/-! ## Workgroups (R206, R256) -/

def Conv.image (c : Conv) : List Byte :=
  bytesLE 2 (match c.state with | .empty => 0 | .collecting => 1 | .complete => 2) ++ bytesLE 2 c.owner
    ++ bytesLE 4 c.signed.toNat ++ bytesLE 4 c.declared.toNat ++ bytesLE 4 c.zfrag.toNat

/-- The groups of a workgroup that have not retired, in grpid order. -/
def State.liveGroups (s : State) (w : Wg) : List Group :=
  (List.range w.ngroups).filterMap (fun n =>
    (w.gids.find? (fun gid => (s.grp gid).grpid == n && !(w.retiredGroups.contains n))).map s.grp)

/-- A workgroup record: the layout of a save area (R246) and of the image (R256). -/
def State.wgImage (s : State) (wid : Nat) : List Byte :=
  let w := s.wg wid
  let r := s.region w.rid
  let gs := s.liveGroups w
  let sp := (List.range r.rcb.spbytes).map (fun a => w.padByte a)
  let body := gs.flatMap (fun g => s.groupImage w.ctx g)
  let name := match w.recs with | k :: _ => s.recName w.ctx k | [] => (0, 0)
  let state := match w.state with
    | .resident | .halted => 0
    | .suspended _ => 1
    | .waiting => 2
  bytesLE 4 r.regno ++ bytesLE 4 w.wgid ++ bytesLE 2 gs.length ++ bytesLE 2 r.rcb.tiles ++ bytesLE 4 r.rcb.spbytes
    ++ bytesLE 1 state ++ bytesLE 1 (w.home % 4) ++ bytesLE 1 (if w.spread then 1 else 0) ++ bytesLE 1 0
    ++ bytesLE 4 name.1 ++ bytesLE 8 name.2 ++ bytesLE 8 (256 + sp.length + body.length) ++ zeroBytes 24
    ++ (List.range 8).flatMap (fun k => (nth w.conv Conv.fresh k).image) ++ zeroBytes 64 ++ sp ++ body

/-! ## Matrix state (R258) -/

def matCode : Instr → Nat
  | .mma .. => 1
  | .mlda .. => 2
  | .msta .. => 3
  | _ => 0

/-- The command in flight of a group; an MZERO is none (R250). -/
def Group.inFlight (g : Group) : Option MatCmd := g.mat.filter (fun m => matCode m.instr != 0)

def State.matImage (s : State) (cid : Nat) (g : Group) : List Byte :=
  match g.inFlight with
  | some m =>
    let r := if m.recKey = 0 then (0, 0) else s.recName cid m.recKey
    let ops := match g.pend? m.pend with | some p => p.ops | none => Ops.none
    bytesLE 2 g.grpid ++ bytesLE 1 (matCode m.instr) ++ zeroBytes 5 ++ bytesLE 8 (wordOf m.instr).toNat
      ++ (List.range 4).flatMap (fun k => bytesLE 8 (nth ops.a 0 k).toNat)
      ++ padTo 256 (m.scalesA ++ m.scalesB) ++ bytesLE 4 m.zfrag.toNat ++ bytesLE 4 m.declared.toNat
      ++ bytesLE 4 m.rows ++ bytesLE 2 r.1 ++ zeroBytes 2 ++ bytesLE 8 g.mchk.toNat ++ bytesLE 8 r.2
  | none =>
    bytesLE 2 g.grpid ++ zeroBytes 0x136 ++ bytesLE 4 g.rowprog ++ zeroBytes 4 ++ bytesLE 8 g.mchk.toNat
      ++ zeroBytes 8

/-- A matrix entry. -/
def State.matEntry (s : State) (w : Wg) : List Byte :=
  let r := s.region w.rid
  let gs := s.liveGroups w
  bytesLE 4 r.regno ++ bytesLE 4 w.wgid ++ bytesLE 2 r.rcb.tiles ++ bytesLE 2 gs.length ++ zeroBytes 4
    ++ (List.range r.rcb.tiles).flatMap (fun t =>
      (List.range 4096).flatMap (fun c => bytesLE 4 (getD (w.tile t) 0 c).toNat))
    ++ gs.flatMap (fun g => s.matImage w.ctx g)

/-! ## Copies (R259) -/

/-- The index of the next copy that the workgroup will start. -/
def Wg.nextCopy (w : Wg) (most : Nat) : Nat :=
  match w.copies.find? (fun c => !c.started) with
  | some c => c.index
  | none => most

/-- A copy record: the slices not finished of every copy, then the sealed batches not yet stamped. -/
def State.copyImage (s : State) (w : Wg) : List Byte :=
  let r := s.region w.rid
  let slices := w.copies.flatMap (fun c => c.slices)
  let next := w.nextCopy (w.gids.foldl (fun n gid => max n (s.grp gid).nCopy) 0)
  let batches := w.batches
  let done := match w.runningCopy with | some c => c.done | none => 0
  let err := (w.batches.foldl (fun e b => if e = 0 then b.err else e) w.openErr)
  bytesLE 4 r.regno ++ bytesLE 4 w.wgid ++ bytesLE 8 next ++ bytesLE 4 slices.length
    ++ bytesLE 4 batches.length ++ bytesLE 8 done ++ bytesLE 1 err ++ zeroBytes 31
    ++ slices.flatMap (fun x => bytesLE 8 x.src ++ bytesLE 8 x.dst ++ bytesLE 8 x.len ++ bytesLE 8 (laneBits [x.srcS, x.dstS]))
    ++ batches.flatMap (fun b => bytesLE 8 b.n ++ bytesLE 8 b.stamp)

def Wg.copying (w : Wg) : Bool :=
  !w.copies.isEmpty || !w.batches.isEmpty || !w.seals.isEmpty || w.closed != 0 || w.openErr != 0

/-! ## Regions (R235, R255) -/

def Role.image (x : Role) : List Byte :=
  bytesLE 1 x.valloc ++ bytesLE 1 x.prio ++ zeroBytes 6 ++ bytesLE 8 x.entry.toNat

/-- The RCB as accepted, with ovr = 0x03FF. -/
def Region.rcbImage (r : Region) : List Byte :=
  let c := r.rcb
  bytesLE 4 0x4B524342 ++ bytesLE 2 1 ++ bytesLE 2 0x3FF ++ bytesLE 8 c.entry.toNat ++ bytesLE 4 c.wgcount
    ++ bytesLE 4 c.wgsize ++ bytesLE 8 c.ebudget ++ bytesLE 8 c.tbudget ++ bytesLE 1 c.prio ++ bytesLE 1 c.domain
    ++ bytesLE 1 c.valloc ++ bytesLE 1 c.tiles ++ bytesLE 4 c.spbytes ++ bytesLE 1 c.fuse ++ bytesLE 1 c.nbv
    ++ bytesLE 1 (c.roles.length + 1) ++ zeroBytes 5 ++ bytesLE 8 c.handler.toNat
    ++ padTo 48 (c.roles.flatMap Role.image) ++ bytesLE 8 c.afterA.toNat ++ bytesLE 8 c.afterV.toNat
    ++ bytesLE 8 c.doneA.toNat ++ bytesLE 8 c.doneV.toNat ++ bytesLE 8 c.dirtylog.toNat ++ bytesLE 8 c.args.toNat
    ++ zeroBytes 80 ++ bytesLE 1 1 ++ bytesLE 1 0 ++ zeroBytes 2 ++ bytesLE 4 r.regno ++ zeroBytes 8

/-- A balance as eight bytes, two's complement. -/
def balance (x : Int) : List Byte := bytesLE 8 (word x).toNat

def State.regionImage (s : State) (r : Region) : List Byte :=
  r.rcbImage ++ bytesLE 4 r.regno
    ++ bytesLE 4 (match r.parent with | some p => (s.region p).regno | none => 0xFFFFFFFF)
    ++ balance r.ebal ++ balance r.tbal ++ bytesLE 4 r.nextwg ++ bytesLE 4 r.retired ++ bytesLE 4 r.openKids
    ++ bytesLE 1 (match r.state with | .afterWait => 0 | .eligible => 1 | .placed => 2 | .awaiting => 3)
    ++ zeroBytes 3 ++ bytesLE 8 r.rcbaddr.toNat ++ zeroBytes 16

/-! ## The order of the tree and of workgroups (R237, R254) -/

/-- The acceptance orders from the root down to a region. -/
def State.treePath (s : State) (rid : Nat) : Nat → List Nat
  | 0 => []
  | fuel + 1 =>
    let r := s.region rid
    match r.parent with
    | some p => s.treePath p fuel ++ [r.order]
    | none => [r.order]

/-- Lexicographic order of lists of numbers, a prefix first. -/
def lexLt : List Nat → List Nat → Bool
  | [], [] => false
  | [], _ :: _ => true
  | _ :: _, [] => false
  | a :: as, b :: bs => decide (a < b) || (a == b && lexLt as bs)

/-- Inserts by a key. -/
def insertBy {α : Type} (key : α → List Nat) (x : α) : List α → List α
  | [] => [x]
  | y :: ys => if lexLt (key x) (key y) then x :: y :: ys else y :: insertBy key x ys

def sortBy {α : Type} (key : α → List Nat) (l : List α) : List α := l.foldl (fun acc x => insertBy key x acc) []

/-- The open regions of a context in tree order. -/
def State.treeOrder (s : State) (cid : Nat) : List (Nat × Region) :=
  sortBy (fun q => s.treePath q.1 17) (s.openOf cid)

/-- The workgroups of a context by regno, then wgid. -/
def State.wgOrder (s : State) (cid : Nat) : List (Nat × Wg) :=
  sortBy (fun q => [(s.region q.2.rid).regno, q.2.wgid]) (s.wgs.filter (fun q => q.2.ctx == cid))

/-! ## Sections and header (R254) -/

/-- The context of a program in the image: a queued one as WAITING with the queued bit. -/
def State.progImage (s : State) (p : Prog) : List Byte := p.bytes (s.region p.rid).regno

def State.section3 (s : State) (cid : Nat) : List Byte :=
  let ps := s.progs.filter (fun q => q.2.ctx == cid)
  let ws := (s.wgOrder cid).filter (fun q => q.2.copying)
  bytesLE 4 ps.length ++ bytesLE 4 ws.length ++ ps.flatMap (fun q => s.progImage q.2)
    ++ ws.flatMap (fun q => s.copyImage q.2)

def dlogBytes (d : Nat × Nat × Nat) : List Byte :=
  bytesLE 4 0x4B444C31 ++ bytesLE 4 1 ++ bytesLE 8 d.1 ++ bytesLE 8 d.2.1 ++ bytesLE 8 d.2.2

def State.section5 (s : State) (cid : Nat) : List Byte :=
  match (s.treeOrder cid).find? (fun q => q.2.dlog.isSome) with
  | some (_, r) =>
    (match r.dlog with
      | some d => bytesLE 4 r.regno ++ bytesLE 4 0 ++ bytesLE 8 r.rcb.dirtylog.toNat ++ dlogBytes d
      | none => [])
  | none => []

def State.section6 (s : State) (cid : Nat) : List Byte :=
  let os := s.objects.filter (fun q => q.2.ctx == cid)
  bytesLE 4 os.length ++ bytesLE 4 0
    ++ os.flatMap (fun q => padTo 48 q.2.hash ++ bytesLE 8 q.2.base ++ bytesLE 4 (if q.2.revoked then 1 else 0)
      ++ bytesLE 4 q.2.segs.length)

/-- The keys of the held records of a domain, in order; past 4,096 a record is still with whoever raises it (R244). -/
def Ctx.heldKeys (c : Ctx) (dom : Nat) : List Nat :=
  (c.hold.take 4096).filter (fun k => match findK c.recs k with | some r => r.domain == dom | none => false)

/-- The held records of a domain. -/
def Ctx.heldOf (c : Ctx) (dom : Nat) : List FaultRec := (c.heldKeys dom).filterMap (fun k => findK c.recs k)

def State.section7 (s : State) (cid : Nat) : List Byte :=
  let c := s.ctx cid
  bytesLE 4 c.domains.length ++ bytesLE 4 0
    ++ c.domains.flatMap (fun q =>
      let held := c.heldOf q.1
      bytesLE 1 q.1 ++ zeroBytes 3 ++ bytesLE 4 held.length ++ bytesLE 8 q.2.desc ++ bytesLE 8 q.2.next ++ zeroBytes 8
        ++ held.flatMap FaultRec.bytes)

/-! ## What the sections have no field for

R261 makes a resumed context behave as if it had never stopped, and the sections of R254 to R259 leave out some of what that
takes. The model writes the rest after section 7, as entries of 64-bit words; an image to which nothing is to be added ends
with section 7 (DESIGN CHOICE, log 17). -/

def entryOf (tag : Nat) (ws : List Nat) : List Nat := [tag, ws.length] ++ ws

/-- The name of a workgroup: its region's number and its own. -/
def State.wgName (s : State) (w : Wg) : List Nat := [(s.region w.rid).regno, w.wgid]

def RegKey.num : RegKey → Nat
  | .v n => n
  | .s n => 256 + n
  | .p n => 512 + n
  | .win => 1024

/-- Of a pending record: the address of its word, and the registers that younger instructions have written (R53). -/
def State.pendEntries (s : State) (w : Wg) (g : Group) : List Nat :=
  (g.pending.mapIdx (fun k p => entryOf 1 (s.wgName w ++ [g.grpid, k, p.pc.toNat]
    ++ p.dead.flatMap (fun d => [d.1.num, d.2.toNat])))).flatten

/-- Of a lane in its candidate: the last word that it has executed (R270). -/
def State.viaEntries (s : State) (w : Wg) (g : Group) : List Nat :=
  laneList.flatMap (fun l => let t := g.th l
    if t.trial.isSome then entryOf 2 (s.wgName w ++ [g.grpid, l, t.via.toNat]) else [])

/-- Of a workgroup with copies, seals or batches: what R259 does not say of its slices and batches, its seals that not every
group has recorded, what has closed, and its groups' counts. -/
def State.copyEntry (s : State) (w : Wg) : List Nat :=
  if !w.copying then []
  else
    let slices := w.copies.flatMap (fun c => c.slices.map (fun x => [c.index, x.grpid, if c.started then 1 else 0, c.batch]))
    let seals := w.seals.map (fun x => [x.k, x.before, x.entries.length] ++ x.entries.flatMap (fun e => [e.1, e.2.1, e.2.2]))
    let gs := (s.liveGroups w).map (fun g => [g.grpid, g.nCopy, g.nSeal, g.lastSeal])
    entryOf 3 (s.wgName w ++ [w.closed, w.openErr, slices.length, w.batches.length, seals.length, gs.length]
      ++ slices.flatten ++ w.batches.map (fun b => b.err) ++ gs.flatten ++ seals.flatten)

/-- An optional pair as three words. -/
def optWords (x : Option (Nat × Nat)) : List Nat := match x with | some (a, b) => [1, a, b] | none => [0, 0, 0]

/-- Of the k-th program, once it stands within a command or owes slots of an abandoned one: that debt, the condition met in its
slot, where DECODE stands, and whether it has still to walk a page (R179, R189 to R191). -/
def progEntry (k : Nat) (p : Prog) : List Nat :=
  if p.ended || (p.done == 0 && p.owed.isNone && !p.rewalk) then []
  else
    let qs := match p.cmd.bind encodeQuads with
      | some q => [1, q.q0.toNat, q.q1.toNat, q.q2.toNat, q.q3.toNat]
      | none => [0, 0, 0, 0, 0]
    entryOf 4 ([k] ++ optWords (p.owed.map (fun o => (o.1, match o.2 with | some d => d + 1 | none => 0)))
      ++ optWords p.slotErr ++ [p.blk, p.blkAddr, p.blkDone] ++ qs ++ [if p.rewalk then 1 else 0])

/-- What a record of kind 1 to 3 is about: the place of its program among those of the context, a workgroup, or a region. -/
def State.aboutWords (s : State) (cid : Nat) : Subject → List Nat
  | .engine pid => [1, ((s.progs.filter (fun q => q.2.ctx == cid)).map (fun q => q.1)).idxOf pid, 0, 0]
  | .copy wid => [2] ++ s.wgName (s.wg wid) ++ [0]
  | .stampOf wid n => [3] ++ s.wgName (s.wg wid) ++ [n]
  | .after rid => [4, (s.region rid).regno, 0, 0]
  | .rcbWrite rid => [5, (s.region rid).regno, 0, 0]
  | _ => [0, 0, 0, 0]

/-- The bytes that a held write has still to write, for the record that it waits on. -/
def State.heldWords (s : State) (key : Nat) : Subject → List Nat
  | .rcbWrite rid =>
    match (s.region rid).held.find? (fun h => h.recKey == key) with
    | some h => [if h.done then 1 else 0, h.bytes.length, natLE h.bytes]
    | none => [0, 0, 0]
  | _ => [0, 0, 0]

/-- Of an unresolved record of kind 1 to 3, posted or held: what it is about. A posted one is there whole, with its address. -/
def State.recEntry (s : State) (cid : Nat) (q : Nat × FaultRec) : List Nat :=
  let r := q.2
  if r.kind = 0 then []
  else
    let at_ := if r.seq = 0 then ((s.ctx cid).heldKeys r.domain).idxOf q.1 else r.va
    entryOf 5 ([r.domain, if r.seq = 0 then 0 else 1, at_] ++ s.aboutWords cid r.subject ++ s.heldWords q.1 r.subject
      ++ (if r.seq = 0 then [] else (List.range 8).map (fun k => fieldLE r.bytes (8 * k) 8)))

/-- The entries of a context. -/
def State.appendix (s : State) (cid : Nat) : List Nat :=
  let ws := (s.wgOrder cid).map (fun q => q.2)
  ws.flatMap (fun w => (s.liveGroups w).flatMap (fun g => s.pendEntries w g ++ s.viaEntries w g) ++ s.copyEntry w)
    ++ ((s.progs.filter (fun q => q.2.ctx == cid)).mapIdx (fun k q => progEntry k q.2)).flatten
    ++ (s.ctx cid).recs.flatMap (s.recEntry cid)

/-- The first word of what follows section 7. -/
def appendixMagic : Nat := 0x58444E455050414B

/-- What follows section 7: nothing, or the magic and the entries, 256-byte-aligned like a section. -/
def State.tail (s : State) (cid end_ : Nat) : List Byte :=
  let ws := s.appendix cid
  if ws.isEmpty then [] else zeroBytes ((end_ + 255) / 256 * 256 - end_) ++ (appendixMagic :: ws).flatMap (fun w => bytesLE 8 w)

def State.sections (s : State) (cid : Nat) : List (List Byte) :=
  [(s.treeOrder cid).flatMap (fun q => s.regionImage q.2),
   (s.wgOrder cid).flatMap (fun q => s.wgImage q.1),
   ((s.wgOrder cid).filter (fun q => (s.region q.2.rid).rcb.tiles != 0)).flatMap (fun q => s.matEntry q.2),
   s.section3 cid,
   bytesLE 8 (s.ctx cid).root ++ bytesLE 8 cid,
   s.section5 cid, s.section6 cid, s.section7 cid]

def alignTo (n k : Nat) : Nat := (n + k - 1) / k * k

/-- Offset and size of each section from an offset on. -/
def directory : Nat → List (List Byte) → List (Nat × Nat)
  | _, [] => []
  | off, x :: xs => (off, x.length) :: directory (alignTo (off + x.length) 256) xs

/-- Sections one after the other, each starting aligned, from an offset on. -/
def layOut : Nat → List (List Byte) → List Byte
  | _, [] => []
  | _, [x] => x
  | off, x :: xs =>
    let next := alignTo (off + x.length) 256
    x ++ zeroBytes (next - (off + x.length)) ++ layOut next xs

/-- The 256-byte header with a crc (R254). -/
def imageHeader (nbv : Nat) (tag : Word) (len : Nat) (dir : List (Nat × Nat)) (crc : Nat) : List Byte :=
  bytesLE 4 0x4D494B44 ++ bytesLE 2 2 ++ bytesLE 2 2 ++ bytesLE 8 len ++ padTo 48 Config.deviceHash ++ bytesLE 4 crc
    ++ bytesLE 1 nbv ++ zeroBytes 3 ++ bytesLE 8 tag.toNat ++ zeroBytes 48
    ++ dir.flatMap (fun d => bytesLE 8 d.1 ++ bytesLE 8 d.2)

/-- The image of a context that has stopped: its header, its sections, and what they have no field for. -/
def State.image (s : State) (cid : Nat) (tag : Word) : List Byte :=
  let secs := s.sections cid
  let laid := layOut 256 secs
  let body := laid ++ s.tail cid (256 + laid.length)
  let dir := directory 256 secs
  let nbv := match s.treeOrder cid with | (_, r) :: _ => r.rcb.nbv | [] => 2
  let hd := imageHeader nbv tag (256 + body.length) dir
  hd (crc32c (hd 0 ++ body)) ++ body

/-! ## Save areas (R246) -/

/-- A free area of a pool: first fit at 64-byte steps (DESIGN CHOICE, log 44). -/
def freeSpan (bytes n : Nat) (used : List (Nat × Nat)) : Option Nat :=
  let starts := 0 :: used.map (fun u => alignTo (u.1 + u.2) 64)
  (starts.filter (fun a => decide (a + n ≤ bytes) && used.all (fun u => !(meets a n u.1 u.2)))).foldl
    (fun b a => match b with | some x => some (min x a) | none => some a) none

/-- Bytes written to physical memory from an address on; what is no memory is passed. -/
def State.putPhys (s : State) (pa : Nat) : List Byte → State
  | [] => s
  | b :: bs =>
    match s.target pa with
    | some (.mem loc) => (s.putAt loc [b]).putPhys (pa + 1) bs
    | _ => s.putPhys (pa + 1) bs

/-- What the groups of a workgroup have issued and can be performed is performed and completes (R54, R154), and those
groups that have retired leave. -/
def State.settleWg (s : State) (wid : Nat) : State :=
  let w := s.wg wid
  let s := w.gids.foldl (fun s gid => s.settle gid) s
  let gone := w.gids.filter (fun gid => w.retiredGroups.contains (s.grp gid).grpid)
  let s := gone.foldl (fun s gid => { s with groups := delK s.groups gid }) s
  s.modWg wid (fun w => { w with gids := w.gids.filter (fun gid => !(gone.contains gid)) })

/-- The workgroup's record goes to a save area of its context's pool; none when the pool has no room (R246) (DESIGN
CHOICE, log 44). -/
def State.spillWg (s : State) (wid : Nat) : Option State :=
  let w := s.wg wid
  let c := s.ctx w.ctx
  let bs := s.wgImage wid
  match freeSpan c.poolBytes bs.length c.poolUsed with
  | none => none
  | some a =>
    some (((s.putPhys (c.poolBase + a) bs).modCtx w.ctx (fun c => { c with poolUsed := (a, bs.length) :: c.poolUsed })).modWg
      wid (fun w => { w with saved := some a }))

end Sys2Proof.Machine
end

