-- ==== Sys2Proof/Machine/Distrib.lean ====
section
/-! DEFINITION. The distributor: candidates and their order, placement, reservation, the switch of a core, cluster
fusion (01 R14, R30 to R32; 05 R117, R120, R123; 07 R194; 13 R236 to R240, R248 to R252). -/
namespace Sys2Proof.Machine

/-! ## Candidates (R237) -/

/-- A candidate: an unplaced workgroup, or one that re-enters. -/
structure Cand where
  rid  : Nat
  wgid : Nat
  wid  : Option Nat
  deriving DecidableEq, Repr

/-- The distributor serves the context: it is not halted and its hold list has room (R244, R253) (DESIGN CHOICE, log
49). -/
def Ctx.served (c : Ctx) : Bool := !c.halted && decide (c.hold.length < 4096)

/-- The outgoing workgroup is still being written to its save area. -/
def State.spilling (s : State) (wid : Nat) : Bool :=
  s.cores.any (fun q => match q.2.switch with | .spilling out => out.contains wid | _ => false)

/-- The next unplaced workgroup of a region. -/
def State.unplaced (s : State) (q : Nat × Region) : Option Cand :=
  let r := q.2
  if r.state = .eligible ∧ r.abandoned = false ∧ r.closed = false ∧ r.dry = false ∧ (s.ctx r.ctx).served = true
    ∧ r.nextwg < r.rcb.wgcount
  then some { rid := q.1, wgid := r.nextwg, wid := none } else none

/-- A workgroup that re-enters; it waits while its region is dry (R45). -/
def State.reenters (s : State) (q : Nat × Wg) : Option Cand :=
  let w := q.2
  if w.state = .waiting ∧ (s.region w.rid).dry = false ∧ (s.ctx w.ctx).served = true ∧ s.spilling q.1 = false
  then some { rid := w.rid, wgid := w.wgid, wid := some q.1 } else none

/-- The order of R237: class, re-entering first, tree order, then wgid or the order of leaving. -/
def State.candKey (s : State) (c : Cand) : List Nat :=
  [7 - (s.region c.rid).rcb.prio, if c.wid.isSome then 0 else 1] ++ s.treePath c.rid 17
    ++ [0, match c.wid with | some w => (s.wg w).order | none => c.wgid]

def State.candidates (s : State) : List Cand :=
  sortBy s.candKey (s.regions.filterMap s.unplaced ++ s.wgs.filterMap s.reenters)

/-- What a candidate asks for. -/
def State.need (s : State) (c : Cand) : Need :=
  let r := (s.region c.rid).rcb
  match c.wid with
  | some wid =>
    let w := s.wg wid
    { ctx := w.ctx, spread := w.spread, groups := (s.liveGroups w).map (fun g => (g.grpid, g.valloc)), sp := r.spbytes,
      tiles := r.tiles, fused := r.fuse == 1, index := some (w.home % 4) }
  | none =>
    let n := (r.wgsize + 31) / 32
    { ctx := (s.region c.rid).ctx, spread := spreads n r.valloc r.spbytes,
      groups := (List.range n).map (fun g => (g, r.valloc)), sp := r.spbytes, tiles := r.tiles, fused := r.fuse == 1,
      index := none }

/-! ## Places (R238, R239) -/

/-- The cluster is reserved for another candidate, one that still waits. -/
def State.reservedAway (s : State) (c : Cand) (cluster : Nat) : Bool :=
  s.ctxs.any (fun q => match q.2.reserved with
    | some (cl, rid, wgid) => cl == cluster && !(rid == c.rid && wgid == c.wgid)
      && s.candidates.any (fun x => x.rid == rid && x.wgid == wgid)
    | none => false)

/-- R238 in full for a home core. -/
def State.mayPlace (s : State) (c : Cand) (home : Nat) : Bool :=
  let n := s.need c
  s.fits n home [] && (n.cores home).all (fun k => (s.core k).switch == .none) && !s.reservedAway c (home / 4)

def allCores : List Nat := List.range 160

/-- Home cores where a candidate fits now. -/
def State.places (s : State) (c : Cand) : List Nat := allCores.filter (s.mayPlace c)

/-- Workgroups of a region on a cluster. -/
def State.clusterShare (s : State) (rid cluster : Nat) : Nat :=
  (s.wgs.filter (fun q => q.2.onCore && q.2.rid == rid && q.2.home / 4 == cluster)).length

/-- The distributor's preference: the cluster with most of the region, then the lowest core. -/
def State.prefer (s : State) (rid : Nat) : List Nat → Option Nat
  | [] => none
  | h :: hs =>
    match s.prefer rid hs with
    | none => some h
    | some k => if s.clusterShare rid (k / 4) ≤ s.clusterShare rid (h / 4) then some h else some k

/-- The candidate that comes next, of those that fit somewhere. -/
def State.nextCand (s : State) : Option Cand := s.candidates.find? (fun c => !(s.places c).isEmpty)

/-! ## Placement (R14, R194, R204, R236) -/

/-- A thread before its first issue. -/
def Thread.first (entry : Word) : Thread :=
  { Thread.absent with pc := entry, exited := false, entering := some 2 }

/-- A group as it starts. -/
def Group.start (wid grpid wgsize : Nat) (r : Rcb) (core part base cycle : Nat) : Group :=
  { Group.absent with
    wid := wid, grpid := grpid,
    threads := laneList.map (fun l => if 32 * grpid + l < wgsize then Thread.first r.entry else Thread.absent),
    sregs := putD [] 0 0 r.args, prio := r.prio, valloc := r.valloc, regbase := base, core := core, part := part,
    ageA := cycle, ageB := cycle }

/-- R117: the window of a group at launch. -/
def launchBase (spread : Bool) (sp valloc grpid : Nat) : Nat :=
  sp + (if spread then grpid / 4 else grpid) * valloc * 128

/-- WEIR_TABLE_ZERO: the written bytes of a fresh scratchpad (R194). -/
def zeroTable : KMap Byte := (List.range 256).map (fun a => (a, 0))

/-- The next workgroup of a region is placed at a home core. -/
def State.placeNew (s : State) (rid home : Nat) : State :=
  let r := s.region rid
  let n := (r.rcb.wgsize + 31) / 32
  let wid := s.nextId
  let spread := spreads n r.rcb.valloc r.rcb.spbytes
  let w : Wg :=
    { Wg.absent with
      ctx := r.ctx, rid := rid, wgid := r.nextwg, state := .resident, home := home, spread := spread,
      gids := (List.range n).map (fun g => wid + 1 + g), ngroups := n, scratch := zeroTable, place := wid,
      conv := List.replicate 8 Conv.fresh, since := s.cycle, order := wid }
  let s := { s with wgs := insK s.wgs wid w, nextId := wid + 1 + n }
  let s := (List.range n).foldl (fun s g =>
    let core := if spread then home / 4 * 4 + g % 4 else home
    let base := launchBase spread r.rcb.spbytes r.rcb.valloc g
    let new := Group.start wid g r.rcb.wgsize r.rcb core (partOf spread g) base s.cycle
    { s with groups := insK s.groups (wid + 1 + g) new }) s
  s.modRegion rid (fun r => { r with
    nextwg := r.nextwg + 1,
    state := (if r.nextwg + 1 = r.rcb.wgcount then RegionState.placed else r.state) })

/-- A workgroup re-enters at a home core with what it left with (R46, R120); the unit there serves another command, or none
(R216). -/
def State.placeOld (s : State) (wid home : Nat) : State :=
  let w := s.wg wid
  let s := s.freeArea w.ctx w.saved
  let s := w.gids.foldl (fun s gid => s.modGrp gid (fun g =>
    { g with core := (if w.spread then home / 4 * 4 + g.grpid % 4 else home), part := partOf w.spread g.grpid, ageA := s.cycle, ageB := s.cycle,
             eligA := none, eligB := none, fetched := none, mat := g.mat.map (fun m => { m with inService := false }) })) s
  (({ s with nextId := s.nextId + 1 }).modWg wid (fun w =>
    { w with state := .resident, home := home, since := s.cycle, order := s.nextId, saved := none })).thawHolds wid

/-- A candidate takes a home core; the next workgroup of its region, if it was the next one, begins to wait. -/
def State.placeCand (s : State) (c : Cand) (home : Nat) : State :=
  let s := match c.wid with
    | some wid => s.placeOld wid home
    | none => (s.placeNew c.rid home).modRegion c.rid (fun r => { r with waitSince := s.cycle, passed := false })
  { s with ctxs := s.ctxs.map (fun q => (q.1,
      match q.2.reserved with
      | some (_, rid, wgid) => if rid = c.rid ∧ wgid = c.wgid then { q.2 with reserved := none } else q.2
      | none => q.2)) }

/-- The candidates before `c` in the order have been passed over. -/
def State.passOver (s : State) (c : Cand) : List Cand → State
  | [] => s
  | x :: xs =>
    if x = c then s
    else
      (match x.wid with
        | some wid => s.modWg wid (fun w => { w with passed := true })
        | none => s.modRegion x.rid (fun r => { r with passed := true })).passOver c xs

/-- WORKGROUP_PLACE: the first candidate that fits is placed, on a core that R238 allows. -/
def execWorkgroupPlace (rid wgid core : Nat) (s : State) : Host.Outcome State Fault Refusal :=
  .next (match s.nextCand with
    | some c =>
      if c.rid = rid ∧ c.wgid = wgid ∧ s.mayPlace c core = true then ((s.passOver c s.candidates).placeCand c core).reap
      else s
    | none => s)

/-! ## DISTRIBUTOR_RESERVE (R239) -/

/-- Free store of a cluster. -/
def State.clusterFree (s : State) (cluster : Nat) : Nat :=
  sumOf ((List.range 4).map (fun i => 4194304 - s.coreUsed (4 * cluster + i) []))

/-- The cluster with the most free store (DEDUCED, log 45). -/
def State.freest (s : State) : Nat :=
  ((List.range 40).foldl (fun (b : Nat × Nat) cl =>
    let f := s.clusterFree cl
    if b.2 < f then (cl, f) else b) (0, 0)).1

/-- The context has a reservation for a candidate that still waits. -/
def State.reserves (s : State) (cid : Nat) : Bool :=
  match (s.ctx cid).reserved with
  | some (_, rid, wgid) => s.candidates.any (fun x => x.rid == rid && x.wgid == wgid)
  | none => false

/-- The first candidate has waited long enough while later ones were placed. -/
def State.mustReserve (s : State) (cid : Nat) : Option Cand :=
  match s.candidates with
  | c :: _ =>
    let r := s.region c.rid
    let wait : Nat × Bool := match c.wid with
      | some wid => ((s.wg wid).waitSince, (s.wg wid).passed)
      | none => (r.waitSince, r.passed)
    if r.ctx = cid ∧ s.reserves cid = false ∧ wait.2 = true ∧ wait.1 + 1048576 ≤ s.cycle then some c
    else none
  | [] => none

/-- DISTRIBUTOR_RESERVE (DEDUCED, log 45). -/
def execDistributorReserve (ctx rid wgid : Nat) (s : State) : Host.Outcome State Fault Refusal :=
  .next (match s.mustReserve ctx with
    | some c =>
      if c.rid = rid ∧ c.wgid = wgid then s.modCtx ctx (fun x => { x with reserved := some (s.freest, rid, wgid) }) else s
    | none => s)

/-! ## Switching a core (R240, R248 to R252) -/

/-- The cores that are switched together. -/
def State.switchCores (s : State) (core : Nat) (spread : Bool) : List Nat :=
  let four := (List.range 4).map (fun i => core / 4 * 4 + i)
  if spread || four.any (fun k => (s.residents k []).any (fun q => q.2.spread)) then four else [core]

/-- The workgroups that a switch sends away. -/
def State.outgoing (s : State) (cores : List Nat) : List Nat :=
  (s.wgs.filter (fun q => cores.any (fun k => (s.residents k []).any (fun x => x.1 == q.1)))).map (fun q => q.1)

/-- A switch at this home core serves the candidate: every workgroup it sends away has a lower class or belongs to a
dry region; `dry` asks for dry ones only. -/
def State.victim (s : State) (c : Cand) (dry : Bool) (home : Nat) : Bool :=
  let n := s.need c
  let cores := s.switchCores home n.spread
  let out := s.outgoing cores
  s.fits n home out && cores.all (fun k => (s.core k).switch == .none) && !s.reservedAway c (home / 4)
    && out.all (fun wid =>
      let r := s.region (s.wg wid).rid
      r.dry || (!dry && decide (r.rcb.prio < (s.region c.rid).rcb.prio)))

/-- A switch has been requested for the candidate. -/
def State.requested (s : State) (rid wgid : Nat) : Bool :=
  s.cores.any (fun q => match q.2.switch with
    | .requested r n _ _ => r == rid && n == wgid
    | _ => false)

/-- Home cores that may be pre-empted for a candidate that fits nowhere and for which no switch has been requested yet, dry ones
first. -/
def State.victims (s : State) (c : Cand) : List Nat :=
  if (s.places c).isEmpty && !s.requested c.rid c.wgid then
    let d := allCores.filter (s.victim c true)
    if d.isEmpty then allCores.filter (s.victim c false) else d
  else []

/-- A workgroup of the core needs a fenced partition or the fenced matrix unit (R220, R310). -/
def State.stranded (s : State) (core : Nat) : Bool :=
  let c := s.core core
  (s.residents core []).any (fun q =>
    q.2.gids.any (fun gid => (s.grp gid).core == core && c.partFailed.contains (s.grp gid).part)
      || (c.matFenced && q.2.home == core && (s.region q.2.rid).rcb.tiles != 0))

/-- A core that firmware has drained, or that has failed in a part that its workgroups need, and that still holds
workgroups (R309, R310; DESIGN CHOICE, log 18). -/
def State.mustEmpty (s : State) (core : Nat) : Bool :=
  decide (core < 160) && (s.drainedCore core || (s.core core).failed || s.stranded core)
    && !(s.residents core []).isEmpty && (s.switchCores core false).all (fun k => (s.core k).switch == .none)

def State.setSwitch (s : State) (cores : List Nat) (x : Switch) : State :=
  cores.foldl (fun s k => s.modCore k (fun c => { c with switch := x })) s

/-- SWITCH_REQUEST: for a candidate that fits nowhere, or with region 0 to empty a core. Every unit of the model stands
at a boundary between two steps (R250). -/
def execSwitchRequest (core rid wgid : Nat) (s : State) : Host.Outcome State Fault Refusal :=
  .next (
    if rid = 0 then
      if s.mustEmpty core then s.setSwitch (s.switchCores core false) (.requested 0 0 core s.cycle) else s
    else
      match s.candidates.find? (fun c => c.rid == rid && c.wgid == wgid) with
      | some c =>
        if (s.victims c).contains core then
          s.setSwitch (s.switchCores core (s.need c).spread) (.requested rid wgid core s.cycle)
        else s
      | none => s)

/-- What takes effect before a workgroup leaves: a ROLE that is ready and the retirement of groups (R45). The units stand
between chunks, and an MZERO that its unit has taken is done (R250). -/
def State.beforeLeaving (s : State) (wid : Nat) : State :=
  (s.wg wid).gids.foldl (fun s gid =>
    let s := s.settle gid
    let s := match s.roleReady gid with
      | some (r, n, a) => s.modGrp gid (fun g => g.takeRole r n a)
      | none => s
    match execGroupRetire gid s with
    | .next t => t
    | _ => s) s

/-- The programs of a workgroup stop, not held (R191). -/
def State.stopProgs (s : State) (wid : Nat) : State :=
  { s with progs := s.progs.map (fun q => (q.1, if q.2.wid = wid then q.2.stop false else q.2)) }

/-- A workgroup leaves its cores as pre-empted, and its programs stop, or as suspended, and what its programs do outside
its store goes on (R191). -/
def State.leaveCore (s : State) (wid : Nat) : State :=
  match findK s.wgs wid with
  | none => s
  | some w =>
    let s := if w.state = .resident then s.freezeHolds wid else s
    let s := if w.state = .resident then (s.settleWg wid).stopProgs wid else s.settleWg wid
    let n := s.nextId
    ({ s with nextId := n + 1 }).modWg wid (fun w =>
      { w with state := (match w.state with
                 | .resident => .waiting
                 | .suspended _ => .suspended false
                 | x => x),
               carry := w.carry + (s.cycle - w.since), order := n, waitSince := s.cycle, passed := false })

/-- The request for a candidate is withdrawn. -/
def State.withdrawSwitch (s : State) (rid wgid : Nat) : State :=
  { s with cores := s.cores.map (fun q => (q.1, match q.2.switch with
      | .requested r n _ _ => if r = rid ∧ n = wgid then { q.2 with switch := .none } else q.2
      | _ => q.2)) }

/-- The candidate of a switch, if it still waits and fits nowhere (R240). -/
def State.switchCand (s : State) (rid wgid : Nat) : Option Cand :=
  s.candidates.find? (fun c => c.rid == rid && c.wgid == wgid && (s.places c).isEmpty)

/-- The outgoing set of some cores leaves, and the banks swap in 256 cycles. -/
def State.swapOut (s : State) (cores : List Nat) : State :=
  let out := s.outgoing cores
  let s := out.foldl (fun s wid => (s.beforeLeaving wid).leaveCore wid) s
  let s := { s with cycle := s.cycle + 256 }
  s.setSwitch cores (.spilling (out.filter (fun wid => (findK s.wgs wid).isSome)))

/-- BANK_SWAP: the outgoing set leaves, the banks swap in 256 cycles and the incoming candidate takes the core, those before it
in the order passed over. A request whose candidate waits no more, or fits elsewhere by now, is withdrawn and sends nobody away
(R240; DEDUCED, log 45). -/
def execBankSwap (core : Nat) (s : State) : Host.Outcome State Fault Refusal :=
  .next (match (s.core core).switch with
    | .requested rid wgid home _ =>
      if rid = 0 then s.swapOut (s.switchCores home false)
      else
        match s.switchCand rid wgid with
        | none => s.withdrawSwitch rid wgid
        | some c =>
          let order := s.candidates
          let s := s.swapOut (s.switchCores home (s.need c).spread)
          if s.fits (s.need c) home [] && !s.reservedAway c (home / 4) then (s.passOver c order).placeCand c home else s
    | _ => s)

/-- Outgoing workgroups go to their save areas; those for which the pool has no room stay in the shadow bank. -/
def State.spillAll (s : State) : List Nat → List Nat → State × List Nat
  | [], left => (s, left.reverse)
  | wid :: rest, left =>
    match s.spillWg wid with
    | some t => t.spillAll rest left
    | none => s.spillAll rest (wid :: left)

/-- SPILL_DONE: the outgoing workgroups are in their save areas; with the last of them the shadow bank is free. -/
def execSpillDone (core : Nat) (s : State) : Host.Outcome State Fault Refusal :=
  .next (match (s.core core).switch with
    | .spilling out =>
      let four := ((List.range 4).map (fun i => core / 4 * 4 + i)).filter (fun k => (s.core k).switch == .spilling out)
      let r := s.spillAll (out.filter (fun wid => (findK s.wgs wid).isSome)) []
      r.1.setSwitch four (if r.2.isEmpty then .none else .spilling r.2)
    | _ => s)

/-! ## CLUSTER_FUSION_CHANGE (R123) -/

/-- No workgroup is resident on the cluster and no core of it switches. -/
def State.clusterEmpty (s : State) (cluster : Nat) : Bool :=
  (List.range 4).all (fun i =>
    (s.residents (4 * cluster + i) []).isEmpty && (s.core (4 * cluster + i)).switch == .none)

def State.setFused (s : State) (cluster : Nat) (on : Bool) : State :=
  let rest := s.fused.filter (fun c => !(c == cluster))
  { s with fused := if on then cluster :: rest else rest }

/-- CLUSTER_FUSION_CHANGE: only while the cluster is empty; the L1s are written back and emptied. -/
def execClusterFusionChange (cluster : Nat) (fused : Bool) (s : State) : Host.Outcome State Fault Refusal :=
  .next (if decide (cluster < 40) && s.clusterEmpty cluster then s.setFused cluster fused else s)

/-- An empty cluster whose other mode would take the candidate. -/
def State.modeWanted (s : State) (c : Cand) : Option (Nat × Bool) :=
  ((List.range 40).find? (fun cl =>
    s.clusterEmpty cl
      && (let t := s.setFused cl (!(s.fused.contains cl))
          (List.range 4).any (fun i => t.mayPlace c (4 * cl + i))))).map (fun cl => (cl, !(s.fused.contains cl)))

end Sys2Proof.Machine
end

