-- ==== Sys2Proof/Machine/Records.lean ====
section
/-! DEFINITION. Fault records: saving, posting and resolution (01 R37; 07 R170, R182, R190; 13 R244 to R247). -/
namespace Sys2Proof.Machine

/-! ## Posting (R244, R246) -/

/-- A queue descriptor: base, slots and head. -/
structure QueueDesc where
  base : Nat
  size : Nat
  head : Nat
  deriving DecidableEq, Repr

def isPow2 (n : Nat) : Bool := n != 0 && 2 ^ Nat.log2 n == n

/-- A well-formed descriptor of 32 bytes. -/
def queueDesc (bs : List Byte) : Option QueueDesc :=
  let base := fieldLE bs 0 8
  let size := fieldLE bs 8 4
  if base % 64 == 0 && isPow2 size && decide (64 ≤ size) && decide (size ≤ 65536) && zeros bs 12 4 then
    some { base := base, size := size, head := fieldLE bs 16 8 }
  else none

/-- The handler of a region's records: the nearest that R247 does not pass over. `chain` are the region and its
ancestors. -/
def State.handlerIn (s : State) (cid : Nat) (chain : List Nat) : List Nat → Option Nat
  | [] => none
  | rid :: rest =>
    let h := (s.region rid).rcb.handler
    match (s.openOf cid).find? (fun q => h != 0 && q.2.rcbaddr == h && !(chain.contains q.1)) with
    | some q => some q.1
    | none => s.handlerIn cid chain rest

/-- A region and its ancestors. -/
def State.chainOf (s : State) (rid : Nat) : Nat → List Nat
  | 0 => []
  | fuel + 1 =>
    match (s.region rid).parent with
    | some p => rid :: s.chainOf p fuel
    | none => [rid]

def State.handler (s : State) (cid rid : Nat) : Option Nat :=
  let chain := s.chainOf rid 17
  s.handlerIn cid chain chain

/-- The workgroup of a kind-0 record is written to its save area and leaves its cores, unless the pool has no room
(R246). -/
def State.saveSuspended (s : State) (wid : Nat) : State :=
  match findK s.wgs wid with
  | none => s
  | some w =>
    if w.state = .suspended true then
      let s := s.settleWg wid
      match s.spillWg wid with
      | some t => t.leaveCore wid
      | none => s
    else s

/-- Raises irq bit 5: the record stays held (R244). -/
def State.postFailed (s : State) : State := s.raiseIrq 32 0

/-- The record is in memory under sequence `n` at `va`. -/
def State.posted (s : State) (cid key : Nat) (r : FaultRec) (n va : Nat) : State :=
  let host := (s.handler cid r.rid).isNone
  let s := s.modCtx cid (fun c =>
    { c with hold := c.hold.filter (fun k => !(k == key)),
             recs := insK c.recs key { r with seq := n, va := va, host := host },
             domains := modK c.domains r.domain (fun d => { d with next := n + 1 }) })
  if host then s.raiseIrq 1 0 else s

/-- The record is written and tail is advanced, where the queue has room and both can be written. -/
def State.postRecord (s : State) (cid key : Nat) (r : FaultRec) : State :=
  match findK (s.ctx cid).domains r.domain with
  | none => s.postFailed
  | some d =>
    match s.loadBytes none cid d.desc 32 with
    | (s, .error _) => s.postFailed
    | (s, .ok bs) =>
      match queueDesc bs with
      | none => s.postFailed
      | some q =>
        let n := d.next
        if q.size ≤ n - 1 - q.head then s
        else
          let va := q.base + 64 * ((n - 1) % q.size)
          match s.accessG none cid va 64 .write, s.accessG none cid (d.desc + 24) 8 .write with
          | (s, .ok t), (_, .ok _) =>
            let s := s.storeT t { r with seq := n }.bytes
            (s.storeG none cid (d.desc + 24) (bytesLE 8 n)).1.posted cid key r n va
          | (s, _), _ => s.postFailed

/-- The held records of a context that the hold list has room for; those past 4,096 wait with the units that raise them
(R244). -/
def Ctx.holding (c : Ctx) : List (Nat × FaultRec) :=
  (c.hold.take 4096).filterMap (fun k => (findK c.recs k).map (fun r => (k, r)))

/-- Every workgroup of a held record goes to its save area, whatever its queue (R246). -/
def State.saveHeld (s : State) (cid : Nat) : State :=
  (s.ctx cid).holding.foldl (fun s q => if q.2.kind = 0 then s.saveSuspended q.2.wid else s) s

/-- The first held record of each domain; with none but of domains that have no queue, the first. -/
def Ctx.heads (c : Ctx) : List (Nat × FaultRec) :=
  c.holding.foldl (fun l q => if l.any (fun x => x.2.domain == q.2.domain) then l else l ++ [q]) []

/-- The first held record of each domain is posted where it can be: a queue without room holds back its own domain only. -/
def State.postHeads (s : State) (cid : Nat) : State :=
  (s.ctx cid).heads.foldl (fun s q => s.postRecord cid q.1 q.2) s

/-- FAULT_RECORD_POST: the suspended workgroups of a context are saved and its records posted, one of each domain. -/
def execFaultRecordPost (ctx : Nat) (s : State) : Host.Outcome State Fault Refusal :=
  .next ((s.saveHeld ctx).postHeads ctx)

/-! ## Resolutions (R247) -/

/-- The resolution word of a posted record; 0 while it cannot be read. -/
def State.resolution (s : State) (cid key : Nat) : Nat :=
  match findK (s.ctx cid).recs key with
  | some r =>
    if r.seq = 0 then 0
    else
      match (s.loadG none cid (r.va + 0x38) 4).2 with
      | .ok x => x
      | .error _ => 0
  | none => 0

/-- The group of a record's subject still exists. -/
def State.hasGroup (s : State) (gid : Nat) : Bool := (findK s.groups gid).isSome

/-- The records of a group that name a fault record. -/
def Group.pendsOf (g : Group) (key : Nat) : List Pend := g.pending.filter (fun p => p.recKey == key)

/-- Threads of SIGN or ROLE perform it again. -/
def State.heldAgain (s : State) (gid id : Nat) : State :=
  match (s.grp gid).pend? id with
  | some p => (match p.instr with | .sign _ _ _ => s.signAgain gid p | _ => s.roleAgain gid p)
  | none => s

/-- A kind-0 record is done with: with the last one of its workgroup the workgroup re-enters. -/
def State.settleRec (s : State) (cid wid key : Nat) : State :=
  if (findK s.wgs wid).isSome then s.resolveFault wid key else s.dropRecord cid key

def State.dropHeld (s : State) (rid key : Nat) : State :=
  s.modRegion rid (fun r => { r with held := r.held.filter (fun h => !(h.recKey == key)) })

/-- A closed region whose last held write is gone leaves no record. -/
def State.forget (s : State) (rid : Nat) : State :=
  let r := s.region rid
  if r.closed && r.held.isEmpty then { s with regions := delK s.regions rid } else s

/-- A held write is performed again, or dropped; a completion store lets the region close (R236). -/
def State.heldWrite (s : State) (rid key : Nat) (again : Bool) : State :=
  match (s.region rid).held.find? (fun h => h.recKey == key) with
  | none => s
  | some h =>
    let s := s.dropHeld rid key
    let r := if again then s.deviceStore rid h.va h.bytes h.done else (s, true)
    if r.2 then (if h.done then r.1.closeRegion rid else r.1.forget rid) else r.1

/-- An engine that stopped in ERROR goes on from its cursor, once its owner is resident when a pre-emption or HALT has taken
it meanwhile (R191, R247). -/
def State.restart (s : State) (pid : Nat) : State :=
  match (s.wg (s.prog pid).wid).state with
  | .waiting | .halted => s.modProg pid (fun p => { p with state := .stopped, prior := .running, hold := false })
  | _ => s.startProg pid

/-- RETRY by what the record is about; a program acts on the record of its present stop only. -/
def State.retryRec (s : State) (cid key : Nat) (r : FaultRec) : State :=
  match r.subject with
  | .word _ _ | .entry _ _ | .done _ => s.settleRec cid r.wid key
  | .instr gid id =>
    (match (s.grp gid).pend? id with
      | some p => s.redo gid p
      | none => s).settleRec cid r.wid key
  | .pends gid =>
    (((s.grp gid).pendsOf key).foldl (fun s p => s.heldAgain gid p.id) s).settleRec cid r.wid key
  | .matrix gid =>
    (s.modGrp gid (fun g => { g with mat := g.mat.map (fun m => { m with recKey := 0 }) })).settleRec cid r.wid key
  | .engine pid =>
    let s := s.dropRecord cid key
    let p := s.prog pid
    if p.recKey ≠ key then s
    else if p.state = .error then (s.restart pid).modProg pid (fun p => { p with recKey := 0 })
    else s.modProg pid Prog.resolved
  | .copy _ => s.dropRecord cid key
  | .stampOf wid n =>
    (s.dropRecord cid key).modWg wid (fun w => { w with batches := w.batches.map (fun b =>
      if b.n = n then { b with heldRec := 0 } else b) })
  | .after rid =>
    ((s.dropRecord cid key).modRegion rid (fun r => { r with recKey := 0 })).checkAfter rid
  | .rcbWrite rid => (s.dropRecord cid key).heldWrite rid key true

/-- RETRY (R247). -/
def execRetry (ctx key : Nat) (s : State) : Host.Outcome State Fault Refusal :=
  .next (match findK (s.ctx ctx).recs key with
    | some r => if s.resolution ctx key = 1 then s.retryRec ctx key r else s
    | none => s)

/-! ## SKIP -/

/-- The faulting lanes of an issued instruction are done with no effect; lanes that met another fault perform it
again (DEDUCED, log 46). -/
def State.skipPend (s : State) (gid : Nat) (p : Pend) (lanes : LaneMask) : State :=
  match p.instr with
  | .tryT _ _ _ _ =>
    let m := filterLanes (p.lanes &&& ~~~p.done &&& lanes) (fun l => !(s.grp gid).inTrial l)
    let s := s.modGrp gid (fun g => g.modPend p.id (fun p => { p with done := p.done ||| m, kind := .inTrial, recKey := 0 }))
    let s := s.advance gid m
    match (s.grp gid).pend? p.id with
    | some q => s.tryAgain gid q
    | none => s
  | _ =>
    let q : Pend := { p with done := p.done ||| (p.lanes &&& lanes), kind := .result, recKey := 0 }
    let s := s.modGrp gid (fun g => g.modPend p.id (fun _ => q))
    if q.lanes &&& ~~~q.done == 0 then s else s.redo gid q

/-- Every thread of a SIGN or a ROLE that is not done passes it, those that had yet to sign among them (R394). -/
def State.skipHeld (s : State) (gid id : Nat) : State :=
  match (s.grp gid).pend? id with
  | some p => s.releaseLanes gid id (p.lanes &&& ~~~p.done)
  | none => s

/-- A region and its descendants. -/
def State.subtree (s : State) (rid : Nat) : List Nat :=
  (s.regions.filter (fun q => (s.chainOf q.1 17).contains rid)).map (fun q => q.1)

/-- ABANDON_REGION: the region and every descendant stop placing work and retire their workgroups. -/
def State.abandonRegion (s : State) (rid : Nat) : State :=
  let rs := s.subtree rid
  let s := rs.foldl (fun s r => s.modRegion r (fun q => { q with abandoned := true })) s
  let ws := (s.wgs.filter (fun q => rs.contains q.2.rid)).map (fun q => q.1)
  (ws.foldl (fun s w => s.retireWg w) s).reap

/-- SKIP by what the record is about. -/
def State.skipRec (s : State) (cid key : Nat) (r : FaultRec) : State :=
  match r.subject with
  | .word gid lanes => (s.advance gid lanes).settleRec cid r.wid key
  | .entry _ _ | .done _ => s.settleRec cid r.wid key
  | .instr gid id =>
    (match (s.grp gid).pend? id with
      | some p => s.skipPend gid p r.lanes
      | none => s).settleRec cid r.wid key
  | .pends gid =>
    (((s.grp gid).pendsOf key).foldl (fun s p => s.skipHeld gid p.id) s).settleRec cid r.wid key
  | .matrix gid =>
    (match (s.grp gid).mat with
      | some m => s.matDone gid m.pend
      | none => s).settleRec cid r.wid key
  | .engine pid =>
    let s := s.dropRecord cid key
    let p := s.prog pid
    if p.recKey ≠ key then s
    else if p.state = .error then (s.restart pid).modProg pid (fun p => { p with recKey := 0, owed := some (p.err, none) })
    else if r.code = Code.enginePage then
      s.modProg pid (fun p => { p.resolved with owed := some (8, none), prior := (if p.prior = .page then .running else p.prior) })
    else s.modProg pid (fun p => p.resolved.toCmd (p.index + 1))
  | .copy wid => (s.dropRecord cid key).modWg wid (fun w => w.loseBatch)
  | .stampOf wid n => (s.dropRecord cid key).modWg wid (fun w => w.dropBatch n)
  | .after rid => (s.dropRecord cid key).abandonRegion rid
  | .rcbWrite rid => (s.dropRecord cid key).heldWrite rid key false

/-- SKIP (R247). -/
def execSkip (ctx key : Nat) (s : State) : Host.Outcome State Fault Refusal :=
  .next (match findK (s.ctx ctx).recs key with
    | some r => if s.resolution ctx key = 2 then s.skipRec ctx key r else s
    | none => s)

/-! ## Abandonment -/

/-- The record is dropped, and with it the held write that it is about. -/
def State.dropAbout (s : State) (cid key : Nat) (r : FaultRec) : State :=
  let s := s.dropRecord cid key
  match r.subject with
  | .rcbWrite rid => s.heldWrite rid key false
  | _ => s

/-- ABANDON_WG by kind: the workgroup, or the owner, retires as if every thread had exited; kind 3 is read as
ABANDON_REGION. -/
def State.abandonRec (s : State) (cid key : Nat) (r : FaultRec) (whole : Bool) : State :=
  let s := s.dropAbout cid key r
  if whole || r.kind == 3 then s.abandonRegion r.rid else (s.retireWg r.wid).reap

/-- ABANDON_WG (R247). -/
def execAbandonWg (ctx key : Nat) (s : State) : Host.Outcome State Fault Refusal :=
  .next (match findK (s.ctx ctx).recs key with
    | some r => if s.resolution ctx key = 3 then s.abandonRec ctx key r false else s
    | none => s)

/-- ABANDON_REGION, and every code above it (R247). -/
def execAbandonRegion (ctx key : Nat) (s : State) : Host.Outcome State Fault Refusal :=
  .next (match findK (s.ctx ctx).recs key with
    | some r => if 4 ≤ s.resolution ctx key then s.abandonRec ctx key r true else s
    | none => s)

end Sys2Proof.Machine
end

