-- ==== Sys2Proof/Machine/Sha.lean ====
section
/-! DEFINITION. SHA-384, which R283, R284 and R290 name (the hash of FIPS 180-4; PRESUMED, log 20). -/
namespace Sys2Proof.Machine

/-- The `k`-th root of `n`, cut to an integer: its bits from `b` down, `r` being those found. -/
def rootFrom (k n : Nat) : Nat → Nat → Nat
  | 0, r => r
  | b + 1, r => rootFrom k n b (if (r + 2 ^ b) ^ k ≤ n then r + 2 ^ b else r)

/-- The first 64 bits of the fraction of the `k`-th root of a number below 512. -/
def rootBits (k p : Nat) : Word := wordN (rootFrom k (p * 2 ^ (64 * k)) 69 0)

/-- A number below 441 without a divisor up to 20 other than itself. -/
def smallPrime (n : Nat) : Bool := decide (2 ≤ n) && (List.range 21).all (fun d => decide (d < 2 ∨ n ≤ d ∨ n % d ≠ 0))

/-- The first eighty primes. -/
def shaPrimes : List Nat := (List.range 410).filter smallPrime

/-- The round constants: from the cube roots of the first eighty primes. -/
def shaK : List Word := shaPrimes.map (rootBits 3)

/-- The words before the first block: from the square roots of the ninth to the sixteenth prime. -/
def shaInit : List Word := ((shaPrimes.drop 8).take 8).map (rootBits 2)

/-- Big-endian bytes. -/
def natBE (bs : List Byte) : Nat := natLE bs.reverse
def bytesBE (n x : Nat) : List Byte := (bytesLE n x).reverse

/-- Successive pieces of a list. -/
def pieces (n : Nat) : Nat → List Byte → List (List Byte)
  | 0, _ => []
  | k + 1, bs => bs.take n :: pieces n k (bs.drop n)

/-- The message with its padding, a multiple of 128 bytes. -/
def shaPad (bs : List Byte) : List Byte :=
  bs ++ [0x80] ++ List.replicate (127 - (bs.length + 16) % 128) 0 ++ bytesBE 16 (8 * bs.length)

/-- The message schedule, latest word first. -/
def shaSched : Nat → List Word → List Word
  | 0, l => l
  | n + 1, l =>
    let a := nth l 0 1
    let b := nth l 0 14
    let s1 := a.rotateRight 19 ^^^ a.rotateRight 61 ^^^ (a >>> 6)
    let s0 := b.rotateRight 1 ^^^ b.rotateRight 8 ^^^ (b >>> 7)
    shaSched n ((s1 + nth l 0 6 + s0 + nth l 0 15) :: l)

/-- One round on the working words a to h. -/
def shaRound (v : List Word) (kw : Word × Word) : List Word :=
  match v with
  | [a, b, c, d, e, f, g, h] =>
    let t1 := h + (e.rotateRight 14 ^^^ e.rotateRight 18 ^^^ e.rotateRight 41) + ((e &&& f) ^^^ (~~~e &&& g))
      + kw.1 + kw.2
    let t2 := (a.rotateRight 28 ^^^ a.rotateRight 34 ^^^ a.rotateRight 39) + ((a &&& b) ^^^ (a &&& c) ^^^ (b &&& c))
    [t1 + t2, a, b, c, d + t1, e, f, g]
  | _ => v

/-- One block of 128 bytes. -/
def shaBlock (v : List Word) (bs : List Byte) : List Word :=
  let w := ((pieces 8 16 bs).map (fun b => wordN (natBE b))).reverse
  List.zipWith (fun x y => x + y) v ((shaK.zip (shaSched 64 w).reverse).foldl shaRound v)

/-- SHA-384: 48 bytes. -/
def sha384 (bs : List Byte) : List Byte :=
  let m := shaPad bs
  (((pieces 128 (m.length / 128) m).foldl shaBlock shaInit).take 6).flatMap (fun x => bytesBE 8 x.toNat)

end Sys2Proof.Machine
end

