-- ==== Sys2Proof/Machine/Appendix.lean ====
section
/-! DEFINITION. What follows section 7 of an image, read back into a restored context (13 R257, R259, R261, R264; DESIGN CHOICE,
log 17). -/
namespace Sys2Proof.Machine

/-! ## Names -/

/-- The group of a workgroup with this grpid. -/
def State.gidOf (s : State) (w : Wg) (grpid : Nat) : Nat :=
  (w.gids.find? (fun gid => (s.grp gid).grpid == grpid)).getD 0

/-- The region of the context with a number. -/
def State.byRegno (s : State) (cid regno : Nat) : Nat :=
  ((s.regions.find? (fun q => q.2.ctx == cid && q.2.regno == regno)).map (fun q => q.1)).getD 0

/-- The workgroup of the context that a region number and an index name. -/
def State.wgNamed (s : State) (cid regno wgid : Nat) : Nat :=
  ((s.wgs.find? (fun q => q.2.ctx == cid && q.2.wgid == wgid && (s.region q.2.rid).regno == regno)).map
    (fun q => q.1)).getD 0

/-- The k-th program of the context. -/
def State.progAt (s : State) (cid k : Nat) : Nat := nth ((s.progs.filter (fun q => q.2.ctx == cid)).map (fun q => q.1)) 0 k

/-! ## Entries -/

/-- An entry: what it is of, and its words. -/
abbrev Entry := Nat × List Nat

/-- At most `fuel` entries. -/
def entriesIn : Nat → List Nat → List Entry
  | 0, _ => []
  | _ + 1, [] => []
  | _ + 1, [_] => []
  | fuel + 1, tag :: len :: rest => (tag, rest.take len) :: entriesIn fuel (rest.drop len)

/-- The words after the sections, which end at `end_`. -/
def tailWords (bs : List Byte) (end_ : Nat) : List Nat :=
  let tail := bs.drop ((end_ + 255) / 256 * 256)
  (pieces 8 (tail.length / 8) tail).map natLE

/-- An image ends with its sections, or what follows is an appendix. -/
def tailOk (bs : List Byte) (end_ : Nat) : Bool :=
  end_ == bs.length || (tailWords bs end_).head? == some appendixMagic

/-- The entries of an image whose sections end at `end_`. -/
def appendixIn (bs : List Byte) (end_ : Nat) : List Entry :=
  let ws := tailWords bs end_
  entriesIn ws.length (ws.drop 1)

/-- Word `k` of an entry. -/
def Entry.word (e : Entry) (k : Nat) : Nat := nth e.2 0 k

/-- `n` rows of `width` words from word `k` on. -/
def Entry.rows (e : Entry) (k width n : Nat) : List (List Nat) :=
  (List.range n).map (fun j => (e.2.drop (k + width * j)).take width)

/-! ## Pending records and trial lanes -/

def keyOfNum (n : Nat) : RegKey :=
  if n < 256 then .v n else if n < 512 then .s (n - 256) else if n < 1024 then .p (n - 512) else .win

/-- The pairs of words from word `k` on. -/
def Entry.pairs (e : Entry) (k : Nat) : List (Nat × Nat) :=
  (e.rows k 2 ((e.2.length - k) / 2)).map (fun r => (nth r 0 0, nth r 0 1))

/-- The address of a pending record's word, and what younger instructions have written (R53, R257). -/
def State.takePendEntry (s : State) (cid : Nat) (e : Entry) : State :=
  let gid := s.gidOf (s.wg (s.wgNamed cid (e.word 0) (e.word 1))) (e.word 2)
  s.modGrp gid (fun g => { g with pending := g.pending.mapIdx (fun k p =>
    if k = e.word 3 then
      { p with pc := wordN (e.word 4), dead := (e.pairs 5).map (fun d => (keyOfNum d.1, BitVec.ofNat 32 d.2)) }
    else p) })

/-- The last word that a trial lane has executed (R270). -/
def State.takeViaEntry (s : State) (cid : Nat) (e : Entry) : State :=
  let gid := s.gidOf (s.wg (s.wgNamed cid (e.word 0) (e.word 1))) (e.word 2)
  s.modGrp gid (fun g => g.modLane (e.word 3) (fun t => { t with via := wordN (e.word 4) }))

/-! ## Copies, seals and batches -/

/-- A slice joins its copy: the copy's index, the slice's group, whether the copy has started, its batch. -/
def joinSlice (cs : List Copy) (q : Slice × List Nat) : List Copy :=
  let k := nth q.2 0 0
  let x := { q.1 with grpid := nth q.2 0 1 }
  if cs.any (fun c => c.index == k) then cs.map (fun c => if c.index = k then { c with slices := c.slices ++ [x] } else c)
  else cs ++ [{ index := k, slices := [x], started := nth q.2 0 2 == 1, done := 0, batch := nth q.2 0 3 }]

/-- At most `fuel` seals from a list of words. -/
def sealsIn : Nat → List Nat → List Seal
  | 0, _ => []
  | fuel + 1, k :: before :: n :: rest =>
    { k := k, before := before,
      entries := (List.range n).map (fun j => (nth rest 0 (3 * j), nth rest 0 (3 * j + 1), nth rest 0 (3 * j + 2))) }
      :: sealsIn fuel (rest.drop (3 * n))
  | _ + 1, _ => []

/-- The copies of a restored workgroup with what R259 does not say of them. -/
def State.takeCopyEntry (s : State) (cid : Nat) (e : Entry) : State :=
  let wid := s.wgNamed cid (e.word 0) (e.word 1)
  let ns := e.word 4
  let nb := e.word 5
  let ng := e.word 7
  let w := s.wg wid
  let cs := ((w.copies.flatMap (fun c => c.slices)).zip (e.rows 8 4 ns)).foldl joinSlice []
  let done := match w.copies with | c :: _ => c.done | [] => 0
  let cs := match cs with | c :: rest => { c with done := done } :: rest | [] => []
  let bs := w.batches.mapIdx (fun k b => { b with err := e.word (8 + 4 * ns + k) })
  let gs := e.rows (8 + 4 * ns + nb) 4 ng
  let s := gs.foldl (fun s r => s.modGrp (s.gidOf w (nth r 0 0)) (fun g =>
    { g with nCopy := nth r 0 1, nSeal := nth r 0 2, lastSeal := nth r 0 3 })) s
  s.modWg wid (fun w => { w with
    copies := cs, batches := bs, seals := sealsIn (e.word 6) (e.2.drop (8 + 4 * ns + nb + 4 * ng)), closed := e.word 2,
    openErr := e.word 3 })

/-! ## Programs -/

/-- An optional pair from word `k` on. -/
def Entry.opt (e : Entry) (k : Nat) : Option (Nat × Nat) :=
  if e.word k = 0 then none else some (e.word (k + 1), e.word (k + 2))

/-- Where a restored program stands in its command. -/
def State.takeProgEntry (s : State) (cid : Nat) (e : Entry) : State :=
  let q (k : Nat) : Word := wordN (e.word k)
  let cmd := if e.word 10 = 0 then none
    else some (decodeCmd (joinQuads { q0 := q 11, q1 := q 12, q2 := q 13, q3 := q 14 }))
  s.modProg (s.progAt cid (e.word 0)) (fun p => { p with
    owed := (e.opt 1).map (fun o => (o.1, if o.2 = 0 then none else some (o.2 - 1))), slotErr := e.opt 4, blk := e.word 7,
    blkAddr := e.word 8, blkDone := e.word 9, cmd := cmd, rewalk := e.word 15 == 1 })

/-- What the entries say of workgroups and programs. -/
def State.takeEntries (s : State) (cid : Nat) (es : List Entry) : State :=
  es.foldl (fun s e => match e.1 with
    | 1 => s.takePendEntry cid e
    | 2 => s.takeViaEntry cid e
    | 3 => s.takeCopyEntry cid e
    | 4 => s.takeProgEntry cid e
    | _ => s) s

/-! ## Records of kinds 1 to 3 -/

/-- What a record is about. -/
def State.aboutOf (s : State) (cid : Nat) (e : Entry) : Option Subject :=
  let wid := s.wgNamed cid (e.word 4) (e.word 5)
  let rid := s.byRegno cid (e.word 4)
  match e.word 3 with
  | 1 => some (.engine (s.progAt cid (e.word 4)))
  | 2 => some (.copy wid)
  | 3 => some (.stampOf wid (e.word 6))
  | 4 => some (.after rid)
  | 5 => some (.rcbWrite rid)
  | _ => none

/-- The write that a record of kind 3 holds. -/
def Entry.heldWrite (e : Entry) (va key : Nat) : HeldWrite :=
  { va := va, bytes := bytesLE (e.word 8) (e.word 9), recKey := key, done := e.word 7 == 1 }

/-- The entry of a held record, by its domain and its place there. -/
def heldEntry (es : List Entry) (dom k : Nat) : Option Entry :=
  es.find? (fun e => e.1 == 5 && e.word 0 == dom && e.word 1 == 0 && e.word 2 == k)

/-- The held write that a record is about, where no entry says: the completion store, the status bytes of an open region, or
those of a child that its parent's SPAWN could not launch (R39, R236, R255). -/
def State.heldWriteOf (s : State) (cid rid va key : Nat) : HeldWrite :=
  let r := s.region rid
  let last := r.state == .awaiting && r.openKids == 0
  if va = r.rcb.doneA.toNat ∧ last = true then { va := va, bytes := bytesLE 8 r.rcb.doneV.toNat, recKey := key, done := true }
  else if va = r.rcbaddr.toNat + 0xF0 then
    { va := va, bytes := if last then [2] else [1, 0, 0, 0] ++ bytesLE 4 r.regno, recKey := key, done := false }
  else
    let why := match (s.loadBytes none cid (va - 0xF0) 256).2 with
      | .ok bs => max 1 (s.refusal cid bs (some r))
      | .error _ => 1
    { va := va, bytes := [4, BitVec.ofNat 8 why], recKey := key, done := false }

/-- What a record waits in: the region's location, a held write, or a held stamp. -/
def State.tieHeld (s : State) (cid key va : Nat) (sub : Subject) (e : Option Entry) : State :=
  match sub with
  | .after rid => s.modRegion rid (fun r => { r with recKey := key })
  | .rcbWrite rid =>
    let h := match e with | some e => e.heldWrite va key | none => s.heldWriteOf cid rid va key
    s.modRegion rid (fun r => { r with held := r.held ++ [h], finished := r.finished || h.done })
  | .stampOf wid n => s.modWg wid (fun w => { w with batches := w.batches.map (fun b =>
      if b.n = n then { b with heldRec := key } else b) })
  | .word gid _ | .entry gid _ | .done gid =>
    s.modWg (s.grp gid).wid (fun w => if w.recs.contains key then w else { w with recs := w.recs ++ [key] })
  | .engine pid => s.modProg pid (fun p => { p with recKey := key })
  | _ => s

/-- A record from its 64 bytes (R245). -/
def recOf (dom rid wid : Nat) (sub : Subject) (bs : List Byte) : FaultRec :=
  { domain := dom, code := fieldLE bs 0 2, kind := fieldLE bs 2 1, rid := rid, regno := fieldLE bs 4 4, wid := wid,
    wgid := fieldLE bs 0x10 4, grpid := fieldLE bs 0x14 2, unit := fieldLE bs 0x16 2, pc := wordN (fieldLE bs 0x18 8),
    addr := wordN (fieldLE bs 0x20 8), lanes := BitVec.ofNat 32 (fieldLE bs 0x28 4), detail := fieldLE bs 0x2C 4,
    word := wordN (fieldLE bs 0x30 8), subject := sub, seq := fieldLE bs 8 8, va := 0, host := false }

/-- A posted record of kind 1 to 3 is watched again (R264). -/
def State.watchPosted (s : State) (cid : Nat) (e : Entry) : State :=
  match s.aboutOf cid e with
  | none => s
  | some sub =>
    let bs := (e.2.drop 10).flatMap (fun w => bytesLE 8 w)
    let rid := s.byRegno cid (fieldLE bs 4 4)
    let wid := s.wgNamed cid (fieldLE bs 4 4) (fieldLE bs 0x10 4)
    let key := s.nextKey cid
    let r := { recOf (e.word 0) rid wid sub bs with va := e.word 2, host := (s.handler cid rid).isNone }
    (s.modCtx cid (fun c => { c with recs := insK c.recs key r, nextRec := key + 1 })).tieHeld cid key r.addr.toNat sub (some e)

/-- Every posted record of kind 1 to 3 of an image. -/
def State.watchAll (s : State) (cid : Nat) (es : List Entry) : State :=
  es.foldl (fun s e => if e.1 = 5 ∧ e.word 1 = 1 then s.watchPosted cid e else s) s

end Sys2Proof.Machine
end

