-- ==== Sys2Proof/Machine/Migrate.lean ====
section
/-! DEFINITION. HALT, RESUME and DISCARD (13 R253, R259 to R261, R264; 18 R304). -/
namespace Sys2Proof.Machine

/-! ## Answers of commands (R303) -/

/-- A command is done: cstat, result and irq bit 1. -/
def State.answer (s : State) (status index : Nat) (result : Word) : State :=
  { s with mgmt := { s.mgmt with cstat := s.mgmt.cstat &&& 0x200 ||| wordN (status + index * 2 ^ 32), result := result,
                                 irq := s.mgmt.irq ||| 2 } }

/-- A command that goes on: busy stays set until it ends (R303). -/
def State.busy (s : State) : State := { s with mgmt := { s.mgmt with cstat := s.mgmt.cstat &&& 0x200 ||| 0x100 } }

/-- A command before ready is dropped (R311). -/
def State.command (s : State) (f : State → State) : State :=
  if s.mgmt.ready then f s else { s with mgmt := s.mgmt.drop }

/-- A command that acts on the context in ctx; 14 NO_CONTEXT without one (R304). -/
def State.ctxCommand (s : State) (f : Nat → State → State) : State :=
  s.command (fun s =>
    let cid := s.mgmt.ctx.toNat
    if (findK s.ctxs cid).isSome then f cid s else s.answer 14 0 0)

/-! ## HALT (R253) -/

/-- The switch of a core concerns the context: for its candidate or for a workgroup that it sends away. -/
def State.switchOf (s : State) (cid core : Nat) : Bool :=
  match (s.core core).switch with
  | .requested rid wgid home _ =>
    (rid != 0 && (s.region rid).ctx == cid)
      || (let spread := match s.candidates.find? (fun c => c.rid == rid && c.wgid == wgid) with
            | some c => (s.need c).spread
            | none => false
          (s.outgoing (s.switchCores home spread)).any (fun wid => (s.wg wid).ctx == cid))
  | .spilling out => out.any (fun wid => (s.wg wid).ctx == cid)
  | .none => false

/-- The next state of an event. -/
def State.after (s : State) (r : Host.Outcome State Fault Refusal) : State :=
  match r with
  | .next t => t
  | _ => s

/-- A switch that concerns the context finishes: the swap, and the spill as far as the pool has room (R252). -/
def State.endSwitch (s : State) (cid core : Nat) : State :=
  if s.switchOf cid core then
    let home := match (s.core core).switch with | .requested _ _ h _ => h | _ => core
    let s := match (s.core core).switch with | .requested _ _ _ _ => s.after (execBankSwap home s) | _ => s
    let s := s.after (execSpillDone core s)
    { s with cores := s.cores.map (fun q => (q.1, match q.2.switch with
        | .spilling out =>
          let rest := out.filter (fun wid => (s.wg wid).ctx != cid)
          { q.2 with switch := if rest.isEmpty then .none else .spilling rest }
        | _ => q.2)) }
  else s

def State.endSwitches (s : State) (cid : Nat) : State :=
  s.cores.foldl (fun s q => s.endSwitch cid q.1) s

/-- A workgroup of a halted context leaves its cores. -/
def State.haltWg (s : State) (wid : Nat) : State :=
  match findK s.wgs wid with
  | none => s
  | some w =>
    if w.onCore then
      let s := (s.beforeLeaving wid).debitDue wid
      let s := if w.state = .resident then s.freezeHolds wid else s
      (s.settleWg wid).modWg wid (fun w => { w with
        state := (match w.state with | .resident => .halted | .suspended _ => .suspended false | x => x) })
    else (s.debitDue wid).settleWg wid

/-- The programs of the context stop, not held; a queued one stays queued, and no engine takes it (R191, R253, R254). -/
def State.haltProgs (s : State) (cid : Nat) : State :=
  { s with progs := s.progs.map (fun q =>
      (q.1, if q.2.ctx = cid ∧ q.2.queued = false then q.2.stop false else q.2)) }

/-- Posts what can be posted of the held records, in each domain. -/
def State.postAll (s : State) (cid : Nat) : Nat → State
  | 0 => s
  | n + 1 => (s.postHeads cid).postAll cid n

/-- What raised the record can raise it again: all but the writes of the device into RCBs, and the end of a program whose owner
is gone. -/
def State.canWithdraw (s : State) (cid key : Nat) : Bool :=
  match findK (s.ctx cid).recs key with
  | some r => (match r.subject with
    | .rcbWrite _ => false
    | .engine pid => (findK s.progs pid).isSome
    | _ => true)
  | none => false

/-- The records that a full hold list has no room for: the last of those that can be raised again. -/
def State.tooMany (s : State) (cid : Nat) : List Nat :=
  let hold := (s.ctx cid).hold
  let again := hold.filter (s.canWithdraw cid)
  again.drop (4096 - (hold.length - again.length))

/-- A record that the hold list has no room for is withdrawn: what raised it raises it again after RESUME (R244; DESIGN CHOICE,
log 49). -/
def State.withdraw (s : State) (cid key : Nat) : State :=
  match findK (s.ctx cid).recs key with
  | none => s
  | some r =>
    match r.subject with
    | .word _ _ | .entry _ _ => s.settleRec cid r.wid key
    | .instr gid id =>
      (s.modGrp gid (fun g => g.modPend id (fun p => { p with kind := .behind, recKey := 0 }))).settleRec cid r.wid key
    | .pends gid =>
      let ids := ((s.grp gid).pendsOf key).map (fun p => p.id)
      (s.modGrp gid (fun g => ids.foldl (fun g id => match g.pend? id with
        | some p => ((g.modTh (p.lanes &&& ~~~p.done) (fun t => { t with held := .no })).dropPend id).dischargeFlag p.flag
        | none => g) g)).settleRec cid r.wid key
    | .matrix gid =>
      (s.modGrp gid (fun g => { g with mat := g.mat.map (fun m => { m with recKey := 0 }) })).settleRec cid r.wid key
    | .engine pid => (s.dropRecord cid key).modProg pid (fun p =>
        if p.state = .error then { p with state := .stopped, prior := .running, hold := false, err := 0, recKey := 0 }
        else { p with recKey := 0 })
    | .copy _ => s.dropRecord cid key
    | .stampOf wid n =>
      (s.dropRecord cid key).modWg wid (fun w => { w with batches := w.batches.map (fun b =>
        if b.n = n then { b with heldRec := 0 } else b) })
    | .after rid => (s.dropRecord cid key).modRegion rid (fun r => { r with recKey := 0 })
    | .done gid =>
      (s.modGrp gid (fun g => g.modTh r.lanes (fun t => { t with pc := r.pc, entering := none }))).settleRec cid r.wid key
    | .rcbWrite _ => s

/-- A resolution that was written before the stop is acted on (R264). -/
def State.actOn (s : State) (cid key : Nat) : State :=
  match findK (s.ctx cid).recs key, s.resolution cid key with
  | some r, 1 => s.retryRec cid key r
  | some r, 2 => s.skipRec cid key r
  | some r, 3 => s.abandonRec cid key r false
  | some _, 0 => s
  | some r, _ => s.abandonRec cid key r true
  | none, _ => s

/-- The abandoned regions of a context complete, children before their parents (R247). -/
def State.completeAbandoned (s : State) (cid : Nat) : State :=
  (s.regions.reverse.filter (fun q => q.2.ctx == cid && q.2.abandoned)).foldl (fun s q =>
    if s.completable q.1 then s.completeRegion q.1 else s) s

/-- What HALT does to a context, in one step (DESIGN CHOICE, log 48). -/
def State.haltCtx (s : State) (cid : Nat) : State :=
  let s := ((s.ctx cid).recs.map (fun q => q.1)).foldl (fun s k => s.actOn cid k) s
  let s := (s.completeAbandoned cid).endSwitches cid
  let s := ((s.wgs.filter (fun q => q.2.ctx == cid)).map (fun q => q.1)).foldl (fun s wid => s.haltWg wid) s
  let s := s.haltProgs cid
  let s := s.postAll cid (s.ctx cid).hold.length
  let s := (s.tooMany cid).foldl (fun s k => s.withdraw cid k) s
  s.modCtx cid (fun c => { c with halted := true, reserved := none })

/-- The root region that HALT names. -/
def State.rootAt (s : State) (cid : Nat) (va : Word) : Bool :=
  (s.openOf cid).any (fun q => q.2.rcbaddr == va && q.2.parent.isNone)

/-- HALT: 0 HALTED, 1 SMALL, 2 NO_CONTEXT (DESIGN CHOICE, log 48). -/
def execHalt (s : State) : Host.Outcome State Fault Refusal :=
  .next (s.command (fun s =>
    let cid := s.mgmt.ctx.toNat
    if !s.rootAt cid s.mgmt.arg0 then s.answer 2 0 0
    else
      let s := if (s.ctx cid).halted then s else s.haltCtx cid
      let bs := s.image cid s.mgmt.arg3
      if s.mgmt.arg2.toNat < bs.length then s.answer 1 0 (wordN bs.length)
      else (s.putPhys s.mgmt.arg1.toNat bs).answer 0 0 (wordN bs.length)))

/-- Everything of a context goes: regions, workgroups, groups, programs, objects, TLB entries and records (R304). -/
def State.dropCtx (s : State) (cid : Nat) : State :=
  let gids := (s.wgs.filter (fun q => q.2.ctx == cid)).flatMap (fun q => q.2.gids)
  let s := (s.dropTlb cid none).dropCopies cid none
  { s with groups := s.groups.filter (fun q => !(gids.contains q.1)),
           wgs := s.wgs.filter (fun q => !(q.2.ctx == cid)),
           regions := s.regions.filter (fun q => !(q.2.ctx == cid)),
           progs := s.progs.filter (fun q => !(q.2.ctx == cid)),
           objects := s.objects.filter (fun q => !(q.2.ctx == cid)),
           loads := s.loads.filter (fun l => l.ctx != cid),
           ctxs := delK s.ctxs cid }

/-- DISCARD: a halted context is released; one that is not halted is BUSY (DESIGN CHOICE, log 19). -/
def execDiscard (s : State) : Host.Outcome State Fault Refusal :=
  .next (s.ctxCommand (fun cid s => if (s.ctx cid).halted then (s.dropCtx cid).answer 0 0 0 else s.answer 11 0 0))

/-! ## Reading an image -/

/-- Physical memory from an address on; none where it is no memory or cannot be read. -/
def State.getPhys (s : State) (pa : Nat) : Nat → Option (List Byte)
  | 0 => some []
  | n + 1 =>
    match s.target pa with
    | some (.mem loc) => if s.poisoned loc 1 then none else (s.getPhys (pa + 1) n).map (fun bs => s.byteAt loc :: bs)
    | _ => none

def sub (bs : List Byte) (off n : Nat) : List Byte := (bs.drop off).take n

def wordAt (bs : List Byte) (off : Nat) : Word := wordN (fieldLE bs off 8)
def maskAt (bs : List Byte) (off : Nat) : LaneMask := BitVec.ofNat 32 (fieldLE bs off 4)

/-- The directory obeys R254. -/
def dirOk (len : Nat) : Nat → List (Nat × Nat) → Bool
  | _, [] => true
  | off, [(o, n)] => o == off && decide (o + n ≤ len)
  | off, (o, n) :: rest => o == off && dirOk len (alignTo (off + n) 256) rest

def dirOf (bs : List Byte) : List (Nat × Nat) :=
  (List.range 8).map (fun k => (fieldLE bs (0x80 + 16 * k) 8, fieldLE bs (0x88 + 16 * k) 8))

/-- Where the sections of an image end. -/
def sectionsEnd (bs : List Byte) : Nat :=
  match nth (dirOf bs) (0, 0) 7 with
  | (o, n) => o + n

def secOf (bs : List Byte) (k : Nat) : List Byte :=
  match nth (dirOf bs) (0, 0) k with
  | (o, n) => sub bs o n

/-! ## Groups -/

/-- A saved thread; its header's reconvergence offset and what holds it are filled in later. -/
def threadOf (bs : List Byte) : Thread :=
  let st := fieldLE bs 27 1
  let t : Thread :=
    { Thread.absent with
      pc := wordAt bs 0, hdr := wordAt bs 8, rc := (if wordAt bs 16 = 0 then none else some (wordAt bs 16)),
      len := fieldLE bs 24 2, kind := fieldLE bs 26 1, exited := st.testBit 0,
      held := (if st.testBit 1 then .rc (1 - (fieldLE bs 28 2 : Int)) else .no), allow := fieldLE bs 32 4,
      trialwin := wordAt bs 40 }
  if t.exited then t
  else if t.len = 0 then { t with entering := some (if t.kind = 3 then 2 else 1), kind := 0 }
  else t.markEnd

/-- The kind of a saved record: partly performed, waiting, in its unit, or not performed yet (R257; a matrix command is told
apart by its own record, `State.sortUnits`). -/
def kindOf (i : Instr) (o : Ops) (flags : Nat) : PendKind :=
  if flags.testBit 0 then .faulted
  else
    match i with
    | .wsync _ _ d pe _ _ | .wwait _ _ d pe _ _ | .wwaitseq _ _ d pe _ _ =>
      if flags.testBit 1 then .weir (o.lc 1).toNat (o.lc 0 == 1) d pe else .behind
    | .waitstamp c _ _ d _ _ => if flags.testBit 1 then .stampWait c.u d else .behind
    | .bwait _ _ => .bwait (o.la 0).toNat
    | .tryT _ _ _ _ => .inTrial
    | .role _ _ => .role
    | .sign _ _ _ => .sign
    | .mma .. | .mlda .. | .msta .. | .mzero .. => .unit
    | .pmv .. => if flags.testBit 2 then .unit else .behind
    | _ => .behind

def wordsOf (bs : List Byte) (off : Nat) : List Word := laneList.map (fun l => wordAt bs (off + 8 * l))

/-- A saved pending record under a number, with the code and address of its fault record. -/
def pendOf (id : Nat) (bs : List Byte) : Pend × Nat × Nat :=
  let i := match decodeWord (wordAt bs 0) with | .ok i => i | .error _ => .reservedOpcode (wordAt bs 0)
  let o : Ops := { a := wordsOf bs 0x10, b := wordsOf bs 0x110, c := wordsOf bs 0x210 }
  let todo := ~~~(maskAt bs 8)
  let back : LaneMask := match i with | .tryT _ _ _ _ => maskAt bs 804 | _ => 0
  ({ id := id, pc := Config.lostPc id, instr := i, lanes := todo ||| back, done := back,
     flag := (i.ctl?).bind setFlag, kind := kindOf i o (fieldLE bs 12 4), due := 0, ops := o, recKey := 0, dead := [],
     entered := (match i with | .tryT _ _ _ _ => maskAt bs 800 | _ => 0) },
   fieldLE bs 0x310 2, fieldLE bs 0x318 8)

/-- Bytes of a saved pending record. -/
def pendSize (bs : List Byte) : Nat :=
  match decodeWord (wordAt bs 0) with
  | .ok (.tryT _ _ _ _) => 800 + 8976
  | _ => 800

/-- What is saved of a lane's trial. -/
def trialOf (p : Pend) (l : Nat) (bs : List Byte) : TrialLane :=
  let r := sub bs (816 + 280 * l) 280
  let out := match p.instr with | .tryT _ d _ _ => d.val | _ => 0
  { TrialLane.mk 0 0 0 0 [] 0 0 0 0 0 0 0 0 0 with
    pend := p.id, ret := wordAt r 0, segBase := wordAt r 8, segLen := wordAt r 16,
    scratch := putScratch [] 0 (sub r 24 256), start := min (low32 (p.ops.lb l)).toNat 0xFFFFFF, outReg := out,
    flag := p.flag.getD 15, vlim := bits (p.ops.lc l).toNat 57 54, window := p.ops.lc l }

/-- A record's threads stand as it left them: held, or in their candidates. -/
def Group.takePend (g : Group) (p : Pend) (bs : List Byte) : Group :=
  let todo := p.lanes &&& ~~~p.done
  let g := { g with pending := g.pending ++ [p] }
  match p.instr with
  | .sign _ k _ => g.modTh todo (fun t => { t with held := .sign k.val p.id })
  | .role _ n => g.modTh todo (fun t => { t with held := .role n.toNat p.id })
  | .bwait _ _ => g.modTh todo (fun t => { t with held := .bwait p.id })
  | .tryT _ _ _ _ =>
    (lanesOf (maskAt bs 800 &&& ~~~(maskAt bs 804))).foldl (fun g l =>
      { g.modLane l (fun t => { t with trial := some (trialOf p l bs) }) with trialSram := true }) g
  | .pmv _ _ _ _ _ =>
    if p.kind != .unit then g else
    { g with pal := some { pend := p.id, lanes := p.lanes, base := (p.ops.la 0).toNat, count := (p.ops.la 1).toNat,
                           x := (p.ops.la 2).toNat, y := (p.ops.la 3).toNat } }
  | _ => g

/-- The saved records of a group, numbered from `id`: the group with them, what names their fault records, and the
bytes that follow. -/
def Group.takePends (g : Group) : Nat → Nat → List Byte → List (Nat × Nat × Nat) → Group × List (Nat × Nat × Nat) × List Byte
  | 0, _, bs, names => (g, names, bs)
  | n + 1, id, bs, names =>
    let r := pendOf id bs
    (g.takePend r.1 bs).takePends n (id + 1) (bs.drop (pendSize bs)) (names ++ [(id, r.2)])

def cursorOf (bs : List Byte) : Cursor :=
  { next := fieldLE bs 0 4, idx := BitVec.ofNat 32 (fieldLE bs 4 4), basin := BitVec.ofNat 32 (fieldLE bs 8 4),
    part := BitVec.ofNat 32 (fieldLE bs 12 4), seen := wordAt bs 16, state := fieldLE bs 24 1,
    code := BitVec.ofNat 8 (fieldLE bs 25 1), groups := fieldLE bs 26 1, e8 := BitVec.ofNat 8 (fieldLE bs 27 1),
    last := fieldLE bs 28 2 }

/-- A map from fields, an entry equal to the default unlisted. -/
def fieldsMap {α : Type} [DecidableEq α] (d : α) (f : Nat → α) (n : Nat) : KMap α :=
  (List.range n).filterMap (fun k => if f k = d then none else some (k, f k))

/-- A saved group of a workgroup, its records numbered from `id`. -/
def groupOf (wid id : Nat) (bs : List Byte) : Group × List (Nat × Nat × Nat) × List Byte :=
  let valloc := fieldLE bs 4 1
  let npend := fieldLE bs 6 1
  let g : Group :=
    { Group.absent with
      wid := wid, grpid := fieldLE bs 0 2, role := fieldLE bs 2 1, prio := fieldLE bs 3 1, valloc := valloc,
      q := fieldLE bs 5 1, flags := fieldsMap 0 (fun f => fieldLE bs (8 + f) 1) 12, regbase := fieldLE bs 0x14 4,
      mest := fieldLE bs 0x18 8,
      preds := fieldsMap 0 (fun n => if n = 0 then 0 else maskAt bs (0x30 + 4 * n)) 8,
      sregs := fieldsMap 0 (fun n => wordAt bs (0x50 + 8 * n)) 96,
      threads := laneList.map (fun l => threadOf (sub bs (0x350 + 48 * l) 48)),
      cursor := cursorOf (sub bs 0x950 32) }
  let r := g.takePends npend id (bs.drop 0x980) []
  ({ r.1 with vregs := fieldsMap 0 (fun k => BitVec.ofNat 32 (fieldLE r.2.2 (4 * k) 4)) (32 * valloc) }, r.2.1,
   r.2.2.drop (128 * valloc))

/-! ## The checks of an image (R254 to R259) -/

/-- The zero fields of `n` saved pending records, and the bytes that follow them. -/
def pendsOk : Nat → List Byte → Bool × List Byte
  | 0, bs => (true, bs)
  | n + 1, bs =>
    let rest := pendsOk n (bs.drop (pendSize bs))
    let tail := match decodeWord (wordAt bs 0) with | .ok (.tryT _ _ _ _) => zeros bs 808 8 | _ => true
    (decide (fieldLE bs 12 4 < 8) && zeros bs 0x312 6 && tail && rest.1, rest.2)

/-- The zero fields of a group record, and the bytes that follow it. -/
def groupBytesOk (bs : List Byte) : Bool × List Byte :=
  let r := pendsOk (fieldLE bs 6 1) (bs.drop 0x980)
  (zeros bs 7 1 && zeros bs 0x20 16 && zeros bs 0x970 16 && (List.range 12).all (fun f => decide (fieldLE bs (8 + f) 1 < 64))
    && (List.range 32).all (fun l => zeros bs (0x350 + 48 * l + 30) 2 && zeros bs (0x350 + 48 * l + 36) 4) && r.1,
   r.2.drop (128 * fieldLE bs 4 1))

def groupsOk : Nat → List Byte → Bool
  | 0, _ => true
  | n + 1, bs => (groupBytesOk bs).1 && groupsOk n (groupBytesOk bs).2

/-- The zero fields of saved workgroups. -/
def wgsOk : Nat → List Byte → Bool
  | 0, _ => true
  | fuel + 1, bs =>
    if bs.length < 256 then true
    else
      zeros bs 0x13 1 && zeros bs 0x28 24 && zeros bs 0xC0 64
        && groupsOk (fieldLE bs 8 2) (bs.drop (256 + fieldLE bs 12 4)) && wgsOk fuel (bs.drop (max (fieldLE bs 0x20 8) 256))

def regionOk (bs : List Byte) : Bool :=
  (List.range 3).all (fun k => zeros bs (0x42 + 16 * k) 6 && (decide (k + 1 < fieldLE bs 0x32 1) || zeros bs (0x40 + 16 * k) 16))
    && zeros bs 0x33 5 && zeros bs 0xA0 80 && zeros bs 0xF2 2 && zeros bs 0xF8 8 && zeros bs 0x125 3 && zeros bs 0x130 16

def matsOk : Nat → List Byte → Bool
  | 0, _ => true
  | fuel + 1, bs =>
    if bs.length < 16 then true
    else
      let rest := bs.drop (16 + 16384 * fieldLE bs 8 2)
      zeros bs 12 4 && (pieces 336 (fieldLE bs 10 2) rest).all (fun b => zeros b 3 5 && zeros b 0x13E 2)
        && matsOk fuel (rest.drop (336 * fieldLE bs 10 2))

def copiesOk : Nat → List Byte → Bool
  | 0, _ => true
  | n + 1, bs => zeros bs 33 31 && copiesOk n (bs.drop (64 + 32 * fieldLE bs 16 4 + 16 * fieldLE bs 20 4))

def domainsOk : Nat → List Byte → Bool
  | 0, _ => true
  | n + 1, bs =>
    let k := fieldLE bs 4 4
    zeros bs 1 3 && zeros bs 24 8 && (pieces 64 k (bs.drop 32)).all (fun b => zeros b 3 1 && zeros b 0x38 8)
      && domainsOk n (bs.drop (32 + 64 * k))

/-- The reserved fields of every section. -/
def sectionsOk (bs : List Byte) : Bool :=
  let s0 := secOf bs 0
  let s3 := secOf bs 3
  let np := fieldLE s3 0 4
  (pieces 0x140 (s0.length / 0x140) s0).all regionOk && wgsOk (secOf bs 1).length (secOf bs 1)
    && matsOk (secOf bs 2).length (secOf bs 2)
    && (pieces 64 np (s3.drop 8)).all (fun b => zeros b 15 1 && zeros b 0x3A 6)
    && copiesOk (fieldLE s3 4 4) (s3.drop (8 + 64 * np)) && zeros (secOf bs 5) 4 4
    && zeros (secOf bs 6) 4 4 && (pieces 64 (fieldLE (secOf bs 6) 0 4) ((secOf bs 6).drop 8)).all (fun b =>
      decide (fieldLE b 56 4 < 2))
    && zeros (secOf bs 7) 4 4 && domainsOk (fieldLE (secOf bs 7) 0 4) ((secOf bs 7).drop 8)

/-- The header, the crc, the directory and every reserved field are right. -/
def imageOk (bs : List Byte) : Bool :=
  decide (256 ≤ bs.length) && fieldLE bs 0 4 == 0x4D494B44 && fieldLE bs 8 8 == bs.length && zeros bs 0x45 3
    && zeros bs 0x50 48 && dirOk bs.length 256 (dirOf bs) && tailOk bs (sectionsEnd bs)
    && fieldLE bs 0x40 4 == crc32c (bs.take 0x40 ++ zeroBytes 4 ++ bs.drop 0x44) && sectionsOk bs

/-! ## Putting a context back -/

/-- The header of the block that holds a word: the nearest header before it (DESIGN CHOICE, log 17). -/
def State.headerBefore (s : State) (cid : Nat) (a : Word) : Nat → Option (Word × Word)
  | 0 => none
  | n + 1 =>
    match s.walk cid a.toNat with
    | .error _ => none
    | .ok e =>
      match s.target (e.pa a.toNat) with
      | some (.mem loc) =>
        let w := wordN (natLE (s.bytesAt loc 8))
        if hdrTag w = 15 then some (a, w) else s.headerBefore cid (a - 8) n
      | _ => none

/-- Fills in what a thread's record does not carry: the reconvergence offset, the block of its TRY, and the word that it
executed last where it has left its block, which is a free value until an entry says it (log 14). -/
def State.fillThread (s : State) (cid gid : Nat) (t : Thread) : Thread :=
  let t := match t.entering with
    | some 0 | none => t
    | some _ => { t with via := Config.lostPc gid }
  let t := match (if t.len = 0 then none else s.headerBefore cid t.hdr 1) with
    | some (_, w) => { t with roff := hdrRoff w }
    | none => t
  match t.trial with
  | none => t
  | some x =>
    match s.headerBefore cid (x.ret - 8) 1024 with
    | some (a, w) =>
      { t with trial := some { x with homeHdr := a, homeLen := hdrLen w, homeKind := hdrKind w, homeRoff := hdrRoff w } }
    | none => t

/-- A posted record that a saved workgroup names, watched again; the lanes and the rest stand in memory. -/
def State.watchRec (s : State) (cid wid gid code va : Nat) (sub : Subject) : State × Nat :=
  let key := s.nextKey cid
  let bs := if va = 0 then zeroBytes 64
    else match (s.loadBytes none cid va 64).2 with | .ok bs => bs | .error _ => zeroBytes 64
  let w := s.wg wid
  let r : FaultRec :=
    { domain := (s.region w.rid).rcb.domain, code := code, kind := 0, rid := w.rid,
      regno := (s.region w.rid).regno, wid := wid, wgid := w.wgid, grpid := (s.grp gid).grpid, unit := fieldLE bs 0x16 2,
      pc := wordAt bs 0x18, addr := wordAt bs 0x20, lanes := maskAt bs 0x28, detail := fieldLE bs 0x2C 4,
      word := wordAt bs 0x30, subject := sub, seq := fieldLE bs 8 8, va := va, host := (s.handler cid w.rid).isNone }
  let s := s.modCtx cid (fun c => { c with recs := insK c.recs key r, nextRec := key + 1 })
  (s.modWg wid (fun w => { w with recs := w.recs ++ [key] }), key)

/-- A fault of a PMV that had completed: of the kinds that its unit meets. -/
def pmvMet (word : Word) (code : Nat) : Bool :=
  (code == Code.paletteFormat || code == Code.storeRange) && (match decodeWord word with | .ok i => isPmv i | .error _ => false)

/-- What a record that only the workgroup's head names is about. -/
def State.headSubject (s : State) (gid code : Nat) (word : Word) (lanes : LaneMask) : Subject :=
  if code = Code.breakpoint ∨ code = Code.trap ∨ pmvMet word code = true then .done gid
  else if (lanesOf lanes).any (fun l => ((s.grp gid).th l).entering.isSome) then .entry gid lanes
  else .word gid lanes

/-- The fault records that the pending records of a group name; a posted one gives the address of the word. -/
def State.nameRecs (s : State) (cid wid gid : Nat) (names : List (Nat × Nat × Nat)) : State :=
  names.foldl (fun s n =>
    if n.2.1 = 0 then s
    else
      let sub : Subject := match (s.grp gid).pend? n.1 with
        | some p => (match p.instr with | .sign _ _ _ | .role _ _ => .pends gid | _ => .instr gid n.1)
        | none => .matrix gid
      let r := s.watchRec cid wid gid n.2.1 n.2.2 sub
      let pc := match findK (r.1.ctx cid).recs r.2 with | some x => x.pc | none => 0
      r.1.modGrp gid (fun g => g.modPend n.1 (fun p => { p with recKey := r.2, pc := if n.2.2 = 0 then p.pc else pc }))) s

/-- The groups of a saved workgroup, one after the other. -/
def State.takeGroups (s : State) (cid wid : Nat) : Nat → List Byte → State
  | 0, _ => s
  | n + 1, bs =>
    let gid := s.nextId
    let r := groupOf wid (gid + 1) bs
    let g := { r.1 with threads := r.1.threads.map (s.fillThread cid gid) }
    let s := { s with groups := insK s.groups gid g, nextId := gid + 1 + g.pending.length }
    let s := s.modWg wid (fun w => { w with gids := w.gids ++ [gid] })
    (s.nameRecs cid wid gid r.2.1).takeGroups cid wid n r.2.2

def convOf (bs : List Byte) : Conv :=
  { state := (match bits (fieldLE bs 0 2) 1 0 with | 1 => .collecting | 2 => .complete | _ => .empty),
    owner := bits (fieldLE bs 2 2) 8 0, signed := maskAt bs 4, declared := maskAt bs 8, zfrag := maskAt bs 12 }

/-- One saved workgroup (R256, R260). Of its residence what has not been debited is not carried: its cycles count from 0 (R35;
DESIGN CHOICE, log 17). -/
def State.takeWg (s : State) (cid : Nat) (bs : List Byte) : State :=
  let wid := s.nextId
  let rid := s.byRegno cid (fieldLE bs 0 4)
  let r := (s.region rid).rcb
  let sp := fieldLE bs 12 4
  let n := (r.wgsize + 31) / 32
  let w : Wg :=
    { Wg.absent with
      ctx := cid, rid := rid, wgid := fieldLE bs 4 4,
      state := (if fieldLE bs 16 1 = 1 then .suspended false else .waiting), home := fieldLE bs 17 1,
      spread := fieldLE bs 18 1 == 1, ngroups := n,
      scratch := (List.range sp).map (fun a => (a, BitVec.ofNat 8 (fieldLE bs (256 + a) 1))), place := wid,
      conv := (List.range 8).map (fun k => convOf (sub bs (0x40 + 16 * k) 16)),
      since := s.cycle, order := wid, waitSince := s.cycle }
  let s := { s with wgs := insK s.wgs wid w, nextId := wid + 1 }
  let s := s.takeGroups cid wid (fieldLE bs 8 2) (bs.drop (256 + sp))
  let here := (s.wg wid).gids.map (fun gid => (s.grp gid).grpid)
  s.modWg wid (fun w => { w with retiredGroups := (List.range n).filter (fun g => !(here.contains g)) })

/-- Saved workgroups, each as long as its head says. -/
def State.takeWgs (s : State) (cid : Nat) : Nat → List Byte → State
  | 0, _ => s
  | fuel + 1, bs =>
    if bs.length < 256 then s
    else
      let n := fieldLE bs 0x20 8
      (s.takeWg cid (bs.take n)).takeWgs cid fuel (bs.drop (max n 256))

/-- A record comes first among those of its workgroup. -/
def State.firstRec (s : State) (wid key : Nat) : State :=
  s.modWg wid (fun w => { w with recs := key :: w.recs.filter (fun k => k != key) })

/-- The posted record that a workgroup's head names: one that a pending or a matrix record names too, or one of its own. A record
without an address is held: section 7 carries it whole. -/
def State.takeHead (s : State) (cid : Nat) (bs : List Byte) : State :=
  let wid := s.wgNamed cid (fieldLE bs 0 4) (fieldLE bs 4 4)
  let code := fieldLE bs 0x14 4
  let va := fieldLE bs 0x18 8
  if code = 0 ∨ va = 0 then s
  else
    match (s.wg wid).recs.find? (fun k => match findK (s.ctx cid).recs k with | some r => r.va == va | none => false) with
    | some key => s.firstRec wid key
    | none =>
      let rb := match (s.loadBytes none cid va 64).2 with | .ok bs => bs | .error _ => zeroBytes 64
      let gid := s.gidOf (s.wg wid) (fieldLE rb 0x14 2)
      let r := s.watchRec cid wid gid code va (s.headSubject gid code (wordAt rb 0x30) (maskAt rb 0x28))
      r.1.firstRec wid r.2

/-- The heads of saved workgroups. -/
def State.takeHeads (s : State) (cid : Nat) : Nat → List Byte → State
  | 0, _ => s
  | fuel + 1, bs =>
    if bs.length < 256 then s
    else
      let n := fieldLE bs 0x20 8
      (s.takeHead cid (bs.take n)).takeHeads cid fuel (bs.drop (max n 256))

/-- What the finished chunks of an MMA were charged, found again from its operands (R217; DESIGN CHOICE, log 17). -/
def State.chargeAgain (s : State) (gid : Nat) (m : MatCmd) : Nat :=
  match m.instr with
  | .mma _ f _ _ _ _ _ _ =>
    let zero := ~~~m.declared ||| m.zfrag
    let n := rowLen f
    (List.range (m.rows / 8)).foldl (fun q c =>
      let ra := (s.loadRows gid m.baseA m.strideA n (fun i => bitOf zero (i % 32)) ((List.range 8).map (· + 8 * c)) []).2
      let rb := (s.loadRows gid m.baseB m.strideB n (fun _ => false) (List.range 64) []).2
      match ra, rb with
      | .ok ra, .ok rb =>
        let x : ChunkIn := { v1 := s.v1Of gid, fmt := f, first := 8 * c, rowsA := ra, rowsB := rb, scA := m.scalesA,
                             scB := m.scalesB, zero := zero }
        q + x.charge
      | _, _ => q) 0
  | _ => 0

/-- The matrix record of a group (R258). -/
def State.takeMat (s : State) (cid wid : Nat) (bs : List Byte) : State :=
  let gid := s.gidOf (s.wg wid) (fieldLE bs 0 2)
  let mchk := wordAt bs 0x140
  let rows := fieldLE bs 0x138 4
  let kind := fieldLE bs 2 1
  let s := s.modGrp gid (fun g => { g with mchk := mchk, rowprog := (if kind ≤ 1 then rows else if mchk.getLsbD 31 then 0 else 64) })
  if kind = 0 then s
  else
    match (s.grp gid).pending.find? (fun p => p.kind == .unit && !isPmv p.instr) with
    | none => s
    | some p =>
      let m := matCmd p.instr p.id p.lanes ((tileOf p.instr).getD 0)
        { a := (List.range 4).map (fun k => wordAt bs (0x10 + 8 * k)), b := [], c := [] } (sub bs 0x30 256)
        (maskAt bs 0x130) (maskAt bs 0x134)
      let m := { m with rows := rows, passed := bits mchk.toNat 7 0, skipped := bits mchk.toNat 15 8,
                        retried := bits mchk.toNat 23 16 }
      let m := { m with charge := s.chargeAgain gid m }
      let s := s.modGrp gid (fun g => { g with mat := some m })
      if fieldLE bs 0x13C 2 = 0 then s
      else
        let r := s.watchRec cid wid gid (fieldLE bs 0x13C 2) (fieldLE bs 0x148 8) (.matrix gid)
        r.1.modGrp gid (fun g => { g with mat := g.mat.map (fun m => { m with recKey := r.2 }) })

/-- Matrix entries, one after the other. -/
def State.takeMats (s : State) (cid : Nat) : Nat → List Byte → State
  | 0, _ => s
  | fuel + 1, bs =>
    if bs.length < 16 then s
    else
      let wid := s.wgNamed cid (fieldLE bs 0 4) (fieldLE bs 4 4)
      let tiles := fieldLE bs 8 2
      let ngr := fieldLE bs 10 2
      let tile (t : Nat) : KMap U32 :=
        let tb := sub bs (16 + 16384 * t) 16384
        fieldsMap 0 (fun c => BitVec.ofNat 32 (fieldLE tb (4 * c) 4)) 4096
      let s := s.modWg wid (fun w => (List.range tiles).foldl (fun w t => w.putTile t (tile t)) w)
      let rest := bs.drop (16 + 16384 * tiles)
      let s := (pieces 336 ngr rest).foldl (fun s b => s.takeMat cid wid b) s
      s.takeMats cid fuel (rest.drop (336 * ngr))

def engStateOf (n : Nat) : EngState :=
  match n with
  | 1 => .running
  | 2 => .waiting
  | 3 => .page
  | 4 => .stopped
  | 5 => .done
  | 6 => .error
  | _ => .idle

/-- Where DECODE stands after `d` more decoded bytes, from block `k` at `a`, of which `off` came before: block, its address,
bytes of it delivered, and the first block past `start` that ended with a wrong checksum. -/
def State.rewalk (s : State) (cid start : Nat) :
    Nat → Nat → Nat → Nat → Nat → Option Nat → Nat × Nat × Nat × Option Nat
  | 0, k, a, d, _, bad => (k, a, d, bad)
  | fuel + 1, k, a, d, off, bad =>
    if d = 0 then (k, a, 0, bad)
    else
      match (s.loadBlock cid a).2 with
      | .ok data total good =>
        if data.length ≤ d then
          let off := off + data.length
          s.rewalk cid start fuel (k + 1) (a + total) (d - data.length) off
            (if bad.isNone && !good && decide (start < off) then some k else bad)
        else (k, a, d, bad)
      | _ => (k, a, d, bad)

/-- What a program's context does not say of a command that fills or drains slots, found again from its elements: the first
condition met in the slot in use, and the access error for which the command was abandoned (R192; DEDUCED, log 17). -/
def State.rederiveXfer (s : State) (p : Prog) (x : Xfer) (addr : Nat → Nat) (conv : Nat → Nat × Option Nat) : Prog :=
  let w := s.wg p.wid
  match w.ring (s.spBytes w) x.ring with
  | none => p
  | some r =>
    let per := r.slotbytes / x.ssz
    let el := p.done / x.unit
    let first := el / per * per
    let before := (List.range el).map addr
    let read := (s.readElems p.ctx x.gsz before []).2
    let check := (s.checkElems p.ctx before 0).2
    let stop : Nat × Stop := if x.fill then (read.1.length, read.2) else check
    let owed : Option (Nat × Option Nat) := match stop with
      | (k, .err code) => some (code, some k)
      | _ => none
    let codes := if x.fill then read.1.drop first
      else
        let pos := r.slotbase + (x.seq p % r.depth) * r.slotbytes
        (List.range (el - first)).map (fun j => natLE (w.padBytes (pos + j * x.ssz) x.ssz))
    { p with owed := owed, slotErr := if owed.isSome then none else firstCond first (codes.map conv) }

/-- What a saved program's context does not say of its command, where no entry says it (`State.takeProgEntry`). -/
def State.rederive (s : State) (p : Prog) : Instr → Prog
  | .stream f =>
    let g := Fmt.bytes f.fmtin
    s.rederiveXfer p { fill := true, ring := f.ring.toNat, n := affCount f, gsz := g, ssz := Fmt.bytes f.fmtout,
                       unit := Fmt.bytes f.fmtout } (affAddr f g) (convElem ((s.region p.rid).rcb.nbv == 1) f)
  | .rillDrain f =>
    let g := Fmt.bytes f.fmtout
    s.rederiveXfer p { fill := false, ring := f.ring.toNat, n := affCount f, gsz := g, ssz := Fmt.bytes f.fmtin, unit := g }
      (affAddr f g) (convElem ((s.region p.rid).rcb.nbv == 1) f)
  | .palette ring src count =>
    s.rederiveXfer p { fill := true, ring := ring.toNat, n := count.toNat, gsz := 2, ssz := 2, unit := 1 }
      (fun j => src.toNat + 2 * j) (fun c => (c, none))
  | .decode ring src _ ibase =>
    let w := s.wg p.wid
    let start := match w.ring (s.spBytes w) ring.toNat with | some r => p.done / r.slotbytes * r.slotbytes | none => 0
    match s.rewalk p.ctx start p.done 0 src.toNat p.done 0 none with
    | (k, a, d, bad) =>
      { p with blk := k, blkAddr := a, blkDone := d, slotErr := bad.map (fun b => (1, (ibase.toNat + b) % 2 ^ 32)) }
  | _ => p

/-- A saved program. It stays with the stack that its engine field names, whatever the address of its list under the new root
(R171, R173; DESIGN CHOICE, log 17). -/
def State.takeProg (s : State) (cid : Nat) (bs : List Byte) : State :=
  let pid := s.nextId
  let e := fieldLE bs 14 2
  let wid := s.wgNamed cid (fieldLE bs 0x34 4) (fieldLE bs 0x30 4)
  let p : Prog :=
    { Prog.absent with
      wid := wid, ctx := cid, rid := (s.wg wid).rid, ownerWg := fieldLE bs 0x30 4, list := wordAt bs 0,
      index := fieldLE bs 8 4, state := engStateOf (fieldLE bs 12 1), err := fieldLE bs 13 1, stack := bits e 6 4,
      engineNo := bits e 6 0, done := fieldLE bs 16 8,
      loop := (List.range 4).map (fun k => fieldLE bs (0x18 + 4 * k) 4), seqf := fieldLE bs 0x28 4,
      seqd := fieldLE bs 0x2C 4, prior := engStateOf (fieldLE bs 0x38 1), hold := fieldLE bs 0x39 1 == 1, order := pid }
  let cmd := match (s.loadBytes none cid (p.list.toNat + 32 * p.index) 32).2 with
    | .ok cs => decodeCmd (BitVec.ofNat 256 (natLE cs))
    | .error _ => .rillFence
  let p := if p.ended then p else s.rederive p cmd
  { s with progs := insK s.progs pid p, nextId := pid + 1 }

/-- A slice of an image. -/
def sliceOf (grpid : Nat) (bs : List Byte) : Slice :=
  { grpid := grpid, src := fieldLE bs 0 8, dst := fieldLE bs 8 8, len := fieldLE bs 16 8, srcS := (fieldLE bs 24 8).testBit 0,
    dstS := (fieldLE bs 24 8).testBit 1 }

/-- A saved copy record (R259). Where no entry says more, its slices are those of one started copy of the last batch, supplied by
the first group, and an error is of the first batch (DESIGN CHOICE, log 17). -/
def State.takeCopy (s : State) (cid : Nat) (bs : List Byte) : State :=
  let wid := s.wgNamed cid (fieldLE bs 0 4) (fieldLE bs 4 4)
  let next := fieldLE bs 8 8
  let ns := fieldLE bs 16 4
  let nb := fieldLE bs 20 4
  let batches := (pieces 16 nb (bs.drop (64 + 32 * ns))).mapIdx (fun k b =>
    ({ n := fieldLE b 0 8, stamp := fieldLE b 8 8, err := if k = 0 then fieldLE bs 32 1 else 0, heldRec := 0,
       dropped := false } : Batch))
  let last := match batches.getLast? with | some b => b.n | none => 0
  let low := match (s.liveGroups (s.wg wid)).head? with | some g => g.grpid | none => 0
  let slices := (pieces 32 ns (bs.drop 64)).map (sliceOf low)
  let cs : List Copy := if slices.isEmpty then []
    else [{ index := next - 1, slices := slices, started := true, done := fieldLE bs 24 8, batch := last }]
  let s := (s.wg wid).gids.foldl (fun s gid => s.modGrp gid (fun g => { g with nCopy := next, lastSeal := last })) s
  s.modWg wid (fun w => { w with copies := cs, batches := batches, closed := last,
                                 openErr := if batches.isEmpty then fieldLE bs 32 1 else 0 })

def State.takeCopies (s : State) (cid : Nat) : Nat → List Byte → State
  | 0, _ => s
  | n + 1, bs =>
    (s.takeCopy cid bs).takeCopies cid n (bs.drop (64 + 32 * fieldLE bs 16 4 + 16 * fieldLE bs 20 4))

/-- Section 3. -/
def State.takeSection3 (s : State) (cid : Nat) (bs : List Byte) : State :=
  let np := fieldLE bs 0 4
  let s := (pieces 64 np (bs.drop 8)).foldl (fun s b => s.takeProg cid b) s
  s.takeCopies cid (fieldLE bs 4 4) (bs.drop (8 + 64 * np))

/-! ## Regions, objects and domains -/

/-- A region record (R255). -/
def State.takeRegion (s : State) (cid : Nat) (bs : List Byte) : State :=
  let rid := s.nextId
  let up := fieldLE bs 0x104 4
  let par := if up = 0xFFFFFFFF then none else some (s.byRegno cid up)
  let r := fillRcb bs none
  let r := { r with roles := rolesOf bs }
  let reg : Region :=
    { Region.absent with
      ctx := cid, regno := fieldLE bs 0x100 4, parent := par,
      level := (match par with | some p => (s.region p).level + 1 | none => 1), rcb := r,
      rcbaddr := wordAt bs 0x128, ebal := sextI (fieldLE bs 0x108 8) 64, tbal := sextI (fieldLE bs 0x110 8) 64,
      nextwg := fieldLE bs 0x118 4, retired := fieldLE bs 0x11C 4, openKids := fieldLE bs 0x120 4,
      state := (match fieldLE bs 0x124 1 with | 0 => .afterWait | 1 => .eligible | 2 => .placed | _ => .awaiting),
      order := rid, object := s.objectAt cid r.entry.toNat, waitSince := s.cycle }
  { s with regions := insK s.regions rid reg, nextId := rid + 1 }

/-- The loaded object with a hash. -/
def State.objectByHash (s : State) (h : List Byte) : Option CodeObj :=
  (s.objects.find? (fun q => padTo 48 q.2.hash == h)).map (fun q => q.2)

/-- An object of the image under its base here. -/
def State.takeObject (s : State) (cid : Nat) (bs : List Byte) : State :=
  match s.objectByHash (bs.take 48) with
  | none => s
  | some o =>
    let h := s.nextId
    let base := fieldLE bs 48 8
    let segs := o.segs.map (fun g => { g with va := g.va - o.base + base })
    let new : CodeObj := { o with ctx := cid, base := base, segs := segs,
                                  revoked := o.revoked || (fieldLE bs 56 4).testBit 0,
                                  pages := (if o.revoked then o.pages else []) }
    { s with objects := insK s.objects h new, nextId := h + 1 }

/-- A held record of the image, the k-th of its domain (R254, R264). -/
def State.takeHeld (s : State) (cid dom : Nat) (es : List Entry) (k : Nat) (bs : List Byte) : State :=
  let rid := s.byRegno cid (fieldLE bs 4 4)
  let wid := s.wgNamed cid (fieldLE bs 4 4) (fieldLE bs 0x10 4)
  let gid := s.gidOf (s.wg wid) (fieldLE bs 0x14 2)
  let code := fieldLE bs 0 2
  let kind := fieldLE bs 2 1
  let va := fieldLE bs 0x20 8
  let fresh := s.nextKey cid
  let e := heldEntry es dom k
  -- the workgroup names it with address 0 under the same code, when it is of kind 0
  let named := (s.wg wid).recs.find? (fun k => match findK (s.ctx cid).recs k with
    | some r => r.va == 0 && r.code == code && r.grpid == fieldLE bs 0x14 2 && !((s.ctx cid).hold.contains k)
    | none => false)
  let prog := ((s.progs.find? (fun q => q.2.wid == wid && q.2.engineNo == fieldLE bs 0x16 2)).map (fun q => q.1)).getD 0
  let sub : Subject := match named, e.bind (s.aboutOf cid), kind with
    | some k, _, _ => ((findK (s.ctx cid).recs k).map (fun r => r.subject)).getD (.done gid)
    | none, some x, _ => x
    | none, none, 0 => s.headSubject gid code (wordAt bs 0x30) (maskAt bs 0x28)
    | none, none, 1 => .engine prog
    | none, none, 2 => (match (s.wg wid).batches.find? (fun b => b.stamp == va) with
      | some b => .stampOf wid b.n
      | none => .copy wid)
    | none, none, _ => if code = Code.afterUnreadable then .after rid else .rcbWrite rid
  let key := named.getD fresh
  let r := { recOf dom rid wid sub bs with seq := 0 }
  (s.modCtx cid (fun c => { c with
    recs := insK c.recs key r, hold := c.hold ++ [key], nextRec := max c.nextRec (fresh + 1) })).tieHeld cid key va sub e

/-- Domains with their held records (section 7). -/
def State.takeDomains (s : State) (cid : Nat) (es : List Entry) : Nat → List Byte → State
  | 0, _ => s
  | n + 1, bs =>
    let dom := fieldLE bs 0 1
    let held := fieldLE bs 4 4
    let d : Domain := { desc := fieldLE bs 8 8, next := fieldLE bs 16 8 }
    let s := s.modCtx cid (fun c => { c with domains := insK c.domains dom d })
    let s := ((pieces 64 held (bs.drop 32)).mapIdx (fun k b => (k, b))).foldl (fun s q => s.takeHeld cid dom es q.1 q.2) s
    s.takeDomains cid es n (bs.drop (32 + 64 * held))

/-- The held records that section 7 lists. -/
def heldCount : Nat → List Byte → Nat
  | 0, _ => 0
  | n + 1, bs => fieldLE bs 4 4 + heldCount n (bs.drop (32 + 64 * fieldLE bs 4 4))

/-! ## RESUME (R260) -/

/-- A translation root is 8 KiB-aligned in HBM. -/
def rootOk (a : Nat) : Bool := a % 8192 == 0 && decide (a < 2 ^ 40)

/-- A context identifier that names no context: the device's choice where it is free (DESIGN CHOICE, log 13). -/
def State.freeCtx (s : State) : Nat :=
  let pick := Config.choice 1 s.serial % 2 ^ 64
  if (findK s.ctxs pick).isNone then pick else freshK s.ctxs

/-- The first check that fails: status and index. -/
def State.resumeFault (s : State) (bs : List Byte) (root : Nat) : Option (Nat × Nat) :=
  let objs := pieces 64 (fieldLE (secOf bs 6) 0 4) ((secOf bs 6).drop 8)
  let nreg := (secOf bs 0).length / 0x140
  if !imageOk bs then some (1, 0)
  else if fieldLE bs 4 2 ≠ 2 then some (2, 0)
  else if fieldLE bs 6 2 ≠ 2 then some (3, 0)
  else if sub bs 0x10 48 ≠ padTo 48 Config.deviceHash then some (4, 0)
  else
    match objs.findIdx? (fun o => (s.objectByHash (o.take 48)).isNone) with
    | some k => some (5, k)
    | none =>
      if 65536 < (s.regions.filter (fun q => !q.2.closed)).length + nreg
          ∨ 4096 < heldCount (fieldLE (secOf bs 7) 0 4) ((secOf bs 7).drop 8) then some (6, 0)
      else if !rootOk root then some (7, 0)
      else none

/-- A matrix command that has no record of its own has not reached its unit. -/
def Group.sortUnits (g : Group) : Group :=
  match g.mat with
  | some _ => g
  | none => { g with pending := g.pending.map (fun p =>
      if p.kind == .unit && !(isPmv p.instr) then { p with kind := .behind } else p) }

def State.sortUnits (s : State) (cid : Nat) : State :=
  { s with groups := s.groups.map (fun q => (q.1, if (s.wg q.2.wid).ctx = cid then q.2.sortUnits else q.2)) }

/-- The context of an image under an identifier. Its measurement register is zero, as that of every new context is (R290). It has
no save pool: neither the image nor RESUME gives one (R246; DESIGN CHOICE, log 17). -/
def State.restore (s : State) (bs : List Byte) (cid root : Nat) (dlog : Word) : State :=
  let es := appendixIn bs (sectionsEnd bs)
  let s := { s with ctxs := insK s.ctxs cid { Ctx.absent with root := root, measure := zeroBytes 48 } }
  let s := (pieces 64 (fieldLE (secOf bs 6) 0 4) ((secOf bs 6).drop 8)).foldl (fun s b => s.takeObject cid b) s
  let s := (pieces 0x140 ((secOf bs 0).length / 0x140) (secOf bs 0)).foldl (fun s b => s.takeRegion cid b) s
  let log := match s.readDlog cid dlog with | .ok d => d | .error _ => none
  let s := match (s.openOf cid).find? (fun q => q.2.parent.isNone) with
    | some q => s.modRegion q.1 (fun r => { r with dlog := log, rcb := { r.rcb with dirtylog := dlog } })
    | none => s
  let s := s.takeWgs cid (secOf bs 1).length (secOf bs 1)
  let s := (s.takeMats cid (secOf bs 2).length (secOf bs 2)).sortUnits cid
  let s := (s.takeSection3 cid (secOf bs 3)).takeHeads cid (secOf bs 1).length (secOf bs 1)
  let s := s.takeEntries cid es
  (s.takeDomains cid es (fieldLE (secOf bs 7) 0 4) ((secOf bs 7).drop 8)).watchAll cid es

/-- RESUME. -/
def execResume (s : State) : Host.Outcome State Fault Refusal :=
  .next (s.command (fun s =>
    match s.getPhys s.mgmt.arg0.toNat s.mgmt.arg1.toNat with
    | none => s.answer 1 0 0
    | some bs =>
      let root := if s.mgmt.arg2 = 0 then fieldLE (secOf bs 4) 0 8 else s.mgmt.arg2.toNat
      match s.resumeFault bs root with
      | some (st, k) => s.answer st k 0
      | none =>
        let cid := s.freeCtx
        (s.restore bs cid root s.mgmt.arg3).answer 0 0 (wordN cid)))

end Sys2Proof.Machine
end

