-- ==== Sys2Proof/Machine/Signatures.lean ====
section
/-! DEFINITION. The two signatures of R284: ECDSA on P-384 with SHA-384, and ML-DSA-65 with an empty context string. The
curve, the lattice scheme and SHAKE are those of FIPS 186-5, FIPS 204 and FIPS 202 (PRESUMED, log 57). -/
namespace Sys2Proof.Machine

/-- `x` to the power of a number given by its lowest `k` bits, modulo `m`. -/
def powMod (m : Nat) : Nat → Nat → Nat → Nat
  | 0, _, _ => 1 % m
  | k + 1, x, e =>
    let h := powMod m k (x * x % m) (e / 2)
    if e % 2 = 0 then h else x * h % m

/-! ## ECDSA on P-384 -/

def ecP : Nat := 2 ^ 384 - 2 ^ 128 - 2 ^ 96 + 2 ^ 32 - 1
def ecB : Nat := 0xb3312fa7e23ee7e4988e056be3f82d19181d9c6efe8141120314088f5013875ac656398d8a2ed19d2a85c8edd3ec2aef
/-- The order of the base point. -/
def ecN : Nat := 0xffffffffffffffffffffffffffffffffffffffffffffffffc7634d81f4372ddf581a0db248b0a77aecec196accc52973
/-- The base point. -/
def ecG : Nat × Nat :=
  (0xaa87ca22be8b05378eb1c71ef320ad746e1d3b628ba79b9859f741e082542a385502f25dbf55296c3a545e3872760ab7,
   0x3617de4a96262c6f5d9e98bf9292dc29f8f41dbd289a147ce9da3113b5f0b8c00a60b1ce1d7e819d7a431d7c90ea0e5f)

/-- The inverse modulo a prime below 2^384. -/
def invMod (m x : Nat) : Nat := powMod m 384 x (m - 2)

/-- A difference modulo the field's prime. -/
def ecMinus (a b : Nat) : Nat := (a + (ecP - b % ecP)) % ecP

/-- The point where the line of a slope through `a` meets the curve again, mirrored. -/
def ecMeet (slope : Nat) (a : Nat × Nat) (bx : Nat) : Nat × Nat :=
  let x := ecMinus (slope * slope) (a.1 + bx)
  (x, ecMinus (slope * ecMinus a.1 x) a.2)

/-- The group law; none is the point at infinity. -/
def ecAdd (a b : Option (Nat × Nat)) : Option (Nat × Nat) :=
  match a, b with
  | none, q => q
  | p, none => p
  | some p, some q =>
    if p.1 ≠ q.1 then some (ecMeet (ecMinus q.2 p.2 * invMod ecP (ecMinus q.1 p.1) % ecP) p q.1)
    else if p.2 ≠ q.2 ∨ p.2 = 0 then none
    else some (ecMeet ((3 * p.1 * p.1 + ecP - 3) * invMod ecP (2 * p.2 % ecP) % ecP) p p.1)

/-- A multiple of a point, from the lowest `k` bits of the factor. -/
def ecMul : Nat → Nat → Option (Nat × Nat) → Option (Nat × Nat)
  | 0, _, _ => none
  | k + 1, e, p =>
    let h := ecMul k (e / 2) (ecAdd p p)
    if e % 2 = 0 then h else ecAdd p h

def onCurve (q : Nat × Nat) : Bool :=
  decide (q.1 < ecP) && decide (q.2 < ecP) && q.2 * q.2 % ecP == (q.1 * q.1 * q.1 + (ecP - 3) * q.1 + ecB) % ecP

/-- The signature `r`, `s`, each 48 bytes big-endian, verifies; the key is x and y in the same form. -/
def ecdsaVerifies (key msg sig : List Byte) : Bool :=
  let q := (natBE (key.take 48), natBE (key.drop 48))
  let r := natBE (sig.take 48)
  let s := natBE (sig.drop 48)
  let w := invMod ecN s
  let e := natBE (sha384 msg)
  key.length == 96 && sig.length == 96 && onCurve q && decide (1 ≤ r ∧ r < ecN ∧ 1 ≤ s ∧ s < ecN)
    && (match ecAdd (ecMul 384 (e * w % ecN) (some ecG)) (ecMul 384 (r * w % ecN) (some q)) with
      | some p => p.1 % ecN == r
      | none => false)

/-! ## SHAKE -/

/-- Word (x, y) of the 25 words of a state. -/
def kecWord (a : List Word) (x y : Nat) : Word := nth a 0 (x % 5 + 5 * (y % 5))

def kecMake (f : Nat → Nat → Word) : List Word := (List.range 25).map (fun k => f (k % 5) (k / 5))

/-- The rotations along the walk from (1, 0): key x + 5 y, value. -/
def kecRotFrom : Nat → Nat → Nat → KMap Nat
  | 0, _, _ => []
  | n + 1, x, y => insK (kecRotFrom n y ((2 * x + 3 * y) % 5)) (x + 5 * y) ((24 - n) * (25 - n) / 2 % 64)

def kecRot : List Nat := (List.range 25).map (fun k => getD (kecRotFrom 24 1 0) 0 k)

/-- Step `n` of the shift register that the round words come from. -/
def kecBit : Nat → Nat
  | 0 => 1
  | n + 1 =>
    let r := 2 * kecBit n
    if r < 256 then r else (r ^^^ 0x171) % 256

/-- The word of round `i`. -/
def kecRoundWord (i : Nat) : Word :=
  (List.range 7).foldl (fun w j => if kecBit (7 * i + j) % 2 = 1 then w ||| (1#64 <<< (2 ^ j - 1)) else w) 0

def kecRound (rots : List Nat) (a : List Word) (rw : Word) : List Word :=
  let column (x : Nat) : Word := (List.range 5).foldl (fun w y => w ^^^ kecWord a x y) 0
  let cs := (List.range 5).map column
  let mixed := kecMake (fun x y => kecWord a x y ^^^ nth cs 0 ((x + 4) % 5) ^^^ (nth cs 0 ((x + 1) % 5)).rotateLeft 1)
  let moved := kecMake (fun x y =>
    let k := (x + 3 * y) % 5 + 5 * x
    (nth mixed 0 k).rotateLeft (nth rots 0 k))
  let out := kecMake (fun x y => kecWord moved x y ^^^ (~~~(kecWord moved (x + 1) y) &&& kecWord moved (x + 2) y))
  match out with
  | w :: ws => (w ^^^ rw) :: ws
  | [] => []

def kecRounds : List Word := (List.range 24).map kecRoundWord

def kecF (a : List Word) : List Word := kecRounds.foldl (kecRound kecRot) a

/-- A block of `rate` bytes enters the state. -/
def kecAbsorb (rate : Nat) (a : List Word) (bs : List Byte) : List Word :=
  kecF (List.zipWith (fun x y => x ^^^ y) a
    ((pieces 8 25 (bs ++ List.replicate (200 - rate) 0)).map (fun b => wordN (natLE b))))

/-- `n` blocks of `rate` bytes leave the state. -/
def kecSqueeze (rate : Nat) : Nat → List Word → List Byte
  | 0, _ => []
  | n + 1, a => (a.flatMap (fun w => bytesLE 8 w.toNat)).take rate ++ kecSqueeze rate n (kecF a)

/-- The message with its padding. -/
def shakePad (rate : Nat) (bs : List Byte) : List Byte :=
  let k := rate - bs.length % rate
  bs ++ (if k = 1 then [0x9F] else [0x1F] ++ List.replicate (k - 2) 0 ++ [0x80])

/-- The first `n` bytes of SHAKE; rate 168 is SHAKE128, rate 136 SHAKE256. -/
def shake (rate : Nat) (bs : List Byte) (n : Nat) : List Byte :=
  let m := shakePad rate bs
  (kecSqueeze rate (n / rate + 1) ((pieces rate (m.length / rate) m).foldl (kecAbsorb rate) (List.replicate 25 0))).take n

/-! ## ML-DSA-65 -/

def mlQ : Nat := 8380417
/-- Half the width of the rounding of ML-DSA-65. -/
def mlGamma : Nat := 261888

/-- The value of a polynomial. -/
def polyAt (f : List Nat) (x : Nat) : Nat := f.foldr (fun c y => (c + x * y) % mlQ) 0

def mlPow (e : Nat) : Nat := powMod mlQ 11 1753 e

/-- Eight bits in the other order. -/
def rev8 (i : Nat) : Nat := (List.range 8).foldl (fun n k => 2 * n + i / 2 ^ k % 2) 0

/-- A polynomial by its values at the 256 odd powers of 1753, in the order of FIPS 204. -/
def mlVals (f : List Nat) : List Nat := (List.range 256).map (fun i => polyAt f (mlPow (2 * rev8 i + 1)))

/-- The polynomial with these values. -/
def mlPoly (v : List Nat) : List Nat :=
  let w := (List.range 256).map (fun m => nth v 0 (rev8 m))
  (List.range 256).map (fun j => 8347681 * (mlPow (512 - j) * polyAt w (mlPow (1024 - 2 * j)) % mlQ) % mlQ)

/-- Fields of `n` bits, lowest first. -/
def bitFields (n count : Nat) (bs : List Byte) : List Nat :=
  let x := natLE bs
  (List.range count).map (fun k => x / 2 ^ (n * k) % 2 ^ n)

/-- The values below q among the three-byte pieces, without their top bits. -/
def mlAccept : List Byte → List Nat
  | a :: b :: c :: rest =>
    let z := a.toNat + 256 * b.toNat + 65536 * (c.toNat % 128)
    if z < mlQ then z :: mlAccept rest else mlAccept rest
  | _ => []

/-- Entry (r, s) of the matrix, by its values. -/
def mlEntry (rho : List Byte) (r s : Nat) : List Nat :=
  (mlAccept (shake 168 (rho ++ bytesLE 1 s ++ bytesLE 1 r) 2016)).take 256

/-- The challenge: for each place from `i` on, the next byte that is not above it names the place that gets a sign. -/
def mlChallenge (signs : Nat) : Nat → Nat → List Byte → List Nat → Option (List Nat)
  | 0, _, _, c => some c
  | n + 1, i, bs, c =>
    match bs.dropWhile (fun b => decide (i < b.toNat)) with
    | b :: rest =>
      mlChallenge signs n (i + 1) rest
        ((c.set i (nth c 0 b.toNat)).set b.toNat (if signs.testBit (i - 207) then mlQ - 1 else 1))
    | [] => none

def mlBall (seed : List Byte) : Option (List Nat) :=
  let bs := shake 136 seed 1088
  mlChallenge (natLE (bs.take 8)) 49 207 (bs.drop 8) (List.replicate 256 0)

/-- The places of a hint: each row ends where its count says, its places rise, and what is left over is zero. -/
def mlHints (y : List Byte) : Nat → List Byte → Option (List (List Nat))
  | start, [] => if (y.drop start).all (fun b => b == 0) then some [] else none
  | start, e :: ends =>
    let row := ((y.take e.toNat).drop start).map (fun (b : Byte) => b.toNat)
    if e.toNat < start ∨ y.length < e.toNat ∨ (List.zipWith (fun a b => decide (a < b)) row row.tail).all id = false then none
    else (mlHints y e.toNat ends).map (fun l => row :: l)

/-- The high part of a coefficient, moved by one where the hint says so. -/
def mlHigh (hint : Bool) (r : Nat) : Nat :=
  let low := r % (2 * mlGamma)
  let up := decide (mlGamma < low)
  let top := decide (r + (if up then 2 * mlGamma - low else 0) - (if up then 0 else low) = mlQ - 1)
  let r1 := if top then 0 else (if up then r / (2 * mlGamma) + 1 else r / (2 * mlGamma))
  let pos := !up && low != 0 && !top
  if hint then (if pos then r1 + 1 else r1 + 15) % 16 else r1 % 16

/-- Four bits a coefficient. -/
def mlPack : List Nat → List Byte
  | a :: b :: rest => bytesLE 1 (a + 16 * b) ++ mlPack rest
  | _ => []

/-- Row `r` of the high parts that a signature leads to. -/
def mlRow (rho : List Byte) (zs : List (List Nat)) (c t1 : List Nat) (hint : List Nat) (r : Nat) : List Nat :=
  let az := zs.mapIdx (fun s z => List.zipWith (fun a b => a * b % mlQ) (mlEntry rho r s) z)
  let ct := List.zipWith (fun a b => a * b % mlQ) c (mlVals (t1.map (fun x => x * 8192 % mlQ)))
  let v := (List.range 256).map (fun i => ((az.map (fun l => nth l 0 i)).foldr (fun a b => a + b) (mlQ - nth ct 0 i)) % mlQ)
  (mlPoly v).mapIdx (fun i x => mlHigh (hint.contains i) x)

/-- The signature verifies under the key, both as FIPS 204 encodes them. -/
def mldsaVerifies (key msg sig : List Byte) : Bool :=
  let rho := key.take 32
  let t1 := (pieces 320 6 (key.drop 32)).map (bitFields 10 256)
  let ct := sig.take 48
  let zi := (pieces 640 5 (sig.drop 48)).map (fun b => (bitFields 20 256 b).map (fun (x : Nat) => (2 ^ 19 : Int) - x))
  let hb := sig.drop 3248
  let mu := shake 136 (shake 136 key 64 ++ [0, 0] ++ msg) 64
  key.length == 1952 && sig.length == 3309
    && zi.all (fun z => z.all (fun x => decide (x.natAbs < 2 ^ 19 - 196)))
    && (match mlBall ct, mlHints (hb.take 55) 0 (hb.drop 55) with
      | some c, some hs =>
        let zs := zi.map (fun z => mlVals (z.map (fun x => (x % (mlQ : Int)).toNat)))
        let rows := (List.range 6).flatMap (fun r => mlPack (mlRow rho zs (mlVals c) (nth t1 [] r) (nth hs [] r) r))
        shake 136 (mu ++ rows) 48 == ct
      | _, _ => false)

/-! ## A signature of a segment -/

/-- The signature of an algorithm of R284 verifies under a key. -/
def signatureVerifies (alg : Nat) (key msg sig : List Byte) : Bool :=
  if alg = 1 then ecdsaVerifies key msg sig else if alg = 2 then mldsaVerifies key msg sig else false

/-- The key of a list that a key id names (R284). -/
def keyOf (keys : List (List Byte)) (kid : List Byte) : Option (List Byte) := keys.find? (fun k => sha384 k == kid)

end Sys2Proof.Machine
end

