-- ==== Sys2Proof/Machine/Loader.lean ====
section
/-! DEFINITION. Bolpex containers, the loader engine, attestation and UNLOAD (13 R262, R263; 16 R283 to R294). -/
namespace Sys2Proof.Machine

/-! ## The container (R283 to R285) -/

def LSeg.mapped (g : LSeg) : Bool := decide (g.kind < 6)
def LSeg.isCode (g : LSeg) : Bool := decide (g.kind < 3)

/-- Entry `k` of the segment table. -/
def segEntry (bs : List Byte) (k : Nat) : List Byte := sub bs (fieldLE bs 0x18 8 + 160 * k) 160

def segCount (bs : List Byte) : Nat := fieldLE bs 6 2

def lsegOf (bs : List Byte) (k : Nat) : LSeg :=
  let e := segEntry bs k
  { idx := k, kind := fieldLE e 0 1, rva := fieldLE e 8 8, memsize := fieldLE e 0x18 8,
    bytes := sub bs (fieldLE e 0x20 8) (fieldLE e 0x10 8) }

/-- Every segment of the table. -/
def segTable (bs : List Byte) : List LSeg := (List.range (segCount bs)).map (lsegOf bs)

/-- The header obeys R283. -/
def headerGood (bs : List Byte) : Bool :=
  fieldLE bs 0 4 == 0x58504C42 && fieldLE bs 4 2 == 1 && decide (2 ≤ segCount bs) && decide (segCount bs ≤ 64)
    && fieldLE bs 8 8 == bs.length && fieldLE bs 0x10 8 % 65536 == 0 && decide (fieldLE bs 0x10 8 < 2 ^ 54)
    && fieldLE bs 0x18 8 % 8 == 0 && decide (fieldLE bs 0x18 8 + 160 * segCount bs ≤ bs.length) && decide (128 ≤ bs.length)
    && zeros bs 0x50 48

/-- An entry of the segment table obeys R284; a constant block has at most 16 MiB (R115). -/
def entryGood (len : Nat) (e : List Byte) : Bool :=
  let kind := fieldLE e 0 1
  let alg := fieldLE e 1 1
  let filesize := fieldLE e 0x10 8
  decide (kind ≤ 7) && (alg == 1 && fieldLE e 4 4 == 96 || alg == 2 && fieldLE e 4 4 == 3309) && zeros e 2 2
    && fieldLE e 8 8 % 65536 == 0 && decide (fieldLE e 0x20 8 + filesize ≤ len)
    && decide (fieldLE e 0x28 8 + fieldLE e 4 4 ≤ len) && zeros e 0x90 16
    && (if 6 ≤ kind then fieldLE e 8 8 == 0 && fieldLE e 0x18 8 == 0 else decide (filesize ≤ fieldLE e 0x18 8))
    && (kind != 4 || decide (filesize ≤ 2 ^ 24))

/-- Two segments overlap in memory. -/
def lsegsOverlap (a b : LSeg) : Bool := a.mapped && b.mapped && meets a.rva a.memsize b.rva b.memsize

def countKind (gs : List LSeg) (k : Nat) : Nat := (gs.filter (fun g => g.kind == k)).length

/-- The head of a manifest: kernels, relocations, slots. -/
def manKernels (m : List Byte) : Nat := fieldLE m 0 4
def manRelocs (m : List Byte) : Nat := fieldLE m 4 4
def manSlots (m : List Byte) : Nat := fieldLE m 8 4

/-- Kernel record `k`. -/
def kernelRec (m : List Byte) (k : Nat) : List Byte := sub m (16 + 304 * k) 304

/-- Argument entries of all kernels. -/
def manArgs (m : List Byte) : Nat := sumOf ((List.range (manKernels m)).map (fun k => fieldLE (kernelRec m k) 0x124 4))

/-- Offset of the relocation records. -/
def relocOff (m : List Byte) : Nat := 16 + 304 * manKernels m + 48 * manArgs m

/-- Relocation records. -/
def relocsOf (m : List Byte) : List (List Byte) := pieces 32 (manRelocs m) (m.drop (relocOff m))

/-- An argument entry obeys R285. -/
def argGood (argsize : Nat) (a : List Byte) : Bool :=
  let align := fieldLE a 0x28 4
  [1, 2, 4, 8, 16, 32, 64].contains align && fieldLE a 0x20 4 % align == 0
    && decide (fieldLE a 0x20 4 + fieldLE a 0x24 4 ≤ argsize) && zeros a 0x2C 4

/-- The argument layout of a kernel record obeys R285. -/
def kernelArgsGood (m r : List Byte) : Bool :=
  let off := fieldLE r 0x120 4
  let n := fieldLE r 0x124 4
  zeros r 0x12C 4
    && (n == 0 || decide (16 + 304 * manKernels m ≤ off) && decide (off + 48 * n ≤ relocOff m))
    && (pieces 48 n (m.drop off)).all (argGood (fieldLE r 0x128 4))

/-- A got segment of `slots` slots: its memsize is theirs (R285), or theirs rounded up to whole pages where its bytes are
exactly the slots (R295, R296; DEDUCED, log 58). -/
def slotsGood (g : LSeg) (slots : Nat) : Bool :=
  slots * 8 == g.memsize || slots * 8 == g.bytes.length && (slots * 8 + 65535) / 65536 * 65536 == g.memsize

/-- The manifest obeys R285. -/
def manifestGood (gs : List LSeg) (m : List Byte) : Bool :=
  decide (16 ≤ m.length) && zeros m 12 4 && decide (relocOff m + 32 * manRelocs m ≤ m.length)
    && (match gs.find? (fun g => g.kind == 5) with
      | some g => slotsGood g (manSlots m)
      | none => manSlots m == 0)
    && (List.range (manKernels m)).all (fun k => kernelArgsGood m (kernelRec m k))

/-- BAD_CONTAINER: the index of the first segment that is wrong, 0 for the container as a whole (R289 step 1). -/
def containerFault (bs : List Byte) : Option Nat :=
  if !headerGood bs then some 0
  else
    let gs := segTable bs
    match gs.find? (fun g => !entryGood bs.length (segEntry bs g.idx)) with
    | some g => some g.idx
    | none =>
      if (nth (gs.map (fun g => g.kind)) 0 0) ≠ 7 ∨ countKind gs 7 ≠ 1 ∨ 1 < countKind gs 4 ∨ 1 < countKind gs 5
          ∨ 1 < countKind gs 6 then some 0
      else
        match gs.find? (fun g => gs.any (fun h => decide (h.idx < g.idx) && lsegsOverlap g h)) with
        | some g => some g.idx
        | none => if manifestGood gs (lsegOf bs 0).bytes then none else some 0

/-! ## Keys, signatures, measurements (R284, R289 step 3) -/

/-- The first segment that fails against a list of public keys: status and index. -/
def trustFault (bs : List Byte) (keys : List (List Byte)) : List LSeg → Option (Nat × Nat)
  | [] => none
  | g :: gs =>
    let e := segEntry bs g.idx
    let sig := sub bs (fieldLE e 0x28 8) (fieldLE e 4 4)
    match keyOf keys (sub e 0x60 48) with
    | none => some (2, g.idx)
    | some key =>
      if !signatureVerifies (fieldLE e 1 1) key (e.take 0x60) sig then some (3, g.idx)
      else if sub e 0x30 48 ≠ sha384 g.bytes then some (4, g.idx)
      else trustFault bs keys gs

/-! ## Kernels (R288, R289 step 4) -/

/-- What R33 says of a launch record that the launch does not supply; `queue` says which domains have a queue. -/
def templateGood (queue : Nat → Bool) (t : List Byte) : Bool :=
  let r := fillRcb t none
  let o (k : Nat) : Bool := (fieldLE t 6 2).testBit k
  rcbBytesOk t && decide (1 ≤ r.wgcount) && decide (1 ≤ r.wgsize) && decide (r.wgsize ≤ 16384)
    && vallocOk r.valloc && r.spbytes % 256 == 0 && decide (256 ≤ r.spbytes) && decide (r.spbytes ≤ storeLimit)
    && decide (r.tiles ≤ 16) && decide (1 ≤ r.nbv) && decide (r.nbv ≤ 2)
    && (!o 3 || queue r.domain)
    && r.roles.all (fun x => vallocOk x.valloc && decide (x.prio ≤ (if o 2 then r.prio else 7)))
    && r.afterA.toNat % 8 == 0 && r.doneA.toNat % 8 == 0 && r.args.toNat % 8 == 0
    && (!(o 4 && o 5) || footprintOk ((r.wgsize + 31) / 32) r.valloc r.spbytes)

/-- The segment that holds an offset from the load base. -/
def segHolding (gs : List LSeg) (off : Int) : Option LSeg :=
  gs.find? (fun g => g.mapped && decide ((g.rva : Int) ≤ off) && decide (off < g.rva + g.memsize))

/-- The header word at an offset from the load base, in a code segment. -/
def headerAt (gs : List LSeg) (off : Int) : Option Word :=
  match segHolding gs off with
  | some g =>
    let w := wordN (fieldLE g.bytes (off - g.rva).toNat 8)
    if g.isCode && decide ((off - g.rva).toNat + 8 ≤ g.bytes.length) && headerOk w then some w else none
  | none => none

/-- An entry offset names a kind-11 header outside trial segments. -/
def entryGoodAt (gs : List LSeg) (off : Nat) : Bool :=
  off % 8 == 0
    && (match segHolding gs off, headerAt gs off with
      | some g, some w => g.kind != segTrial && hdrKind w == 3
      | _, _ => false)

/-- A kernel record is good; with translated code its entries are those of the translation (R291). -/
def kernelGood (queue : Nat → Bool) (gs : List LSeg) (translate : Bool) (r : List Byte) : Bool :=
  let t := sub r 0x20 256
  templateGood queue t
    && (translate || entryGoodAt gs (fieldLE t 8 8) && (rolesOf t).all (fun x => entryGoodAt gs x.entry.toNat))

/-! ## Relocations (R286, R287) -/

def relType (r : List Byte) : Nat := fieldLE r 0 1
def relPseg (r : List Byte) : Nat := fieldLE r 2 2
def relTseg (r : List Byte) : Nat := fieldLE r 4 2
def relPlace (r : List Byte) : Nat := fieldLE r 8 8
def relTarget (r : List Byte) : Int := sextI (fieldLE r 16 8) 64
def relAux (r : List Byte) : Nat := fieldLE r 24 8

def segIdx (gs : List LSeg) (k : Nat) : Option LSeg := gs.find? (fun g => g.idx == k && g.mapped)

/-- Offset from the load base of the target A, or of the slot G. -/
def relTargetOff (gs : List LSeg) (r : List Byte) : Option Int :=
  if relType r = 3 ∨ relType r = 4 then
    match gs.find? (fun g => g.kind == 5) with
    | some g => if 0 ≤ relTarget r ∧ relTarget r < (g.memsize / 8 : Nat) then some (g.rva + 8 * relTarget r) else none
    | none => none
  else (segIdx gs (relTseg r)).map (fun g => g.rva + relTarget r)

/-- The difference D of a record that has a header of its own (types 1, 3 and 6). -/
def relDiff (gs : List LSeg) (r : List Byte) : Option Int :=
  match relTargetOff gs r, segIdx gs (relPseg r) with
  | some t, some p => some (t - (p.rva + relAux r))
  | _, _ => none

def hiOf (d : Int) : Int := (d + 0x800) / 4096

/-- The earlier record that types 2 and 4 name fits. -/
def pairGood (recs : List (List Byte)) (n : Nat) (r : List Byte) : Bool :=
  let q := nth recs [] (relAux r)
  decide (relAux r < n) && relType q == relType r - 1 && relPseg q == relPseg r && relTarget q == relTarget r
    && (relType r != 2 || relTseg q == relTseg r)

/-- The low `n` bits of an integer. -/
def lowBits (x : Int) (n : Nat) : Nat := (x % (2 ^ n : Nat)).toNat

/-- The word that record `n` writes in place of `w` with base `b`, or the status that refuses it: 6 or 7. -/
def relWord (b : Nat) (gs : List LSeg) (recs : List (List Byte)) (n : Nat) (r : List Byte) (p : LSeg) (w : Nat) :
    Except Nat Nat :=
  let op := bits w 63 56
  match relType r with
  | 5 =>
    match relTargetOff gs r with
    | some t =>
      if w ≠ 0 ∨ relAux r ≠ 0 ∨ relPlace r % 8 ≠ 0 ∨ p.kind < 3 then .error 6
      else if (2 ^ 54 : Nat) ≤ b + t then .error 7
      else .ok (lowBits (b + t) 64)
    | none => .error 6
  | 6 =>
    match relTargetOff gs r, relDiff gs r with
    | some t, some d =>
      if ¬(1 ≤ op ∧ op ≤ 3) ∨ w % 2 ^ 24 ≠ 0 ∨ (headerAt gs t).isNone then .error 6
      else if d % 8 ≠ 0 ∨ d / 8 < -(2 ^ 23 : Nat) ∨ (2 ^ 23 : Nat) ≤ d / 8 then .error 7
      else .ok (w + lowBits (d / 8) 24)
    | _, _ => .error 6
  | 1 | 3 =>
    match relDiff gs r with
    | some d =>
      if op ≠ 0x33 ∨ w % 2 ^ 20 ≠ 0 then .error 6
      else if hiOf d < -(2 ^ 19 : Nat) ∨ (2 ^ 19 : Nat) ≤ hiOf d then .error 7
      else .ok (w + lowBits (hiOf d) 20)
    | none => .error 6
  | 2 | 4 =>
    match relDiff gs (nth recs [] (relAux r)) with
    | some d =>
      if op ≠ 0x32 ∨ w % 2 ^ 12 ≠ 0 ∨ pairGood recs n r = false then .error 6
      else .ok (w + lowBits (d - hiOf d * 4096) 12)
    | none => .error 6
  | _ => .error 6

/-- Replaces bytes within a list. -/
def patch (bs : List Byte) (off : Nat) (new : List Byte) : List Byte :=
  bs.take off ++ new ++ bs.drop (off + new.length)

/-- Applies record `n`. -/
def applyRel (b : Nat) (recs : List (List Byte)) (n : Nat) (r : List Byte) (gs : List LSeg) : Except Nat (List LSeg) :=
  match segIdx gs (relPseg r) with
  | none => .error 6
  | some p =>
    if !zeros r 1 1 || !zeros r 6 2 || decide (p.bytes.length < relPlace r + 8) then .error 6
    else
      match relWord b gs recs n r p (fieldLE p.bytes (relPlace r) 8) with
      | .error c => .error c
      | .ok x =>
        .ok (gs.map (fun g =>
          if g.idx = p.idx then { g with bytes := patch g.bytes (relPlace r) (bytesLE 8 x) } else g))

/-- Applies the records in index order; the first that fails refuses the load: status and index. -/
def applyRels (b : Nat) (recs : List (List Byte)) : Nat → List (List Byte) → List LSeg → Except (Nat × Nat) (List LSeg)
  | _, [], gs => .ok gs
  | n, r :: rs, gs =>
    match applyRel b recs n r gs with
    | .error c => .error (c, n)
    | .ok gs => applyRels b recs (n + 1) rs gs

/-! ## Mapping (R288, R289 steps 6 and 8) -/

/-- r and w of a segment (R284); code pages get x in step 8. -/
def segPerm (kind : Nat) : Nat := if kind = 3 then 6 else 2

/-- Pages of 64 KiB that a segment takes. -/
def LSeg.pages (g : LSeg) : Nat := (g.memsize + 65535) / 65536

/-- NO_ROOM: the first segment that does not fit at `base`; HBM has no frame left for it (DESIGN CHOICE, log 16). -/
def State.roomFault (s : State) (cid base : Nat) (gs : List LSeg) : Option Nat :=
  let bad (g : LSeg) : Bool :=
    decide (2 ^ 54 < base + g.rva + g.memsize)
      || (List.range g.pages).any (fun k => match s.walk cid (base + g.rva + 65536 * k) with
        | .error c => c != Code.notPresent
        | .ok _ => true)
      || decide (2 ^ 23 < s.frames + 4 * sumOf (gs.map LSeg.pages))
  if base % 65536 ≠ 0 then some 0 else (gs.find? bad).map (fun g => g.idx)

/-- Maps one page of a segment with its bytes. -/
def State.loadPage (s : State) (cid base : Nat) (g : LSeg) (k : Nat) : State :=
  let f := s.takeFrame
  (f.2.putPhys f.1 (sub g.bytes (65536 * k) 65536)).mapPage cid (base + g.rva + 65536 * k) f.1 (segPerm g.kind)

/-- Maps a segment; every core drops the instruction copies of its pages (R356). -/
def State.loadSeg (s : State) (cid base : Nat) (g : LSeg) : State :=
  ((List.range g.pages).foldl (fun s k => s.loadPage cid base g k) s).dropCopies cid
    (some (base + g.rva, 65536 * g.pages))

/-- A handle that names no object, nor one that is loading: the device's choice where it is free (DESIGN CHOICE,
log 13). -/
def State.freeHandle (s : State) : Nat :=
  let pick := Config.choice 2 s.serial % 2 ^ 64
  if pick ≠ 0 ∧ (findK s.objects pick).isNone ∧ s.loads.all (fun l => l.handle != pick) then pick
  else s.loads.foldl (fun n l => max n (l.handle + 1)) (max 1 (freshK s.objects))

/-! ## Attestation (R290) -/

/-- One event extends the measurement register of a context. -/
def Ctx.extend (c : Ctx) (ev : List Byte) : Ctx :=
  { c with measure := sha384 (padTo 48 c.measure ++ ev), log := c.log ++ [ev] }

/-- The 64-byte load event. -/
def loadEvent (hash : List Byte) (base flags : Nat) : List Byte := hash ++ bytesLE 8 base ++ bytesLE 8 flags

/-- What a context reports: its number, its register and its log (R290). -/
def State.measurements (s : State) : List (Nat × List Byte × List (List Byte)) :=
  s.ctxs.map (fun q => (q.1, q.2.measure, q.2.log))

/-- GET_MEASUREMENTS: the measurement blocks, and their signature with the attestation key. How SPDM lays them out is
outside the manual (DESIGN CHOICE, log 59). -/
def State.measurementReport (s : State) : List (Nat × List Byte × List (List Byte)) × List Byte :=
  (s.measurements, Config.attestSign (s.measurements.flatMap (fun m => bytesLE 8 m.1 ++ m.2.1 ++ m.2.2.flatten)))

/-! ## Translation (R291) -/

/-- The segments of a translation, numbered from `n` on. -/
def translated (n : Nat) (ts : List (Nat × Nat × List Byte)) : List LSeg :=
  ts.mapIdx (fun k t => { idx := n + k, kind := t.1, rva := t.2.1, memsize := t.2.2.length, bytes := t.2.2 })

/-- Native segments of kinds 0 to 2, at whole pages, apart from one another and from those that are kept. -/
def translationGood (kept ts : List LSeg) : Bool :=
  ts.all (fun g => g.isCode && g.rva % 65536 == 0
    && (kept ++ ts.filter (fun h => decide (h.idx < g.idx))).all (fun h => !lsegsOverlap g h))

/-- A kernel record with another entry. -/
def withEntry (r : List Byte) (entry : Nat) : List Byte := patch r 0x28 (bytesLE 8 entry)

/-- The plan with its Lanibrief form translated; none where that fails. -/
def LoadPlan.translate (p : LoadPlan) (bs : List Byte) : Option LoadPlan :=
  let n := segCount bs
  match (segTable bs).find? (fun g => g.kind == 6) with
  | none => none
  | some l =>
    match Config.translateLanibrief l.bytes with
    | none => none
    | some (ts, recs, entries) =>
      let ts := translated n ts
      if translationGood p.segs ts then
        some { p with segs := ts ++ p.segs, recs := recs, events := p.events ++ ts.map (fun g => sha384 g.bytes),
                      kernels := p.kernels.mapIdx (fun k r => withEntry r (nth entries 0 k)) }
      else none

/-! ## The native image of a pod load (R292) -/

/-- The manifest of the image: the kernel records as they run, the argument entries, the records of the translation with
their segments numbered as the image numbers them. -/
def imageManifest (p : LoadPlan) (m : List Byte) : List Byte :=
  let place (k : Nat) : Nat := ((p.segs.map (fun g => g.idx)).idxOf k) + 1
  let recs := p.recs.map (fun r => patch (patch r 2 (bytesLE 2 (place (relPseg r)))) 4 (bytesLE 2 (place (relTseg r))))
  bytesLE 4 p.kernels.length ++ bytesLE 4 recs.length ++ bytesLE 4 (manSlots m) ++ zeroBytes 4 ++ p.kernels.flatten
    ++ sub m (16 + 304 * manKernels m) (48 * manArgs m) ++ recs.flatten

/-- One entry of the image's segment table, signed with the attestation key by ECDSA (DESIGN CHOICE, log 59). -/
def imageEntry (kind rva memsize off sigoff : Nat) (bytes : List Byte) : List Byte :=
  bytesLE 1 kind ++ bytesLE 1 1 ++ zeroBytes 2 ++ bytesLE 4 96 ++ bytesLE 8 rva ++ bytesLE 8 bytes.length
    ++ bytesLE 8 memsize ++ bytesLE 8 off ++ bytesLE 8 sigoff ++ sha384 bytes ++ sha384 Config.attestKey ++ zeroBytes 16

/-- The entries of segments whose bytes follow one another from `off` on, with signatures from `sig` on. -/
def imageEntries : Nat → Nat → List (Nat × Nat × Nat × List Byte) → List (List Byte)
  | _, _, [] => []
  | off, sig, g :: gs =>
    imageEntry g.1 g.2.1 g.2.2.1 off sig g.2.2.2 :: imageEntries (off + g.2.2.2.length) (sig + 96) gs

/-- The container that the device multicasts: the layout of R283 to R285, each part after the one before (DESIGN CHOICE,
log 59). -/
def nativeImage (p : LoadPlan) (bs : List Byte) : List Byte :=
  let gs := (7, 0, 0, imageManifest p (lsegOf bs 0).bytes) :: p.segs.map (fun g => (g.kind, g.rva, g.memsize, g.bytes))
  let data := 128 + 160 * gs.length
  let sigs := data + sumOf (gs.map (fun g => g.2.2.2.length))
  let table := imageEntries data sigs gs
  let head := bytesLE 4 0x58504C42 ++ bytesLE 2 1 ++ bytesLE 2 gs.length ++ bytesLE 8 (sigs + 96 * gs.length)
    ++ bytesLE 8 (fieldLE bs 0x10 8) ++ bytesLE 8 128 ++ padTo 48 Config.deviceHash ++ zeroBytes 48
  head ++ table.flatten ++ gs.flatMap (fun g => g.2.2.2) ++ table.flatMap (fun e => padTo 96 (Config.attestSign (e.take 0x60)))

/-! ## LOAD (R288, R289, R291, R292) -/

/-- Steps 1 to 4 for a context: what is to be mapped, and whether it is translated first. A pod load translates wherever
the container carries the Lanibrief form. -/
def planLoad (queue : Nat → Bool) (bs : List Byte) (pod : Bool) : Except (Nat × Nat) (LoadPlan × Bool) :=
  match containerFault bs with
  | some k => .error (1, k)
  | none =>
    let gs := segTable bs
    let lani := gs.any (fun g => g.kind == 6)
    let same := sub bs 0x20 48 == padTo 48 Config.deviceHash
    let tr := lani && (pod || !same)
    if !same && !lani then .error (9, 0)
    else
      let used := gs.filter (fun g => if tr then decide (3 ≤ g.kind) else g.kind != 6)
      let m := (lsegOf bs 0).bytes
      let ks := (List.range (manKernels m)).map (kernelRec m)
      match trustFault bs Config.trustList used, ks.findIdx? (fun r => !kernelGood queue used tr r) with
      | some e, _ => .error e
      | none, some k => .error (5, k)
      | none, none =>
        .ok ({ segs := used.filter LSeg.mapped, recs := (if tr then [] else relocsOf m),
               events := used.map (fun g => sub (segEntry bs g.idx) 0x30 48), hash := sha384 bs,
               flags := (if tr then 1 else 0) + (if pod then 2 else 0), kernels := ks }, tr)

/-- A base of 0 means the preferred one. -/
def baseOf (bs : List Byte) (b : Nat) : Nat := if b = 0 then fieldLE bs 0x10 8 else b

/-- A load is accepted at one of its stages, behind those before it. -/
def State.accept (s : State) (cid base : Nat) (bs : List Byte) (host pod : Bool) (st : LoadStage) (p : LoadPlan) : State :=
  { s with loads := s.loads ++ [{ handle := s.freeHandle, ctx := cid, base := base, host := host, pod := pod,
                                  image := bs, stage := st, plan := p }] }

/-- A container is to be loaded into a context: its checks refuse it with a status and an index, or it is accepted. -/
def State.beginLoad (s : State) (cid : Nat) (bs : List Byte) (b : Nat) (pod host : Bool) : Except (Nat × Nat) State :=
  match planLoad (fun k => (findK (s.ctx cid).domains k).isSome) bs pod with
  | .error e => .error e
  | .ok (p, tr) =>
    .ok (s.accept cid (baseOf bs b) bs host (pod && host) (if tr then .translate false else .map) p)

/-- LOAD: refused, or busy until the loader engine has loaded the object or refused it (R288, R289). -/
def execLoad (s : State) : Host.Outcome State Fault Refusal :=
  .next (s.ctxCommand (fun cid s =>
    match s.getPhys s.mgmt.arg0.toNat s.mgmt.arg1.toNat with
    | none => s.answer 1 0 0
    | some bs =>
      match s.beginLoad cid bs s.mgmt.arg2.toNat (s.mgmt.arg3.getLsbD 0) true with
      | .error (st, k) => s.answer st k 0
      | .ok s => s.busy))

/-! ## The loader engine (R289 steps 5 to 8) -/

/-- A load ends: the host's reads its status, and its handle. -/
def State.endLoad (s : State) (l : Loading) (status index : Nat) : State :=
  let s := { s with loads := s.loads.tail }
  if l.host then s.answer status index (if status = 0 then wordN l.handle else 0) else s

/-- The first load goes on. -/
def State.setLoad (s : State) (l : Loading) : State := { s with loads := l :: s.loads.tail }

/-- The native image goes to the peers, its segments as they were before any record was applied: each peer relocates them for
itself (R292). -/
def State.multicast (s : State) (l : Loading) : State :=
  if l.pod then { s with svc := { s.svc with outbox := s.svc.outbox ++ [nativeImage l.plan l.image] } } else s

/-- Step 6: every segment stands mapped, not executable, with its relocations applied; or nothing does. -/
def State.mapLoad (s : State) (l : Loading) : State :=
  match s.roomFault l.ctx l.base l.plan.segs with
  | some k => s.endLoad l 8 k
  | none =>
    match applyRels l.base l.plan.recs 0 l.plan.recs l.plan.segs with
    | .error e => s.endLoad l e.1 e.2
    | .ok gs =>
      ((gs.foldl (fun s g => s.loadSeg l.ctx l.base g) s).multicast l).setLoad
        { l with stage := .finish, plan := { l.plan with segs := gs } }

/-- The object of a load. -/
def Loading.object (l : Loading) : CodeObj :=
  { ctx := l.ctx, hash := l.plan.hash, base := l.base, revoked := false, pages := [], flags := l.plan.flags,
    kernels := l.plan.kernels,
    segs := l.plan.segs.map (fun g =>
      { kind := g.kind, va := l.base + g.rva, memsize := g.memsize, filesize := g.bytes.length }) }

/-- Steps 7 and 8: the attestation record is extended, code pages become executable, and the object is LOADED. -/
def State.finishLoad (s : State) (l : Loading) : State :=
  let o := l.object
  let s := s.modCtx l.ctx (fun c => (l.plan.events ++ [loadEvent l.plan.hash l.base l.plan.flags]).foldl Ctx.extend c)
  let s := s.changePages l.ctx (o.segs.filter (fun g => decide (g.kind < 3))) (fun e => e ||| 8#64)
  ({ s with objects := insK s.objects l.handle o }).endLoad l 0 0

/-- The first load takes its next step. -/
def State.loaderTurn (s : State) : State :=
  match s.loads with
  | [] => s
  | l :: rest =>
    if (findK s.ctxs l.ctx).isNone then { s with loads := rest }
    else
      match l.stage with
      | .translate true => s.endLoad l 10 0
      | .translate false =>
        (match l.plan.translate l.image with
        | none => s.endLoad l 10 0
        | some p => s.setLoad { l with stage := .map, plan := p })
      | .map => s.mapLoad l
      | .finish => s.finishLoad l

/-! ## NATIVE_IMAGE_RECEIVED (R292, R294) -/

/-- What a peer maps of a multicast native image: its own hash, its keys in the pod's trust list; the object keeps
the hash of the original container. -/
def planImage (img original : List Byte) : Option LoadPlan :=
  if (containerFault img).isSome || sub img 0x20 48 != padTo 48 Config.deviceHash then none
  else
    let used := (segTable img).filter (fun g => g.kind != 6)
    let m := (lsegOf img 0).bytes
    match trustFault img Config.podTrust used with
    | some _ => none
    | none =>
      some { segs := used.filter LSeg.mapped, recs := relocsOf m,
             events := used.map (fun g => sub (segEntry img g.idx) 0x30 48), hash := sha384 original, flags := 3,
             kernels := (List.range (manKernels m)).map (kernelRec m) }

/-- This device translates the container for the context already (R294). -/
def State.translating (s : State) (cid : Nat) (bs : List Byte) : Bool :=
  s.loads.any (fun l => l.ctx == cid && l.image == bs && (match l.stage with
    | .translate _ => true
    | _ => false))

/-- NATIVE_IMAGE_RECEIVED: the image is mapped from step 6 on, or the original is translated here, as where `own` says that
the peer begins to; an image that arrives after its own translation has begun is discarded. -/
def execNativeImageReceived (ctx : Nat) (container original : List Byte) (base : Nat) (own : Bool) (s : State) :
    Host.Outcome State Fault Refusal :=
  .next (
    if (findK s.ctxs ctx).isNone || s.translating ctx original then s
    else
      match own, planImage container original with
      | false, some p => s.accept ctx (baseOf original base) original false false .map p
      | _, _ =>
        match s.beginLoad ctx original base true false with
        | .ok s => s
        | .error _ => s)

/-! ## UNLOAD (R262, R263, R294, R304) -/

/-- The load that is to give an object of the context its handle. -/
def State.loadOf (s : State) (cid h : Nat) : Option Loading := s.loads.find? (fun l => l.handle == h && l.ctx == cid)

/-- A forced unload ends the translation of a load. -/
def Loading.endTranslation (l : Loading) : Loading :=
  match l.stage with
  | .translate _ => { l with stage := .translate true }
  | _ => l

/-- UNLOAD of an object that is loading: BUSY, or its translation ends (R294). -/
def State.unloadLoading (s : State) (l : Loading) (forced : Bool) : State :=
  if forced && l.endTranslation.stage == .translate true then
    { s with loads := s.loads.map (fun (x : Loading) => if x.handle = l.handle then x.endTranslation else x) }.answer 0 0 0
  else s.answer 11 0 0

/-- UNLOAD: 0, 11 BUSY or 16 NO_OBJECT. -/
def execUnload (s : State) : Host.Outcome State Fault Refusal :=
  .next (s.ctxCommand (fun cid s =>
    let h := s.mgmt.arg0.toNat
    let forced := s.mgmt.arg1.getLsbD 0
    match findK s.objects h, s.loadOf cid h with
    | none, some l => s.unloadLoading l forced
    | none, none => s.answer 16 0 0
    | some o, _ =>
      if o.ctx ≠ cid then s.answer 16 0 0
      else if o.revoked then s.answer 0 0 0
      else if s.pinned h then
        if forced then (s.revokeObject h).answer 0 0 0 else s.answer 11 0 0
      else (s.removeObject h).answer 0 0 0))

end Sys2Proof.Machine
end

