-- ==== Sys2Proof/Machine/Port.lean ====
section
/-! DEFINITION. The rest of the management port, links, power and service (05 R128, R129; 18 R302 to R312). -/
namespace Sys2Proof.Machine

/-! ## Contexts (R304) -/

/-- A save pool: 64 KiB-aligned, a positive number of 64 KiB pieces, wholly in HBM. -/
def poolOk (base n : Nat) : Bool :=
  base % 65536 == 0 && n != 0 && n % 65536 == 0 && decide (base + n ≤ 2 ^ 40)

/-- CTX_CREATE: 7 BAD_ROOT, 17 BAD_POOL, or the new context. -/
def execCtxCreate (s : State) : Host.Outcome State Fault Refusal :=
  .next (s.command (fun s =>
    let m := s.mgmt
    if !rootOk m.arg0.toNat then s.answer 7 0 0
    else if !poolOk m.arg1.toNat m.arg2.toNat then s.answer 17 0 0
    else
      let cid := s.freeCtx
      let c := { Ctx.absent with root := m.arg0.toNat, poolBase := m.arg1.toNat, poolBytes := m.arg2.toNat,
                                 measure := zeroBytes 48 }
      { s with ctxs := insK s.ctxs cid c }.answer 0 0 (wordN cid)))

/-- CTX_DESTROY: 11 BUSY while any region or image pin remains. -/
def execCtxDestroy (s : State) : Host.Outcome State Fault Refusal :=
  .next (s.ctxCommand (fun cid s =>
    if (s.regions.any (fun q => q.2.ctx == cid)) || s.ctxPins cid then s.answer 11 0 0 else (s.dropCtx cid).answer 0 0 0))

/-- TLB_INVAL: every core drops the context's entries over a range of 64 KiB pages, or all of them (R129). -/
def execTlbInval (s : State) : Host.Outcome State Fault Refusal :=
  .next (s.ctxCommand (fun cid s =>
    let va := s.mgmt.arg0.toNat / 65536 * 65536
    let n := s.mgmt.arg1.toNat
    (s.dropTlb cid (if n = 0 then none else some (va, 65536 * n))).answer 0 0 0))

/-- DOMAIN: a domain gets its queue descriptor; a held record is tried again (R244). -/
def execDomain (s : State) : Host.Outcome State Fault Refusal :=
  .next (s.ctxCommand (fun cid s =>
    let k := s.mgmt.arg0.toNat % 256
    let desc := s.mgmt.arg1.toNat
    ((s.modCtx cid (fun c =>
      { c with domains := insK c.domains k { desc := desc, next := ((findK c.domains k).map (fun d => d.next)).getD 1 } })).postHeads
      cid).answer 0 0 0))

/-- Amounts added to a region's balances (R35). -/
def State.credit (s : State) (rid : Nat) (energy time : Int) : State :=
  s.modRegion rid (fun r => { r with ebal := r.ebal + energy, tbal := r.tbal + time })

/-- CREDIT: 15 NO_REGION when the address names no open region of the context. -/
def execCredit (s : State) : Host.Outcome State Fault Refusal :=
  .next (s.ctxCommand (fun cid s =>
    match (s.openOf cid).find? (fun q => q.2.rcbaddr == s.mgmt.arg0) with
    | some q => (s.credit q.1 s.mgmt.arg1.toInt s.mgmt.arg2.toInt).answer 0 0 0
    | none => s.answer 15 0 0))

/-! ## DRAIN (R309) -/

/-- A set of numbers with one more, or one less. -/
def withNum (l : List Nat) (n : Nat) (there : Bool) : List Nat :=
  let l := l.filter (fun x => !(x == n))
  if there then l ++ [n] else l

/-! ## Peer links (R305, R307, R309) -/

/-- A link as training leaves it. -/
def PeerLink.fresh : PeerLink := { up := true, rxSeq := 0, credits := 0, resend := 0 }

def State.link (s : State) (n : Nat) : PeerLink := getD s.svc.links PeerLink.fresh n
def State.modLink (s : State) (n : Nat) (f : PeerLink → PeerLink) : State :=
  { s with svc := { s.svc with links := putD s.svc.links PeerLink.fresh n (f (s.link n)) } }

/-- The link carries traffic: it is not fenced, and no DRAIN has it retrain. -/
def State.linkUp (s : State) (n : Nat) : Bool := (s.link n).up && !(s.svc.drainedLinks.contains n)

/-- The routes are formed again over the links that carry traffic (R307). -/
def State.reroute (s : State) : State :=
  { s with svc := { s.svc with routes := (List.range 18).any s.linkUp } }

/-- Modules of the host port that carry traffic (R302, R309). -/
def State.hostModules (s : State) : List Nat := s.svc.uciePorts.filter (fun n => !(s.svc.drainedUcie.contains n))

/-- Rate of the host port in GB/s per direction (R302). -/
def State.hostRate (s : State) : Nat := 512 * s.hostModules.length

/-- The unit of a DRAIN is taken out of placement, or admitted again; a fenced core stays fenced. A drained link trains
anew while collectives take other routes; the module of a host port carries nothing. -/
def State.setDrain (s : State) (kind num : Nat) (drain : Bool) : State :=
  let v := s.svc
  if kind = 0 then (if num < 160 then s.modCore num (fun c => { c with drained := drain }) else s)
  else if kind = 1 then { s with svc := { v with drainedClusters := withNum v.drainedClusters num drain } }
  else if kind = 2 then
    let s := { s with svc := { v with drainedLinks := withNum v.drainedLinks num drain } }
    (if drain && decide (num < 18) && (s.link num).up then s.modLink num (fun _ => PeerLink.fresh) else s).reroute
  else if kind = 3 then { s with svc := { v with drainedUcie := withNum v.drainedUcie num drain } }
  else s

/-- The unit is empty: no workgroup holds a core of it. -/
def State.unitEmpty (s : State) (kind num : Nat) : Bool :=
  if kind = 0 then (s.residents num []).isEmpty
  else if kind = 1 then (List.range 4).all (fun i => (s.residents (4 * num + i) []).isEmpty)
  else true

/-- DRAIN: busy until its unit is empty or admitted. -/
def execDrain (s : State) : Host.Outcome State Fault Refusal :=
  .next (s.command (fun s =>
    let u := s.mgmt.arg0.toNat
    let kind := bits u 15 8
    let num := bits u 7 0
    let again := s.mgmt.arg1 == 1
    let s := s.setDrain kind num (!again)
    { s with svc := { s.svc with drainUnit := some (kind, num, again) } }.busy))

/-- The DRAIN in progress may complete. -/
def State.drainReady (s : State) : Bool :=
  match s.svc.drainUnit with
  | some (kind, num, again) => again || s.unitEmpty kind num
  | none => false

/-- DRAIN_DONE: busy clears; an overrun that a dropped write left stays. -/
def execDrainDone (s : State) : Host.Outcome State Fault Refusal :=
  .next (
    if s.drainReady then
      { s with mgmt := { s.mgmt with cstat := s.mgmt.cstat &&& 0x200, result := 0, irq := s.mgmt.irq ||| 2 },
               svc := { s.svc with drainUnit := none } }
    else s)

/-! ## Firmware and spares (R308, R309) -/

/-- FW_SLOT: the other slot takes over when its measurement passes, else status 4. -/
def execFwSlot (s : State) : Host.Outcome State Fault Refusal :=
  .next (s.command (fun s =>
    let n := s.mgmt.arg0.toNat
    if n ≤ 1 ∧ Config.slotVerifies n then { s with svc := { s.svc with fwSlot := n } }.answer 0 0 0
    else s.answer 4 0 0))

/-- The location of spare granule `n` of a stack. -/
def spareLoc (stack n : Nat) : Nat := 2 ^ 39 + (stack * 256 + n) * 4096

/-- Contents, and what of them holds an uncorrectable error, move from one granule to another. -/
def State.moveGranule (s : State) (old new : Nat) : State :=
  let bs := s.bytesAt old 4096
  let bad := (s.poison.filter (fun x => decide (old ≤ x) && decide (x < old + 4096))).map (fun x => x - old + new)
  let s := (s.clearGranule old).putAt new bs
  { s with poison := s.poison ++ bad }

/-- The granule of HBM that a physical address lies in, before remapping. -/
def granuleOf (pa : Nat) : Option Nat :=
  if pa < 2 ^ 39 then some ((bits pa 14 12 * 2 ^ 36 + bits pa 38 15 * 4096) / 4096)
  else if pa < 2 ^ 40 then some ((pa - 2 ^ 39) / 4096)
  else none

/-- RETIRE: the granule is copied to a spare of its stack and remapped; 12 NO_SPARE without one. -/
def execRetire (s : State) : Host.Outcome State Fault Refusal :=
  .next (s.command (fun s =>
    match granuleOf s.mgmt.arg0.toNat with
    | none => s.answer 12 0 0
    | some g =>
      let stack := g * 4096 / 2 ^ 36
      let used := getD s.svc.spares 0 stack
      if 256 ≤ used then s.answer 12 0 0
      else
        let new := spareLoc stack used
        let s := s.moveGranule (s.remapped (g * 4096)) new
        let s := { s with svc := { s.svc with remap := insK s.svc.remap g (new / 4096),
                                              spares := putD s.svc.spares 0 stack (used + 1) } }
        (if used + 1 = 256 then s.raiseIrq 0 0x40 else s).answer 0 0 0))

/-! ## GROUP (R306) -/

/-- GROUP: the rank table of a collective group, one byte a rank (DESIGN CHOICE, log 22). -/
def execGroup (s : State) : Host.Outcome State Fault Refusal :=
  .next (s.command (fun s =>
    let m := s.mgmt
    match s.getPhys m.arg1.toNat m.arg2.toNat with
    | none => s.answer 0 0 0
    | some bs =>
      { s with svc := { s.svc with groups := insK s.svc.groups (m.arg0.toNat % 256) (bs.map (fun (b : Byte) => b.toNat)) } }.answer
        0 0 0))

/-! ## Register writes (R303) -/

/-- BAD_COMMAND: status 13. -/
def execBadCommand (_ : Byte) (s : State) : Host.Outcome State Fault Refusal :=
  .next (s.command (fun s => s.answer 13 0 0))

/-- IRQ_CLEAR. -/
def execIrqClear (v : Word) (s : State) : Host.Outcome State Fault Refusal :=
  .next { s with mgmt := { s.mgmt with irq := s.mgmt.irq &&& ~~~v } }

/-- A command, or a launch, is in progress. -/
def Mgmt.cbusy (m : Mgmt) : Bool := m.cstat.getLsbD 8
def Mgmt.lbusy (m : Mgmt) : Bool := m.lstat.getLsbD 8

/-- A write to launch or cmd that the port accepts: its busy bit is set, and an overrun ends. -/
def Mgmt.taken (m : Mgmt) (launch : Bool) : Mgmt :=
  let m := { m with cstat := m.cstat &&& ~~~(0x200#64) }
  if launch then { m with lstat := m.lstat ||| 0x100 } else { m with cstat := m.cstat ||| 0x100 }

/-- A write to launch or cmd starts its operation, unless the port is not ready or that one's busy bit is set: then it is
dropped, with overrun. -/
def State.startOp (s : State) (launch : Bool) (i : Instr) : State :=
  if !s.mgmt.ready then { s with mgmt := s.mgmt.drop }
  else if (if launch then s.mgmt.lbusy else s.mgmt.cbusy) then
    { s with mgmt := { s.mgmt with cstat := s.mgmt.cstat ||| 0x200 } }
  else { s with agenda := s.agenda ++ [.run i], mgmt := s.mgmt.taken launch }

/-- REGISTER_WRITE: a 64-bit write at an offset of the device-register range; a read-only register and an unlisted
offset ignore it. -/
def execRegisterWrite (off : Nat) (v : Word) (s : State) : Host.Outcome State Fault Refusal :=
  let m := s.mgmt
  .next (
    match off with
    | 0x008 => { s with mgmt := { m with ctx := v } }
    | 0x010 => { s with mgmt := { m with launch := v } }.startOp true (.rootLaunch v)
    | 0x020 => { s with mgmt := { m with cmd := v } }.startOp false (decodeHostCmd (v.extractLsb' 0 8))
    | 0x030 => { s with mgmt := { m with arg0 := v } }
    | 0x038 => { s with mgmt := { m with arg1 := v } }
    | 0x040 => { s with mgmt := { m with arg2 := v } }
    | 0x048 => { s with mgmt := { m with arg3 := v } }
    | 0x058 => { s with mgmt := { m with irq := m.irq &&& ~~~v } }
    | _ => s)

/-- What a read of the device-register range gives (R303). -/
def State.registerRead (s : State) (off : Nat) : Word :=
  let m := s.mgmt
  match off with
  | 0x000 => 0x8160000000000000#64 ||| (Config.stepping.setWidth 64 <<< 40) ||| (if m.ready then 1 else 0)
  | 0x008 => m.ctx
  | 0x018 => m.lstat
  | 0x028 => m.cstat
  | 0x030 => m.arg0
  | 0x038 => m.arg1
  | 0x040 => m.arg2
  | 0x048 => m.arg3
  | 0x050 => m.result
  | 0x058 => m.irq
  | 0x060 => m.health
  | _ => 0

/-! ## Links (R305, R307) -/

/-- FLIT_RECEIVE: a flit of 256 bytes whose CRC holds and whose sequence number is the next is taken, with the credits
that its header grants; one that fails its CRC is asked for again. -/
def execFlitReceive (link seq : Nat) (flit : List Byte) (s : State) : Host.Outcome State Fault Refusal :=
  .next (
    if 18 ≤ link ∨ s.linkUp link = false then s
    else if flit.length ≠ 256 ∨ Config.flitOk flit = false then
      s.modLink link (fun l => { l with resend := l.resend + 1 })
    else if seq = (s.link link).rxSeq then s.modLink link (fun l => { l with rxSeq := l.rxSeq + 1, credits := l.credits + Config.flitCredits flit })
    else s)

/-- The peer table lets a source read or write eight bytes of this device's physical space; it holds up to 64 ranges for a
source. -/
def State.peerAllows (s : State) (src addr : Nat) (write : Bool) : Bool :=
  decide (addr + 8 ≤ 2 ^ 40)
    && ((s.svc.peers.filter (fun r => r.src == src)).take 64).any (fun r => decide (r.base ≤ addr) && decide (addr + 8 ≤ r.base + r.size)
      && (if write then r.w else r.r))

/-- PEER_REQUEST: a request through the window of this device is served, or refused with no effect here. -/
def execPeerRequest (src addr : Nat) (write : Option Word) (s : State) : Host.Outcome State Fault Refusal :=
  .next (
    match write with
    | some v => if s.peerAllows src addr true then s.putPhys addr (bytesLE 8 v.toNat) else s
    | none => s)

/-- A link is fenced, and the routes are formed again around it (R307, R310). -/
def State.fenceLink (s : State) (n : Nat) : State :=
  ((s.modLink n (fun l => { l with up := false })).raiseIrq 0x14 0x10).reroute

/-- LINK_FAILURE: the link is fenced, the routes are formed again around it (R307, R310). -/
def execLinkFailure (link : Nat) (s : State) : Host.Outcome State Fault Refusal :=
  .next (
    if link < 18 then s.fenceLink link else s)

/-! ## Host memory, UCIe, power (R302, R308) -/

/-- HOST_MEM_ACCESS: the host reads or writes HBM through CXL.mem, or its own memory. -/
def execHostMemAccess (pa : Nat) (write : Option (List Byte)) (s : State) : Host.Outcome State Fault Refusal :=
  .next (
    match write with
    | some bs => if pa + bs.length ≤ 2 ^ 39 ∨ (2 ^ 48 ≤ pa ∧ pa + bs.length ≤ 2 ^ 51) then s.putPhys pa bs else s
    | none => s)

/-- A module is fenced (R302, R310). -/
def State.fenceModule (s : State) (n : Nat) : State :=
  { s with svc := { s.svc with uciePorts := s.svc.uciePorts.filter (fun x => !(x == n)) } }.raiseIrq 4 0x20

/-- UCIE_MODULE_FAIL: the port runs on the modules that remain. -/
def execUcieModuleFail (n : Nat) (s : State) : Host.Outcome State Fault Refusal :=
  .next (if n < 4 then s.fenceModule n else s)

/-- The die of a core: cores are numbered through the clusters by fours and through the dies by forties (R1 gives the counts
only; DESIGN CHOICE, log 60). -/
def dieOf (core : Nat) : Nat := core / 40

/-- CURRENT_CAP_TRIP: issue on the die pauses. -/
def execCurrentCapTrip (die : Nat) (s : State) : Host.Outcome State Fault Refusal :=
  let at_ := if s.svc.paused.contains die then s.svc.pausedAt else insK s.svc.pausedAt die s.cycle
  .next ({ s with svc := { s.svc with paused := withNum s.svc.paused die true, pausedAt := at_ } }.raiseIrq 8 0)

/-- A switch request counts no cycle in which its die has not issued since cycle `at_` (R312). -/
def Switch.afterPause (x : Switch) (at_ cycle : Nat) : Switch :=
  match x with
  | .requested rid wgid home since => .requested rid wgid home (since + (cycle - max since at_))
  | y => y

/-- CURRENT_CAP_TRIP_CLEAR: issue on the die goes on, and with it the count of its cores' switches (R312). -/
def execCurrentCapTripClear (die : Nat) (s : State) : Host.Outcome State Fault Refusal :=
  let at_ := getD s.svc.pausedAt s.cycle die
  .next { s with
    svc := { s.svc with paused := withNum s.svc.paused die false, pausedAt := delK s.svc.pausedAt die },
    cores := s.cores.map (fun q => (q.1, if dieOf q.1 = die then { q.2 with switch := q.2.switch.afterPause at_ s.cycle } else q.2)) }

/-- A core is fenced: no workgroup is placed there (R310). -/
def State.fenceCore (s : State) (core : Nat) : State :=
  (s.modCore core (fun c => { c with failed := true })).raiseIrq 4 4

/-- A unit is fenced: its health bit, REPLACE_REQUESTED, and the device goes on without it (R310). A unit that there is not
changes nothing. -/
def State.fenceUnit (s : State) (u : DevUnit) : State :=
  match u with
  | .core c => if c < 160 then s.fenceCore c else s
  | .partition c p =>
    if c < 160 ∧ p < 4 then (s.modCore c (fun k => { k with partFailed := withNum k.partFailed p true })).raiseIrq 4 2 else s
  | .lane c p l =>
    if c < 160 ∧ p < 4 ∧ l < 33 then
      (s.modCore c (fun k => { k with laneFenced := (p, l) :: k.laneFenced.filter (fun x => x != (p, l)) })).raiseIrq 4 1
    else s
  | .matrixUnit c => if c < 160 then (s.modCore c (fun k => { k with matFenced := true })).raiseIrq 4 8 else s
  | .link n => if n < 18 then s.fenceLink n else s
  | .ucie n => if n < 4 then s.fenceModule n else s

/-- POLICY_STEP: firmware refills balances of an open region, steps the core clock by quarters of a GHz from 4.0 GHz
down, and retires a unit (R308). -/
def execPolicyStep (ctx rid : Nat) (energy time : Int) (clock : Nat) (retired : Option DevUnit) (s : State) :
    Host.Outcome State Fault Refusal :=
  let r := s.region rid
  let s := if r.ctx = ctx ∧ r.closed = false then s.credit rid energy time else s
  let s := if 1 ≤ clock ∧ clock ≤ 16 then { s with svc := { s.svc with clock := clock } } else s
  .next (match retired with
    | some u => s.fenceUnit u
    | none => s)

/-- CORE_FAILURE: a core or one of its partitions is fenced (R310). -/
def execCoreFailure (core : Nat) (part : Option Nat) (s : State) : Host.Outcome State Fault Refusal :=
  .next (s.fenceUnit (match part with
    | none => .core core
    | some p => .partition core p))

/-- MEMORY_ERROR: the 128-byte line of a physical address holds an uncorrectable error (R128). -/
def execMemoryError (pa : Nat) (s : State) : Host.Outcome State Fault Refusal :=
  .next (
    match s.target (pa / 128 * 128) with
    | some (.mem loc) =>
      { s with poison := s.poison.filter (fun x => !(decide (loc ≤ x) && decide (x < loc + 128)))
                 ++ (List.range 128).map (fun k => loc + k) }
    | _ => s)

/-! ## DEVICE_RESET (R311) -/

/-- DEVICE_RESET: HBM is trained, firmware slot 0 is measured into the attestation log and started, the links are
trained and ready is set. Host memory is not the device's. Writes dropped before ready leave overrun set. -/
def execDeviceReset (s : State) : Host.Outcome State Fault Refusal :=
  let m := if s.mgmt.ready then Mgmt.reset else { s.mgmt with cstat := s.mgmt.cstat &&& 0x200 }
  .next { State.reset with
    mem := s.mem.filter (fun q => decide (2 ^ 48 ≤ q.1)), poison := s.poison.filter (fun x => decide (2 ^ 48 ≤ x)),
    mgmt := { m with ready := true }, serial := s.serial, nextId := s.nextId,
    svc := { Service.reset with log := [Config.slotMeasure 0], peers := s.svc.peers } }

end Sys2Proof.Machine
end

