-- ==== Sys2Proof/Machine/Dispatch.lean ====
section
/-! DEFINITION. One arm per constructor of Instr: a direct call of its meaning. -/
namespace Sys2Proof.Machine

/-- The effect of one instruction, command or event. -/
def exec (i : Instr) (s : State) : Host.Outcome State Fault Refusal :=
  match i with
  | .addi x0 x1 x2 x3 => Sys2Proof.Machine.execAddi x0 x1 x2 x3 s
  | .addpchi x0 x1 x2 => Sys2Proof.Machine.execAddpchi x0 x1 x2 s
  | .and x0 x1 x2 x3 x4 => Sys2Proof.Machine.execAnd x0 x1 x2 x3 x4 s
  | .andn x0 x1 x2 x3 x4 => Sys2Proof.Machine.execAndn x0 x1 x2 x3 x4 s
  | .atom x0 x1 x2 x3 x4 x5 x6 x7 x8 => Sys2Proof.Machine.execAtom x0 x1 x2 x3 x4 x5 x6 x7 x8 s
  | .bcopy x0 x1 x2 x3 x4 x5 => Sys2Proof.Machine.execBcopy x0 x1 x2 x3 x4 x5 s
  | .bfi x0 x1 x2 x3 x4 => Sys2Proof.Machine.execBfi x0 x1 x2 x3 x4 s
  | .bfx x0 x1 x2 x3 => Sys2Proof.Machine.execBfx x0 x1 x2 x3 s
  | .bperm x0 x1 x2 x3 x4 => Sys2Proof.Machine.execBperm x0 x1 x2 x3 x4 s
  | .br x0 x1 => Sys2Proof.Machine.execBr x0 x1 s
  | .brc x0 x1 x2 x3 x4 => Sys2Proof.Machine.execBrc x0 x1 x2 x3 x4 s
  | .call x0 x1 x2 => Sys2Proof.Machine.execCall x0 x1 x2 s
  | .calli x0 x1 x2 => Sys2Proof.Machine.execCalli x0 x1 x2 s
  | .brev x0 x1 x2 x3 => Sys2Proof.Machine.execBrev x0 x1 x2 x3 s
  | .clz x0 x1 x2 x3 => Sys2Proof.Machine.execClz x0 x1 x2 x3 s
  | .ctz x0 x1 x2 x3 => Sys2Proof.Machine.execCtz x0 x1 x2 x3 s
  | .brk x0 x1 => Sys2Proof.Machine.execBrk x0 x1 s
  | .bseal x0 x1 x2 => Sys2Proof.Machine.execBseal x0 x1 x2 s
  | .bwait x0 x1 => Sys2Proof.Machine.execBwait x0 x1 s
  | .bwaitRelease x0 x1 => Sys2Proof.Machine.execBwaitRelease x0 x1 s
  | .cflush x0 x1 x2 x3 x4 => Sys2Proof.Machine.execCflush x0 x1 x2 x3 x4 s
  | .exit x0 => Sys2Proof.Machine.execExit x0 s
  | .fmin x0 x1 x2 x3 => Sys2Proof.Machine.execFmin x0 x1 x2 x3 s
  | .fmax x0 x1 x2 x3 => Sys2Proof.Machine.execFmax x0 x1 x2 x3 s
  | .fabs x0 x1 x2 => Sys2Proof.Machine.execFabs x0 x1 x2 s
  | .fneg x0 x1 x2 => Sys2Proof.Machine.execFneg x0 x1 x2 s
  | .fadd x0 x1 x2 x3 x4 => Sys2Proof.Machine.execFadd x0 x1 x2 x3 x4 s
  | .fsub x0 x1 x2 x3 x4 => Sys2Proof.Machine.execFsub x0 x1 x2 x3 x4 s
  | .fmul x0 x1 x2 x3 x4 => Sys2Proof.Machine.execFmul x0 x1 x2 x3 x4 s
  | .ffma x0 x1 x2 x3 x4 => Sys2Proof.Machine.execFfma x0 x1 x2 x3 x4 s
  | .fdiv x0 x1 x2 x3 x4 => Sys2Proof.Machine.execFdiv x0 x1 x2 x3 x4 s
  | .fsqrt x0 x1 x2 x3 => Sys2Proof.Machine.execFsqrt x0 x1 x2 x3 s
  | .frcp x0 x1 x2 x3 => Sys2Proof.Machine.execFrcp x0 x1 x2 x3 s
  | .frsq x0 x1 x2 x3 => Sys2Proof.Machine.execFrsq x0 x1 x2 x3 s
  | .fexp2 x0 x1 x2 x3 => Sys2Proof.Machine.execFexp2 x0 x1 x2 x3 s
  | .flog2 x0 x1 x2 x3 => Sys2Proof.Machine.execFlog2 x0 x1 x2 x3 s
  | .fsin x0 x1 x2 x3 => Sys2Proof.Machine.execFsin x0 x1 x2 x3 s
  | .fcos x0 x1 x2 x3 => Sys2Proof.Machine.execFcos x0 x1 x2 x3 s
  | .fclass x0 x1 x2 => Sys2Proof.Machine.execFclass x0 x1 x2 s
  | .frnd x0 x1 x2 x3 => Sys2Proof.Machine.execFrnd x0 x1 x2 x3 s
  | .fcmp x0 x1 x2 x3 x4 => Sys2Proof.Machine.execFcmp x0 x1 x2 x3 x4 s
  | .fcvt x0 x1 x2 x3 x4 x5 x6 x7 => Sys2Proof.Machine.execFcvt x0 x1 x2 x3 x4 x5 x6 x7 s
  | .icvtf x0 x1 x2 x3 x4 => Sys2Proof.Machine.execIcvtf x0 x1 x2 x3 x4 s
  | .fcvti x0 x1 x2 x3 x4 => Sys2Proof.Machine.execFcvti x0 x1 x2 x3 x4 s
  | .fdot4 x0 x1 x2 x3 x4 x5 => Sys2Proof.Machine.execFdot4 x0 x1 x2 x3 x4 x5 s
  | .fence x0 x1 x2 => Sys2Proof.Machine.execFence x0 x1 x2 s
  | .iadd x0 x1 x2 x3 x4 => Sys2Proof.Machine.execIadd x0 x1 x2 x3 x4 s
  | .iaddc x0 x1 x2 x3 x4 x5 => Sys2Proof.Machine.execIaddc x0 x1 x2 x3 x4 x5 s
  | .isub x0 x1 x2 x3 x4 => Sys2Proof.Machine.execIsub x0 x1 x2 x3 x4 s
  | .isubb x0 x1 x2 x3 x4 x5 => Sys2Proof.Machine.execIsubb x0 x1 x2 x3 x4 x5 s
  | .imul x0 x1 x2 x3 x4 => Sys2Proof.Machine.execImul x0 x1 x2 x3 x4 s
  | .imulhi x0 x1 x2 x3 x4 x5 => Sys2Proof.Machine.execImulhi x0 x1 x2 x3 x4 x5 s
  | .imad x0 x1 x2 x3 x4 => Sys2Proof.Machine.execImad x0 x1 x2 x3 x4 s
  | .imin x0 x1 x2 x3 x4 x5 => Sys2Proof.Machine.execImin x0 x1 x2 x3 x4 x5 s
  | .imax x0 x1 x2 x3 x4 x5 => Sys2Proof.Machine.execImax x0 x1 x2 x3 x4 x5 s
  | .iabs x0 x1 x2 x3 => Sys2Proof.Machine.execIabs x0 x1 x2 x3 s
  | .ineg x0 x1 x2 x3 => Sys2Proof.Machine.execIneg x0 x1 x2 x3 s
  | .icinv x0 x1 => Sys2Proof.Machine.execIcinv x0 x1 s
  | .icmp x0 x1 x2 x3 x4 x5 x6 => Sys2Proof.Machine.execIcmp x0 x1 x2 x3 x4 x5 x6 s
  | .isel x0 x1 x2 x3 x4 x5 x6 => Sys2Proof.Machine.execIsel x0 x1 x2 x3 x4 x5 x6 s
  | .idiv x0 x1 x2 x3 x4 x5 => Sys2Proof.Machine.execIdiv x0 x1 x2 x3 x4 x5 s
  | .irem x0 x1 x2 x3 x4 x5 => Sys2Proof.Machine.execIrem x0 x1 x2 x3 x4 x5 s
  | .ld x0 x1 x2 x3 x4 x5 x6 x7 => Sys2Proof.Machine.execLd x0 x1 x2 x3 x4 x5 x6 x7 s
  | .mchk x0 x1 => Sys2Proof.Machine.execMchk x0 x1 s
  | .mfsr x0 x1 x2 => Sys2Proof.Machine.execMfsr x0 x1 x2 s
  | .mtsr x0 x1 => Sys2Proof.Machine.execMtsr x0 x1 s
  | .mlda x0 x1 x2 => Sys2Proof.Machine.execMlda x0 x1 x2 s
  | .msta x0 x1 x2 => Sys2Proof.Machine.execMsta x0 x1 x2 s
  | .mzero x0 x1 => Sys2Proof.Machine.execMzero x0 x1 s
  | .mma x0 x1 x2 x3 x4 x5 x6 x7 => Sys2Proof.Machine.execMma x0 x1 x2 x3 x4 x5 x6 x7 s
  | .mov x0 x1 x2 x3 => Sys2Proof.Machine.execMov x0 x1 x2 x3 s
  | .movi x0 x1 x2 => Sys2Proof.Machine.execMovi x0 x1 x2 s
  | .movhi x0 x1 x2 => Sys2Proof.Machine.execMovhi x0 x1 x2 s
  | .movri x0 x1 x2 => Sys2Proof.Machine.execMovri x0 x1 x2 s
  | .movwi x0 x1 x2 => Sys2Proof.Machine.execMovwi x0 x1 x2 s
  | .nop x0 => Sys2Proof.Machine.execNop x0 s
  | .or x0 x1 x2 x3 x4 => Sys2Proof.Machine.execOr x0 x1 x2 x3 x4 s
  | .not x0 x1 x2 x3 => Sys2Proof.Machine.execNot x0 x1 x2 x3 s
  | .popc x0 x1 x2 x3 => Sys2Proof.Machine.execPopc x0 x1 x2 x3 s
  | .rotl x0 x1 x2 x3 x4 => Sys2Proof.Machine.execRotl x0 x1 x2 x3 x4 s
  | .pset x0 x1 x2 x3 x4 => Sys2Proof.Machine.execPset x0 x1 x2 x3 x4 s
  | .pmov x0 x1 => Sys2Proof.Machine.execPmov x0 x1 s
  | .pmovPut x0 x1 x2 => Sys2Proof.Machine.execPmovPut x0 x1 x2 s
  | .pmv x0 x1 x2 x3 x4 => Sys2Proof.Machine.execPmv x0 x1 x2 x3 x4 s
  | .pstat x0 x1 x2 => Sys2Proof.Machine.execPstat x0 x1 x2 s
  | .pref x0 x1 x2 x3 => Sys2Proof.Machine.execPref x0 x1 x2 x3 s
  | .red x0 x1 x2 x3 x4 x5 x6 x7 => Sys2Proof.Machine.execRed x0 x1 x2 x3 x4 x5 x6 x7 s
  | .ret x0 x1 => Sys2Proof.Machine.execRet x0 x1 s
  | .rlaunch x0 x1 x2 => Sys2Proof.Machine.execRlaunch x0 x1 x2 s
  | .role x0 x1 => Sys2Proof.Machine.execRole x0 x1 s
  | .roleTakesEffect x0 => Sys2Proof.Machine.execRoleTakesEffect x0 s
  | .rstop x0 x1 x2 => Sys2Proof.Machine.execRstop x0 x1 x2 s
  | .rstopResume x0 x1 x2 => Sys2Proof.Machine.execRstopResume x0 x1 x2 s
  | .rstat x0 x1 x2 x3 => Sys2Proof.Machine.execRstat x0 x1 x2 x3 s
  | .shl x0 x1 x2 x3 x4 => Sys2Proof.Machine.execShl x0 x1 x2 x3 x4 s
  | .shr x0 x1 x2 x3 x4 => Sys2Proof.Machine.execShr x0 x1 x2 x3 x4 s
  | .sar x0 x1 x2 x3 x4 => Sys2Proof.Machine.execSar x0 x1 x2 x3 x4 s
  | .shfl x0 x1 x2 x3 x4 => Sys2Proof.Machine.execShfl x0 x1 x2 x3 x4 s
  | .sign x0 x1 x2 => Sys2Proof.Machine.execSign x0 x1 x2 s
  | .spawn x0 x1 x2 => Sys2Proof.Machine.execSpawn x0 x1 x2 s
  | .sprobe x0 x1 x2 x3 x4 => Sys2Proof.Machine.execSprobe x0 x1 x2 x3 x4 s
  | .st x0 x1 x2 x3 x4 x5 x6 x7 => Sys2Proof.Machine.execSt x0 x1 x2 x3 x4 x5 x6 x7 s
  | .swf x0 x1 x2 => Sys2Proof.Machine.execSwf x0 x1 x2 s
  | .swc x0 x1 x2 x3 => Sys2Proof.Machine.execSwc x0 x1 x2 x3 s
  | .tlbinv x0 x1 => Sys2Proof.Machine.execTlbinv x0 x1 s
  | .trap x0 x1 => Sys2Proof.Machine.execTrap x0 x1 s
  | .tryT x0 x1 x2 x3 => Sys2Proof.Machine.execTry x0 x1 x2 x3 s
  | .tret x0 x1 => Sys2Proof.Machine.execTret x0 x1 s
  | .allowanceSpent x0 => Sys2Proof.Machine.execAllowanceSpent x0 s
  | .vmxp x0 x1 x2 x3 x4 => Sys2Proof.Machine.execVmxp x0 x1 x2 x3 x4 s
  | .vote x0 x1 x2 x3 => Sys2Proof.Machine.execVote x0 x1 x2 x3 s
  | .vred x0 x1 x2 x3 => Sys2Proof.Machine.execVred x0 x1 x2 x3 s
  | .waitstamp x0 x1 x2 x3 x4 x5 => Sys2Proof.Machine.execWaitstamp x0 x1 x2 x3 x4 x5 s
  | .waitstampReturn x0 x1 => Sys2Proof.Machine.execWaitstampReturn x0 x1 s
  | .winit x0 x1 x2 x3 => Sys2Proof.Machine.execWinit x0 x1 x2 x3 s
  | .warrive x0 x1 x2 x3 => Sys2Proof.Machine.execWarrive x0 x1 x2 x3 s
  | .wsync x0 x1 x2 x3 x4 x5 => Sys2Proof.Machine.execWsync x0 x1 x2 x3 x4 x5 s
  | .wwait x0 x1 x2 x3 x4 x5 => Sys2Proof.Machine.execWwait x0 x1 x2 x3 x4 x5 s
  | .wwaitseq x0 x1 x2 x3 x4 x5 => Sys2Proof.Machine.execWwaitseq x0 x1 x2 x3 x4 x5 s
  | .weirWaitReturn x0 x1 => Sys2Proof.Machine.execWeirWaitReturn x0 x1 s
  | .wtest x0 x1 x2 x3 x4 x5 => Sys2Proof.Machine.execWtest x0 x1 x2 x3 x4 x5 s
  | .xor x0 x1 x2 x3 x4 => Sys2Proof.Machine.execXor x0 x1 x2 x3 x4 s
  | .yield x0 => Sys2Proof.Machine.execYield x0 s
  | .holdExpiry x0 x1 => Sys2Proof.Machine.execHoldExpiry x0 x1 s
  | .instructionComplete x0 x1 => Sys2Proof.Machine.execInstructionComplete x0 x1 s
  | .groupRetire x0 => Sys2Proof.Machine.execGroupRetire x0 s
  | .regionComplete x0 => Sys2Proof.Machine.execRegionComplete x0 s
  | .startsAfterCheck x0 => Sys2Proof.Machine.execStartsAfterCheck x0 s
  | .workgroupPlace x0 x1 x2 => Sys2Proof.Machine.execWorkgroupPlace x0 x1 x2 s
  | .distributorReserve x0 x1 x2 => Sys2Proof.Machine.execDistributorReserve x0 x1 x2 s
  | .starvationFirst x0 x1 => Sys2Proof.Machine.execStarvationFirst x0 x1 s
  | .coreTimeDebit x0 => Sys2Proof.Machine.execCoreTimeDebit x0 s
  | .switchRequest x0 x1 x2 => Sys2Proof.Machine.execSwitchRequest x0 x1 x2 s
  | .bankSwap x0 => Sys2Proof.Machine.execBankSwap x0 s
  | .spillDone x0 => Sys2Proof.Machine.execSpillDone x0 s
  | .clusterFusionChange x0 x1 => Sys2Proof.Machine.execClusterFusionChange x0 x1 s
  | .faultRecordPost x0 => Sys2Proof.Machine.execFaultRecordPost x0 s
  | .retry x0 x1 => Sys2Proof.Machine.execRetry x0 x1 s
  | .skip x0 x1 => Sys2Proof.Machine.execSkip x0 x1 s
  | .abandonWg x0 x1 => Sys2Proof.Machine.execAbandonWg x0 x1 s
  | .abandonRegion x0 x1 => Sys2Proof.Machine.execAbandonRegion x0 x1 s
  | .mmaChunk x0 => Sys2Proof.Machine.execMmaChunk x0 s
  | .tileChunk x0 => Sys2Proof.Machine.execTileChunk x0 s
  | .pmvChunk x0 => Sys2Proof.Machine.execPmvChunk x0 s
  | .copyStart x0 => Sys2Proof.Machine.execCopyStart x0 s
  | .copyTransfer x0 => Sys2Proof.Machine.execCopyTransfer x0 s
  | .batchStampWrite x0 => Sys2Proof.Machine.execBatchStampWrite x0 s
  | .rillDequeue x0 => Sys2Proof.Machine.execRillDequeue x0 s
  | .engineStop x0 x1 => Sys2Proof.Machine.execEngineStop x0 x1 s
  | .engineResume x0 => Sys2Proof.Machine.execEngineResume x0 s
  | .stream x0 => Sys2Proof.Machine.execStream x0 s
  | .rillDrain x0 => Sys2Proof.Machine.execRillDrain x0 s
  | .decode x0 x1 x2 x3 => Sys2Proof.Machine.execDecode x0 x1 x2 x3 s
  | .palette x0 x1 x2 => Sys2Proof.Machine.execPalette x0 x1 x2 s
  | .arrive x0 x1 => Sys2Proof.Machine.execArrive x0 x1 s
  | .waitw x0 x1 => Sys2Proof.Machine.execWaitw x0 x1 s
  | .waits x0 x1 => Sys2Proof.Machine.execWaits x0 x1 s
  | .loop x0 x1 x2 => Sys2Proof.Machine.execLoop x0 x1 x2 s
  | .jump x0 => Sys2Proof.Machine.execJump x0 s
  | .stamp x0 x1 => Sys2Proof.Machine.execStamp x0 x1 s
  | .reduce x0 x1 x2 x3 x4 x5 x6 => Sys2Proof.Machine.execReduce x0 x1 x2 x3 x4 x5 x6 s
  | .rillFence => Sys2Proof.Machine.execRillFence s
  | .rillEnd x0 x1 x2 => Sys2Proof.Machine.execRillEnd x0 x1 x2 s
  | .rillBadCommand x0 => Sys2Proof.Machine.execRillBadCommand x0 s
  | .rootLaunch x0 => Sys2Proof.Machine.execRootLaunch x0 s
  | .ctxCreate => Sys2Proof.Machine.execCtxCreate s
  | .ctxDestroy => Sys2Proof.Machine.execCtxDestroy s
  | .halt => Sys2Proof.Machine.execHalt s
  | .resume => Sys2Proof.Machine.execResume s
  | .discard => Sys2Proof.Machine.execDiscard s
  | .load => Sys2Proof.Machine.execLoad s
  | .unload => Sys2Proof.Machine.execUnload s
  | .tlbInval => Sys2Proof.Machine.execTlbInval s
  | .domain => Sys2Proof.Machine.execDomain s
  | .credit => Sys2Proof.Machine.execCredit s
  | .drain => Sys2Proof.Machine.execDrain s
  | .drainDone => Sys2Proof.Machine.execDrainDone s
  | .fwSlot => Sys2Proof.Machine.execFwSlot s
  | .retire => Sys2Proof.Machine.execRetire s
  | .group => Sys2Proof.Machine.execGroup s
  | .badCommand x0 => Sys2Proof.Machine.execBadCommand x0 s
  | .irqClear x0 => Sys2Proof.Machine.execIrqClear x0 s
  | .registerWrite x0 x1 => Sys2Proof.Machine.execRegisterWrite x0 x1 s
  | .flitReceive x0 x1 x2 => Sys2Proof.Machine.execFlitReceive x0 x1 x2 s
  | .peerRequest x0 x1 x2 => Sys2Proof.Machine.execPeerRequest x0 x1 x2 s
  | .linkFailure x0 => Sys2Proof.Machine.execLinkFailure x0 s
  | .nativeImageReceived x0 x1 x2 x3 x4 => Sys2Proof.Machine.execNativeImageReceived x0 x1 x2 x3 x4 s
  | .hostMemAccess x0 x1 => Sys2Proof.Machine.execHostMemAccess x0 x1 s
  | .ucieModuleFail x0 => Sys2Proof.Machine.execUcieModuleFail x0 s
  | .currentCapTrip x0 => Sys2Proof.Machine.execCurrentCapTrip x0 s
  | .deviceReset => Sys2Proof.Machine.execDeviceReset s
  | .reservedOpcode x0 => Sys2Proof.Machine.execReservedOpcode x0 s
  | .currentCapTripClear x0 => Sys2Proof.Machine.execCurrentCapTripClear x0 s
  | .policyStep x0 x1 x2 x3 x4 x5 => Sys2Proof.Machine.execPolicyStep x0 x1 x2 x3 x4 x5 s
  | .coreFailure x0 x1 => Sys2Proof.Machine.execCoreFailure x0 x1 s
  | .memoryError x0 => Sys2Proof.Machine.execMemoryError x0 s

end Sys2Proof.Machine
end

