-- ==== Sys2Proof/Machine/Sched.lean ====
section
/-! DEFINITION. What may move next, and the issue of one instruction word: the choice of lane and issue set, dist,
flags, slots and the order of groups (01 R17, R21, R23, R25 to R27; 02 R49 to R52; 11 R205, R216; 13 R241, R242; 14 R265,
R269, R273). What may move takes its turn in the order in which it came to (DESIGN CHOICE, log 11). -/
namespace Sys2Proof.Machine

/-! ## The next word of a group -/

/-- Not exited and not held (R17). -/
def Group.free (g : Group) (l : Nat) : Bool :=
  let t := g.th l
  !t.exited && t.held == .no

/-- Threads that stand before a header enter it first (R61). -/
def State.prepare (s : State) (gid : Nat) : State :=
  if laneList.any (fun l => ((s.grp gid).th l).entering.isSome) then s.enterAll gid else s

/-- What a group would issue. -/
inductive NextWord where
  /-- No instruction word: an entry, an allowance or the end of a segment decides, or the fetch faults. -/
  | special
  | illegal (w : Word)
  | word (i : Instr)
  deriving DecidableEq, Repr

/-- A trial lane whose allowance is spent (R269). -/
def Thread.spent (t : Thread) : Bool := t.trial.isSome && t.allow == 0

/-- The word at `pc` for issue: the one that the group has fetched already and that has stalled since, or a fetch (R66;
DEDUCED, log 61). -/
def State.issueFetch (s : State) (gid : Nat) (pc : Word) : State × Except Nat Word :=
  let fetch := s.fetchWord (s.grp gid).core (s.cidOf gid) pc.toNat
  match (s.grp gid).fetched with
  | some x => if x.1 = pc then (s, .ok x.2) else fetch
  | none => fetch

/-- The next word of lane `l` of a group that stands in its block. -/
def State.nextWord (s : State) (gid l : Nat) : NextWord :=
  let t := (s.grp gid).th l
  if t.spent || !s.segmentOk gid l t.pc then .special
  else
    match (s.issueFetch gid t.pc).2 with
    | .error _ => .special
    | .ok w =>
      match decodeWord w with
      | .ok i => .word i
      | .error _ => .illegal w

/-- Set flags of the TRYs with lanes still in their candidates. -/
def Group.tryFlags (g : Group) : List Nat :=
  (g.pending.filter (fun p => match p.instr with | .tryT _ _ _ _ => true | _ => false)).filterMap (fun p => p.flag)

/-- The word waits on the flag of a TRY, not of the lane's own, with lanes still in their candidates (R17, R273). -/
def Group.waitsTry (g : Group) (l : Nat) (i : Instr) : Bool :=
  match i.ctl? with
  | some c => !(namesOwnFlag c (g.th l)) && g.tryFlags.any (fun f => c.wait.getLsbD f)
  | none => false

/-- The word reads the window in a candidate, and an access that the lane issued before its TRY must complete first (R351,
R363). -/
def Group.waitsOutside (g : Group) (l : Nat) (i : Instr) : Bool :=
  g.inTrial l && (match i with | .ld _ .g _ _ _ _ _ _ => waitsFor g.pending i (laneBit l) | _ => false)

/-- The lane waits at a trial boundary (DEDUCED, log 12). -/
def State.atBoundary (s : State) (gid l : Nat) : Bool :=
  let g := s.grp gid
  !g.tryFlags.isEmpty && (match s.nextWord gid l with
    | .word i => g.waitsTry l i || g.waitsOutside l i
    | _ => false)

/-- R17: not exited, not held and at no boundary. -/
def State.runnable (s : State) (gid l : Nat) : Bool := (s.grp gid).free l && !(s.atBoundary gid l)

/-- R17: the first runnable lane at or after q. -/
def State.chosen (s : State) (gid : Nat) : Option Nat :=
  (laneList.map (fun k => ((s.grp gid).q + k) % 32)).find? (s.runnable gid)

/-- R17: every runnable thread whose program counter equals that of lane `l`. -/
def State.issueSet (s : State) (gid l : Nat) : LaneMask :=
  let g := s.grp gid
  maskOf (laneList.filter (fun k => (g.th k).pc == (g.th l).pc && g.inTrial k == g.inTrial l && s.runnable gid k))

/-! ## Slots (R25, R67) -/

/-- The opcode issues in slot A with u = 0. -/
def opSlotA (op : Nat) : Bool :=
  (decide (0x10 ≤ op) && decide (op ≤ 0x2E)) || (decide (0x30 ≤ op) && decide (op ≤ 0x33))
    || (decide (0x38 ≤ op) && decide (op ≤ 0x4E)) || op == 0x50 || op == 0xA2

/-- The instruction issues in slot B. -/
def slotB (i : Instr) : Bool := !(opSlotA (bits (wordOf i).toNat 63 56)) || (match i.ctl? with | some c => c.u | none => true)

/-! ## What blocks an issue (R241) -/

def isMatrix : Instr → Bool
  | .mma _ _ _ _ _ _ _ _ | .mlda _ _ _ | .msta _ _ _ | .mzero _ _ | .mchk _ _ => true
  | _ => false

def isPalette : Instr → Bool
  | .pmv _ _ _ _ _ | .pstat _ _ _ => true
  | _ => false

/-- A command of its kind is outstanding (R205). -/
def Group.unitBusy (g : Group) (i : Instr) : Bool :=
  g.pending.any (fun p => (isMatrix i && isMatrix p.instr) || (isPalette i && isPalette p.instr))

/-- No 8 KiB of the partition's trial SRAM are free (R273). -/
def State.sramFull (s : State) (gid : Nat) : Bool :=
  let g := s.grp gid
  !g.trialSram && decide (8 ≤ (s.groups.filter (fun q =>
    q.2.trialSram && q.2.core == g.core && q.2.part == g.part && (s.wg q.2.wid).onCore)).length)

/-- Copies that the group has issued and that stand behind older accesses. -/
def Group.copiesBehind (g : Group) : Nat :=
  (g.pending.filter (fun p => p.kind == .behind && (match p.instr with | .bcopy _ _ _ _ _ _ => true | _ => false))).length

/-- The issue would take its set flag above 63 (R51). -/
def Group.flagFull (g : Group) (c : Ctl) : Bool :=
  match setFlag c with
  | some n => decide (63 ≤ g.flagOf n)
  | none => false

/-! ## The issue port -/

/-- R26: the word goes out in the cycle of the group's previous one. -/
def Group.pairs (g : Group) (c : Ctl) (i : Instr) (set : LaneMask) (cycle : Nat) : Bool :=
  g.lastIssue == cycle && !g.lastSlotB && slotB i && c.dist == 0 && g.lastSet == set
    && !(decide (g.lastFlag < 12) && c.wait.getLsbD g.lastFlag)

/-- The dist field of a word (R50). -/
def issueDist (i : Option Instr) : Nat := match i.bind Instr.ctl? with | some c => c.dist.toNat | none => 0

/-- The cycle of an issue (R26, R50). -/
def Group.issueCycle (g : Group) (i : Option Instr) (set : LaneMask) (cycle stall : Nat) : Nat :=
  let d := issueDist i
  match i, i.bind Instr.ctl? with
  | some j, some k =>
    if stall = 0 ∧ g.pairs k j set cycle = true then cycle else max (cycle + 1 + stall) (g.lastIssue + max d 1)
  | _, _ => max (cycle + 1 + stall) (g.lastIssue + max d 1)

/-- The group stands at the issue port with its issue set (R17, R242). -/
def State.atPort (s : State) (gid l : Nat) (set : LaneMask) (i : Option Instr) (stall : Nat) : State :=
  let g := s.grp gid
  let b := match i with | some j => slotB j | none => true
  let n := match i.bind Instr.ctl? with | some c => (setFlag c).getD 15 | none => 15
  let cyc := g.issueCycle i set s.cycle stall
  let s := { s with cycle := cyc, cur := gid, iset := set, ilane := l,
                    first := s.first.filter (fun x => !(x == (gid, b))) }
  (s.modGrp gid (fun g => { g with
    q := (l + 1) % 32, lastIssue := cyc, dists := g.dists + issueDist i, issuedAt := s.nextId, fetched := none, lastSlotB := b, lastSet := set, lastFlag := n,
    ageA := (if b then g.ageA else cyc), ageB := (if b then cyc else g.ageB),
    eligA := (if b then g.eligA else none), eligB := (if b then none else g.eligB) })).prune gid

/-- The instruction at the issue port stalls (R241). What a word would charge or take matters only where a thread is active
(R49). Lanes that all name the set flag of their own TRY wait for nothing (R270). -/
def State.stalls (s : State) (i : Instr) : Bool :=
  let g := s.g
  match i.ctl? with
  | none => false
  | some c =>
    if (lanesOf s.iset).all (fun l => namesOwnFlag c (g.th l)) then false
    else
      let m := s.active c
      !(g.flagsClear c.wait) || g.unitBusy i
        || (m != 0 && (g.flagFull c
          || (match i with
            | .tryT _ _ _ _ => s.sramFull s.cur
            | .bcopy _ _ _ _ _ _ => s.copyStalls s.cur g.copiesBehind
            | _ => false)))

/-- The group stands on a core, partition and die that issue. -/
def State.mayIssue (s : State) (gid : Nat) : Bool :=
  let g := s.grp gid
  let c := s.core g.core
  (s.wgOf gid).issues && !c.failed && !(c.partFailed.contains g.part)
    && !(s.svc.paused.contains (dieOf g.core))

/-- What a group waits to issue next: slot and whether it is matrix work. -/
structure Elig where
  slotB  : Bool
  matrix : Bool
  deriving DecidableEq, Repr

/-- The group is eligible, in a slot (R241). -/
def State.eligible (s : State) (gid : Nat) : Option Elig :=
  if !s.mayIssue gid then none
  else
    let t := s.prepare gid
    if !(t.wgOf gid).issues then some { slotB := true, matrix := false }
    else
      match t.chosen gid with
      | none => none
      | some l =>
        match t.nextWord gid l with
        | .special => some { slotB := true, matrix := false }
        | .illegal _ => some { slotB := true, matrix := false }
        | .word i =>
          let p := t.atPort gid l (t.issueSet gid l) (some i) 0
          if p.stalls i || decide (s.cycle + 1 < (s.grp gid).lastIssue + issueDist (some i)) then none
          else some { slotB := slotB i, matrix := isMatrix i }

/-! ## The choice of R27 and R242 -/

/-- Eligible groups. -/
def State.eligibles (s : State) : List (Nat × Elig) :=
  s.groups.filterMap (fun q => (s.eligible q.1).map (fun e => (q.1, e)))

/-- The first of some groups by a key. -/
def firstBy (key : Nat × Elig → List Nat) : List (Nat × Elig) → Option (Nat × Elig)
  | [] => none
  | a :: rest =>
    match firstBy key rest with
    | none => some a
    | some b => if lexLt (key b) (key a) then some b else some a

/-- Of equals, the lowest grpid of the workgroup placed first (R242). -/
def State.placeKey (s : State) (gid : Nat) : List Nat := [(s.wg (s.grp gid).wid).order, (s.grp gid).grpid]

/-- What the group of an eligible issue has waited: the cycle of its last issue in the slot. -/
def State.ageOf (s : State) (a : Nat × Elig) : Nat := if a.2.slotB then (s.grp a.1).ageB else (s.grp a.1).ageA

/-- The group is chosen first in the slot (R242). -/
def State.goesFirst (s : State) (a : Nat × Elig) : Bool := s.first.contains (a.1, a.2.slotB) || s.starves a.1 a.2.slotB

/-- Those with the least value. -/
def leastBy (f : Nat × Elig → Nat) (es : List (Nat × Elig)) : List (Nat × Elig) :=
  es.filter (fun a => es.all (fun b => decide (f a ≤ f b)))

/-- The group that a slot chooses: one that starves; else of the highest class, of matrix commands only those of the lowest
estimate, the oldest (R27, R242). -/
def State.slotChoice (s : State) (es : List (Nat × Elig)) : Option Nat :=
  let starved := es.filter s.goesFirst
  let best :=
    if starved.isEmpty then
      let top := leastBy (fun a => 7 - (s.grp a.1).prio) es
      let low := leastBy (fun a => (s.grp a.1).mest) (top.filter (fun a => a.2.matrix))
      firstBy (fun a => s.ageOf a :: s.placeKey a.1) (top.filter (fun a => !a.2.matrix || low.contains a))
    else firstBy (fun a => s.placeKey a.1) starved
  best.map (fun a => a.1)

/-- The eligible issues of a slot of a partition. -/
def State.inSlot (s : State) (core part : Nat) (b : Bool) (es : List (Nat × Elig)) : List (Nat × Elig) :=
  es.filter (fun a => (s.grp a.1).core == core && (s.grp a.1).part == part && a.2.slotB == b)

/-- The slots in which some group is eligible. -/
def State.slotTurns (s : State) (es : List (Nat × Elig)) : List Turn :=
  (es.map (fun a => Turn.slot (s.grp a.1).core (s.grp a.1).part a.2.slotB)).eraseDups

/-- The word at which a group stalls, which it has fetched. -/
def State.stalledAt (s : State) (gid : Nat) : Option (Word × Word) :=
  if !s.mayIssue gid || laneList.any (fun l => ((s.grp gid).th l).entering.isSome) then none
  else
    match s.chosen gid with
    | none => none
    | some l =>
      let pc := ((s.grp gid).th l).pc
      match s.nextWord gid l, (s.issueFetch gid pc).2 with
      | .word i, .ok w => if (s.atPort gid l (s.issueSet gid l) (some i) 0).stalls i then some (pc, w) else none
      | _, _ => none

/-- What a cycle leaves in a group: since when it has been eligible in each slot (R242), and the word at which it stalls. -/
def State.markGroup (s : State) (es : List (Nat × Elig)) (q : Nat × Group) : Nat × Group :=
  let inSlot (b : Bool) : Bool := es.any (fun e => e.1 == q.1 && e.2.slotB == b)
  let mark (b : Bool) (old : Option Nat) : Option Nat := if inSlot b then some (old.getD s.cycle) else none
  (q.1, { q.2 with eligA := mark false q.2.eligA, eligB := mark true q.2.eligB,
                   fetched := (s.stalledAt q.1).or q.2.fetched })

/-! ## The issue of one word -/

/-- A step in which nothing moves takes a cycle (DESIGN CHOICE, log 50). -/
def State.idle (s : State) : State := { s with cycle := s.cycle + 1, serial := s.serial + 1 }

/-- A trial lane that has run out of its segment returns with cause 5 (R270). -/
def State.runOut (s : State) (gid : Nat) (m : LaneMask) : State :=
  ((lanesOf m).foldl (fun s l =>
    let t := (s.grp gid).th l
    s.outcome gid l 5 (trialOff t t.lastWord)) s).afterReturn gid m

/-- The word cannot be fetched, or lies in a trial segment: a word fault, or a trial outcome (R66, R265, R270). -/
def State.fetchFault (s : State) (code : Nat) : State :=
  if s.g.inTrial s.ilane then
    match trialCause code with
    | some cause => s.outcomes s.cur s.iset cause
    | none => s.faultWord 0 code
  else s.faultWord 0 code

/-- The lanes of an issue set that may not fetch at their pc (R265, R270). -/
def State.astray (s : State) (gid : Nat) (set : LaneMask) : LaneMask :=
  filterLanes set (fun l => !(s.segmentOk gid l ((s.grp gid).th l).pc))

/-- The lanes of an issue set with no allowance left (R269). -/
def State.exhausted (s : State) (gid : Nat) (set : LaneMask) : LaneMask :=
  filterLanes set (fun l => ((s.grp gid).th l).spent)

/-- The group has fetched the word and it stalls: a cycle passes. -/
def State.stall (s : State) (gid : Nat) (pc w : Word) : State :=
  (s.modGrp gid (fun g => { g with fetched := some (pc, w) })).idle

/-- A hold of the group whose count is spent by a cycle: where, and the cycle in which it ends (R21). -/
def State.dueHold (s : State) (gid cycle : Nat) : Option (Word × Nat) :=
  laneList.findSome? (fun l =>
    let t := (s.grp gid).th l
    match t.held, t.rc with
    | .rc c, some j => if c + 255 ≤ cycle then some (j, (c + 255).toNat) else none
    | _, _ => none)

/-- The state at the issue port `p` issues, unless a hold of the group ends no later: then that comes first, and the issue
next. -/
def State.issueAt (s p : State) (gid stall : Nat) (go : State → Host.Outcome State Fault Refusal) :
    Host.Outcome State Fault Refusal :=
  match s.dueHold gid p.cycle with
  | none => go p
  | some (j, d) =>
    let c := max (s.cycle + 1) d
    exec (.holdExpiry gid j) { s with cycle := c, agenda := .issue gid (stall - (c - s.cycle)) :: s.agenda }

/-- Group `gid` issues the word of its chosen lane after `stall` further cycles. A word that is refused, for its opcode or for
its fields, faults without a wait for the flags and the dist that it names (R70; DESIGN CHOICE, log 63). -/
def State.issueFrom (s : State) (gid l : Nat) (set : LaneMask) (stall : Nat) : Host.Outcome State Fault Refusal :=
  let g := s.grp gid
  let pc := (g.th l).pc
  let bare := s.atPort gid l set none stall
  if s.exhausted gid set ≠ 0 then s.issueAt bare gid stall (exec (.allowanceSpent gid))
  else if s.astray gid set ≠ 0 then
    s.issueAt bare gid stall (fun t =>
      .next (if g.inTrial l then t.runOut gid (s.astray gid set) else t.fetchFault (s.strayCode gid pc)))
  else
    match s.issueFetch gid pc with
    | (t, .error c) => t.issueAt (t.atPort gid l set none stall) gid stall (fun p => .next (p.fetchFault c))
    | (t, .ok w) =>
      match decodeWord w with
      | .error _ => t.issueAt (t.atPort gid l set none stall) gid stall (exec (.reservedOpcode w))
      | .ok i =>
        let p := t.atPort gid l set (some i) stall
        if p.stalls i then .next (t.stall gid pc w) else t.issueAt p gid stall (exec i)

/-- The issue turn of a group. -/
def State.issueTurn (s : State) (gid stall : Nat) : Host.Outcome State Fault Refusal :=
  if (findK s.groups gid).isNone || !s.mayIssue gid then .next s.idle
  else
    let t := { s with serial := s.serial + 1 }.prepare gid
    if !(t.wgOf gid).issues then .next { t with cycle := t.cycle + 1 }
    else
      match t.chosen gid with
      | none => .next { t with cycle := t.cycle + 1 }
      | some l => t.issueFrom gid l (t.issueSet gid l) stall

/-! ## Turns of a rill program -/

/-- A program takes its turn: one that walks a page again runs, and what runs waits for no record (R191). -/
def Prog.onTurn (p : Prog) : Prog :=
  if p.rewalk then { p with rewalk := false, state := .running }
  else if p.state = .running then { p with recKey := 0 } else p

/-- The program performs its current command, or a chunk of it (R172, R176). -/
def State.engineTurn (s : State) (pid : Nat) : Host.Outcome State Fault Refusal :=
  let s := { s with eng := pid, serial := s.serial + 1, cycle := s.cycle + 1 }.modProg pid Prog.onTurn
  match s.fetchCmd pid with
  | (s, .perform i) => exec i s
  | (s, .idle) => .next s

/-- A program that an engine serves and that waits for no record. -/
def Prog.turns (p : Prog) : Bool :=
  p.engine.isSome && (p.state == .running || (p.state == .waiting && p.recKey == 0) || p.rewalk)

/-- A step would raise a record for which the hold list of the context has no room. -/
def State.overflows (s : State) (cid : Nat) (r : Host.Outcome State Fault Refusal) : Bool :=
  decide (4096 ≤ (s.ctx cid).hold.length) && (match r with
    | .next t => decide ((s.ctx cid).hold.length < (t.ctx cid).hold.length)
    | _ => false)

/-- A unit that would raise such a record waits at its chunk boundary until there is room; a region stays unstarted (R244). -/
def State.hasRoom (s : State) (cid : Nat) (i : Instr) : Bool := !s.overflows cid (exec i s)

/-- A program that may take its turn: on an engine, waiting for no record and for no room in the hold list. -/
def State.engineReady (s : State) (q : Nat × Prog) : Bool := q.2.turns && !s.overflows q.2.ctx (s.engineTurn q.1)

/-! ## Events that may come about -/

/-- A stamp wait has a lane that returns or faults (R410). -/
def State.stampMoves (s : State) (gid : Nat) (p : Pend) : Bool :=
  let todo := p.lanes &&& ~~~p.done
  let c := p.instr.ctl?.getD { u := false, dist := 0, wait := 0, set := 15, neg := false, pred := 0 }
  (actLanes c todo (lowLane todo)).any (fun l => match (s.stampLane gid p.ops l).2 with
    | .ok none => false
    | _ => true)

/-- The event of a pending record that may come about. -/
def State.pendEvents (s : State) (gid : Nat) (p : Pend) : List Instr :=
  let w := s.wgOf gid
  match p.kind with
  | .result => if w.onCore && decide (p.due ≤ s.cycle + 1) then [.instructionComplete gid p.id] else []
  | .weir a par _ _ => if (w.weir a).done par && w.onCore then [.weirWaitReturn gid p.id] else []
  | .stampWait _ _ => if w.issues && s.stampMoves gid p then [.waitstampReturn gid p.id] else []
  | .bwait n => if w.batchesDone n && w.onCore then [.bwaitRelease gid p.id] else []
  | _ => []

/-- Reconvergence points at which threads of a group are held. -/
def Group.heldAt (g : Group) : List Word :=
  ((laneList.filter (fun l => (g.th l).held.atRc)).filterMap (fun l => (g.th l).rc)).eraseDups

/-- The group has a matrix command that the unit of its core may serve. -/
def State.matReady (s : State) (gid : Nat) : Bool :=
  (s.wgOf gid).issues && (match (s.grp gid).mat with
    | some m => m.recKey == 0 && !s.matBlocked gid m && !s.tileTaken gid m
    | none => false)

/-- The matrix command that the unit of the core may serve: the one in service, else the first by R216. -/
def State.matFirst (s : State) (gid : Nat) : Bool :=
  let g := s.grp gid
  let key (h : Group) : List Nat :=
    [if (match h.mat with | some m => m.inService | none => false) then 0 else 1, 7 - h.prio, h.mest, h.ageB,
      (s.wg h.wid).order, h.grpid]
  s.groups.all (fun q =>
    q.1 == gid || (s.wg q.2.wid).home != (s.wg g.wid).home || !s.matReady q.1 || !(lexLt (key q.2) (key g)))

/-- The event of the group's matrix command. -/
def State.matEvents (s : State) (gid : Nat) : List Instr :=
  match (s.grp gid).mat with
  | some m =>
    if s.matReady gid && !(s.core (s.wgOf gid).home).matFenced && s.matFirst gid then
      (match m.instr with | .mma _ _ _ _ _ _ _ _ => [.mmaChunk gid] | _ => [.tileChunk gid])
    else []
  | none => []

/-- Events of a group. -/
def State.groupEvents (s : State) (q : Nat × Group) : List Instr :=
  q.2.pending.flatMap (s.pendEvents q.1)
    ++ (if (s.roleReady q.1).isSome then [.roleTakesEffect q.1] else [])
    ++ (if s.retireReady q.1 then [.groupRetire q.1] else [])
    ++ s.matEvents q.1
    ++ (if q.2.pal.isSome && (s.wgOf q.1).issues && s.hasRoom (s.cidOf q.1) (.pmvChunk q.1) then [.pmvChunk q.1] else [])
    ++ ([false, true].filter (fun b => s.starves q.1 b && !(s.first.contains (q.1, b)))).map
      (fun b => Instr.starvationFirst q.1 b)

/-- Events of a workgroup. -/
def State.wgEvents (s : State) (q : Nat × Wg) : List Instr :=
  let w := q.2
  (if w.onCore && w.runningCopy.isSome && !s.copyPaused q.1 && s.hasRoom w.ctx (.copyTransfer q.1) then [.copyTransfer q.1]
    else [])
    ++ (if w.onCore && w.nextStart.isSome then [.copyStart q.1] else [])
    ++ (if w.onCore && w.stampDue.isSome && s.hasRoom w.ctx (.batchStampWrite q.1) then [.batchStampWrite q.1] else [])

/-- The region's starts-after location decides, or cannot be read (R40). -/
def State.afterMoves (s : State) (r : Region) : Bool :=
  match (s.loadG none r.ctx r.rcb.afterA.toNat 8).2 with
  | .ok x => decide (r.rcb.afterV.toNat ≤ x)
  | .error _ => true

/-- Events of a region. -/
def State.regionEvents (s : State) (q : Nat × Region) : List Instr :=
  if (s.ctx q.2.ctx).halted then []
  else
    (if q.2.watching && s.afterMoves q.2 && s.hasRoom q.2.ctx (.startsAfterCheck q.1) then [.startsAfterCheck q.1] else [])
      ++ (if s.completable q.1 then [.regionComplete q.1] else [])

/-- The event that a resolution word asks for (R247). -/
def resolveEvent (cid key : Nat) : Nat → List Instr
  | 0 => []
  | 1 => [.retry cid key]
  | 2 => [.skip cid key]
  | 3 => [.abandonWg cid key]
  | _ => [.abandonRegion cid key]

/-- Events of a context. -/
def State.ctxEvents (s : State) (q : Nat × Ctx) : List Instr :=
  if q.2.halted then []
  else
    (if q.2.hold.isEmpty then [] else [.faultRecordPost q.1])
      ++ q.2.recs.flatMap (fun r => resolveEvent q.1 r.1 (s.resolution q.1 r.1))

/-- Events of the distributor. -/
def State.distEvents (s : State) : List Instr :=
  let cs := s.candidates
  (match s.nextCand with
    | some c => (match s.prefer c.rid (s.places c) with | some h => [.workgroupPlace c.rid c.wgid h] | none => [])
    | none => [])
    ++ (match cs.find? (fun c => (s.places c).isEmpty && !(s.victims c).isEmpty) with
      | some c => ((s.victims c).take 1).map (fun h => Instr.switchRequest h c.rid c.wgid)
      | none => [])
    ++ (match cs.find? (fun c => (s.places c).isEmpty && (s.modeWanted c).isSome) with
      | some c => (match s.modeWanted c with | some m => [.clusterFusionChange m.1 m.2] | none => [])
      | none => [])

/-- Events of a core. -/
def coreEvents (q : Nat × Core) : List Instr :=
  match q.2.switch with
  | .requested _ _ home _ => if home = q.1 then [.bankSwap q.1] else []
  | .spilling _ => [.spillDone q.1]
  | .none => []

/-- Everything that may come about, but for the issue of words and the turns of rill programs. -/
def State.events (s : State) : List Instr :=
  s.groups.flatMap s.groupEvents ++ s.wgs.flatMap s.wgEvents ++ s.regions.flatMap s.regionEvents
    ++ s.ctxs.flatMap s.ctxEvents ++ s.distEvents ++ s.cores.flatMap coreEvents
    ++ (allCores.filter s.mustEmpty).map (fun k => Instr.switchRequest k 0 0)
    ++ ((List.range 8).filter (fun k => (s.freeEngine k).isSome && (s.nextQueued k).isSome)).map Instr.rillDequeue
    ++ (s.progs.filter (fun q => q.2.state == .stopped && !q.2.hold && (s.wg q.2.wid).issues)).map
      (fun q => Instr.engineResume q.1)
    ++ (if s.drainReady then [.drainDone] else [])

/-- What is due in this cycle and waits for no turn: holds whose count is spent (R21), core-time (R35), a switch whose units
have had 2,048 cycles in which their die issues (R249, R312), a reservation (R239). -/
def State.urgent (s : State) : List Instr :=
  s.groups.flatMap (fun q => (q.2.heldAt.filter (s.holdSpent q.1)).map (fun j => Instr.holdExpiry q.1 j))
    ++ (s.wgs.filter (fun q => decide (4096 ≤ s.undebited q.1))).map (fun q => Instr.coreTimeDebit q.1)
    ++ s.cores.filterMap (fun q => match q.2.switch with
      | .requested _ _ home since =>
        if home = q.1 ∧ since + 2048 ≤ s.cycle ∧ s.svc.paused.contains (dieOf q.1) = false then some (.bankSwap q.1) else none
      | _ => none)
    ++ s.ctxs.filterMap (fun q => (s.mustReserve q.1).map (fun c => Instr.distributorReserve q.1 c.rid c.wgid))

/-- Instructions that stand behind older ones and may be performed now. -/
def State.performTurns (s : State) : List Turn :=
  s.groups.flatMap (fun q => if (s.wg q.2.wid).onCore then
    (q.2.pending.filter (s.performReady q.1)).map (fun p => Turn.perform q.1 p.id) else [])

/-- Every turn that may be taken. -/
def State.turns (s : State) (es : List (Nat × Elig)) : List Turn :=
  s.events.map Turn.run ++ s.performTurns
    ++ (s.wgs.filter (fun q => q.2.onCore && q.2.finished)).map (fun q => Turn.retire q.1)
    ++ (if s.loads.isEmpty then [] else [.loader])
    ++ (s.progs.filter s.engineReady).map (fun q => Turn.engine q.1) ++ s.slotTurns es

/-- The turns in their order: those that still may be taken keep their places, others come behind them. No turn is passed
over twice by another (R23). -/
def inOrder (old now : List Turn) : List Turn :=
  old.filter (fun t => now.contains t) ++ now.filter (fun t => !(old.contains t))

/-- A turn is taken; an event takes a cycle at least. -/
def State.take (s : State) (t : Turn) : Host.Outcome State Fault Refusal :=
  let next := { s with serial := s.serial + 1, cycle := s.cycle + 1 }
  match t with
  | .issue gid stall => s.issueTurn gid stall
  | .slot core part b =>
    match s.slotChoice (s.inSlot core part b s.eligibles) with
    | some gid => s.issueTurn gid 0
    | none => .next s.idle
  | .engine pid => s.engineTurn pid
  | .perform gid id => .next (next.perform gid id)
  | .signers wid k => .next (next.wakeSigners wid k)
  | .retire wid => .next (next.retireFinished wid)
  | .loader => .next next.loaderTurn
  | .run i => exec i next

/-- One step: the head of the agenda; else what is due, which takes no cycle, so that however much is due holds nothing back
(R23); else the turn that has waited longest. -/
def State.move (s : State) : Host.Outcome State Fault Refusal :=
  match s.agenda with
  | t :: rest => { s with agenda := rest }.take t
  | [] =>
    if !s.mgmt.ready then s.take (.run .deviceReset)
    else
      let es := s.eligibles
      let s := { s with groups := s.groups.map (s.markGroup es) }
      match s.urgent, inOrder s.queue (s.turns es) with
      | i :: _, _ => exec i { s with serial := s.serial + 1 }
      | [], t :: ts => { s with queue := ts }.take t
      | [], [] => .next { s with queue := [] }.idle

end Sys2Proof.Machine
end

