-- ==== Sys2Proof/Machine/Step.lean ====
section
/-! DEFINITION. One step of the machine, and the state in which it runs a given word next (DESIGN CHOICE, log 1). -/
namespace Sys2Proof.Machine

/-- One step: the head of the agenda, else what may not wait, else the turn that has waited longest. -/
def step (s : State) : Host.Outcome State Fault Refusal := s.move

/-! ## A state that runs a given word next -/

/-- Where the page tables, the code page and the command list of `withFetchWord` stand in HBM. -/
def fetchRoot : Nat := 0x20000
def fetchPage : Nat := 0x30000

/-- The tables that map the first 64 KiB of the context to one page, readable, writable and executable, installed and
dirty. -/
def State.fetchTables (s : State) : State :=
  let e (a flags : Nat) : List Byte := bytesLE 8 (a + flags)
  (((s.putPhys fetchRoot (e (fetchRoot + 0x2000) 1)).putPhys (fetchRoot + 0x2000) (e (fetchRoot + 0x4000) 1)).putPhys
    (fetchRoot + 0x4000) (e (fetchRoot + 0x6000) 1)).putPhys (fetchRoot + 0x6000) (e fetchPage 0x130F)

/-- A block of two words at address 0. -/
def fetchHdrWord : Word := 0xFC02000000000000#64

/-- A thread that stands at the first word of the block. -/
def fetchThread : Thread :=
  { Thread.absent with pc := 8, hdr := 0, len := 2, kind := 3, exited := false }

def fetchRcb : Rcb :=
  { Rcb.absent with wgcount := 1, wgsize := 32, ebudget := 2 ^ 62, tbudget := 2 ^ 62, prio := 3, valloc := 160,
                    tiles := 16, spbytes := 4096 }

/-- The context, the region, the workgroup, the group and the system-code object of a program placed from outside.
They take the identifiers from `s.nextId` on. -/
def State.fetchOwner (s : State) : State :=
  let n := s.nextId
  let w : Wg := { Wg.absent with
    ctx := n, rid := n + 1, state := .resident, gids := [n + 3], ngroups := 1, scratch := zeroTable, place := n + 2,
    conv := List.replicate 8 Conv.fresh, since := s.cycle, order := n + 2 }
  let g : Group := { Group.absent with
    wid := n + 2, threads := List.replicate 32 fetchThread, prio := 3, valloc := 160, regbase := 4096,
    lastIssue := s.cycle, ageA := s.cycle, ageB := s.cycle }
  let o : CodeObj :=
    { ctx := n, hash := [], base := 0, segs := [{ kind := segSys, va := 0, memsize := 65536, filesize := 65536 }],
      revoked := false, pages := [], flags := 0, kernels := [] }
  { s with
    ctxs := insK s.ctxs n { Ctx.absent with root := fetchRoot, domains := [(0, { desc := 0x8000, next := 1 })] }
    regions := insK s.regions (n + 1) { Region.absent with
      ctx := n, rcb := fetchRcb, ebal := 2 ^ 62, tbal := 2 ^ 62, nextwg := 1, state := .placed, order := n + 1,
      object := n }
    wgs := insK s.wgs (n + 2) w
    groups := insK s.groups (n + 3) g
    objects := insK s.objects n o
    mgmt := { s.mgmt with ready := true }
    nextId := n + 4 }

/-- `s` with the instruction stored where the next step fetches it, and with all that the fetch needs: a 64-bit word
is the next word of a new group, whose turn is next; a rill command is the first of a new program. -/
def State.withFetchWord (s : State) (nbits w : Nat) : State :=
  let x := w % 2 ^ nbits
  let n := s.nextId
  let t := s.fetchTables.fetchOwner
  if nbits ≤ 64 then
    { (t.putPhys fetchPage (bytesLE 8 fetchHdrWord.toNat ++ bytesLE 8 x)) with agenda := [.issue (n + 3) 0] }
  else
    let p : Prog := { Prog.absent with
      wid := n + 2, ctx := n, rid := n + 1, list := 0x1000, state := .running, engine := some 0, order := n + 4 }
    { (t.putPhys (fetchPage + 0x1000) (bytesLE 32 x)) with
      progs := insK t.progs (n + 4) p, nextId := n + 5, agenda := [.engine (n + 4)] }

end Sys2Proof.Machine
end

