-- ==== Sys2Proof/Machine/Ordering.lean ====
section
/-! DEFINITION. The memory order of spec/06: scopes, events, their relations, the axioms and data races (R134 to R154).
The step function performs every event whole, one after the other, which is one execution that the axioms allow
(DESIGN CHOICE, log 11); this file says which executions of any number of threads and agents the manual allows. What events
the steps of the machine make stands in Machine/Effects.lean. -/
namespace Sys2Proof.Machine

/-! ## Scopes (R134, R135, R137) -/

/-- A thread or another agent. -/
inductive Agent where
  /-- A lane of a group of a workgroup. -/
  | thread (wid gid lane : Nat)
  /-- The engine that runs a rill program. -/
  | engine (pid : Nat)
  /-- The copy engine, for a workgroup. -/
  | copy (wid : Nat)
  /-- The device itself: placement, starts-after reads, completion stores. -/
  | device
  | host
  | peer (n : Nat)
  deriving DecidableEq, Repr

def Agent.onDevice : Agent → Bool
  | .host | .peer _ => false
  | _ => true

def Agent.isThread : Agent → Bool
  | .thread _ _ _ => true
  | _ => false

/-- Two agents belong to one instance of the scope (R134). -/
def joins (sc : Scope) (a b : Agent) : Bool :=
  a == b || (match sc, a, b with
    | .grp, .thread _ g _, .thread _ h _ => g == h
    | .wg, .thread w _ _, .thread x _ _ => w == x
    | .dev, _, _ => a.onDevice && b.onDevice
    | .sys, _, _ => true
    | _, _, _ => false)

/-- A place in the program order of a thread or an agent: an instruction or command, and a step within it (R140, R149). -/
structure Place where
  who : Agent
  pos : Nat
  sub : Nat
  deriving DecidableEq, Repr

/-- The place comes before another in the order of one agent. -/
def Place.before (a b : Place) : Bool :=
  a.who == b.who && (decide (a.pos < b.pos) || (a.pos == b.pos && decide (a.sub < b.sub)))

/-- A byte that events act on: of memory, by location; of the scratchpad of a workgroup; of the registers of a group; or behind
a peer window or a page of device registers. -/
inductive Loc where
  | mem (loc : Nat)
  | store (wid a : Nat)
  | window (gid a : Nat)
  /-- Memory of a peer device, by physical address. -/
  | far (pa : Nat)
  /-- A register of the device, by offset. -/
  | port (off : Nat)
  deriving DecidableEq, Repr

def Loc.inStore : Loc → Bool
  | .store _ _ | .window _ _ => true
  | _ => false

/-- What an event does (R139, R142). Arrivals and waits name a weir of a workgroup by its address, and a phase by the count
of phases that the weir has completed before it. -/
inductive Act where
  | read | write | rmw | fence
  | arrive (wid weir phase : Nat)
  | wait (wid weir phase : Nat)
  deriving DecidableEq, Repr

/-- What else is known of an event: the part that it plays in an edge of R36, R143, R149, R194, R388 or R389. A place given
as settled is the first at which its threads have waited for its set flag; none: they have not. -/
inductive Mark where
  | no
  /-- A BCOPY that supplies a slice to a copy of a workgroup. -/
  | slice (wid copy : Nat)
  | copyRead (wid copy : Nat)
  /-- A payload write of a copy of a batch. -/
  | payload (wid copy batch : Nat)
  /-- The stamp write of a batch. -/
  | stamp (wid batch : Nat)
  | bwait (wid batch : Nat)
  /-- The read of WAITSTAMP that returned. -/
  | stampWait
  /-- An RLAUNCH or RSTOP.resume from which the program goes on, at this place of it. -/
  | runs (pid place : Nat)
  /-- An RSTOP or RSTAT that found what the program did before this place done. -/
  | seen (pid place : Nat) (settled : Option Nat)
  | sign (wid k round : Nat)
  /-- An operand read of the MMA of a round. -/
  | operand (wid k round : Nat) (settled : Option Nat)
  /-- The launch of a region, by SPAWN or by the host. -/
  | spawn (rid : Nat)
  /-- The read of a cas that fails (R318). -/
  | cas
  /-- The completion store of a region. -/
  | completes (rid : Nat)
  /-- The clearing of the weir table of a workgroup that is placed for the first time. -/
  | clears (wid : Nat)
  | winit
  deriving DecidableEq, Repr

/-- An event (R139). -/
structure Event where
  /-- Where it stands in the program order of each thread or agent whose event it is. -/
  places : List Place
  act    : Act
  bytes  : List Loc
  ord    : Ord
  scope  : Scope
  mark   : Mark := .no
  /-- Of the wait of a weir instruction: the first place at which its threads have waited for its set flag, from which on what
  follows it in their order stands behind it (R194); none: they have not. -/
  settled : Option Nat := none
  /-- It accesses a page of cacheability dev (R137). -/
  dev    : Bool := false
  /-- The context whose event it is; none for the host and for peers. -/
  ctx    : Option Nat := none
  /-- Its region and that region's ancestors, the root region last. -/
  rids   : List Nat := []
  /-- How often its context had been halted and resumed before (R153). -/
  life   : Nat := 0
  /-- For an arrival: the cycle in which it reaches the weir and its rank among those of that cycle (R160). -/
  cycle  : Option Nat := none
  rank   : Nat := 0
  deriving DecidableEq, Repr

def Event.arrives (e : Event) : Bool := match e.act with | .arrive _ _ _ => true | _ => false
def Event.waits (e : Event) : Bool := match e.act with | .wait _ _ _ => true | _ => false
/-- A read-modify-write: of a thread, or an arrival, which is one of the whole weir (R139, R158). -/
def Event.updates (e : Event) : Bool := e.act == .rmw || e.arrives
def Event.reads (e : Event) : Bool := e.act == .read || e.waits || e.updates
def Event.writes (e : Event) : Bool := e.act == .write || e.updates
def Event.isRel (e : Event) : Bool := e.ord == .rel || e.ord == .ar || e.ord == .sc
def Event.isAcq (e : Event) : Bool := e.ord == .acq || e.ord == .ar || e.ord == .sc
def Event.root (e : Event) : Option Nat := e.rids.getLast?
def Event.operand (e : Event) : Bool := match e.mark with | .operand _ _ _ _ => true | _ => false

/-- R137: an access of a thread to the store is ordered at wg scope when it names dev or sys. -/
def Event.reach (e : Event) : Scope :=
  if e.bytes.any Loc.inStore && e.places.all (fun p => p.who.isThread) && (e.scope == .dev || e.scope == .sys)
  then .wg else e.scope

/-- The two events stand in the program order of one thread. -/
def Event.shares (a b : Event) : Bool := a.places.any (fun p => b.places.any (fun q => p.who == q.who))

/-- `a` covers the threads of `b` (R135). -/
def Event.covers (a b : Event) : Bool := a.places.all (fun p => b.places.all (fun q => joins a.reach p.who q.who))

/-- The workgroup at whose weir an event arrives or waits. -/
def Event.atWeir (e : Event) : Option (Nat × Nat) :=
  match e.act with
  | .arrive w k _ | .wait w k _ => some (w, k)
  | _ => none

/-- R135; arrivals and waits of one workgroup are always mutually covering (R142). -/
def Event.mutual (a b : Event) : Bool :=
  a.shares b || (a.covers b && b.covers a) || (match a.atWeir, b.atWeir with
    | some x, some y => x.1 == y.1
    | _, _ => false)

/-- R135: events of the host and of peers carry sys scope; those of engines and of the device dev scope, but for the accesses
that R38, R40, R41, R182, R236 and R244 make at sys scope. -/
def Event.scopeOk (e : Event) : Bool :=
  e.places.all (fun p => match p.who with
    | .thread _ _ _ => true
    | .host | .peer _ => e.scope == .sys
    | _ => e.scope == .dev || e.scope == .sys)

/-! ## Executions and their relations (R140 to R144) -/

/-- An execution: numbered events, where each read takes each byte from (none: the initial value), the order of the writes
of each byte, and the state of the machine in which each event is performed, the next one being the state after it. -/
structure Execution where
  ev  : List Event
  src : Nat → Loc → Option Nat
  co  : Loc → List Nat
  st  : Nat → State

def Event.none : Event := { places := [], act := .fence, bytes := [], ord := .rlx, scope := .grp }
def Execution.e (x : Execution) (i : Nat) : Event := nth x.ev Event.none i
def Execution.readsAt (x : Execution) (l : Loc) (i : Nat) : Bool := (x.e i).reads && (x.e i).bytes.contains l
def Execution.writesAt (x : Execution) (l : Loc) (i : Nat) : Bool := (x.e i).writes && (x.e i).bytes.contains l

/-- A place that `q` has reached. -/
def reached (settled : Option Nat) (q : Place) : Bool := match settled with | some n => decide (n ≤ q.pos) | none => false

/-- An event `f` at the later place `q` stands behind `e`. What follows an operand read of an MMA, or the wait of a weir
instruction, in the order of a thread stands behind it from the place at which the thread has waited for its flag (R194, R196,
R199, R214; DEDUCED, log 66); behind such a wait stands a FENCE with an acquire half as well, which waits for it (R351). -/
def Event.binds (e : Event) (q : Place) (f : Event) : Bool :=
  match e.mark with
  | .operand _ _ _ settled => reached settled q
  | _ => !(e.waits && q.who.isThread) || reached e.settled q || (f.act == .fence && f.isAcq)

/-- Program order. -/
def Execution.po (x : Execution) (a b : Nat) : Bool :=
  (x.e a).places.any (fun p => (x.e b).places.any (fun q => p.before q && (x.e a).binds q (x.e b)))

/-- `a` stands before `b` in a list. -/
def comesBefore : List Nat → Nat → Nat → Bool
  | [], _, _ => false
  | c :: cs, a, b => if c = a then cs.contains b else comesBefore cs a b

/-- `rf`, `co` and `fr` on one byte. -/
def Execution.rfAt (x : Execution) (l : Loc) (w r : Nat) : Bool := x.readsAt l r && x.src r l == some w
def Execution.coAt (x : Execution) (l : Loc) (a b : Nat) : Bool := comesBefore (x.co l) a b
def Execution.frAt (x : Execution) (l : Loc) (r w : Nat) : Bool :=
  x.readsAt l r && r != w && (match x.src r l with
    | some v => x.coAt l v w
    | none => (x.co l).contains w)

/-- `ao`: the order of the arrivals counted in one phase of a weir (R140). -/
def Execution.ao (x : Execution) (a b : Nat) : Bool :=
  (x.e a).arrives && (x.e a).act == (x.e b).act
    && (match (x.e a).atWeir with | some (w, k) => x.coAt (.store w k) a b | none => false)

/-- `v` belongs to the release sequence of `w` on a byte (R141). -/
def Execution.inSequence (x : Execution) (l : Loc) (w v : Nat) : Bool :=
  v == w || ((((x.co l).dropWhile (fun k => k != w)).drop 1).takeWhile (fun k => (x.e k).updates)).contains v

/-- R141. -/
def Execution.head (x : Execution) (h w : Nat) : Bool :=
  (x.e h).isRel && (h == w || ((x.e h).act == .fence && x.po h w))
def Execution.tail (x : Execution) (a r : Nat) : Bool :=
  (x.e a).isAcq && (a == r || ((x.e a).act == .fence && x.po r a))

/-- A write, a byte and a read that make `h` synchronise with `a` (R141, R148). -/
def Execution.swBy (x : Execution) (l : Loc) (w r h a : Nat) : Bool :=
  x.writesAt l w && x.readsAt l r && x.head h w && x.tail a r
    && (match x.src r l with | some v => x.inSequence l w v | none => false)
    && (x.e h).mutual (x.e a) && (x.e w).mutual (x.e r)

/-- An arrival counts as a release: by its own order, or behind a FENCE with a release half (R352). -/
def Execution.releases (x : Execution) (w : Nat) : Prop :=
  (x.e w).isRel = true ∨ ∃ h, (x.e h).act = .fence ∧ (x.e h).isRel = true ∧ x.po h w = true

/-- A wait counts as an acquire from `w`: by its own order, or before a FENCE with an acquire half whose scope covers the party
of `w` (R352). -/
def Execution.acquires (x : Execution) (r w : Nat) : Prop :=
  (x.e r).isAcq = true
    ∨ ∃ f, (x.e f).act = .fence ∧ (x.e f).isAcq = true ∧ x.po r f = true ∧ (x.e f).covers (x.e w) = true

/-- R142, R352: a release arrival synchronises with an acquire wait for its phase. -/
def Execution.swWeir (x : Execution) (w r : Nat) : Prop :=
  x.releases w ∧ x.acquires r w ∧ ∃ wid k p, (x.e w).act = .arrive wid k p ∧ (x.e r).act = .wait wid k p

/-- R143, R148, R352: the stamp write of a batch synchronises with an acquire WAITSTAMP that returned on reading its word, when
the two are mutually covering. -/
def Execution.swStamp (x : Execution) (h r : Nat) : Prop :=
  (x.e r).mark = .stampWait ∧ x.acquires r h ∧ (x.e h).mutual (x.e r) = true ∧ (∃ l, x.src r l = some h)
    ∧ ∃ wid n, (x.e h).mark = .stamp wid n

/-- `bo`: from each payload write of a batch to its stamp write (R140, R143). -/
def Execution.bo (x : Execution) (a b : Nat) : Prop :=
  ∃ wid c n, (x.e a).mark = .payload wid c n ∧ (x.e b).mark = .stamp wid n

/-- The engine edges and those of copies, launches, completions and placement (R36, R41, R143, R149, R194, R388, R389). -/
inductive Execution.Eng (x : Execution) : Nat → Nat → Prop where
  /-- What a thread did before its BCOPY, before every read and write of the copy. -/
  | copyRead {a b wid c} : (x.e a).mark = .slice wid c → (x.e b).mark = .copyRead wid c → Eng x a b
  | copyWrite {a b wid c n} : (x.e a).mark = .slice wid c → (x.e b).mark = .payload wid c n → Eng x a b
  /-- BWAIT: every payload write of the batch before the thread's later events. -/
  | waited {a b wid c n} : (x.e a).mark = .payload wid c n → (x.e b).mark = .bwait wid n → Eng x a b
  /-- RLAUNCH and RSTOP.resume, before the events of the program from that place on. -/
  | runs {a b pid n} {q : Place} : (x.e a).mark = .runs pid n → q ∈ (x.e b).places → q.who = .engine pid → n ≤ q.pos →
      Eng x a b
  /-- RSTOP and RSTAT: what the program had done, before what follows a wait on the flag in the threads. -/
  | seen {a b m pid n settled} {p q r : Place} : (x.e m).mark = .seen pid n settled → p ∈ (x.e a).places →
      p.who = .engine pid → p.pos < n → r ∈ (x.e m).places → q ∈ (x.e b).places → r.who = q.who →
      reached settled q = true → Eng x a b
  /-- What was before the SIGN of a signer, before the operand reads of the round's MMA. -/
  | signed {a b wid k n settled} : (x.e a).mark = .sign wid k n → (x.e b).mark = .operand wid k n settled → Eng x a b
  | spawned {a b rid} : (x.e a).mark = .spawn rid → rid ∈ (x.e b).rids → a ≠ b → Eng x a b
  /-- The completion store follows every event of the region and of its descendants. -/
  | completed {a b rid} : rid ∈ (x.e a).rids → (x.e b).mark = .completes rid → a ≠ b → Eng x a b
  | cleared {a b wid} {q : Place} : (x.e a).mark = .clears wid → q ∈ (x.e b).places →
      (∃ g l, q.who = .thread wid g l) → Eng x a b

/-- R153: a context's events before a HALT come before those after its RESUME; a restored context keeps its name
(`Names`, Machine/Effects.lean). -/
def Execution.halts (x : Execution) (a b : Nat) : Prop :=
  (x.e a).ctx.isSome = true ∧ (x.e a).ctx = (x.e b).ctx ∧ (x.e a).life < (x.e b).life

/-- R144: happens-before among the events that satisfy `p`. -/
inductive Execution.HbIn (x : Execution) (p : Nat → Prop) : Nat → Nat → Prop where
  | po {a b : Nat} : p a → p b → x.po a b = true → HbIn x p a b
  | sw {a b : Nat} (l : Loc) (w r : Nat) : p a → p b → x.swBy l w r a b = true → HbIn x p a b
  | weir {a b : Nat} : p a → p b → x.swWeir a b → HbIn x p a b
  | stamp {a b : Nat} : p a → p b → x.swStamp a b → HbIn x p a b
  | bo {a b : Nat} : p a → p b → x.bo a b → HbIn x p a b
  | eng {a b : Nat} : p a → p b → x.Eng a b → HbIn x p a b
  | halts {a b : Nat} : p a → p b → x.halts a b → HbIn x p a b
  | trans {a b c : Nat} : HbIn x p a b → HbIn x p b c → HbIn x p a c

def everyEvent : Nat → Prop := fun _ => True

/-- R144. -/
abbrev Execution.Hb (x : Execution) : Nat → Nat → Prop := x.HbIn everyEvent

/-! ## The axioms (R137, R139, R140, R145 to R148, R160) -/

/-- A relation has no cycle among the events that satisfy `p`: they can be ranked. -/
def acyclicOn (p : Nat → Prop) (r : Nat → Nat → Prop) : Prop :=
  ∃ rank : Nat → Nat, ∀ a b, p a → p b → r a b → rank a < rank b

/-- `rf`, `co` or `fr` on some byte. -/
def Execution.com (x : Execution) (a b : Nat) : Prop :=
  ∃ l, x.rfAt l a b = true ∨ x.coAt l a b = true ∨ x.frAt l a b = true

/-- Two events are lanes of one instruction, the first of a lower lane. -/
def Event.lanesOfOne (a b : Event) : Bool :=
  match a.places, b.places with
  | [p], [q] => (match p.who, q.who with
    | .thread _ g l, .thread _ h m => g == h && p.pos == q.pos && p.sub == q.sub && decide (l < m)
    | _, _ => false)
  | _, _ => false

/-- The relations are what R140 says they are, and accesses are single-copy atomic (R139), as far as the events that satisfy
`p` go: a read takes its bytes from writes of them; of the lanes of one instruction, each
stands in co behind those below it, and one that reads what a lower lane writes reads the write of the lane before it (R319,
R336, R400); the arrivals of a phase of a weir follow each other (R140), those that reach it in one cycle by rank (R160); a wait sees the
last arrival of its phase or a later state of the weir (R142, R161). -/
structure Execution.WellFormedIn (x : Execution) (p : Nat → Prop) : Prop where
  scopes : ∀ i, (x.e i).scopeOk = true
  co_writes : ∀ l w, w ∈ x.co l ↔ x.writesAt l w = true
  co_once : ∀ l, (x.co l).Nodup
  src_writes : ∀ r l w, p r → x.src r l = some w → x.readsAt l r = true ∧ x.writesAt l w = true
  src_whole : ∀ r l l' w, p r → x.src r l = some w → x.readsAt l' r = true → x.writesAt l' w = true → x.src r l' = some w
  co_alike : ∀ l l' a b, p a → p b → (x.e a).mutual (x.e b) = true → x.writesAt l' a = true → x.writesAt l' b = true →
    x.coAt l a b = true → x.coAt l' a b = true
  lanes : ∀ l a b, p a → p b → (x.e a).lanesOfOne (x.e b) = true →
    (x.writesAt l a = true → x.writesAt l b = true → x.coAt l a b = true)
    ∧ (x.readsAt l a = true → x.writesAt l b = true → match x.src a l with | some v => x.coAt l v b = true | none => True)
    ∧ (x.writesAt l a = true → x.readsAt l b = true →
        (∀ c, (x.e a).lanesOfOne (x.e c) = true → (x.e c).lanesOfOne (x.e b) = true → x.writesAt l c = false) →
        x.src b l = some a)
  phases : ∀ l a b c, p a → p b → p c → x.ao a b = true → x.coAt l a c = true → x.coAt l c b = true →
    (x.e c).arrives = true → (x.e c).act = (x.e a).act
  ranks : ∀ l a b, p a → p b → (x.e a).arrives = true → (x.e b).arrives = true → x.writesAt l a = true →
    x.writesAt l b = true → (x.e a).cycle.isSome = true → (x.e a).cycle = (x.e b).cycle → (x.e a).rank < (x.e b).rank →
    x.coAt l a b = true
  waits : ∀ l a r wid k n, p a → p r → (x.e a).act = .arrive wid k n → (x.e r).act = .wait wid k n → x.readsAt l r = true →
    x.writesAt l a = true → ∃ w, x.src r l = some w ∧ (w = a ∨ x.coAt l a w = true)

/-- COHERENCE (R145); a location is a single byte (DESIGN CHOICE, log 11). -/
def Execution.CoherentIn (x : Execution) (p : Nat → Prop) : Prop :=
  ∀ l, acyclicOn (fun a => p a ∧ (x.e a).bytes.contains l = true)
    (fun a b => x.rfAt l a b = true ∨ x.coAt l a b = true ∨ x.frAt l a b = true ∨ x.HbIn p a b)

/-- ATOMICITY (R146). -/
def Execution.AtomicIn (x : Execution) (p : Nat → Prop) : Prop :=
  ∀ l m w, p m → p w → (x.e m).updates = true → (x.e m).bytes.contains l = true → (x.e w).mutual (x.e m) = true → w ≠ m →
    ¬ ((match x.src m l with | some v => x.coAt l v w = true | none => True) ∧ x.coAt l w m = true)

/-- CAUSALITY (R147): the third part for every set of sc events that are pairwise mutually covering. -/
structure Execution.CausalIn (x : Execution) (p : Nat → Prop) : Prop where
  hb_irrefl : ∀ a, ¬ x.HbIn p a a
  no_thin_air : acyclicOn p (fun a b => x.po a b = true ∨ ∃ l, x.rfAt l a b = true)
  sc_order : ∀ q : Nat → Prop, (∀ a, q a → p a ∧ (x.e a).ord = .sc) →
    (∀ a b, q a → q b → (x.e a).mutual (x.e b) = true) → acyclicOn q (fun a b => x.HbIn p a b ∨ x.com a b)

/-- R137: accesses to pages of cacheability dev are performed one at a time in the program order of each thread. -/
def Execution.DevOrderedIn (x : Execution) (p : Nat → Prop) : Prop :=
  acyclicOn (fun a => p a ∧ (x.e a).dev = true) (fun a b => x.po a b = true ∨ x.com a b)

/-- The axioms, for all events. -/
abbrev Execution.WellFormed (x : Execution) : Prop := x.WellFormedIn everyEvent
abbrev Execution.Coherent (x : Execution) : Prop := x.CoherentIn everyEvent
abbrev Execution.Atomic (x : Execution) : Prop := x.AtomicIn everyEvent
abbrev Execution.Causal (x : Execution) : Prop := x.CausalIn everyEvent

/-- The axioms hold among the events that satisfy `p`. -/
structure Execution.ObeysIn (x : Execution) (p : Nat → Prop) : Prop where
  formed : x.WellFormedIn p
  coherent : x.CoherentIn p
  atomic : x.AtomicIn p
  causal : x.CausalIn p
  device : x.DevOrderedIn p

/-! ## Data races (R150, R158, R214) -/

/-- R150: two events conflict. The operand reads of an MMA do not conflict with writes of its own group (R214). -/
def Event.conflicts (a b : Event) : Bool :=
  let own : Bool := (a.operand || b.operand) && a.places.any (fun p => b.places.any (fun q => match p.who, q.who with
    | .thread _ g _, .thread _ h _ => g == h
    | _, _ => false))
  !(a.shares b) && a.bytes.any (fun l => b.bytes.contains l) && (a.reads || a.writes) && (b.reads || b.writes)
    && (a.writes || b.writes) && !own

/-- An arrival and a plain write of its weir or an access of an ATOM, or a wait and a WINIT: they race unless hb orders them
(R158, R319, R414). -/
def Event.weirClash (a b : Event) : Bool :=
  let one (a b : Event) : Bool :=
    (a.arrives && ((b.writes && !b.arrives) || b.mark == .cas)) || (a.waits && b.mark == .winit)
  a.bytes.any (fun l => b.bytes.contains l) && !(a.shares b) && (one a b || one b a)

/-- Two events form a data race. -/
def Execution.RacePair (x : Execution) (a b : Nat) : Prop :=
  (((x.e a).conflicts (x.e b) = true ∧ (x.e a).mutual (x.e b) = false) ∨ (x.e a).weirClash (x.e b) = true)
    ∧ ¬ x.Hb a b ∧ ¬ x.Hb b a

/-- A data race. -/
def Execution.Race (x : Execution) : Prop := ∃ a b, x.RacePair a b

/-- The root region's tree of the event has made a race, and the event does not come before it: what it does is undefined
(R150). -/
def Execution.Undefined (x : Execution) (i : Nat) : Prop :=
  ∃ a b, x.RacePair a b ∧ (x.e i).root.isSome = true ∧ ((x.e a).root = (x.e i).root ∨ (x.e b).root = (x.e i).root)
    ∧ ¬ x.Hb i a ∧ ¬ x.Hb i b

/-! ## Isolation (R150) -/

/-- A byte that a context reaches: by its translation, or in the store and the registers of a workgroup of its own. -/
def State.reaches (s : State) (cid : Nat) : Loc → Prop
  | .mem loc => ∃ va e, s.walk cid va = .ok e ∧ s.target (e.pa va) = some (.mem loc)
  | .store wid _ => (findK s.wgs wid).isSome = true ∧ (s.wg wid).ctx = cid
  | .window gid _ => (findK s.groups gid).isSome = true ∧ s.cidOf gid = cid
  | .far pa => ∃ va e, s.walk cid va = .ok e ∧ s.target (e.pa va) = some (.peer pa)
  | .port off => ∃ va e, s.walk cid va = .ok e ∧ s.target (e.pa va) = some (.dev off)

/-- A byte of memory that belongs to a context: one that it reaches, or one of its page tables or dirty logs. -/
def State.holds (s : State) (cid loc : Nat) : Prop :=
  s.reaches cid (.mem loc)
    ∨ (∃ va e, s.walk cid va = .ok e ∧ e.loc ≤ loc ∧ loc < e.loc + 8)
    ∨ ∃ r ∈ s.regions, r.2.ctx = cid ∧ ∃ base pages bm i, r.2.dlog = some (base, pages, bm) ∧ i ≤ pages
        ∧ s.target (bm + i) = some (.mem loc)

/-- From `s` to `t` nothing changes but what belongs to a context: no other context, region, workgroup, group, program or code
object, no byte of memory of others (an image among them), and no register of the device. -/
structure State.Spares (s t : State) (cid : Nat) : Prop where
  ctxs : ∀ c, c ≠ cid → findK t.ctxs c = findK s.ctxs c
  regions : ∀ k r, findK s.regions k = some r → r.ctx ≠ cid → findK t.regions k = some r
  wgs : ∀ k w, findK s.wgs k = some w → w.ctx ≠ cid → findK t.wgs k = some w
  groups : ∀ k g, findK s.groups k = some g → s.cidOf k ≠ cid → findK t.groups k = some g
  progs : ∀ k p, findK s.progs k = some p → p.ctx ≠ cid → findK t.progs k = some p
  objects : ∀ k o, findK s.objects k = some o → o.ctx ≠ cid → findK t.objects k = some o
  memory : ∀ loc, t.byteAt loc ≠ s.byteAt loc → s.holds cid loc
  device : t.mgmt = s.mgmt ∧ t.svc = s.svc

/-- R150: whatever races, an event of a context touches only what its context reaches, no read takes a byte from an event of
another context that did not write it there, and what is undefined changes nothing of another context, its regions, its image or
the device registers. -/
structure Execution.Isolated (x : Execution) : Prop where
  own : ∀ i c l, (x.e i).ctx = some c → l ∈ (x.e i).bytes → (x.st i).reaches c l
  foreign : ∀ r l w, x.src r l = some w → (x.e w).ctx = (x.e r).ctx ∨ x.writesAt l w = true
  others : ∀ i c, (x.e i).ctx = some c → x.Undefined i → (x.st i).Spares (x.st (i + 1)) c

/-- The executions that the manual allows: the axioms bind every event but those of trees that have raced, and contexts
stay isolated (R150). -/
def Execution.Allowed (x : Execution) : Prop := x.Isolated ∧ x.ObeysIn (fun i => ¬ x.Undefined i)

end Sys2Proof.Machine
end

