-- ==== Sys2Proof/Machine/Effects.lean ====
section
/-! DEFINITION. The events that the steps of the machine make (R139, R142, R143, R149, R152 to R154, R158, R194, R214, R215,
R228, R236, R244, R276, R318, R396, R398, R410 to R415). An instruction makes its events when it is performed: at its issue, later
where it stands behind older ones, or again for the lanes that a fault has left; a lane that faults makes none. Its place in the
program order of its threads is the number of its record, which rises with issue; that of an event of an agent is the serial
number of its step. What only the whole execution tells, it fills in: the batch that seals a copy, the number of a signing round,
the place at which a flag has been waited for, how often a context has been halted and what its parts were called before (log 65
gives the orders and scopes that the spec leaves open). -/
namespace Sys2Proof.Machine

/-! ## Bytes -/

/-- Bytes that an access touches, and whether they lie on a page of cacheability dev. -/
structure Site where
  bytes : List Loc
  dev   : Bool
  deriving DecidableEq, Repr

def Site.none : Site := { bytes := [], dev := false }

/-- `n` bytes behind a target. -/
def Target.locs (t : Target) (n : Nat) : List Loc :=
  (List.range n).map (fun i => match t with
    | .mem loc => .mem (loc + i)
    | .peer pa => .far (pa + i)
    | .dev off => .port (off + i))

/-- `n` bytes of global memory; none of them where the access fails. -/
def State.siteG (s : State) (core : Option Nat) (cid ea n : Nat) (k : XKind) : Site :=
  match (s.accessG core cid ea n k).2 with
  | .ok t => { bytes := t.locs n, dev := match s.walk cid ea with | .ok e => pteCache e.pte == 3 | .error _ => false }
  | .error _ => .none

/-- `n` bytes of the store of a workgroup, as its groups on a core see it. -/
def State.siteS (s : State) (wid core a n : Nat) : Site :=
  { bytes := (List.range n).filterMap (fun i => match s.storeAt wid core (a + i) with
      | some (.pad b) => some (.store wid b)
      | some (.win o r l b) => some (.window o (128 * r + 4 * l + b))
      | Option.none => Option.none),
    dev := false }

/-- `n` bytes of physical memory, each by its own place: a granule of 4 KiB ends in the stack of the next (R7). -/
def State.siteP (s : State) (pa n : Nat) : Site :=
  { bytes := (List.range n).filterMap (fun i => match s.target (pa + i) with
      | some (.mem loc) => some (.mem loc)
      | _ => Option.none),
    dev := false }

/-- The sixteen bytes of a weir. -/
def weirSite (wid a : Nat) : Site := { bytes := (List.range 16).map (fun i => .store wid (a + i)), dev := false }

/-- [a, a + n) cut at multiples of `w`: engine accesses are single-copy atomic in each aligned word (R139). -/
def spans (w : Nat) : Nat → Nat → Nat → List (Nat × Nat)
  | 0, _, _ => []
  | fuel + 1, a, n => if n = 0 then [] else
    let k := min n (w - a % w)
    (a, k) :: spans w fuel (a + k) (n - k)

def words8 (a n : Nat) : List (Nat × Nat) := spans 8 n a n

/-! ## Deeds: what a lane, a group or an agent does in one step -/

/-- An event but for whose it is. -/
structure Deed where
  act   : Act
  site  : Site
  ord   : Ord
  scope : Scope
  mark  : Mark := .no
  settled : Option Nat := Option.none
  cycle : Option Nat := Option.none
  rank  : Nat := 0
  deriving DecidableEq, Repr

/-- A deed as an event at these places, of a region of a context. -/
def State.event (s : State) (ctx : Option Nat) (rid : Nat) (places : List Place) (d : Deed) : Event :=
  { places := places, act := d.act, bytes := d.site.bytes, ord := d.ord, scope := d.scope, mark := d.mark,
    settled := d.settled, dev := d.site.dev, ctx := ctx, rids := if ctx.isSome then s.chainOf rid 17 else [],
    cycle := d.cycle, rank := d.rank }

/-- Deeds in this order, one behind the other. -/
def numbered (ds : List Deed) : List (Nat × Deed) := ds.mapIdx (fun k d => (k, d))

/-- Deeds that have no order among themselves. -/
def together (ds : List Deed) : List (Nat × Deed) := ds.map (fun d => (0, d))

/-- Deeds of the threads of some lanes of a group at a place of their program order, each event by all of them. -/
def State.groupEventsOf (s : State) (gid : Nat) (m : LaneMask) (pos : Nat) (ds : List (Nat × Deed)) : List Event :=
  let w := s.wgOf gid
  ds.map (fun d =>
    s.event (some w.ctx) w.rid ((lanesOf m).map (fun l => ⟨.thread (s.grp gid).wid gid l, pos, d.1⟩)) d.2)

/-- Deeds of an agent of the device, or of the host or a peer. -/
def State.agentEvents (s : State) (who : Agent) (ctx : Option Nat) (rid pos : Nat) (ds : List (Nat × Deed)) : List Event :=
  ds.map (fun d => s.event ctx rid [⟨who, pos, d.1⟩] d.2)

/-- A deed that accesses nothing. -/
def markDeed (m : Mark) : Deed := { act := .fence, site := .none, ord := .rlx, scope := .grp, mark := m }

/-- A mark in the order of each thread by itself: what one thread did before it does not come before what another does after
(R143, R149, R331). -/
def State.markEvents (s : State) (gid : Nat) (m : LaneMask) (pos sub : Nat) (k : Mark) : List Event :=
  (lanesOf m).flatMap (fun l => s.groupEventsOf gid (laneBit l) pos [(sub, markDeed k)])

/-- The acquire half and the release half of an order (R318, R412, R413). -/
def acqHalf : Ord → Ord
  | .acq | .ar | .sc => .acq
  | _ => .rlx
def relHalf : Ord → Ord
  | .rel | .ar | .sc => .rel
  | _ => .rlx

/-- The lanes of a record in which it is still to be performed. -/
def Pend.todo (p : Pend) : LaneMask := p.lanes &&& ~~~p.done

/-! ## Loads, stores and read-modify-writes -/

/-- Lanes act one after the other; what each does where it meets no fault. -/
def State.laneDeeds (f : Nat → State → State × LaneFault) (deeds : State → Nat → List Deed) :
    List Nat → State → List (Nat × List Deed)
  | [], _ => []
  | l :: ls, s =>
    match f l s with
    | (t, Option.none) => (l, deeds s l) :: State.laneDeeds f deeds ls t
    | (t, some _) => State.laneDeeds f deeds ls t

/-- The record is performed lane by lane: with u = 0 each lane makes its events; with u = 1 lane `l` acts for the group, in the
program order of every thread of the issue set (R139, R151). -/
def State.runEvents (s : State) (gid : Nat) (p : Pend) (l : Nat) (f : Nat → State → State × LaneFault)
    (deeds : State → Nat → List Deed) : List Event :=
  let u := match p.instr.ctl? with | some c => c.u | Option.none => false
  (State.laneDeeds f deeds (if u then [l] else lanesOf p.todo) s).flatMap (fun d =>
    s.groupEventsOf gid (if u then p.todo else laneBit d.1) p.id (numbered d.2))

/-- What LD does in a lane: in a trial a read of the window is made at dev scope, and one of the scratch area is none
(R152, R270, R272). -/
def ldDeeds (gid : Nat) (sp : Space) (n : Nat) (off : BitVec 11) (o : Ord) (sc : Scope) (ops : Ops) (s : State) (l : Nat) :
    List Deed :=
  let g := s.grp gid
  let ea := (effAddr (ops.la l) off n).toNat
  let global (o : Ord) (sc : Scope) : List Deed :=
    [{ act := .read, site := s.siteG (some g.core) (s.cidOf gid) ea n .read, ord := o, scope := sc }]
  match sp, g.inTrial l with
  | .g, false => global o sc
  | .g, true => global .rlx .dev
  | .s, false => [{ act := .read, site := s.siteS g.wid g.core ea n, ord := o, scope := sc }]
  | .s, true => []
  | .k, _ => [{ act := .read, site := .none, ord := o, scope := sc }]

/-- What ST does in a lane. -/
def stDeeds (gid : Nat) (sp : Space) (n : Nat) (off : BitVec 11) (o : Ord) (sc : Scope) (ops : Ops) (s : State) (l : Nat) :
    List Deed :=
  let g := s.grp gid
  let ea := (effAddr (ops.la l) off n).toNat
  if g.inTrial l then []
  else
    let site := if sp = .s then s.siteS g.wid g.core ea n else s.siteG (some g.core) (s.cidOf gid) ea n .write
    [{ act := .write, site := site, ord := o, scope := sc }]

/-- What ATOM and RED do in a lane, on what they find then: a cas that fails is a read with the acquire half of its order
(R318). -/
def rmwDeeds (gid : Nat) (sp : Space) (n : Nat) (op : AtomOp) (o : Ord) (sc : Scope) (ops : Ops) (s : State) (l : Nat) :
    List Deed :=
  let g := s.grp gid
  let ea := (ops.la l).toNat
  let site := if sp = .s then s.siteS g.wid g.core ea n else s.siteG (some g.core) (s.cidOf gid) ea n .rmw
  let fails := match (s.laneRmw gid sp ea n op (ops.lb l) (ops.lc l) (.at 0)).2 with
    | .ok old => (combineN op n old (ops.lb l) (ops.lc l)).isNone
    | .error _ => false
  if fails then [{ act := .read, site := site, ord := acqHalf o, scope := sc, mark := .cas }]
  else [{ act := .rmw, site := site, ord := o, scope := sc }]

/-- How many slots SPROBE reads from slot h + j on (R398). -/
def State.probeReads (s : State) (gid base z key h : Nat) : Nat → Nat → Nat
  | 0, _ => 0
  | fuel + 1, j =>
    match s.loadS gid (base + 8 * ((h + j) % 2 ^ z)) 8 with
    | .error _ => 0
    | .ok x => if x % 2 ^ 32 = 0xFFFFFFFF ∨ x % 2 ^ 32 = key then 1 else 1 + s.probeReads gid base z key h fuel (j + 1)

/-- What SPROBE does in a lane: each probe is a read of eight bytes. -/
def probeDeeds (gid : Nat) (ops : Ops) (s : State) (l : Nat) : List Deed :=
  let z := bits (ops.lb l).toNat 31 27
  let base := bits (ops.lb l).toNat 21 0
  let key := (low32 (ops.la l)).toNat
  let h := if z = 0 then 0 else (key * 0x9E3779B9) % 2 ^ 32 / 2 ^ (32 - z)
  (List.range (s.probeReads gid base z key h (min (2 ^ z) 64) 0)).map (fun j =>
    { act := .read, site := s.siteS (s.grp gid).wid (s.grp gid).core (base + 8 * ((h + j) % 2 ^ z)) 8, ord := .rlx,
      scope := .wg })

/-- What SWC does in a lane: one read-modify-write of its bucket (R149). -/
def swcDeeds (gid : Nat) (ops : Ops) (s : State) (l : Nat) : List Deed :=
  let ea := (ops.lc l).toNat + 64 * bucketOf (ops.la l)
  [{ act := .rmw, site := s.siteG (some (s.grp gid).core) (s.cidOf gid) ea 64 .rmw, ord := .rlx, scope := .dev }]

/-! ## Weirs and stamps -/

/-- R160: engine arrivals of a cycle come first, by engine number; then those of instructions, by partition and grpid. -/
def State.arrivalRank (s : State) (gid : Nat) : Nat := 128 + 512 * (s.grp gid).part + (s.grp gid).grpid

/-- An arrival of a group or an engine. -/
def State.arrival (s : State) (wid a rank : Nat) (o : Ord) (sc : Scope) : Deed :=
  { act := .arrive wid a ((s.wg wid).weir a).seqbase, site := weirSite wid a, ord := o, scope := sc, cycle := some s.cycle,
    rank := rank }

/-- A wait that returns now: its phase is the last that the weir has completed. -/
def State.waitDeed (s : State) (wid a : Nat) (o : Ord) (sc : Scope) : Deed :=
  { act := .wait wid a ((((s.wg wid).weir a).seqbase + 2 ^ 32 - 1) % 2 ^ 32), site := weirSite wid a, ord := o, scope := sc }

/-- A wait for a parity, when it returns at once. -/
def State.waitNow (s : State) (wid a : Nat) (par : Bool) (o : Ord) : List Deed :=
  if ((s.wg wid).weir a).done par then [s.waitDeed wid a (acqHalf o) .wg] else []

/-- What a weir instruction does when it is performed for `n` threads; an arrival that faults does nothing (R142, R411 to R415).
WTEST waits for nothing. -/
def State.weirDeeds (s : State) (gid : Nat) (i : Instr) (ops : Ops) (n : Nat) : List Deed :=
  let wid := (s.grp gid).wid
  let w := s.wg wid
  let at_ := (ops.la 0).toNat
  let b := (ops.lb 0).toNat
  let ok := weirAddrOk at_ (s.spBytes w)
  let arrived (o : Ord) : List Deed × State :=
    match s.weirArrive wid at_ n (bits b 15 0) Option.none with
    | (t, .ok _) => ([s.arrival wid at_ (s.arrivalRank gid) (relHalf o) .wg], t)
    | (t, .error _) => ([], t)
  match i with
  | .winit _ o _ _ =>
    if ok && bits b 31 24 == 0 then
      [{ act := .write, site := weirSite wid at_, ord := o, scope := .wg, mark := .winit }]
    else []
  | .warrive _ o _ _ => if ok then (arrived o).1 else []
  | .wsync _ o _ _ _ _ =>
    if ok then
      let r := arrived o
      if r.1.isEmpty then [] else r.1 ++ r.2.waitNow wid at_ (w.weir at_).phase o
    else []
  | .wwait _ o _ _ _ _ => if ok then s.waitNow wid at_ (b % 2 == 1) o else []
  | .wwaitseq _ o _ _ _ _ =>
    match w.ring (s.spBytes w) at_ with
    | some r => let k := bits b 31 0; s.waitNow wid (fullWeir at_ (k % r.depth)) (k / r.depth % 2 == 1) o
    | Option.none => []
  | .wtest _ o _ _ _ _ =>
    if !ok then []
    else if (w.weir at_).done (b % 2 == 1) then [{ s.waitDeed wid at_ (acqHalf o) .wg with settled := some 0 }]
    else [{ act := .read, site := weirSite wid at_, ord := .rlx, scope := .wg }]
  | _ => []

/-- The order that a weir wait names. -/
def weirOrd : Instr → Ord
  | .wsync _ o _ _ _ _ | .wwait _ o _ _ _ _ | .wwaitseq _ o _ _ _ _ => o
  | _ => .rlx

/-- A poll of WAITSTAMP in a lane: only the read that returns carries the order (R410). -/
def State.stampDeeds (s : State) (gid : Nat) (ops : Ops) (o : Ord) (sc : Scope) (l : Nat) : List Deed :=
  let site := s.siteG (some (s.grp gid).core) (s.cidOf gid) (ops.la l).toNat 8 .read
  match (s.stampLane gid ops l).2 with
  | .error _ => []
  | .ok Option.none => [{ act := .read, site := site, ord := .rlx, scope := sc }]
  | .ok (some _) => [{ act := .read, site := site, ord := o, scope := sc, mark := .stampWait }]

/-! ## Units of a core -/

/-- Reads or writes of global words of a group, in pieces aligned at `w` bytes. -/
def State.wordDeeds (s : State) (gid w : Nat) (act : Act) (k : XKind) (a n : Nat) (m : Mark) : List Deed :=
  (spans w n a n).map (fun p =>
    { act := act, site := s.siteG (some (s.grp gid).core) (s.cidOf gid) p.1 p.2 k, ord := .rlx, scope := .dev, mark := m })

/-- What a chunk of the group's matrix command reads or writes: by all its active threads, at the command's place, chunk after
chunk and, in MSTA, row after row (R213 to R215). Order and scope of MLDA's reads are the model's choice (log 65). -/
def State.matDeeds (s : State) (gid : Nat) (m : MatCmd) : List (Nat × Deed) :=
  let rows := (List.range 8).map (· + m.rows)
  let row (act : Act) (k : XKind) (n : Nat) (mk : Mark) (base stride i : Nat) : List Deed :=
    s.wordDeeds gid 4 act k (base + i * stride) n mk
  match m.instr with
  | .mlda _ _ _ => rows.flatMap (fun i => (row .read .read 256 .no m.baseA m.strideA i).map (fun d => (m.rows, d)))
  | .msta _ _ _ => rows.flatMap (fun i => (row .write .write 256 .no m.baseA m.strideA i).map (fun d => (i, d)))
  | .mma _ f _ k _ _ _ _ =>
    let mk : Mark := .operand (s.grp gid).wid k.val 0 Option.none
    ((rows.filter (fun i => !bitOf (~~~m.declared ||| m.zfrag) (i % 32))).flatMap
        (row .read .read (rowLen f) mk m.baseA m.strideA)
      ++ (List.range 64).flatMap (row .read .read (rowLen f) mk m.baseB m.strideB)).map (fun d => (m.rows, d))
  | _ => []

/-- The chunk is done: the command has left the unit, or stands at a later row (R213). -/
def chunkEnded (m : MatCmd) (after : Option MatCmd) : Bool :=
  match after with
  | some x => x.pend != m.pend || m.rows < x.rows
  | Option.none => true

/-- What the next tokens of a group's PMV do, up to `fuel`: the gathers read, the row's end updates its word of y (R228). Order
and scope of the reads of the tokens are the model's choice (log 65). -/
def State.palDeeds (s : State) (gid : Nat) (m : PalCmd) : Nat → List (Nat × Deed)
  | 0 => []
  | fuel + 1 =>
    let c := (s.grp gid).cursor
    let deed (k : Nat) (act : Act) (a n : Nat) : Nat × Deed :=
      (2 * c.next + k, { act := act, site := s.siteS (s.grp gid).wid (s.grp gid).core a n, ord := .rlx, scope := .grp })
    if m.count ≤ c.next then []
    else
      let at_ := m.base + 2 * c.next
      match s.palToken gid m c with
      | (_, .stop _ _) => []
      | (t, .on d) =>
        let tok := match s.loadS gid at_ 2 with
          | .ok x => (match c.take (s.v1Of gid) x with
            | .first p _ | .more p _ => [deed 1 .read (m.x + 4 * p) 4]
            | .row (some _) => [deed 1 .rmw (m.y + 4 * c.idx.toNat) 4]
            | _ => [])
          | .error _ => []
        deed 0 .read at_ 2 :: tok ++ (t.modGrp gid (fun g => { g with cursor := d })).palDeeds gid m fuel

/-- A span read or written by the copy engine of a workgroup, for a copy. -/
def State.copyDeeds (s : State) (wid core : Nat) (inS : Bool) (act : Act) (k : XKind) (a n : Nat) (mk : Mark) :
    List Deed :=
  (words8 a n).map (fun p =>
    { act := act, ord := .rlx, scope := .dev, mark := mk,
      site := if inS then s.siteS wid core p.1 p.2 else s.siteG (some (s.wg wid).home) (s.wg wid).ctx p.1 p.2 k })

/-- What the next piece of the running copy does (R143). -/
def State.pieceDeeds (s : State) (wid : Nat) : List Deed :=
  let w := s.wg wid
  match w.runningCopy with
  | some c => (match c.slices with
    | x :: _ =>
      let p := x.piece c.done
      let core := w.coreOf x.grpid
      if x.len ≤ c.done then []
      else s.copyDeeds wid core x.srcS .read .read (x.src + p.1) p.2 (.copyRead wid c.index)
        ++ s.copyDeeds wid core x.dstS .write .write (x.dst + p.1) p.2 (.payload wid c.index c.batch)
    | [] => [])
  | Option.none => []

/-! ## Rill engines (R149, R182) -/

/-- A global access of a program's engine, in aligned words. -/
def State.engineDeeds (s : State) (pid : Nat) (act : Act) (k : XKind) (a n : Nat) : List Deed :=
  (words8 a n).map (fun p =>
    { act := act, site := s.siteG Option.none (s.prog pid).ctx p.1 p.2 k, ord := .rlx, scope := .dev })

/-- A span of its owner's scratchpad. -/
def State.ringDeeds (s : State) (pid : Nat) (act : Act) (a n : Nat) : List Deed :=
  let w := s.prog pid
  (words8 a n).map (fun p =>
    { act := act, site := s.siteS w.wid (s.wg w.wid).home p.1 p.2, ord := .rlx, scope := .dev })

/-- The arrival that a step of the program made at a weir, if it made one. -/
def State.engineArrival (s t : State) (pid a : Nat) : List (Nat × Deed) :=
  let p := s.prog pid
  if (s.wg p.wid).weir a = (t.wg p.wid).weir a then [] else [(1, s.arrival p.wid a p.engineNo .rel .dev)]

/-- The acquire wait of a slot that a chunk of a transfer begins (R167, R178). -/
def State.slotWait (s : State) (pid : Nat) (x : Xfer) (r : Ring) (seq : Nat) : List (Nat × Deed) :=
  let wid := (s.prog pid).wid
  if x.fill && decide (seq < r.depth) then []
  else
    let a := if x.fill then emptyWeir x.ring r.depth (seq % r.depth) else fullWeir x.ring (seq % r.depth)
    [(0, s.waitDeed wid a .acq .dev)]

/-- What a chunk that puts `n` payload bytes at `off` of the current slot does: the slot's wait, the accesses of global memory
and of the ring, and the slot's arrival after them (R149). -/
def State.chunkDeeds (s t : State) (pid : Nat) (x : Xfer) (r : Ring) (off n : Nat) (far : List Deed) :
    List (Nat × Deed) :=
  let seq := x.seq (s.prog pid)
  let pos := r.slotbase + (seq % r.depth) * r.slotbytes + off
  (if off = 0 then s.slotWait pid x r seq else [])
    ++ (far ++ s.ringDeeds pid (if x.fill then .write else .read) pos n).map (fun d => (1, d))
    ++ (s.engineArrival t pid (x.slotWeir r seq)).map (fun d => (2, d.2))

/-- A chunk of STREAM, DRAIN or PALETTE. -/
def State.xferDeeds (s t : State) (pid : Nat) (x : Xfer) (addr : Nat → Nat) : List (Nat × Deed) :=
  let p := s.prog pid
  let w := s.wg p.wid
  match w.ring (s.spBytes w) x.ring with
  | Option.none => []
  | some r =>
    let per := r.slotbytes / x.ssz
    let el := p.done / x.unit
    if !s.ownerHere pid || (el % per == 0 && !s.slotReady pid x r (x.seq p)) then []
    else
      let m := if p.owed.isSome then 0 else min (min (per - el % per) (x.n - el)) (chunkBytes / max x.gsz x.ssz)
      let as := (List.range m).map (fun j => addr (el + j))
      let k := if x.fill then
          (match s.readElems p.ctx x.gsz as [] with | (_, vs, .page _) => 0 * vs.length | (_, vs, _) => vs.length)
        else (match s.checkElems p.ctx as 0 with | (_, _, .page _) => 0 | (_, k, _) => k)
      let far := (as.take k).flatMap (fun a =>
        if x.fill then s.engineDeeds pid .read .read a x.gsz else s.engineDeeds pid .write .write a x.gsz)
      s.chunkDeeds t pid x r (el % per * x.ssz) (k * x.ssz) far

/-- A chunk of DECODE; a block that is only passed over is read and puts nothing into the slot (R189). -/
def State.decodeDeeds (s t : State) (pid g src : Nat) : List (Nat × Deed) :=
  let p := s.prog pid
  let w := s.wg p.wid
  match w.ring (s.spBytes w) g with
  | Option.none => []
  | some r =>
    let x : Xfer := { fill := true, ring := g, n := 0, gsz := 1, ssz := 1, unit := 1 }
    let pos := p.done % r.slotbytes
    if !s.ownerHere pid || (pos == 0 && !s.slotReady pid x r p.seqf) then []
    else
      let a := if p.blk = 0 then src else p.blkAddr
      match p.owed, (s.loadBlock p.ctx a).2 with
      | Option.none, .ok data total _ =>
        let far := s.engineDeeds pid .read .read a total
        if data.length ≤ p.blkDone then far.map (fun d => (1, d))
        else s.chunkDeeds t pid x r pos (min (data.length - p.blkDone) (r.slotbytes - pos)) far
      | _, _ => s.chunkDeeds t pid x r pos 0 []

/-- A write of the device or an engine, in aligned words, when it is made. -/
def State.storeDeeds (s : State) (core : Option Nat) (cid a n : Nat) (o : Ord) (sc : Scope) (m : Mark) : List Deed :=
  match (s.accessG core cid a n .write).2 with
  | .ok _ => (words8 a n).map (fun p =>
      { act := .write, site := s.siteG core cid p.1 p.2 .write, ord := o, scope := sc, mark := m })
  | .error _ => []

/-- What the command of a program does that leads from `s` to `t`: the step within it, and the deed. -/
def State.commandDeeds (s t : State) (pid : Nat) (i : Instr) : List (Nat × Deed) :=
  let p := s.prog pid
  match i with
  | .stream f => s.xferDeeds t pid
      { fill := true, ring := f.ring.toNat, n := affCount f, gsz := Fmt.bytes f.fmtin, ssz := Fmt.bytes f.fmtout,
        unit := Fmt.bytes f.fmtout } (affAddr f (Fmt.bytes f.fmtin))
  | .rillDrain f => s.xferDeeds t pid
      { fill := false, ring := f.ring.toNat, n := affCount f, gsz := Fmt.bytes f.fmtout, ssz := Fmt.bytes f.fmtin,
        unit := Fmt.bytes f.fmtout } (affAddr f (Fmt.bytes f.fmtout))
  | .palette ring src count => s.xferDeeds t pid
      { fill := true, ring := ring.toNat, n := count.toNat, gsz := 2, ssz := 2, unit := 1 } (fun j => src.toNat + 2 * j)
  | .decode ring src _ _ => s.decodeDeeds t pid ring.toNat src.toNat
  | .arrive _ weir => s.engineArrival t pid weir.toNat
  | .rillEnd true _ weir => s.engineArrival t pid weir.toNat
  | .waitw par weir =>
    if s.ownerHere pid && s.weirHere pid weir.toNat && ((s.wg p.wid).weir weir.toNat).done par then
      together [s.waitDeed p.wid weir.toNat .acq .dev]
    else []
  | .waits a v =>
    (match (s.loadG Option.none p.ctx a.toNat 8).2 with
      | .ok x => together [{ act := .read, site := s.siteG Option.none p.ctx a.toNat 8 .read,
                             ord := if v.toNat ≤ x then .acq else .rlx, scope := .sys }]
      | .error _ => [])
  | .stamp a _ => together (s.storeDeeds Option.none p.ctx a.toNat 8 .rel .sys .no)
  | .reduce _ _ _ _ buf bytes desc =>
    let n := (t.prog pid).done - p.done
    let n := if (t.prog pid).index = p.index then n else min chunkBytes (bytes.toNat - p.done)
    together (s.engineDeeds pid .read .read desc.toNat 64)
      ++ (if s.svc.routes then
          (s.engineDeeds pid .read .read (buf.toNat + p.done) n
            ++ s.engineDeeds pid .write .write (buf.toNat + p.done)
              (s.checkElems p.ctx ((List.range n).map (fun k => buf.toNat + p.done + k)) 0).2.1).map (fun d => (1, d))
        else [])
      ++ (if (t.prog pid).index = p.index then [] else
          (match (s.loadBytes Option.none p.ctx desc.toNat 64).2 with
            | .ok db => (match redDesc db with
              | some d => (s.storeDeeds Option.none p.ctx d.stamp 8 .rel .dev .no).map (fun x => (2, x))
              | Option.none => [])
            | .error _ => []))
  | _ => []

/-! ## Instructions that act on units, programs and regions -/

/-- A program that RLAUNCH has made, for a list. -/
def State.newProg (s t : State) (wid : Nat) (list : Word) : Option Nat :=
  match t.progOf wid list with
  | some q => if s.progs.any (fun p => p.1 == q.1) then Option.none else some q.1
  | Option.none => Option.none

/-- The region that a step has accepted. -/
def State.regionMade (s t : State) : Option Nat :=
  (t.regions.find? (fun r => !(s.regions.any (fun q => q.1 == r.1)))).map (fun r => r.1)

/-- The mark of a word that touches a program or supplies a slice, when it is performed (R143, R149, R385, R388, R389). -/
def State.unitMark (s : State) (gid : Nat) (p : Pend) : Option Mark :=
  let g := s.grp gid
  match p.instr with
  | .bcopy _ _ _ _ _ _ =>
    if ((s.bcopyAct gid p.id p.instr p.ops p.todo).grp gid).nCopy = g.nCopy then Option.none else some (.slice g.wid g.nCopy)
  | .rlaunch _ _ _ =>
    (s.newProg (s.rlaunchAct gid p.id p.instr p.ops p.todo) g.wid (p.ops.la 0)).map (fun pid => .runs pid 0)
  | .rstopResume _ _ _ =>
    match s.progOf g.wid (p.ops.la 0) with
    | some q => if q.2.state == .stopped && q.2.hold then some (.runs q.1 s.serial) else Option.none
    | Option.none => Option.none
  | .rstop _ _ a =>
    let q := s.progOf g.wid (s.readS a.val)
    (match (s.rstopStatus q).2, q with
      | 0, some q => some (.seen q.1 s.serial Option.none)
      | _, _ => Option.none)
  | .rstat _ _ a w =>
    match s.progOf g.wid (s.readS a.val) with
    | some q => if w == 1#3 && (q.2.ended || q.2.state == .stopped) then some (.seen q.1 s.serial Option.none) else Option.none
    | Option.none => Option.none
  | _ => Option.none

/-- The device's write of status, refusal and regno into a block that it has accepted as region `rid`, or refused (R236). -/
def State.blockWrites (s : State) (cid va : Nat) (made : Option Nat) : List Deed :=
  s.storeDeeds Option.none cid (va + 0xF0) (if made.isSome then 8 else 2) .rlx .sys .no

/-- SPAWN: a release, then the acquire read of the block at dev scope, and the device's write into it (R396). -/
def State.spawnEvents (s : State) (gid : Nat) (p : Pend) : List Event :=
  let a := (p.ops.la 0).toNat
  let w := s.wgOf gid
  let t := s.spawnAct gid p.id p.instr p.ops p.todo
  let made := s.regionMade t
  let block := s.siteG (some (s.grp gid).core) w.ctx a 256 .rmw
  if block.bytes.isEmpty || !inSpace a || a % 256 != 0 || ((s.debitRegion w.rid).region w.rid).dry then []
  else
    (match made with | some rid => s.markEvents gid p.todo p.id 0 (.spawn rid) | Option.none => [])
      ++ s.groupEventsOf gid p.todo p.id ((words8 a 256).map (fun x =>
        (1, { act := .read, site := s.siteG (some (s.grp gid).core) w.ctx x.1 x.2 .rmw, ord := .acq, scope := .dev })))
      ++ t.agentEvents .device (some w.ctx) (made.getD w.rid) s.serial (together (s.blockWrites w.ctx a made))

/-- The events of a record that is performed in `s` for its lanes not done, lane `l` acting where one acts for all. The arrival
and the wait of a weir instruction are one event of all its threads (log 65). -/
def State.actEvents (s : State) (gid : Nat) (p : Pend) (l : Nat) : List Event :=
  match p.instr with
  | .ld _ sp z o sc d _ off =>
    s.runEvents gid p l (ldLane sp z d off gid p.ops p.id) (ldDeeds gid sp (sizeBytes z) off o sc p.ops)
  | .st _ sp z o sc _ _ off =>
    s.runEvents gid p l (stLane sp z off gid p.ops p.id) (stDeeds gid sp (sizeBytes z) off o sc p.ops)
  | .atom _ sp z op o sc d _ _ =>
    s.runEvents gid p l (atomLane sp z op (some d) gid p.ops p.id) (rmwDeeds gid sp (sizeBytes z) op o sc p.ops)
  | .red _ sp z op o sc _ _ =>
    s.runEvents gid p l (atomLane sp z op Option.none gid p.ops p.id) (rmwDeeds gid sp (sizeBytes z) op o sc p.ops)
  | .sprobe _ d f _ _ => s.runEvents gid p l (sprobeLane d f gid p.ops p.id) (probeDeeds gid p.ops)
  | .swc _ d _ _ => s.runEvents gid p l (swcLane d gid p.ops p.id) (swcDeeds gid p.ops)
  | .fence _ o sc =>
    s.runEvents gid p l (fun _ t => (t, Option.none)) (fun _ _ => [{ act := .fence, site := .none, ord := o, scope := sc }])
  | .waitstamp _ o sc _ _ _ =>
    s.runEvents gid p l (fun _ t => (t, Option.none)) (fun t k => t.stampDeeds gid p.ops o sc k)
  | .winit .. | .warrive .. | .wsync .. | .wwait .. | .wwaitseq .. | .wtest .. =>
    s.groupEventsOf gid p.todo p.id (numbered (s.weirDeeds gid p.instr p.ops (lanesOf p.todo).length))
  | .spawn .. => s.spawnEvents gid p
  | _ =>
    match s.unitMark gid p with
    | some k => s.markEvents gid p.todo p.id 0 k
    | Option.none => []

/-- The record is performed again, or late (R130, R138). -/
def State.redoEvents (s : State) (gid : Nat) (p : Pend) : List Event := s.actEvents gid p (lowLane p.todo)

/-- The events of `State.perform`. -/
def State.performEvents (s : State) (gid id : Nat) : List Event :=
  match (s.grp gid).pend? id with
  | some p => if s.performReady gid p then s.redoEvents gid p else []
  | Option.none => []

/-! ## Steps that are made of several acts -/

/-- Acts one after the other, each with its events. -/
def emit {α : Type} (act : State → α → State) (ev : State → α → List Event) : List α → State → List Event
  | [], _ => []
  | a :: as, s => ev s a ++ emit act ev as (act s a)

/-- The events of `State.settle`: everything that can be performed is (R54, R154). -/
def State.settleEvents (s : State) (gid : Nat) : List Event :=
  let round (s : State) : List Event :=
    let t := s.completeAll gid
    emit (fun s id => s.perform gid id) (fun s id => s.performEvents gid id) ((t.grp gid).pending.map (fun p => p.id)) t
  emit (fun s (_ : Nat) => s.settleOnce gid) (fun s _ => round s) (List.range ((s.grp gid).pending.length + 1)) s

/-- A workgroup settles. -/
def State.settleWgEvents (s : State) (wid : Nat) : List Event :=
  emit (fun s gid => s.settle gid) (fun s gid => s.settleEvents gid) (s.wg wid).gids s

/-- A workgroup leaves its cores: what takes effect before, and what that leaves to settle. -/
def State.leaveEvents (s : State) (wid : Nat) : List Event :=
  s.settleWgEvents wid ++ (s.beforeLeaving wid).settleWgEvents wid

/-- The weir tables of the workgroups that a step places for the first time are cleared (R194). -/
def State.clearEvents (s t : State) : List Event :=
  (t.wgs.filter (fun w => !(s.wgs.any (fun q => q.1 == w.1)))).flatMap (fun w =>
    t.agentEvents .device (some w.2.ctx) w.2.rid s.serial (together ((words8 0 256).map (fun p =>
      { act := .write, site := { bytes := (List.range p.2).map (fun k => .store w.1 (p.1 + k)), dev := false },
        ord := .rlx, scope := .dev, mark := .clears w.1 }))))

/-- The outgoing workgroups of some cores leave. -/
def State.outEvents (s : State) (cores : List Nat) : List Event :=
  emit (fun s wid => (s.beforeLeaving wid).leaveCore wid) (fun s wid => s.leaveEvents wid) (s.outgoing cores) s

/-- The events of BANK_SWAP. -/
def State.swapEvents (s : State) (core : Nat) : List Event :=
  match (s.core core).switch with
  | .requested rid wgid home _ =>
    if rid = 0 then s.outEvents (s.switchCores home false)
    else
      match s.switchCand rid wgid with
      | Option.none => []
      | some c => s.outEvents (s.switchCores home (s.need c).spread) ++ s.clearEvents (s.after (execBankSwap core s))
  | _ => []

/-- The device writes a held write again, a completion store as a release (R41, R236). -/
def State.heldEvents (s : State) (rid key : Nat) : List Event :=
  match (s.region rid).held.find? (fun h => h.recKey == key) with
  | some h => s.agentEvents .device (some (s.region rid).ctx) rid s.serial (together
      (s.storeDeeds Option.none (s.region rid).ctx h.va h.bytes.length (if h.done then .rel else .rlx) .sys
        (if h.done then .completes rid else .no)))
  | Option.none => []

/-- A region completes: its status, then the completion store under whose release it stands (R41, R236). -/
def State.completeEvents (s : State) (rid : Nat) : List Event :=
  let r := s.region rid
  s.agentEvents .device (some r.ctx) rid s.serial (together (s.storeDeeds Option.none r.ctx (r.rcbaddr.toNat + 0xF0) 1 .rlx .sys .no)
    ++ (if r.rcb.doneA = 0 then [] else
      (s.storeDeeds Option.none r.ctx r.rcb.doneA.toNat 8 .rel .sys (.completes rid)).map (fun d => (1, d))))

/-- The device reads a region's starts-after location (R40). -/
def State.afterEvents (s : State) (rid : Nat) : List Event :=
  let r := s.region rid
  match (s.loadG Option.none r.ctx r.rcb.afterA.toNat 8).2 with
  | .ok x => s.agentEvents .device (some r.ctx) rid s.serial (together
      [{ act := .read, site := s.siteG Option.none r.ctx r.rcb.afterA.toNat 8 .read,
         ord := if r.rcb.afterV.toNat ≤ x then .acq else .rlx, scope := .sys }])
  | .error _ => []

/-- The events of a RETRY and of a SKIP (R152, R247). -/
def State.retryEvents (s : State) (key : Nat) (r : FaultRec) : List Event :=
  match r.subject with
  | .instr gid id => (match (s.grp gid).pend? id with | some p => s.redoEvents gid p | Option.none => [])
  | .after rid => s.afterEvents rid
  | .rcbWrite rid => s.heldEvents rid key
  | _ => []
def State.skipEvents (s : State) (r : FaultRec) : List Event :=
  match r.subject with
  | .instr gid id =>
    (match (s.grp gid).pend? id with
      | some p => s.redoEvents gid { p with done := p.done ||| (p.lanes &&& r.lanes) }
      | Option.none => [])
  | _ => []

/-- The events of what the resolution word of a record asks for. -/
def State.actOnEvents (s : State) (cid key : Nat) : List Event :=
  match findK (s.ctx cid).recs key, s.resolution cid key with
  | some r, 1 => s.retryEvents key r
  | some r, 2 => s.skipEvents r
  | _, _ => []

/-- The device posts a record with a release at sys scope, then the tail of the queue (R244). -/
def State.postEvents (s : State) (cid : Nat) (r : FaultRec) : List Event :=
  match findK (s.ctx cid).domains r.domain with
  | Option.none => []
  | some d =>
    match (s.loadBytes Option.none cid d.desc 32).2 with
    | .error _ => []
    | .ok bs =>
      match queueDesc bs with
      | Option.none => []
      | some q =>
        let slot := s.storeDeeds Option.none cid (q.base + 64 * ((d.next - 1) % q.size)) 64 .rel .sys .no
        let tail := s.storeDeeds Option.none cid (d.desc + 24) 8 .rel .sys .no
        if q.size ≤ d.next - 1 - q.head ∨ slot.isEmpty = true ∨ tail.isEmpty = true then []
        else s.agentEvents .device (some cid) r.rid s.serial (together slot ++ tail.map (fun x => (1, x)))

/-- The first held record of each domain is posted. -/
def State.headEvents (s : State) (cid : Nat) : List Event :=
  emit (fun s q => s.postRecord cid q.1 q.2) (fun s q => s.postEvents cid q.2) (s.ctx cid).heads s

/-- The suspended workgroups of a context leave and its records are posted. -/
def State.recordEvents (s : State) (cid : Nat) : List Event :=
  emit (fun s (q : Nat × FaultRec) => if q.2.kind = 0 then s.saveSuspended q.2.wid else s)
      (fun s q => if q.2.kind = 0 ∧ (s.wg q.2.wid).state = .suspended true then s.settleWgEvents q.2.wid else [])
      (s.ctx cid).holding s
    ++ (s.saveHeld cid).headEvents cid

/-- The events of HALT, act by act as `State.haltCtx` makes them (R252 to R254, R264). -/
def State.haltEvents (s : State) (cid : Nat) : List Event :=
  let keys := (s.ctx cid).recs.map (fun q => q.1)
  let s1 := keys.foldl (fun s k => s.actOn cid k) s
  let s2 := s1.completeAbandoned cid
  let s3 := s2.endSwitches cid
  let wids := (s3.wgs.filter (fun q => q.2.ctx == cid)).map (fun q => q.1)
  let s4 := (wids.foldl (fun s wid => s.haltWg wid) s3).haltProgs cid
  emit (fun s k => s.actOn cid k) (fun s k => s.actOnEvents cid k) keys s
    ++ emit (fun s (q : Nat × Region) => if s.completable q.1 then s.completeRegion q.1 else s)
        (fun s q => if s.completable q.1 then s.completeEvents q.1 else [])
        (s1.regions.reverse.filter (fun q => q.2.ctx == cid && q.2.abandoned)) s1
    ++ emit (fun s (q : Nat × Core) => s.endSwitch cid q.1) (fun s q => if s.switchOf cid q.1 then s.swapEvents q.1 else [])
        s2.cores s2
    ++ emit (fun s wid => s.haltWg wid) (fun s wid => s.leaveEvents wid) wids s3
    ++ emit (fun s (_ : Nat) => s.postHeads cid) (fun s _ => s.headEvents cid) (List.range (s4.ctx cid).hold.length) s4

/-! ## The events of a step -/

/-- The state after a step's instruction; as it was when that stops. -/
def State.afterExec (s : State) (i : Instr) : State :=
  match exec i s with
  | .next t => t
  | _ => s

/-- The word at the issue port: what its record does at the issue. A word that faults for itself, one whose guards are all false,
and one that is put behind older ones makes no event (R139, R151). -/
def State.issueEvents (s : State) (i : Instr) : List Event :=
  match ((s.afterExec i).grp s.cur).pend? s.nextId with
  | some p => if p.kind = .behind then [] else s.actEvents s.cur { p with done := 0 } s.ilane
  | Option.none => []

/-- The word at the issue port is one that its threads perform: it is not refused, and no trial forbids it. -/
def State.wordRuns (s : State) (i : Instr) : Bool := (s.wordFault i).isNone && !(s.g.inTrial s.ilane)

/-- The events that a step makes when it performs the instruction `i` in the state `s`: a word of the group at the issue port, a
recorded one that returns, a chunk of a unit, a command, or an act of the device or the world. Those of a recorded instruction
that a turn performs are `State.performEvents`. Accesses of the host and of peers are unordered (log 65). -/
def State.eventsOf (s : State) (i : Instr) : List Event :=
  let t := s.afterExec i
  match i with
  | .waitstampReturn gid pend =>
    (match (s.grp gid).pend? pend with
      | some p => (match p.kind with
        | .stampWait _ _ => if (s.wgOf gid).issues then s.redoEvents gid p else []
        | _ => [])
      | Option.none => [])
  | .weirWaitReturn gid pend =>
    (match (s.grp gid).pend? pend with
      | some p => (match p.kind with
        | .weir a par _ _ =>
          if s.waitsHere gid then
            s.groupEventsOf gid p.lanes p.id (together (s.waitNow (s.grp gid).wid a par (weirOrd p.instr)))
          else []
        | _ => [])
      | Option.none => [])
  | .bwait c a =>
    let n := (s.readS a.val).toNat
    if s.wordRuns i && (s.wgOf s.cur).batchesDone n then s.markEvents s.cur (s.active c) s.nextId 0 (.bwait s.g.wid n) else []
  | .bwaitRelease gid pend =>
    (match (s.grp gid).pend? pend with
      | some p => (match p.kind with
        | .bwait n =>
          if (s.wgOf gid).batchesDone n && s.waitsHere gid then
            s.markEvents gid p.lanes p.id 0 (.bwait (s.grp gid).wid n)
          else []
        | _ => [])
      | Option.none => [])
  | .sign _ k _ => if s.wordRuns i then s.markEvents s.cur s.iset s.nextId 0 (.sign s.g.wid k.val 0) else []
  | .mmaChunk gid | .tileChunk gid =>
    (match (s.grp gid).mat with
      | some m => if chunkEnded m (t.grp gid).mat then s.groupEventsOf gid m.lanes m.pend (s.matDeeds gid m) else []
      | Option.none => [])
  | .pmvChunk gid =>
    (match (s.grp gid).pal with | some m => s.groupEventsOf gid m.lanes m.pend (s.palDeeds gid m 32) | Option.none => [])
  | .copyTransfer wid =>
    if (s.wg wid).copies = (t.wg wid).copies then []
    else s.agentEvents (.copy wid) (some (s.wg wid).ctx) (s.wg wid).rid s.serial (together (s.pieceDeeds wid))
  | .batchStampWrite wid =>
    let w := s.wg wid
    (match w.stampDue with
      | some b => s.agentEvents (.copy wid) (some w.ctx) w.rid s.serial
          (together (s.storeDeeds (some w.home) w.ctx b.stamp 8 .rel .dev (.stamp wid b.n)))
      | Option.none => [])
  | .stream _ | .rillDrain _ | .palette _ _ _ | .decode _ _ _ _ | .arrive _ _ | .waitw _ _ | .waits _ _ | .stamp _ _
  | .reduce _ _ _ _ _ _ _ | .rillEnd _ _ _ =>
    let p := s.prog s.eng
    s.agentEvents (.engine s.eng) (some p.ctx) p.rid s.serial (s.commandDeeds t s.eng i)
  | .startsAfterCheck rid => if (s.region rid).watching then s.afterEvents rid else []
  | .regionComplete rid => if s.completable rid then s.completeEvents rid else []
  | .workgroupPlace _ _ _ => s.clearEvents t
  | .bankSwap core => s.swapEvents core
  | .faultRecordPost ctx => s.recordEvents ctx
  | .retry ctx key | .skip ctx key => s.actOnEvents ctx key
  | .halt =>
    let cid := s.mgmt.ctx.toNat
    if (t.ctx cid).halted && !(s.ctx cid).halted then s.haltEvents cid else []
  | .rootLaunch va =>
    (match s.namedCtx with
      | some cid =>
        let made := s.regionMade t
        let block := s.siteG Option.none cid va.toNat 256 .read
        if !s.mgmt.ready || block.bytes.isEmpty || va.toNat % 256 != 0 then []
        else
          (match made with
            | some rid => s.agentEvents .host Option.none 0 s.serial (together [{ markDeed (.spawn rid) with scope := .sys }])
            | Option.none => [])
            ++ t.agentEvents .device (some cid) (made.getD 0) s.serial
              (together ((words8 va.toNat 256).map (fun x =>
                  { act := .read, site := s.siteG Option.none cid x.1 x.2 .read, ord := .acq, scope := .sys }))
                ++ (s.blockWrites cid va.toNat made).map (fun d => (1, d)))
      | Option.none => [])
  | .hostMemAccess pa w =>
    let n := match w with | some bs => bs.length | Option.none => 1
    if pa + n ≤ 2 ^ 39 ∨ (2 ^ 48 ≤ pa ∧ pa + n ≤ 2 ^ 51) then
      s.agentEvents .host Option.none 0 s.serial (together ((words8 pa n).map (fun p =>
        { act := if w.isSome then .write else .read, ord := .rlx, scope := .sys, site := s.siteP p.1 p.2 })))
    else []
  | .peerRequest src addr w =>
    if s.peerAllows src addr w.isSome then
      s.agentEvents (.peer src) Option.none 0 s.serial (together ((words8 addr 8).map (fun p =>
        { act := if w.isSome then .write else .read, ord := .rlx, scope := .sys, site := s.siteP p.1 p.2 })))
    else []
  | _ => s.issueEvents i

/-! ## The names of a restored context (R153) -/

/-- A context and its parts in the order of its image. -/
structure Members where
  ctx     : Nat
  regions : List Nat
  wgs     : List Nat
  groups  : List Nat
  progs   : List Nat
  deriving DecidableEq, Repr

/-- The parts of a context in the order in which sections 0, 1 and 3 of its image list them (R254). -/
def State.members (s : State) (cid : Nat) : Members :=
  let ws := s.wgOrder cid
  { ctx := cid, regions := (s.treeOrder cid).map (fun q => q.1), wgs := ws.map (fun q => q.1),
    groups := ws.flatMap (fun q => (List.range q.2.ngroups).filterMap (fun n =>
      q.2.gids.find? (fun gid => (s.grp gid).grpid == n && !(q.2.retiredGroups.contains n)))),
    progs := (s.progs.filter (fun q => q.2.ctx == cid)).map (fun q => q.1) }

/-- What was called `new` is called as it was before the HALT: the k-th part restored is the k-th part saved. -/
def nameIn (new old : List Nat) (k : Nat) : Nat := ((new.zip old).find? (fun p => p.1 == k)).elim k (fun p => p.2)

/-- The names that the events of a restored context have in an execution: `new` are its parts after RESUME, `old` those of the
context that HALT saved, which it goes on as. -/
structure Names where
  new : Members
  old : Members
  deriving DecidableEq, Repr

def Names.ctx (n : Names) (k : Nat) : Nat := nameIn [n.new.ctx] [n.old.ctx] k
def Names.region (n : Names) (k : Nat) : Nat := nameIn n.new.regions n.old.regions k
def Names.wg (n : Names) (k : Nat) : Nat := nameIn n.new.wgs n.old.wgs k
def Names.group (n : Names) (k : Nat) : Nat := nameIn n.new.groups n.old.groups k
def Names.prog (n : Names) (k : Nat) : Nat := nameIn n.new.progs n.old.progs k

def Names.agent (n : Names) : Agent → Agent
  | .thread w g l => .thread (n.wg w) (n.group g) l
  | .engine p => .engine (n.prog p)
  | .copy w => .copy (n.wg w)
  | a => a

def Names.loc (n : Names) : Loc → Loc
  | .store w a => .store (n.wg w) a
  | .window g a => .window (n.group g) a
  | l => l

def Names.act (n : Names) : Act → Act
  | .arrive w k p => .arrive (n.wg w) k p
  | .wait w k p => .wait (n.wg w) k p
  | a => a

def Names.mark (n : Names) : Mark → Mark
  | .slice w c => .slice (n.wg w) c
  | .copyRead w c => .copyRead (n.wg w) c
  | .payload w c b => .payload (n.wg w) c b
  | .stamp w b => .stamp (n.wg w) b
  | .bwait w b => .bwait (n.wg w) b
  | .runs p k => .runs (n.prog p) k
  | .seen p k s => .seen (n.prog p) k s
  | .sign w k r => .sign (n.wg w) k r
  | .operand w k r s => .operand (n.wg w) k r s
  | .spawn r => .spawn (n.region r)
  | .completes r => .completes (n.region r)
  | .clears w => .clears (n.wg w)
  | m => m

/-- An event of a restored context under the names that it had before, one life later: so `Execution.halts` orders it behind
what came before the HALT, and the bytes of its store are those they were. -/
def Names.event (n : Names) (e : Event) : Event :=
  { e with
    places := e.places.map (fun p => { p with who := n.agent p.who }), act := n.act e.act, bytes := e.bytes.map n.loc,
    mark := n.mark e.mark, ctx := e.ctx.map n.ctx, rids := e.rids.map n.region,
    life := if e.ctx = some n.new.ctx then e.life + 1 else e.life }

end Sys2Proof.Machine
end

