-- ==== Sys2Proof/Safety.lean ====
section
/-! DEFINITION. What counts as a safe run: no step stops, and memory keeps its canonical form. -/
namespace Sys2Proof.Machine

/-- Physical memory stands in its canonical form. -/
def State.MemOk (s : State) : Prop := Memory.wf s.mem = true

/-- An event or a command, not an instruction word that the issue port performs. -/
def eventOnly (i : Instr) : Bool := i.ctl?.isNone && (match i with | .reservedOpcode _ => false | _ => true)

/-- No instruction word stands in the agenda or among the turns that wait: words come to the issue port through the turn
of a group or of a slot. -/
def State.AgendaOk (s : State) : Prop := ∀ t ∈ s.agenda ++ s.queue, ∀ i, t = .run i → eventOnly i = true

/-- A step is safe: the machine goes on. -/
def State.SafeStep (s : State) : Prop := ∃ t, step s = .next t

/-- A run of `k` steps goes on to its end. -/
def SafeRun (k : Nat) (s : State) : Prop := ∃ t, Host.Core.run Sys2Proof.core k s = .next t

/-! ## The words of the statements -/

/-- A word of the group at the issue port takes effect at once: the group is there, its issue lane runs no candidate,
none of the word faults of R70 arises, and no older access of its threads must complete before it (R351, R363, R412). -/
def State.Issues (s : State) (i : Instr) : Prop :=
  (findK s.groups s.cur).isSome = true ∧ s.g.inTrial s.ilane = false ∧ s.wordFault i = none ∧ s.ilane < 32
    ∧ ∀ c, i.ctl? = some c → s.mustWait i (s.active c) = false

/-- The checks that these words make at their issue refuse the operands: a table or a tile descriptor, the counts and
addresses of PMV, an address outside the space or the store, a ring that is none (R321, R369, R378, R396, R398, R411). -/
def State.refusedNow (s : State) (i : Instr) : Bool :=
  match i with
  | .sprobe _ _ _ _ b => (s.probeFault s.cur (s.readS b.val)).isSome
  | .mlda _ _ a | .msta _ _ a => (tileFault { a := [s.readS a.val, s.readS (a.val + 1)], b := [], c := [] }).isSome
  | .pmv _ _ t x y =>
    (pmvFault { a := [s.readS t.val, s.readS (t.val + 1), s.readS x.val, s.readS y.val], b := [], c := [] }).isSome
  | .spawn _ _ a => !inSpace (s.readS a.val).toNat
  | .bcopy _ srcS dstS d a b =>
    s.copyRefused s.cur srcS dstS { a := [s.readS d.val], b := [s.readS a.val], c := [s.readS b.val] }
  | .winit _ _ a _ | .warrive _ _ a _ => s.weirRefused i (s.readS a.val).toNat
  | .wsync _ _ _ _ a _ | .wwait _ _ _ _ a _ | .wwaitseq _ _ _ _ a _ | .wtest _ _ _ _ a _ =>
    s.weirRefused i (s.readS a.val).toNat
  | _ => false

/-- No lane of the issue set stands at the last word of its block, nor before a header (R63). -/
def State.Inside (s : State) : Prop :=
  ∀ l, l < 32 → bitOf s.iset l = true → (s.g.th l).entering = none
    ∧ (s.g.th l).pc + 8 ≠ (s.g.th l).hdr + wordN (((s.g.th l).len + 1) * 8)

/-- The frame of a word that stays in its group: everything but the groups and the next identifier stands as
before, every other group stands as before, and of its own group only threads, registers, flags, pending records
and in-flight writes may differ. The lanes of the issue set go on to the next word, the others stay (R18, R63). -/
structure Frame (s t : State) : Prop where
  rest   : t = { s with groups := t.groups, nextId := t.nextId }
  others : ∀ gid, gid ≠ s.cur → findK t.groups gid = findK s.groups gid
  own    : t.g = { s.g with threads := t.g.threads, vregs := t.g.vregs, sregs := t.g.sregs, preds := t.g.preds,
                            flags := t.g.flags, pending := t.g.pending, landing := t.g.landing, overlaid := t.g.overlaid }
  lanes  : ∀ l, l < s.g.threads.length →
    t.g.th l = if bitOf s.iset l then { s.g.th l with pc := (s.g.th l).pc + 8 } else s.g.th l

/-- The set flag of a word with an active thread is charged; every other flag stands (R51). -/
def Charged (s t : State) (c : Ctl) : Prop :=
  ∀ n, t.g.flagOf n = s.g.flagOf n + (if setFlag c = some n ∧ s.active c ≠ 0 then 1 else 0)

/-- The register `d` (with the next one when `wide`) is the vector register of `k` in an active lane, or its scalar. -/
def touches (d : Reg) (wide : Bool) (m : LaneMask) (k : RegKey) (l : Nat) : Bool :=
  match d, k with
  | .v n, .v j => (j == n.val || (wide && j == n.val + 1)) && bitOf m l
  | .s n, .s j => j == n.val && m != 0
  | _, _ => false

/-- Every register but `d` holds in every lane what it held. -/
def OnlyWrites (s t : State) (d : Reg) (wide : Bool) (m : LaneMask) : Prop :=
  ∀ k l, l < 32 → touches d wide m k l = false → t.g.rawKey k l = s.g.rawKey k l

/-- Every register holds what it held. -/
def SameRegs (s t : State) : Prop := ∀ k l, l < 32 → t.g.rawKey k l = s.g.rawKey k l

/-- The state at a later issue of the group: its cycle, and the sum of the dist fields that the group has issued. -/
def State.later (t : State) (cyc dists : Nat) : State := { t with cycle := cyc }.modG (fun g => { g with dists := dists })

/-- A result of latency `L` of the word at the port in `s` is readable: by the sum of the dist fields since, or by the cycle
(R52; log 51). -/
def State.ripe (s : State) (L cyc dists : Nat) : Prop := s.g.dists + L ≤ dists ∨ s.cycle + L < cyc

/-- Once a result of latency `L` is readable, the group reads `f l` in every active lane `l` of `d`; in a scalar it reads the
value of the lane that chose the issue set, sign-extended from 32 bits unless `wide` (R48, R52, R56). -/
def Reads (s t : State) (d : Reg) (wide : Bool) (m : LaneMask) (L : Nat) (f : Nat → Word) : Prop :=
  ∀ cyc n, s.ripe L cyc n → match d with
    | .s k => m ≠ 0 → (t.later cyc n).readS k.val = if wide then f s.ilane else sext32 (f s.ilane)
    | .v k => ∀ l, bitOf m l = true → (t.later cyc n).readV k.val l = (f l).setWidth 32
        ∧ (wide = true → (t.later cyc n).readV (k.val + 1) l = (f l >>> 32).setWidth 32)

/-- A form of fixed latency `L` with one register result (R52, R67): in every state in which the word takes effect
inside its block it completes, `d` gets `f` in the active lanes, and nothing else changes. -/
def GivesReg (s : State) (i : Instr) (c : Ctl) (L : Nat) (d : Reg) (wide : Bool) (f : Nat → Word) : Prop :=
  s.Issues i → s.Inside → ∃ t, exec i s = .next t ∧ Frame s t ∧ Charged s t c
    ∧ Reads s t d wide (s.active c) L f ∧ OnlyWrites s t d wide (s.active c)

/-- Once a result of latency `L` is readable, the group reads `f l` in every active lane `l` of predicate `n`; p0 stays true
(R47, R57). -/
def ReadsPred (s t : State) (n : Nat) (m : LaneMask) (L : Nat) (f : Nat → Bool) : Prop :=
  ∀ cyc k, s.ripe L cyc k → ∀ l, bitOf m l = true → (t.later cyc k).readP n l = if n = 0 then true else f l

/-- Every register but lanes `m` of predicate `n` holds what it held. -/
def OnlyWritesPred (s t : State) (n : Nat) (m : LaneMask) : Prop :=
  ∀ k l, l < 32 → ¬(n ≠ 0 ∧ k = .p n ∧ bitOf m l = true) → t.g.rawKey k l = s.g.rawKey k l

/-- A form of fixed latency `L` with one predicate result. -/
def GivesPred (s : State) (i : Instr) (c : Ctl) (L n : Nat) (f : Nat → Bool) : Prop :=
  s.Issues i → s.Inside → ∃ t, exec i s = .next t ∧ Frame s t ∧ Charged s t c
    ∧ ReadsPred s t n (s.active c) L f ∧ OnlyWritesPred s t n (s.active c)

/-! ## Variable latency -/

/-- The issue is recorded until it completes (R51, R257): `k` says what it still waits for. -/
def Recorded (s t : State) (i : Instr) (c : Ctl) (k : PendKind) : Prop :=
  s.active c ≠ 0 → ∃ p ∈ t.g.pending, p.id = s.nextId ∧ p.pc = s.issuePc ∧ p.instr = i ∧ p.lanes = s.active c
    ∧ p.flag = setFlag c ∧ p.kind = k

/-- The register `d` holds `f l` in every active lane, in flight until the record completes; a scalar holds the value
of lane `sl` (R52, R56). -/
def Holds (t : State) (d : Reg) (wide : Bool) (m : LaneMask) (sl : Nat) (f : Nat → Word) : Prop :=
  match d with
  | .s n => m ≠ 0 → t.g.rawS n.val = if wide then f sl else sext32 (f sl)
  | .v n => ∀ l, bitOf m l = true → t.g.rawV n.val l = (f l).setWidth 32
      ∧ (wide = true → t.g.rawV (n.val + 1) l = (f l >>> 32).setWidth 32)

/-- The predicate `n` holds `f l` in every active lane; p0 stays true (R47, R57). -/
def HoldsPred (t : State) (n : Nat) (m : LaneMask) (f : Nat → Bool) : Prop :=
  ∀ l, bitOf m l = true → bitOf (t.g.rawP n) l = if n = 0 then true else f l

/-- A form of variable latency with one register result (R51, R52): in every state in which the word takes effect
inside its block it is performed, `d` gets `f` in the active lanes, and nothing else changes. -/
def GivesLater (s : State) (i : Instr) (c : Ctl) (d : Reg) (wide : Bool) (sl : Nat) (f : Nat → Word) : Prop :=
  s.Issues i → s.Inside → ∃ t, exec i s = .next t ∧ Frame s t ∧ Charged s t c ∧ Recorded s t i c .result
    ∧ Holds t d wide (s.active c) sl f ∧ OnlyWrites s t d wide (s.active c)

/-- A form of variable latency with one predicate result. -/
def GivesPredLater (s : State) (i : Instr) (c : Ctl) (n : Nat) (f : Nat → Bool) : Prop :=
  s.Issues i → s.Inside → ∃ t, exec i s = .next t ∧ Frame s t ∧ Charged s t c ∧ Recorded s t i c .result
    ∧ HoldsPred t n (s.active c) f ∧ OnlyWritesPred s t n (s.active c)

/-- Of a result that a recorded instruction still owes: the lanes in which no younger instruction has written the
register since (R53). -/
def Group.owes (g : Group) (id : Nat) (d : Reg) (m : LaneMask) : LaneMask :=
  match d with
  | .v n => m &&& ~~~(g.deadIn (.on id) (.v n.val))
  | .s n => if g.deadIn (.on id) (.s n.val) = 0 then m else 0

/-! ## Accesses lane by lane -/

/-- The state in which lane `l` acts, when the lanes act one after another from `s`. -/
def State.turnOf (f : Nat → State → State × LaneFault) : List Nat → State → Nat → State
  | [], s, _ => s
  | k :: ks, s, l => if k = l then s else (f k s).1.turnOf f ks l

/-- The state in which the lanes of a form of variable latency begin to act: its record stands (R257). -/
def State.begun (s : State) (i : Instr) (c : Ctl) (ops : Ops) : State := s.startPend i c (s.active c) .result ops

/-- Every byte of memory reads as before. -/
def SameMemory (s t : State) : Prop := ∀ loc, t.byteAt loc = s.byteAt loc

/-- An access to `ea` may change the byte at `loc` besides its data: the leaf entry that translates it, where it sets
the accessed and dirty bits, or a bit of a dirty log (R127, R131, R132). -/
def State.marks (s : State) (cid ea loc : Nat) : Prop :=
  (∃ w, s.walk cid ea = .ok w ∧ w.loc ≤ loc ∧ loc < w.loc + 8)
  ∨ ∃ r ∈ s.regions, r.2.ctx = cid ∧ ∃ b, r.2.dlog = some b ∧ ∃ k, k < b.2.1 ∧ s.target (b.2.2 + k / 8) = some (.mem loc)

/-- What a word that accesses memory or a store may change beyond its group: translations held by cores, memory, and
the scratchpads and windows of the store space. The lanes of the issue set go on; flags are charged and the issue is
recorded. -/
structure MemFrame (s t : State) (i : Instr) (c : Ctl) : Prop where
  rest     : t = { s with groups := t.groups, wgs := t.wgs, nextId := t.nextId, cores := t.cores, mem := t.mem,
                          poison := t.poison }
  lanes    : ∀ l, l < s.g.threads.length →
    t.g.th l = if bitOf s.iset l then { s.g.th l with pc := (s.g.th l).pc + 8 } else s.g.th l
  charged  : Charged s t c
  recorded : Recorded s t i c .result

/-- Groups but the issuing one, and every workgroup, stand as before. -/
def SameOthers (s t : State) : Prop :=
  t.wgs = s.wgs ∧ ∀ gid, gid ≠ s.cur → findK t.groups gid = findK s.groups gid

/-- Where an access of `n` bytes leads in memory. -/
def State.dataAt (s : State) (gid ea n : Nat) (k : XKind) : Option Nat :=
  match (s.accessG (some (s.grp gid).core) (s.cidOf gid) ea n k).2 with
  | .ok (.mem m) => some m
  | _ => none

/-- A byte of the store space as the last issued write leaves it. -/
def State.rawStore (s : State) (gid : Nat) (x : StoreLoc) : Byte :=
  match x with
  | .pad a => (s.wgOf gid).padByte a
  | .win o n l b => byteOf (((s.grp o).rawV n l).setWidth 64) b

/-- What a word of weirs, batches, copies, units or programs may change beyond its group. The lanes of the issue set go
on, flags are charged, memory stands. -/
structure UnitFrame (s t : State) (c : Ctl) : Prop where
  rest    : t = { s with groups := t.groups, wgs := t.wgs, progs := t.progs, cores := t.cores, nextId := t.nextId,
                         agenda := t.agenda, mem := t.mem, poison := t.poison }
  others  : ∀ gid, gid ≠ s.cur → findK t.groups gid = findK s.groups gid
  lanes   : ∀ l, l < s.g.threads.length →
    t.g.th l = if bitOf s.iset l then { s.g.th l with pc := (s.g.th l).pc + 8 } else s.g.th l
  charged : Charged s t c

/-- The scratchpad holds what it held but in the `n` bytes from `a` on. -/
def SamePad (s t : State) (gid a n : Nat) : Prop :=
  ∀ b, ¬(a ≤ b ∧ b < a + n) → (t.wgOf gid).padByte b = (s.wgOf gid).padByte b

/-! ## Faults -/

/-- The fault of an instruction is taken (R245, R246): the next record of the context holds `info` about the
workgroup's region and group, last in the order of posting, and the workgroup no longer issues. -/
structure Faulted (s t : State) (gid : Nat) (info : FaultInfo) (sub : Subject) : Prop where
  recorded : findK (t.ctx (s.cidOf gid)).recs (s.nextKey (s.cidOf gid)) = some (groupRecord s gid info sub)
  held     : (t.ctx (s.cidOf gid)).hold = (s.ctx (s.cidOf gid)).hold ++ [s.nextKey (s.cidOf gid)]
  stopped  : (t.wgOf gid).issues = false
  counted  : (t.wgOf gid).recs = (s.wgOf gid).recs ++ [s.nextKey (s.cidOf gid)]

/-- The context and the workgroup of a group exist. -/
def State.Owned (s : State) (gid : Nat) : Prop :=
  (findK s.wgs (s.grp gid).wid).isSome = true ∧ (findK s.ctxs (s.cidOf gid)).isSome = true

/-! ## Memory that answers -/

/-- Accesses of `n` bytes at the addresses `as` are plain: each is aligned and in the space (R114); the walk of the page
tables finds its leaf whatever the accesses themselves write, and the leaf is accessed and dirty, permits the access and is
no page of device registers (R122, R126 to R128, R131); the core holds no other translation for it (R129); its bytes are
memory of this device or of its host, with no error in memory (R125); and memory stands in its canonical form, as every
step keeps it. `leaf a` and `loc a` are the leaf and the place of `a`. -/
structure State.Plain (s : State) (core : Option Nat) (cid n : Nat) (k : XKind) (as : List Nat) (leaf : Nat → TlbEnt)
    (loc : Nat → Nat) : Prop where
  inside  : ∀ a ∈ as, a % n = 0 ∧ a < 2 ^ 54
  walks   : ∀ mem : KMap Byte, (∀ x, (k.writes = true → ∀ a ∈ as, ¬(loc a ≤ x ∧ x < loc a + n)) →
    ({ s with mem := mem } : State).byteAt x = s.byteAt x) → ∀ a ∈ as, ({ s with mem := mem } : State).walk cid a = .ok (leaf a)
  marked  : ∀ a ∈ as, (leaf a).pte ||| 0x300#64 = (leaf a).pte
  permits : ∀ a ∈ as, permit k (leaf a).pte = none ∧ pteCache (leaf a).pte ≠ 3
  places  : ∀ a ∈ as, s.target ((leaf a).pa a) = some (.mem (loc a))
  one     : ∀ a ∈ as, ∀ b ∈ as, (leaf b).covers cid a = true → leaf b = leaf a
  holds   : ∀ c, core = some c → ∀ e ∈ (s.core c).tlb, ∀ a ∈ as, e.covers cid a = true → e = leaf a
  clean   : s.poison = []
  canon   : s.MemOk

/-- Headers stand at the targets of the lanes `m`: their pages can be fetched from, no object there is revoked, they lie in
a trial segment or not, a copy that the core holds is what memory holds, and the words are well-formed headers, of the kind
asked for (R60, R61, R66, R265, R268, R356). -/
structure State.HeadersAt (s : State) (kind : Option Nat) (trial : Bool) (m : LaneMask) (target : Nat → Word)
    (leaf : Nat → TlbEnt) (loc : Nat → Nat) : Prop where
  plain  : s.Plain (some s.g.core) (s.cidOf s.cur) 8 .fetch ((lanesOf m).map (fun l => (target l).toNat)) leaf loc
  free   : ∀ l, bitOf m l = true → s.revokedAt (s.cidOf s.cur) (target l).toNat = false
    ∧ (s.trialSeg (s.cidOf s.cur) (target l).toNat).isSome = trial
  header : ∀ l, bitOf m l = true → let w := wordN (natLE (s.bytesAt (loc (target l).toNat) 8))
    headerOk w = true ∧ (∀ k, kind = some k → hdrKind w = k)
      ∧ ∀ x ∈ (s.core s.g.core).icache, x.ctx = s.cidOf s.cur → x.va = (target l).toNat → x.word = w

/-! ## Transfers -/

/-- Every lane of `m` reaches its target: the header fetches, one after another, meet no fault and no page that is not
present (R61, R62). -/
def State.lands (s : State) (call : Bool) (link : Option Nat) (m : LaneMask) (target : Nat → Word) : Prop :=
  let b := s.depart s.cur call link ((lanesOf m).map (fun l => (l, target l))) (s.iset &&& ~~~m)
  let e := b.1.enterEach s.cur
  b.2 = [] ∧ e.2 = [] ∧ ∀ l, bitOf m l = true → ((e.1.grp s.cur).th l).entering = none

/-- The lanes `m` stand at the first word of the block at their targets, the other lanes of the issue set at the next
word; with a link pair the transferred lanes hold in it the address past their block. Flags and every other register
stand, and no fault is taken. -/
structure Transferred (s t : State) (link : Option Nat) (m : LaneMask) (target : Nat → Word) : Prop where
  taken  : ∀ l, bitOf m l = true → (t.g.th l).pc = target l + 8 ∧ (t.g.th l).hdr = target l
  others : ∀ l, l < s.g.threads.length → bitOf m l = false →
    (t.g.th l).pc = if bitOf s.iset l then (s.g.th l).pc + 8 else (s.g.th l).pc
  flags  : ∀ n, t.g.flagOf n = s.g.flagOf n
  goesOn : t.ctxs = s.ctxs ∧ t.wgs = s.wgs
  linked : match link with
    | none => ∀ k l, l < 32 → t.g.rawKey k l = s.g.rawKey k l
    | some n => (∀ l, bitOf m l = true →
        let ret := (s.g.th l).hdr + wordN (((s.g.th l).len + 1) * 8)
        t.g.rawV n l = ret.setWidth 32 ∧ t.g.rawV (n + 1) l = (ret >>> 32).setWidth 32)
      ∧ ∀ k l, l < 32 → ¬((k = .v n ∨ k = .v (n + 1)) ∧ bitOf m l = true) → t.g.rawKey k l = s.g.rawKey k l

/-- A word that transfers the lanes `m` to their targets (R61, R325), where no lane of the group stands before a header:
where headers stand at the targets the transfer takes place and memory stands; and so it does, with memory as the header
fetches leave it, wherever the lanes can enter. -/
def Transfers (s : State) (i : Instr) (call : Bool) (link : Option Nat) (m : LaneMask) (target : Nat → Word) : Prop :=
  s.Issues i → s.Inside → (∀ l, l < 32 → (s.g.th l).entering = none) →
    (∀ l, bitOf m l = true → s.g.inTrial l = false ∧ l < s.g.threads.length) →
    (∀ leaf loc, s.HeadersAt (if call then some 3 else none) false m target leaf loc → ∃ t, exec i s = .next t ∧ Transferred s t link m target
      ∧ SameMemory s t)
    ∧ (s.lands call link m target → ∃ t, exec i s = .next t ∧ Transferred s t link m target
      ∧ t.mem = ((s.depart s.cur call link ((lanesOf m).map (fun l => (l, target l))) (s.iset &&& ~~~m)).1.enterEach s.cur).1.mem)

end Sys2Proof.Machine
end

