-- ==== Sys2Proof/Certificates/Slice0/Obligations.lean ====
section
/-! DEFINITION. The statements of this row for the provers. Each formalises what spec/ says an instruction, a command
or the machine does; the words they share stand in Sys2Proof/Safety.lean. -/

open Sys2Proof Sys2Proof.Machine

namespace Sys2Proof.Machine

/-! ## Operands as numbers (R313, R353) -/

/-- The operand of a form with a width field, in lane `l`. -/
def opnd (s : State) (c : Ctl) (w : Width) (r : Reg) (l : Nat) : Word := s.src (isWide c w) r l
/-- W of R313. -/
def bitsOf (c : Ctl) (w : Width) : Nat := widthOfWide (isWide c w)
/-- The operand read as a signed number at width W. -/
def signedOpnd (s : State) (c : Ctl) (w : Width) (r : Reg) (l : Nat) : Int := sextI (opnd s c w r l).toNat (bitsOf c w)
/-- The operand read as an unsigned number. -/
def natOpnd (s : State) (c : Ctl) (w : Width) (r : Reg) (l : Nat) : Nat := (opnd s c w r l).toNat
/-- The natural width: 64 with u = 1, else 32. -/
def natural (c : Ctl) : Nat := if c.u then 64 else 32

end Sys2Proof.Machine

/-! ## Integer and bit forms -/

/-- Sums, differences, products and moves wrap modulo 2^W (R314, R315, R353, R371, R372).
IMULHI gives the high half of the exact product; IMIN, IMAX and IABS compare at width W, signed unless .u; the
absolute value of the most negative number is that number (R353). -/
def Obligations.IntegerArithmetic : Prop :=
  (∀ (s : State) (c : Ctl) (w : Width) (d a b x : Reg),
  GivesReg s (.iadd c w d a b) c (lat c 4 2) d (isWide c w) (fun l => opnd s c w a l + opnd s c w b l)
  ∧ GivesReg s (.isub c w d a b) c (lat c 4 2) d (isWide c w) (fun l => opnd s c w a l - opnd s c w b l)
  ∧ GivesReg s (.ineg c w d a) c (lat c 4 2) d (isWide c w) (fun l => -(opnd s c w a l))
  ∧ GivesReg s (.imul c w d a b) c (lat c 6 4) d (isWide c w) (fun l => opnd s c w a l * opnd s c w b l)
  ∧ GivesReg s (.imad c d a b x) c (lat c 6 4) d c.u
      (fun l => opnd s c .nat a l * opnd s c .nat b l + opnd s c .nat x l)
  ∧ GivesReg s (.mov c w d a) c (lat c 4 2) d (isWide c w) (fun l => opnd s c w a l)
  ∧ (∀ imm : BitVec 12, GivesReg s (.addi c d a imm) c (lat c 4 2) d c.u
      (fun l => opnd s c .nat a l + imm.signExtend 64))
  ∧ (∀ imm : BitVec 20, GivesReg s (.movi c d imm) c (lat c 4 2) d c.u (fun _ => imm.signExtend 64)
      ∧ GivesReg s (.movhi c d imm) c (lat c 4 2) d c.u (fun _ => imm.signExtend 64 <<< 12)
      ∧ GivesReg s (.addpchi c d imm) c (lat c 4 2) d true
          (fun l => (s.g.th l).hdr + imm.signExtend 64 <<< 12)))
  ∧ (∀ (s : State) (c : Ctl) (w : Width) (d a b : Reg),
  GivesReg s (.imulhi c w false d a b) c (lat c 6 4) d (isWide c w)
      (fun l => word (signedOpnd s c w a l * signedOpnd s c w b l / (2 : Int) ^ bitsOf c w))
  ∧ GivesReg s (.imulhi c w true d a b) c (lat c 6 4) d (isWide c w)
      (fun l => wordN (natOpnd s c w a l * natOpnd s c w b l / 2 ^ bitsOf c w))
  ∧ GivesReg s (.imin c w false d a b) c (lat c 4 2) d (isWide c w)
      (fun l => if signedOpnd s c w a l ≤ signedOpnd s c w b l then opnd s c w a l else opnd s c w b l)
  ∧ GivesReg s (.imin c w true d a b) c (lat c 4 2) d (isWide c w)
      (fun l => if natOpnd s c w a l ≤ natOpnd s c w b l then opnd s c w a l else opnd s c w b l)
  ∧ GivesReg s (.imax c w false d a b) c (lat c 4 2) d (isWide c w)
      (fun l => if signedOpnd s c w a l ≤ signedOpnd s c w b l then opnd s c w b l else opnd s c w a l)
  ∧ GivesReg s (.imax c w true d a b) c (lat c 4 2) d (isWide c w)
      (fun l => if natOpnd s c w a l ≤ natOpnd s c w b l then opnd s c w b l else opnd s c w a l)
  ∧ GivesReg s (.iabs c w d a) c (lat c 4 2) d (isWide c w)
      (fun l => if signedOpnd s c w a l < 0 then -(opnd s c w a l) else opnd s c w a l))

/-- The bitwise forms (R316, R375, R416).
Shifts count by bits [31:0] of b: SHL and SHR give 0 from W on, SAR divides by 2^min(k, W - 1) rounding down; ROTL
counts modulo W (R375, R392). -/
def Obligations.BitwiseAndShifts : Prop :=
  (∀ (s : State) (c : Ctl) (w : Width) (d a b : Reg),
  GivesReg s (.and c w d a b) c (lat c 4 2) d (isWide c w) (fun l => opnd s c w a l &&& opnd s c w b l)
  ∧ GivesReg s (.andn c w d a b) c (lat c 4 2) d (isWide c w) (fun l => opnd s c w a l &&& ~~~(opnd s c w b l))
  ∧ GivesReg s (.or c w d a b) c (lat c 4 2) d (isWide c w) (fun l => opnd s c w a l ||| opnd s c w b l)
  ∧ GivesReg s (.xor c w d a b) c (lat c 4 2) d (isWide c w) (fun l => opnd s c w a l ^^^ opnd s c w b l)
  ∧ GivesReg s (.not c w d a) c (lat c 4 2) d (isWide c w) (fun l => ~~~(opnd s c w a l)))
  ∧ (∀ (s : State) (c : Ctl) (w : Width) (d a b : Reg),
  GivesReg s (.shl c w d a b) c (lat c 4 2) d (isWide c w)
      (fun l => wordN (natOpnd s c w a l * 2 ^ (natOpnd s c w b l % 2 ^ 32) % 2 ^ bitsOf c w))
  ∧ GivesReg s (.shr c w d a b) c (lat c 4 2) d (isWide c w)
      (fun l => wordN (natOpnd s c w a l / 2 ^ (natOpnd s c w b l % 2 ^ 32)))
  ∧ GivesReg s (.sar c w d a b) c (lat c 4 2) d (isWide c w)
      (fun l => word (signedOpnd s c w a l / (2 : Int) ^ min (natOpnd s c w b l % 2 ^ 32) (bitsOf c w - 1)))
  ∧ GivesReg s (.rotl c w d a b) c (lat c 4 2) d (isWide c w)
      (fun l => wordN (natOpnd s c w a l * 2 ^ (natOpnd s c w b l % bitsOf c w) % 2 ^ bitsOf c w
        + natOpnd s c w a l / 2 ^ (bitsOf c w - natOpnd s c w b l % bitsOf c w))))

/-- The number of leading, of trailing and of set bits at width W, and the reversal of the bits: what `CLZ`, `CTZ`,
`POPC` and `BREV` write (R327, R375). Under .b64 with u = 0 the counts write one register. `BFX` takes len bits of its
source from pos on, zero- or sign-extended; `BFI` puts len bits into its second operand at pos; a field that starts at or
above W, or is empty, gives 0 or leaves the operand. `BPERM` picks byte k[2:0] of the eight bytes of b and a for each byte
of its result, or with k[3] set the sign of that byte (R322, R323). -/
def Obligations.BitForms : Prop := ∀ (s : State) (c : Ctl) (w : Width) (d a b x : Reg),
  (∃ n : Nat → Nat, GivesReg s (.clz c w d a) c (lat c 4 2) d (isWide c w && c.u) (fun l => wordN (n l))
    ∧ ∀ l, n l ≤ bitsOf c w
      ∧ (∀ i, bitsOf c w - n l ≤ i → i < bitsOf c w → (opnd s c w a l).getLsbD i = false)
      ∧ (n l < bitsOf c w → (opnd s c w a l).getLsbD (bitsOf c w - 1 - n l) = true))
  ∧ (∃ n : Nat → Nat, GivesReg s (.ctz c w d a) c (lat c 4 2) d (isWide c w && c.u) (fun l => wordN (n l))
    ∧ ∀ l, n l ≤ bitsOf c w ∧ (∀ i, i < n l → (opnd s c w a l).getLsbD i = false)
      ∧ (n l < bitsOf c w → (opnd s c w a l).getLsbD (n l) = true))
  ∧ GivesReg s (.popc c w d a) c (lat c 4 2) d (isWide c w && c.u)
      (fun l => wordN ((List.range (bitsOf c w)).countP (fun i => (opnd s c w a l).getLsbD i)))
  ∧ (∃ f : Nat → Word, GivesReg s (.brev c w d a) c (lat c 4 2) d (isWide c w) f
    ∧ ∀ l i, i < bitsOf c w → (f l).getLsbD i = (opnd s c w a l).getLsbD (bitsOf c w - 1 - i))
  ∧ (∃ f : Nat → Word, GivesReg s (.bfx c d a b) c (lat c 4 2) d c.u f ∧
    ∀ l, let pos := bits (opnd s c .nat b l).toNat 7 0
      let len := min (bits (opnd s c .nat b l).toNat 15 8) (natural c - pos)
      ∀ i, i < natural c → (f l).getLsbD i =
        if len = 0 then false
        else if i < len then (opnd s c .nat a l).getLsbD (pos + i)
        else (opnd s c .nat b l).getLsbD 16 && (opnd s c .nat a l).getLsbD (pos + len - 1))
  ∧ (∃ f : Nat → Word, GivesReg s (.bfi c d a b x) c (lat c 4 2) d c.u f ∧
    ∀ l, let pos := bits (opnd s c .nat x l).toNat 7 0
      let len := bits (opnd s c .nat x l).toNat 15 8
      ∀ i, i < natural c → (f l).getLsbD i =
        if pos ≤ i ∧ i < pos + len then (opnd s c .nat a l).getLsbD (i - pos) else (opnd s c .nat b l).getLsbD i)
  ∧ ∃ f : Nat → Word, GivesReg s (.bperm c d a b x) c (lat c 4 2) d false f ∧
    ∀ l i, i < 4 →
      let k := bits (s.src false x l).toNat (4 * i + 3) (4 * i)
      let byte (j : Nat) : Nat :=
        if j < 4 then bits (s.src false a l).toNat (8 * j + 7) (8 * j)
        else bits (s.src false b l).toNat (8 * (j - 4) + 7) (8 * (j - 4))
      bits (f l).toNat (8 * i + 7) (8 * i) = if k < 8 then byte k else if 128 ≤ byte (k - 8) then 255 else 0

/-- `ICMP` compares at width W, signed unless .u, and writes a predicate; with u = 1 every active thread gets the
result of the lane that chose the issue set (R357). `ISEL` selects by a predicate (R358). -/
def Obligations.CompareAndSelect : Prop := ∀ (s : State) (c : Ctl) (w : Width) (d a b : Reg) (n pd : PR),
  (∀ (uns : Bool) (cond : ICond),
    GivesPred s (.icmp c w uns cond pd a b) c (lat c 4 2) pd.val (fun l =>
      let k := if c.u then s.ilane else l
      let x : Int := if uns then (natOpnd s c w a k : Int) else signedOpnd s c w a k
      let y : Int := if uns then (natOpnd s c w b k : Int) else signedOpnd s c w b k
      match cond with
      | .eq => decide (x = y)
      | .ne => decide (x ≠ y)
      | .lt => decide (x < y)
      | .le => decide (x ≤ y)
      | .gt => decide (x > y)
      | .ge => decide (x ≥ y)))
  ∧ ∀ inv : Bool, GivesReg s (.isel c w inv n d a b) c (lat c 4 2) d (isWide c w)
      (fun l => if xor (s.readP n.val l) inv then opnd s c w a l else opnd s c w b l)

/-- `IADDC` and `ISUBB` add with the carry, or subtract with the borrow, of predicate `n` at width W and leave the new
carry or borrow in `n`; with u = 1 every active thread gets that of the lane that chose the issue set (R354). Both
results are readable 4 or 2 cycles on, and nothing else changes. -/
def Obligations.CarryChains : Prop := ∀ (s : State) (c : Ctl) (w : Width) (d a b : Reg) (n : PR),
  let W := bitsOf c w
  let carry (l : Nat) : Nat := if s.readP n.val l then 1 else 0
  let lane (l : Nat) : Nat := if c.u then s.ilane else l
  (s.Issues (.iaddc c w d a b n) → s.Inside → ∃ t, exec (.iaddc c w d a b n) s = .next t ∧ Frame s t ∧ Charged s t c
    ∧ Reads s t d (isWide c w) (s.active c) (lat c 4 2)
        (fun l => wordN ((natOpnd s c w a l + natOpnd s c w b l + carry l) % 2 ^ W))
    ∧ ReadsPred s t n.val (s.active c) (lat c 4 2)
        (fun l => decide (2 ^ W ≤ natOpnd s c w a (lane l) + natOpnd s c w b (lane l) + carry (lane l)))
    ∧ ∀ k l, l < 32 → touches d (isWide c w) (s.active c) k l = false
        → ¬(n.val ≠ 0 ∧ k = .p n.val ∧ bitOf (s.active c) l = true) → t.g.rawKey k l = s.g.rawKey k l)
  ∧ (s.Issues (.isubb c w d a b n) → s.Inside → ∃ t, exec (.isubb c w d a b n) s = .next t ∧ Frame s t ∧ Charged s t c
    ∧ Reads s t d (isWide c w) (s.active c) (lat c 4 2)
        (fun l => word (((natOpnd s c w a l : Int) - natOpnd s c w b l - carry l) % (2 : Int) ^ W))
    ∧ ReadsPred s t n.val (s.active c) (lat c 4 2)
        (fun l => decide (natOpnd s c w a (lane l) < natOpnd s c w b (lane l) + carry (lane l)))
    ∧ ∀ k l, l < 32 → touches d (isWide c w) (s.active c) k l = false
        → ¬(n.val ≠ 0 ∧ k = .p n.val ∧ bitOf (s.active c) l = true) → t.g.rawKey k l = s.g.rawKey k l)

/-- `IDIV` and `IREM` with no zero divisor in an active lane: the quotient rounds toward zero and the remainder has the
dividend's sign, both at width W; the most negative number divided by -1 wraps (R359, R360).
A zero divisor in some active lanes faults DIVZERO in exactly those lanes; the others are done and hold their results, `d`
of the faulting lanes stands, and the workgroup is suspended with the record of the instruction (R243, R245, R246, R359,
R360). That with u = 1 a zero divisor faults for every active lane is derived: the spec names only the lanes whose divisor is
zero, and the model reads the one execution of u = 1 as that of every active lane (log 34, DEDUCED). -/
def Obligations.Division : Prop :=
  (∀ (s : State) (c : Ctl) (w : Width) (d a b : Reg),
  (∀ l, l < 32 → (if c.u then l = s.ilane else bitOf (s.active c) l = true) → opnd s c w b l ≠ 0) →
  GivesLater s (.idiv c w false d a b) c d (isWide c w) s.ilane
      (fun l => word ((signedOpnd s c w a l).tdiv (signedOpnd s c w b l)))
  ∧ GivesLater s (.idiv c w true d a b) c d (isWide c w) s.ilane
      (fun l => wordN (natOpnd s c w a l / natOpnd s c w b l))
  ∧ GivesLater s (.irem c w false d a b) c d (isWide c w) s.ilane
      (fun l => word ((signedOpnd s c w a l).tmod (signedOpnd s c w b l)))
  ∧ GivesLater s (.irem c w true d a b) c d (isWide c w) s.ilane
      (fun l => wordN (natOpnd s c w a l % natOpnd s c w b l)))
  ∧ (∀ (s : State) (c : Ctl) (w : Width) (uns rem : Bool) (d a b : Reg),
  let i := if rem then Instr.irem c w uns d a b else .idiv c w uns d a b
  let zero := if c.u then (if opnd s c w b s.ilane = 0 then s.active c else 0)
    else filterLanes (s.active c) (fun l => opnd s c w b l == 0)
  let rest := s.active c &&& ~~~zero
  s.Issues i → s.Inside → s.Owned s.cur → (∀ l, s.g.inTrial l = false) → zero ≠ 0 →
    ∃ t, exec i s = .next t
      ∧ Faulted s t s.cur { code := Code.divZero, pc := s.issuePc, addr := 0, lanes := zero, detail := 0, word := wordOf i }
          (.instr s.cur s.nextId)
      ∧ (∃ p ∈ t.g.pending, p.id = s.nextId ∧ p.lanes = s.active c ∧ p.done = rest)
      ∧ Holds t d (isWide c w) rest s.ilane (fun l =>
          if rem then (if uns then wordN (natOpnd s c w a l % natOpnd s c w b l)
            else word ((signedOpnd s c w a l).tmod (signedOpnd s c w b l)))
          else if uns then wordN (natOpnd s c w a l / natOpnd s c w b l)
          else word ((signedOpnd s c w a l).tdiv (signedOpnd s c w b l)))
      ∧ OnlyWrites s t d (isWide c w) rest)

/-! ## Floating point -/

/-- The operand of a floating-point form in lane `l`. -/
def Sys2Proof.Machine.fopnd (s : State) (r : Reg) (l : Nat) : U32 := (s.src false r l).setWidth 32

/-- The exact value of the FP32 operand in lane `l`, under the region's numeric version (R93, R112). -/
def Sys2Proof.Machine.fval (s : State) (r : Reg) (l : Nat) : FV := fp32 (s.nbv1 s.cur) (fopnd s r l)

/-- An exact value rounded once into an FP32 register (R91 to R93). -/
def Sys2Proof.Machine.rounded (s : State) (r : Rnd) (v : FV) : Word := (toFp32 (s.nbv1 s.cur) r v).setWidth 64

/-- Sums, differences, products, fused products and four-element dot products are exact and rounded once, 6 or 4 cycles
on, 8 or 6 for the dot product; in the lanes in which a + b is greater than d, `VMXP` writes it to d and the back-pointer to the
next register, and in no other lane does it write (R340, R341, R349, R406). No shadow unit diverges (R230). -/
def Obligations.FloatRoundedOnce : Prop := ∀ (s : State) (c : Ctl) (r : Rnd) (d a b : Reg), s.inject.shadow1 = 0 →
  GivesReg s (.fadd c r d a b) c (lat c 6 4) d false (fun l => rounded s r (FV.add r (fval s a l) (fval s b l)))
  ∧ GivesReg s (.fsub c r d a b) c (lat c 6 4) d false
      (fun l => rounded s r (FV.add r (fval s a l) (fval s b l).negate))
  ∧ GivesReg s (.fmul c r d a b) c (lat c 6 4) d false (fun l => rounded s r ((fval s a l).mul (fval s b l)))
  ∧ GivesReg s (.ffma c r d a b) c (lat c 6 4) d false
      (fun l => rounded s r (FV.add r ((fval s a l).mul (fval s b l)) (fval s d l)))
  ∧ (∀ (d : VR) (x : Reg),
    let i := Instr.vmxp c d a b x
    let sum (l : Nat) : U32 := toFp32 (s.nbv1 s.cur) .rne (FV.add .rne (fval s a l) (fval s b l))
    let takes := filterLanes (s.active c) (fun l => fcmpF false .gt (sum l) ((s.src true (.v d) l).setWidth 32))
    s.Issues i → s.Inside → ∃ t, exec i s = .next t ∧ Frame s t ∧ Charged s t c
      ∧ Reads s t (.v d) true takes 6 (fun l => (fopnd s x l).setWidth 64 <<< 32 ||| (sum l).setWidth 64)
      ∧ OnlyWrites s t (.v d) true takes)
  ∧ ∀ f : DotFmt, GivesReg s (.fdot4 c f r d a b) c (lat c 8 6) d false (fun l =>
      let x (j : Nat) : Nat := bits (fopnd s a l).toNat (8 * j + 7) (8 * j)
      let y (j : Nat) : Nat := bits (fopnd s b l).toNat (8 * j + 7) (8 * j)
      let p (j : Nat) : FV := match f with
        | .e4m3 => (ffE4m3.decode (x j)).mul (ffE4m3.decode (y j))
        | .e5m2 => (ffE5m2.decode (x j)).mul (ffE5m2.decode (y j))
        | .lns6 => lnsMul (x j % 64) (y j % 64) 127 127
      rounded s r (FV.add r (FV.add r (FV.add r (FV.add r (fval s d l) (p 0)) (p 1)) (p 2)) (p 3)))

/-- The forms of variable latency write the value of their operands in every active lane and complete later, where no
shadow unit diverges (R230, R341, R342). Their exact results are those of R341: of a NaN the canonical NaN; the exponential
of -∞ is +0, of +∞ +∞, of a zero 1, and of an integer that names a normal power of two that power; the logarithm of a zero
is -∞, of a negative operand NaN, of +∞ +∞, of 1 +0; the sine and the cosine of an infinity are NaN, the sine of a zero is
that zero and its cosine 1; under either numeric version and every rounding mode. -/
def Obligations.FloatVariableLatency : Prop :=
  (∀ (v1 : Bool) (r : Rnd),
    (∀ x : U32, (0x7F800000 < x.toNat % 2 ^ 31 → exp2F v1 r x = canonNan ∧ log2F v1 r x = canonNan ∧ sinF v1 r x = canonNan
        ∧ cosF v1 r x = canonNan)
      ∧ (0x80800000 ≤ x.toNat → log2F v1 r x = canonNan))
    ∧ exp2F v1 r 0xFF800000 = 0 ∧ exp2F v1 r 0x7F800000 = 0x7F800000 ∧ log2F v1 r 0x7F800000 = 0x7F800000
    ∧ log2F v1 r 0x3F800000 = 0
    ∧ (∀ x ∈ [0#32, 0x80000000#32], exp2F v1 r x = 0x3F800000 ∧ log2F v1 r x = 0xFF800000 ∧ sinF v1 r x = x
        ∧ cosF v1 r x = 0x3F800000)
    ∧ (∀ x ∈ [0x7F800000#32, 0xFF800000#32], sinF v1 r x = canonNan ∧ cosF v1 r x = canonNan)
    ∧ ∀ (x : U32) (k : Int), -126 ≤ k → k ≤ 127 →
        (∃ n m e, fp32 v1 x = .fin n m e ∧ scaled n m e (min e 0) = k * pow2 (-(min e 0))) →
        exp2F v1 r x = BitVec.ofNat 32 ((k + 127).toNat * 2 ^ 23))
  ∧ ∀ (s : State) (c : Ctl) (r : Rnd) (d a b : Reg), s.inject.shadow1 = 0 →
  let v1 := s.nbv1 s.cur
  GivesLater s (.fdiv c r d a b) c d false s.ilane (fun l => rounded s r ((fval s a l).div (fval s b l)))
  ∧ GivesLater s (.fsqrt c r d a) c d false s.ilane (fun l => rounded s r (fval s a l).sqrt)
  ∧ GivesLater s (.frcp c r d a) c d false s.ilane (fun l => rounded s r (FV.div (.fin false 1 0) (fval s a l)))
  ∧ GivesLater s (.frsq c r d a) c d false s.ilane (fun l => rounded s r (fval s a l).rsqrt)
  ∧ GivesLater s (.fexp2 c r d a) c d false s.ilane (fun l => (exp2F v1 r (fopnd s a l)).setWidth 64)
  ∧ GivesLater s (.flog2 c r d a) c d false s.ilane (fun l => (log2F v1 r (fopnd s a l)).setWidth 64)
  ∧ GivesLater s (.fsin c r d a) c d false s.ilane (fun l => (sinF v1 r (fopnd s a l)).setWidth 64)
  ∧ GivesLater s (.fcos c r d a) c d false s.ilane (fun l => (cosF v1 r (fopnd s a l)).setWidth 64)

/-- FABS clears bit 31 and FNEG inverts it, under either numeric version. Minimum and maximum drop a lone NaN and order -0
below +0; classification sets one of nine bits; rounding to an integer, conversion between formats and from and to
integers; every ordered comparison is false of a NaN, ne and un are true (R100 to R102, R338, R339, R343 to R348). A shadow unit that
diverges keeps none of them from its result: minimum, maximum, rounding and comparison raise no execution fault (R339, R344, R345
over R230: log 64, DEDUCED). -/
def Obligations.FloatSelections : Prop := ∀ (s : State) (c : Ctl) (r : Rnd) (d a b : Reg) (cond : FCond) (pd : PR),
  let v1 := s.nbv1 s.cur
  let gives (i : Instr) (f : Nat → Word) : Prop := (s.inject.shadow1 = 0 → GivesReg s i c (lat c 6 4) d false f)
    ∧ (s.Issues i → s.Inside → ∃ t, exec i s = .next t ∧ Charged s t c ∧ t.mem = s.mem
      ∧ Reads s t d false (s.active c) (lat c 6 4) f ∧ OnlyWrites s t d false (s.active c))
  (GivesReg s (.fabs c d a) c (lat c 4 2) d false (fun l => s.src false a l &&& 0x7FFFFFFF#64)
    ∧ GivesReg s (.fneg c d a) c (lat c 4 2) d false (fun l => s.src false a l ^^^ 0x80000000#64))
  ∧ (∀ i : Bool, gives (if i then .fmin c d a b else .fmax c d a b) (fun l =>
      let x := fval s a l
      let y := fval s b l
      let first := flushIn v1 (fopnd s a l)
      let second := flushIn v1 (fopnd s b l)
      (if x.isNan && y.isNan then canonNan else if x.isNan then second else if y.isNan then first
        else if i then (if y.below x then second else first)
        else (if x.below y then second else first)).setWidth 64))
  ∧ (∃ k : Nat → Nat, GivesReg s (.fclass c d a) c (lat c 6 4) d false (fun l => wordN (2 ^ k l))
      ∧ ∀ l, let x := fopnd s a l
        let neg := x.getLsbD 31
        let mag := x.toNat % 2 ^ 31
        k l = if 0x7F800000 < mag then 8 else if mag = 0x7F800000 then (if neg then 0 else 7)
          else if 0x00800000 ≤ mag then (if neg then 1 else 6) else if mag ≠ 0 then (if neg then 2 else 5)
          else if neg then 3 else 4)
  ∧ gives (.frnd c r d a) (fun l => (frndF v1 r (fopnd s a l)).setWidth 64)
  ∧ (∀ uns : Bool, GivesReg s (.icvtf c uns r d a) c (lat c 6 4) d false (fun l =>
      let n : Int := if uns then (fopnd s a l).toNat else (fopnd s a l).toInt
      rounded s r (.fin (decide (n < 0)) n.natAbs 0)))
  ∧ (∀ uns : Bool, GivesReg s (.fcvti c uns r d a) c (lat c 6 4) d false
      (fun l => word (toInt r uns 32 (fval s a l))))
  ∧ (∀ (fo fi : Fmt) (ko ki : BitVec 2), GivesReg s (.fcvt c fo fi ko ki r d a) c (lat c 6 4) d false (fun l =>
      let y := encodeFmt v1 r fo (decodeFmt v1 fi (elemOf fi (fopnd s a l) ki.toNat))
      (if fo = .fp32 then BitVec.ofNat 32 y else setElem fo (fopnd s d l) ko.toNat y).setWidth 64))
  ∧ let i := Instr.fcmp c cond pd a b
    let f (l : Nat) : Bool :=
      let k := if c.u then s.ilane else l
      let x := fval s a k
      let y := fval s b k
      let un := x.isNan || y.isNan
      match cond with
      | .eq => !un && x.cmp y == .eq
      | .ne => un || x.cmp y != .eq
      | .lt => !un && x.cmp y == .lt
      | .le => !un && x.cmp y != .gt
      | .gt => !un && x.cmp y == .gt
      | .ge => !un && x.cmp y != .lt
      | .un => un
      | .num => !un
    (s.inject.shadow1 = 0 → GivesPred s i c (lat c 6 4) pd.val f)
    ∧ (s.Issues i → s.Inside → ∃ t, exec i s = .next t ∧ Charged s t c ∧ t.mem = s.mem
      ∧ ReadsPred s t pd.val (s.active c) (lat c 6 4) f ∧ OnlyWritesPred s t pd.val (s.active c))

namespace Sys2Proof.Machine

/-- The number that a finite value is; an infinity or a NaN counts as 0 here. -/
def FV.num (v : FV) : ℚ :=
  match v with
  | .fin neg m e => (if neg then -1 else 1) * (m : ℚ) * (2 : ℚ) ^ e
  | _ => 0

/-- The five binary formats of R86. -/
def binaryFormats : List FF := [ffFp32, ffFp16, ffBf16, ffE4m3, ffE5m2]

/-- `y` is `x` rounded to the format under a mode (R91): of the finite codes one nearest to `x`, or the nearest on the
side that the mode names. -/
def RoundsTo (f : FF) (r : Rnd) (x y : ℚ) : Prop :=
  let codes : Set ℚ := { z | ∃ k, k < 2 ^ f.width ∧ (f.decode k).finite = true ∧ (f.decode k).num = z }
  y ∈ codes ∧ match r with
    | .rne => ∀ z ∈ codes, |y - x| ≤ |z - x|
    | .rtz => |y| ≤ |x| ∧ 0 ≤ x * y ∧ ∀ z ∈ codes, |z| ≤ |x| → |z| ≤ |y|
    | .rup => x ≤ y ∧ ∀ z ∈ codes, x ≤ z → y ≤ z
    | .rdn => y ≤ x ∧ ∀ z ∈ codes, z ≤ x → z ≤ y

/-- The same of a real number and FP32. -/
def RoundsReal (r : Rnd) (x : ℝ) (y : ℚ) : Prop :=
  let codes : Set ℚ := { z | ∃ k, k < 2 ^ 32 ∧ (ffFp32.decode k).finite = true ∧ (ffFp32.decode k).num = z }
  y ∈ codes ∧ match r with
    | .rne => ∀ z ∈ codes, |(y : ℝ) - x| ≤ |(z : ℝ) - x|
    | .rtz => |(y : ℝ)| ≤ |x| ∧ 0 ≤ x * y ∧ ∀ z ∈ codes, |(z : ℝ)| ≤ |x| → |z| ≤ |y|
    | .rup => x ≤ y ∧ ∀ z ∈ codes, x ≤ z → y ≤ z
    | .rdn => (y : ℝ) ≤ x ∧ ∀ z ∈ codes, (z : ℝ) ≤ x → z ≤ y

end Sys2Proof.Machine

/-- Rounding is right: a finite value no greater in magnitude than the greatest finite code of a binary format rounds to
the code that R91 names, subnormals included; under rne a tie goes to the code with the even mantissa (R86, R91). So do
the quotient of two finite values, the square root of a positive one and one over it, with a result in that range: FDIV,
FRCP, FSQRT and FRSQ are rounded once from the exact result (R90, R341). -/
def Obligations.RoundingIsRight : Prop := (∀ f ∈ binaryFormats, ∀ (r : Rnd) (neg : Bool) (m : Nat) (e : Int),
  |(FV.fin neg m e).num| ≤ (f.decode f.maxCode).num →
    let x := (FV.fin neg m e).num
    let k := f.encode r false (.fin neg m e)
    RoundsTo f r x (f.decode k).num ∧ (f.decode k).finite = true
    ∧ (r = .rne → ∀ j, j < 2 ^ f.width → (f.decode j).finite = true → (f.decode j).num ≠ (f.decode k).num →
        |(f.decode j).num - x| = |(f.decode k).num - x| → k % 2 = 0))
  ∧ ∀ (r : Rnd) (x y : Bool) (m n : Nat) (e f : Int), m ≠ 0 → n ≠ 0 →
    let top : ℝ := ((ffFp32.decode ffFp32.maxCode).num : ℚ)
    let value (v : FV) : ℚ := (ffFp32.decode (ffFp32.encode r false v)).num
    let a : ℝ := ((FV.fin x m e).num : ℚ)
    let b : ℝ := ((FV.fin y n f).num : ℚ)
    (|a / b| ≤ top → RoundsReal r (a / b) (value (FV.div (.fin x m e) (.fin y n f))))
    ∧ (x = false → Real.sqrt a ≤ top → RoundsReal r (Real.sqrt a) (value (FV.fin x m e).sqrt))
    ∧ (x = false → 1 / Real.sqrt a ≤ top → RoundsReal r (1 / Real.sqrt a) (value (FV.fin x m e).rsqrt))

/-- The values behind the rounded forms are exact: sum, difference and product of finite values; an infinity absorbs a
finite term, and the invalid operations give NaN (R92, R341). -/
def Obligations.ExactOperations : Prop := ∀ (r : Rnd) (x y : Bool) (m n : Nat) (e f : Int),
  (FV.add r (.fin x m e) (.fin y n f)).num = (FV.fin x m e).num + (FV.fin y n f).num
  ∧ (FV.add r (.fin x m e) (FV.fin y n f).negate).num = (FV.fin x m e).num - (FV.fin y n f).num
  ∧ (FV.mul (.fin x m e) (.fin y n f)).num = (FV.fin x m e).num * (FV.fin y n f).num
  ∧ FV.add r (.inf x) (.fin y n f) = .inf x ∧ FV.add r (.inf x) (.inf (!x)) = .nan
  ∧ (FV.mul (.inf x) (.fin y n f) = if n = 0 then .nan else .inf (xor x y))
  ∧ (n ≠ 0 → FV.div (.fin x 0 e) (.fin y n f) = .fin (xor x y) 0 (e - f - (Nat.log2 n + 80)))
  ∧ FV.div (.fin x m e) (.fin y 0 f) = (if m = 0 then .nan else .inf (xor x y))
  ∧ FV.div (.inf x) (.inf y) = .nan ∧ (m ≠ 0 → FV.sqrt (.fin true m e) = .nan)

/-- Conversion of a value to an integer of 8 or 32 bits rounds it under the mode and saturates it to the range; NaN
gives 0, an infinity the end of the range on its side; an LNS6 code is converted by its exact value, its NaR gives 0
(R101). -/
def Obligations.IntegerConversion : Prop := ∀ (r : Rnd) (uns neg : Bool) (n : Nat), n = 8 ∨ n = 32 →
  let lo : Int := if uns then 0 else -(2 : Int) ^ (n - 1)
  let hi : Int := if uns then (2 : Int) ^ n - 1 else (2 : Int) ^ (n - 1) - 1
  (∀ (v1 : Bool) (v : FV), encodeFmt v1 r .i8 v = (BitVec.ofInt 8 (toInt r false 8 v)).toNat
    ∧ encodeFmt v1 r .i32 v = (BitVec.ofInt 32 (toInt r false 32 v)).toNat)
  ∧ (∀ v1, decodeFmt v1 .lns6 0x20 = .nan ∧ ∀ k, k < 64 → k ≠ 0x20 → decodeFmt v1 .lns6 k = lnsVal k)
  ∧ toInt r uns n .nan = 0
  ∧ toInt r uns n (.inf neg) = (if neg then lo else hi)
  ∧ ∀ (m : Nat) (e : Int), let x := (FV.fin neg m e).num
    ∃ k : Int, toInt r uns n (.fin neg m e) = max lo (min hi k)
      ∧ match r with
        | .rne => |(k : ℚ) - x| ≤ 1 / 2 ∧ (|(k : ℚ) - x| = 1 / 2 → k % 2 = 0)
        | .rtz => |(k : ℚ)| ≤ |x| ∧ |x| < |(k : ℚ)| + 1 ∧ 0 ≤ x * k
        | .rup => x ≤ k ∧ (k : ℚ) < x + 1
        | .rdn => (k : ℚ) ≤ x ∧ x < k + 1

/-! ## Moves, predicates and special registers -/

/-- `MFSR` reads each special register of R71 in its issue cycle, result 4 cycles on. A scalar with u = 1 sees the lane
that chose the issue set, with u = 0 the lowest active thread; `allow` reads 0 outside a trial (R71, R366, R367). -/
def Obligations.SpecialRegisterReads : Prop := ∀ (s : State) (c : Ctl) (d : Reg) (r : SReg),
  GivesReg s (.mfsr c d r) c 4 d r.wide (fun l =>
    let k := match d with | .s _ => (if c.u then s.ilane else lowLane (s.active c)) | .v _ => l
    let w := s.wgOf s.cur
    let q := s.regOf s.cur
    match r with
    | .laneid => wordN k
    | .grpid => wordN s.g.grpid
    | .wgid => wordN w.wgid
    | .coreid => wordN s.g.core
    | .partid => wordN s.g.part
    | .wgsize => wordN q.rcb.wgsize
    | .wgcount => wordN q.rcb.wgcount
    | .roleid => wordN s.g.role
    | .prio => wordN s.g.prio
    | .cycle => wordN s.cycle
    | .regbase => wordN s.g.regbase
    | .spsize => wordN q.rcb.spbytes
    | .valloc => wordN s.g.valloc
    | .nbv => wordN q.rcb.nbv
    | .ebal => word q.ebal
    | .tbal => word q.tbal
    | .allow => if s.g.inTrial k then wordN (s.g.th k).allow else 0
    | .trialwin => s.ownRead s.cur .win k
    | .rowprog => wordN s.g.rowprog)

/-- `MTSR` gives trialwin to every active thread: the value governs from the fourth cycle on. The threads go on to the
next word; registers, flags and memory stand (R72, R368).
`NOP` and `YIELD` change nothing but the program counters of the issue set; YIELD with an active thread also makes
its group the youngest in both slots (R73, R374, R417). Neither needs a flag, and a set flag keeps its count. -/
def Obligations.PlainForms : Prop :=
  (∀ (s : State) (c : Ctl) (a : Reg), s.Issues (.mtsr c a) → s.Inside →
  ∃ t, exec (.mtsr c a) s = .next t ∧ t = { s with groups := t.groups }
    ∧ (∀ gid, gid ≠ s.cur → findK t.groups gid = findK s.groups gid)
    ∧ t.g = { s.g with threads := t.g.threads, landing := t.g.landing }
    ∧ (∀ l, l < s.g.threads.length → t.g.th l =
        { s.g.th l with
          pc := if bitOf s.iset l then (s.g.th l).pc + 8 else (s.g.th l).pc
          trialwin := if bitOf (s.active c) l then s.src true a l else (s.g.th l).trialwin })
    ∧ ∀ cyc, s.cycle + 4 ≤ cyc → ∀ l, l < s.g.threads.length → bitOf (s.active c) l = true →
        ({ t with cycle := cyc } : State).ownRead s.cur .win l = s.src true a l)
  ∧ (∀ (s : State) (c : Ctl), s.Inside →
  (s.Issues (.nop c) → ∃ t, exec (.nop c) s = .next t ∧ t = { s with groups := t.groups }
    ∧ (∀ gid, gid ≠ s.cur → findK t.groups gid = findK s.groups gid)
    ∧ t.g = { s.g with threads := t.g.threads }
    ∧ ∀ l, l < s.g.threads.length →
        t.g.th l = if bitOf s.iset l then { s.g.th l with pc := (s.g.th l).pc + 8 } else s.g.th l)
  ∧ (s.Issues (.yield c) → ∃ t, exec (.yield c) s = .next t ∧ t = { s with groups := t.groups }
    ∧ (∀ gid, gid ≠ s.cur → findK t.groups gid = findK s.groups gid)
    ∧ t.g = { s.g with threads := t.g.threads, ageA := (if s.active c = 0 then s.g.ageA else s.cycle),
                       ageB := (if s.active c = 0 then s.g.ageB else s.cycle) }
    ∧ ∀ l, l < s.g.threads.length →
        t.g.th l = if bitOf s.iset l then { s.g.th l with pc := (s.g.th l).pc + 8 } else s.g.th l))

/-- `MOVRI` reads in each active lane the register that its index names, `MOVWI` writes it; each index of an active lane
lies below the allotment (R373). -/
def Obligations.IndexedMoves : Prop := ∀ (s : State) (c : Ctl) (d b : VR) (i : Reg),
  let index (l : Nat) : Nat := (s.src false i l).toNat
  (∀ l, bitOf (s.active c) l = true → index l < s.g.valloc) →
  GivesLater s (.movri c d i) c (.v d) false s.ilane (fun l =>
      ((s.begun (.movri c d i) c { a := s.srcs false i, b := [], c := [] }).readV (index l) l).setWidth 64)
  ∧ (s.Issues (.movwi c i b) → s.Inside → ∃ t, exec (.movwi c i b) s = .next t ∧ Frame s t ∧ Charged s t c
      ∧ Recorded s t (.movwi c i b) c .result
      ∧ (∀ l, bitOf (s.active c) l = true → t.g.rawV (index l) l = s.readV b.val l)
      ∧ ∀ k l, l < 32 → ¬(bitOf (s.active c) l = true ∧ k = .v (index l)) → t.g.rawKey k l = s.g.rawKey k l)

/-- `PSET` writes a function of two predicates; `PMOV` reads the eight predicates of a lane, p0 always 1, into bits 7 to
0; `PMOV.put` gives each predicate of its mask bit n of the operand, the others and every register stand. All are readable
4 cycles on (R376, R377). -/
def Obligations.PredicateForms : Prop := ∀ (s : State) (c : Ctl) (pd pa pb : PR) (d : VR) (a : Reg) (mask : Byte),
  (∀ f : PFn, GivesPred s (.pset c f pd pa pb) c 4 pd.val (fun l =>
    let k := if c.u then s.ilane else l
    let a := s.readP pa.val k
    let b := s.readP pb.val k
    match f with
    | .and => a && b
    | .or => a || b
    | .xor => xor a b
    | .andn => a && !b
    | .set => true
    | .clr => false))
  ∧ (∃ f : Nat → Word, GivesReg s (.pmov c d) c 4 (.v d) false f
      ∧ (∀ l n, n < 32 → (f l).getLsbD n = (decide (n < 8) && s.readP n l)) ∧ ∀ l, (f l).getLsbD 0 = true)
  ∧ (s.Issues (.pmovPut c a mask) → s.Inside → ∃ t, exec (.pmovPut c a mask) s = .next t ∧ Frame s t ∧ Charged s t c
    ∧ (∀ n, mask.getLsbD n = true → ReadsPred s t n (s.active c) 4 (fun l => (s.src false a l).getLsbD n))
    ∧ ∀ k l, l < 32 → ¬(∃ n, n ≠ 0 ∧ mask.getLsbD n = true ∧ k = .p n ∧ bitOf (s.active c) l = true) →
        t.g.rawKey k l = s.g.rawKey k l)

/-! ## Forms that combine lanes -/

/-- `SHFL`: each active lane reads the lane that its operand names, itself where that lane is outside 0 to 31 or not
active. `VOTE`: the ballot of the active threads whose predicate, inverted under !, is 1, and whether any, all, or all alike
are (R393, R407). -/
def Obligations.ShuffleAndVote : Prop := ∀ (s : State) (c : Ctl) (m : ShflMode) (v a : VR) (b r : Reg) (neg : Bool)
    (n d : PR),
  let yes (l : Nat) : Bool := xor (s.readP n.val l) neg
  let act := lanesOf (s.active c)
  GivesLater s (.shfl c m v a b) c (.v v) false 0 (fun l =>
    let k := (s.src false b l).toNat
    let j : Int := match m with
      | .idx => ((k % 32 : Nat) : Int)
      | .up => (l : Int) - k
      | .down => (l : Int) + k
      | .xor => ((l ^^^ (k % 32) : Nat) : Int)
    s.src false (.v a) (if 0 ≤ j ∧ j ≤ 31 ∧ bitOf (s.active c) j.toNat = true then j.toNat else l))
  ∧ (∃ f : Nat → Word, GivesLater s (.vote c (.ballot r) neg n) c r false (lowLane (s.active c)) f
    ∧ ∀ l j, (f l).getLsbD j = (bitOf (s.active c) j && yes j))
  ∧ GivesPredLater s (.vote c (.any d) neg n) c d.val (fun _ => act.any yes)
  ∧ GivesPredLater s (.vote c (.all d) neg n) c d.val (fun _ => act.all yes)
  ∧ GivesPredLater s (.vote c (.eq d) neg n) c d.val (fun _ => act.all yes || act.all (fun l => !yes l))

/-- `VRED` over integers: the wrapped sum, the extreme of the active lanes, or the bitwise combination of all (R408).
`VRED` over FP32: five levels over 32 slots, adjacent slots paired from slot 0; an inactive slot contributes -0 to
the sum and a NaN to minimum and maximum (R107, R408). -/
def Obligations.Reductions : Prop :=
  (∀ (s : State) (c : Ctl) (op : VRedOp) (d : Reg) (a : VR),
  let act := lanesOf (s.active c)
  let x (l : Nat) : U32 := s.readV a.val l
  op ∉ [VRedOp.fadd, .fmin, .fmax] →
  ∃ y : U32, GivesLater s (.vred c op d a) c d false (lowLane (s.active c)) (fun _ => y.setWidth 64)
    ∧ (s.active c ≠ 0 → match op with
      | .iadd => y = BitVec.ofNat 32 (act.map (fun l => (x l).toNat)).sum
      | .smin => (∃ l ∈ act, x l = y) ∧ ∀ l ∈ act, y.toInt ≤ (x l).toInt
      | .smax => (∃ l ∈ act, x l = y) ∧ ∀ l ∈ act, (x l).toInt ≤ y.toInt
      | .umin => (∃ l ∈ act, x l = y) ∧ ∀ l ∈ act, y.toNat ≤ (x l).toNat
      | .umax => (∃ l ∈ act, x l = y) ∧ ∀ l ∈ act, (x l).toNat ≤ y.toNat
      | .and => ∀ j, j < 32 → y.getLsbD j = act.all (fun l => (x l).getLsbD j)
      | .or => ∀ j, j < 32 → y.getLsbD j = act.any (fun l => (x l).getLsbD j)
      | .xor => ∀ j, j < 32 → y.getLsbD j = decide ((act.filter (fun l => (x l).getLsbD j)).length % 2 = 1)
      | _ => True))
  ∧ (∀ (s : State) (c : Ctl) (d : Reg) (a : VR),
  let v1 := s.nbv1 s.cur
  let slot (idle : U32) (l : Nat) : U32 := if bitOf (s.active c) l then s.readV a.val l else idle
  ∀ (op : VRedOp) (node : U32 → U32 → U32) (idle : U32),
    (op, idle) ∈ [(VRedOp.fadd, 0x80000000#32), (.fmin, 0x7FC00000#32), (.fmax, 0x7FC00000#32)] →
    (op = .fadd → ∀ p q, node p q = toFp32 v1 .rne (FV.add .rne (fp32 v1 p) (fp32 v1 q))) →
    (op = .fmin → node = fminF v1) → (op = .fmax → node = fmaxF v1) →
    ∀ tree : Nat → Nat → U32, (∀ l, tree 0 l = slot idle l) →
      (∀ k l, tree (k + 1) l = node (tree k (2 * l)) (tree k (2 * l + 1))) →
      GivesLater s (.vred c op d a) c d false (lowLane (s.active c)) (fun _ => (tree 5 0).setWidth 64))


/-! ## Control flow -/

/-- A transfer enters the block at a target that is an aligned address of the space, stands in no revoked object and in
no trial segment, and holds a well-formed header, of kind 11 for a call: the thread stands at its first word, and is
newly held there only when it belongs to the cohort of that header. A misaligned target or one outside the space, a word
that is no header, and a header of another kind for a call give BAD_TARGET (R20, R61, R62). -/
def Obligations.TransferEntersBlock : Prop :=
  (∀ (s q : State) (gid l : Nat) (a w : Word) (call : Bool),
    (findK s.groups gid).isSome = true → l < (s.grp gid).threads.length → ((s.grp gid).th l).trial = none →
    a.toNat < 2 ^ 54 → a.toNat % 8 = 0 → s.revokedAt (s.cidOf gid) a.toNat = false →
    s.trialSeg (s.cidOf gid) a.toNat = none → s.fetchWord (s.grp gid).core (s.cidOf gid) a.toNat = (q, .ok w) →
    headerOk w = true → (call = true → hdrKind w = 3) →
    ∃ t, s.transferInto gid l a call = (t, none)
      ∧ ((t.grp gid).th l).pc = a + 8 ∧ ((t.grp gid).th l).hdr = a ∧ ((t.grp gid).th l).len = hdrLen w
      ∧ ((t.grp gid).th l).kind = hdrKind w ∧ ((t.grp gid).th l).roff = hdrRoff w
      ∧ ((t.grp gid).th l).entering = none ∧ t.mem = q.mem
      ∧ (((s.grp gid).th l).rc ≠ some a → ((t.grp gid).th l).held.atRc = true → ((s.grp gid).th l).held.atRc = true))
  ∧ ∀ (s q : State) (gid l : Nat) (a w : Word) (call : Bool), ((s.grp gid).th l).trial = none →
    ((2 ^ 54 ≤ a.toNat ∨ a.toNat % 8 ≠ 0) → s.transferInto gid l a call = (s, some Code.badTarget))
    ∧ (a.toNat < 2 ^ 54 → a.toNat % 8 = 0 → s.revokedAt (s.cidOf gid) a.toNat = false →
        s.trialSeg (s.cidOf gid) a.toNat = none → s.fetchWord (s.grp gid).core (s.cidOf gid) a.toNat = (q, .ok w) →
        (headerOk w = false ∨ (call = true ∧ hdrKind w ≠ 3)) → s.transferInto gid l a call = (q, some Code.badTarget))

/-- `BR`, `BRC` and `RET` transfer their lanes: BR every active one to hdr + offset * 8, BRC those whose predicate,
inverted under !, is 1, or all or none of them under .any and .all, RET to the pair of each lane or the one address of a
scalar. `CALL` and `CALLI` transfer to a header of kind 11 and leave the address past the block in the link pair, readable
at once; lanes in a block of kind 01 cannot call (R61, R62, R324, R325, R383). -/
def Obligations.Transferring : Prop := ∀ (s : State) (c : Ctl) (off : BitVec 24) (a : Reg) (neg : Bool) (n : PR) (k : VR),
  let near (l : Nat) : Word := (s.g.th l).hdr + off.signExtend 64 * 8
  let yes := filterLanes (s.active c) (fun l => xor (s.readP n.val l) neg)
  Transfers s (.br c off) false none (s.active c) near
  ∧ Transfers s (.brc c .lane neg n off) false none yes near
  ∧ Transfers s (.brc c .any neg n off) false none (if yes = 0 then 0 else s.active c) near
  ∧ Transfers s (.brc c .all neg n off) false none (if yes = s.active c then s.active c else 0) near
  ∧ Transfers s (.ret c a) false none (s.active c) (fun l => s.src true a l)
  ∧ ((∀ l, bitOf (s.active c) l = true → (s.g.th l).kind ≠ 1) →
    Transfers s (.call c k off) true (some k.val) (s.active c) near
    ∧ Transfers s (.calli c k a) true (some k.val) (s.active c) (fun l => s.src true a l))


/-- A word with no active thread still issues: it completes at once, and its threads go on past it; no register, no
flag and no byte of memory changes. `SIGN` is the one exception (R49). -/
def Obligations.NoActiveThread : Prop := ∀ (s : State) (i : Instr) (c : Ctl), i.ctl? = some c → s.Issues i →
  s.active c = 0 → (∀ k a, i ≠ .sign c k a) → risingK s.groups = true →
  exec i s = .next (s.advance s.cur s.iset)
    ∧ (s.Inside → Frame s (s.advance s.cur s.iset) ∧ SameRegs s (s.advance s.cur s.iset)
      ∧ (∀ n, (s.advance s.cur s.iset).g.flagOf n = s.g.flagOf n) ∧ (s.advance s.cur s.iset).mem = s.mem)

/-- `EXIT` ends the active threads, which never issue again; the others go on. Registers, flags and memory stand, where
no round of a convergence register collects one of the lanes (R15, R208, R334, R335). -/
def Obligations.Exit : Prop := ∀ (s : State) (c : Ctl), s.Issues (.exit c) → s.Inside →
  (∀ k, k < 8 → (s.conv s.g.wid k).state = .collecting → (s.conv s.g.wid k).owner = s.g.grpid →
    (s.conv s.g.wid k).declared &&& s.active c = 0) →
  ∃ t, exec (.exit c) s = .next t ∧ t = { s with groups := t.groups }
    ∧ (∀ gid, gid ≠ s.cur → findK t.groups gid = findK s.groups gid)
    ∧ t.g = { s.g with threads := t.g.threads }
    ∧ (∀ l, l < s.g.threads.length → bitOf (s.active c) l = true →
        (t.g.th l).exited = true ∧ (t.g.th l).held = .no ∧ (t.g.th l).pc = (s.g.th l).pc)
    ∧ ∀ l, l < s.g.threads.length → bitOf (s.active c) l = false →
        (t.g.th l).exited = (s.g.th l).exited
        ∧ (t.g.th l).pc = if bitOf s.iset l then (s.g.th l).pc + 8 else (s.g.th l).pc

/-- `BRK` and `TRAP` with an active thread take their exception: every thread of the issue set stands past the word, the
workgroup is suspended, and the record names the active lanes and carries the immediate; without an active thread they
only advance. Registers and flags stand (R246, R328, R404). -/
def Obligations.BreakpointAndTrap : Prop := ∀ (s : State) (c : Ctl) (imm : BitVec 20) (trap : Bool),
  let i := if trap then Instr.trap c imm else .brk c imm
  s.Issues i → s.Inside → s.Owned s.cur → ∃ t, exec i s = .next t ∧ SameRegs s t
    ∧ (∀ n, t.g.flagOf n = s.g.flagOf n) ∧ t.mem = s.mem
    ∧ (∀ l, l < s.g.threads.length →
        (t.g.th l).pc = if bitOf s.iset l then (s.g.th l).pc + 8 else (s.g.th l).pc)
    ∧ (if s.active c = 0 then t.ctxs = s.ctxs ∧ t.wgs = s.wgs
      else Faulted s t s.cur
        { code := if trap then Code.trap else Code.breakpoint, pc := s.issuePc, addr := 0, lanes := s.active c,
          detail := imm.toNat, word := wordOf i } (.done s.cur))

/-- The word faults of R70, in their order, suspend the workgroup of a group outside a trial with a record of the whole
issue set, which stands at the word: nothing else changes. Opcode 0x00 and every reserved opcode, whatever the other bits
of the word, are no instruction, and a word that is none and a word with a refused field are ILLEGAL_OPCODE; of MLDA and
MSTA a tile past the allotment is found before a refused descriptor register and gives REG_RANGE (R369; log 53, DEDUCED). A
transfer to a word of zeros gives BAD_TARGET (R68, R70, R246). -/
def Obligations.WordFaults : Prop := (∀ (s : State) (i : Instr) (code : Nat),
  eventOnly i = false → s.hasGroup s.cur = true → s.Owned s.cur → s.g.inTrial s.ilane = false →
  s.wordFault i = some code →
  ∃ t, exec i s = .next t ∧ SameRegs s t ∧ t.mem = s.mem ∧ (∀ n, t.g.flagOf n = s.g.flagOf n)
    ∧ (∀ l, l < s.g.threads.length → (t.g.th l).pc = (s.g.th l).pc)
    ∧ Faulted s t s.cur
        { code := code, pc := s.issuePc, addr := 0, lanes := s.iset, detail := 0, word := wordOf i }
        (.word s.cur s.iset)
    ∧ (illegalWord i = true → badPairTile (wordOf i) = none → code = Code.illegal)
    ∧ ∀ n, illegalWord i = true → badPairTile (wordOf i) = some n →
        code = if (s.regOf s.cur).rcb.tiles ≤ n then Code.regRange else Code.illegal)
  ∧ (∀ (s : State) (w : Word), s.hasGroup s.cur = true → s.Owned s.cur → s.g.inTrial s.ilane = false →
    let code := match badPairTile w with
      | some n => if (s.regOf s.cur).rcb.tiles ≤ n then Code.regRange else Code.illegal
      | none => Code.illegal
    ∃ t, exec (.reservedOpcode w) s = .next t
      ∧ Faulted s t s.cur
          { code := code, pc := s.issuePc, addr := 0, lanes := s.iset, detail := 0, word := w }
          (.word s.cur s.iset))
  ∧ (∀ w : Word, let op := (w.extractLsb' 56 8).toNat
    (op = 0 ∨ op ∈ [0x0D, 0x0E, 0x0F, 0x2F, 0x34, 0x35, 0x36, 0x37, 0x4F, 0x5A, 0x5B, 0x5C, 0x5D, 0x5E, 0x5F, 0x7F, 0x8D, 0x8E,
        0x8F, 0xA5, 0xA6, 0xA7] ∨ 0xA8 ≤ op ∧ op ≤ 0xEF) →
      (match decodeWord w with
        | .error _ => true
        | .ok _ => false) = true ∧ badPairTile w = none)
  ∧ ∀ (s q : State) (gid l : Nat) (a : Word) (call : Bool), ((s.grp gid).th l).trial = none →
    a.toNat < 2 ^ 54 → a.toNat % 8 = 0 → s.revokedAt (s.cidOf gid) a.toNat = false →
    s.trialSeg (s.cidOf gid) a.toNat = none → s.fetchWord (s.grp gid).core (s.cidOf gid) a.toNat = (q, .ok 0) →
    s.transferInto gid l a call = (q, some Code.badTarget)

/-- `ROLE` of a declared role, with no thread waiting for another role: the active threads wait, the others go on, and the
issue stands recorded (R43, R386). -/
def Obligations.RoleWaits : Prop := ∀ (s : State) (c : Ctl) (n : BitVec 2), s.Issues (.role c n) → s.Inside →
  n.toNat ≤ (s.regOf s.cur).rcb.roles.length →
  (∀ l k p, l < 32 → (s.g.th l).held = .role k p → (s.g.th l).exited = false → k = n.toNat) →
  ∃ t, exec (.role c n) s = .next t ∧ Charged s t c ∧ Recorded s t (.role c n) c .role ∧ SameRegs s t ∧ t.mem = s.mem
    ∧ ∀ l, l < s.g.threads.length → t.g.th l =
        if bitOf (s.active c) l then { s.g.th l with held := .role n.toNat s.nextId }
        else if bitOf s.iset l then { s.g.th l with pc := (s.g.th l).pc + 8 } else s.g.th l

/-! ## Trials -/

/-- `TRY` in which every active lane passes the checks, as where every window is well-formed and headers of kind 10 stand in
trial segments at the targets: the lanes stand at the first word of their candidate with the
allowance of the operand, at most 0xFFFFFF, and the record waits for their return; guarded-off lanes go on (R267, R268).
`TRET` of lanes with an allowance left ends the trial of its active lanes with cause 0: each goes on at the word after its
TRY, its result pair holding the words it executed, this one counted (log 30, DEDUCED), and the value of the operand; every
other register stands in every lane (R268, R269, R405).
Where a trial lane of the issue set has no allowance left, the word is not executed, TRET no more than any other: such lanes
return with cause 1, the pair holding the words executed and the offset of that word from the first byte of the segment; the
other lanes stand at the word, and every other register stands (R269, R271). -/
def Obligations.Trials : Prop :=
  (∀ (s : State) (c : Ctl) (d a : VR) (b : SR),
  let i := Instr.tryT c d a b
  let ops : Ops := { a := s.srcs true (.v a), b := s.srcs true (.s b), c := laneList.map (s.ownRead s.cur .win) }
  let rest := s.iset &&& ~~~(s.active c)
  let r := ((s.startPend i c (s.active c) .inTrial ops).advance s.cur rest).tryLanes s.cur s.nextId d.val c.set.toNat ops
    (lanesOf (s.active c)) 0 []
  s.Issues i → s.Inside → (∀ l, bitOf (s.active c) l = true → l < s.g.threads.length) →
  ((∃ leaf loc, s.HeadersAt (some 2) true (s.active c) (s.src true (.v a)) leaf loc
      ∧ ∀ l, bitOf (s.active c) l = true → windowOk (s.ownRead s.cur .win l) = true)
    ∨ r.2 = (0, [])) →
  (∀ p ∈ s.g.pending, p.id ≠ s.nextId) →
  ∃ t, exec i s = .next t ∧ Charged s t c ∧ Recorded s t i c .inTrial ∧ t.mem = r.1.mem
    ∧ (∀ leaf loc, s.HeadersAt (some 2) true (s.active c) (s.src true (.v a)) leaf loc → SameMemory s t)
    ∧ SameRegs s t
    ∧ ∀ l, bitOf (s.active c) l = true → t.g.inTrial l = true
      ∧ (t.g.th l).pc = s.src true (.v a) l + 8 ∧ (t.g.th l).hdr = s.src true (.v a) l
      ∧ (t.g.th l).allow = min (s.src false (.s b) l).toNat 0xFFFFFF)
  ∧ ((∀ (s : State) (c : Ctl) (a : Reg),
  let i := Instr.tret c a
  s.hasGroup s.cur = true → s.wordFault i = none → s.g.inTrial s.ilane = true → bitOf s.iset s.ilane = true →
  (∀ l, bitOf s.iset l = true → l < s.g.threads.length ∧ ∃ tr, (s.g.th l).trial = some tr ∧ vtop i ≤ 8 * tr.vlim
    ∧ 0 < (s.g.th l).allow
    ∧ namesOwnFlag c (s.g.th l) = false ∧ tr.ret ≠ tr.homeHdr + wordN ((tr.homeLen + 1) * 8)
    ∧ ∀ p ∈ s.g.pending, p.id = tr.pend → p.dead = []) →
  c.u = false → s.Inside →
  ∃ t, exec i s = .next t ∧ t.mem = s.mem
    ∧ (∀ k l, l < 32 → (∀ tr, bitOf (s.active c) l = true → (s.g.th l).trial = some tr →
        k ≠ .v tr.outReg ∧ k ≠ .v (tr.outReg + 1)) → t.g.rawKey k l = s.g.rawKey k l)
    ∧ ∀ l tr, bitOf (s.active c) l = true → (s.g.th l).trial = some tr →
      (t.g.th l).trial = none ∧ (t.g.th l).pc = tr.ret ∧ (t.g.th l).hdr = tr.homeHdr
      ∧ t.g.rawV tr.outReg l = BitVec.ofNat 32 ((tr.start - ((s.g.th l).allow - 1)) * 256)
      ∧ t.g.rawV (tr.outReg + 1) l = (s.src false a l).setWidth 32)
  ∧ (∀ (s : State) (gid : Nat),
  let g := s.grp gid
  let m := filterLanes s.iset (fun l => g.inTrial l && (g.th l).allow == 0)
  s.hasGroup gid = true →
  (∀ l tr, bitOf m l = true → (g.th l).trial = some tr →
    (g.th l).entering = none ∧ tr.ret ≠ tr.homeHdr + wordN ((tr.homeLen + 1) * 8)
    ∧ ∀ p ∈ g.pending, p.id = tr.pend → p.dead = []) →
  ∃ t, exec (.allowanceSpent gid) s = .next t ∧ t.mem = s.mem
    ∧ (∀ l, l < g.threads.length → bitOf m l = false → (t.grp gid).th l = g.th l)
    ∧ (∀ k l, l < 32 → (∀ tr, bitOf m l = true → (g.th l).trial = some tr → k ≠ .v tr.outReg ∧ k ≠ .v (tr.outReg + 1)) →
        (t.grp gid).rawKey k l = g.rawKey k l)
    ∧ ∀ l tr, bitOf m l = true → l < g.threads.length → (g.th l).trial = some tr →
      ((t.grp gid).th l).trial = none ∧ ((t.grp gid).th l).pc = tr.ret ∧ ((t.grp gid).th l).hdr = tr.homeHdr
      ∧ (t.grp gid).rawV tr.outReg l = BitVec.ofNat 32 (tr.start * 256 + 1)
      ∧ (t.grp gid).rawV (tr.outReg + 1) l = ((g.th l).pc - tr.segBase).setWidth 32)
  ∧ ∀ (s : State) (gid l k stall : Nat) (set : LaneMask), k < 32 → bitOf set k = true → (s.grp gid).inTrial k = true →
    ((s.grp gid).th k).allow = 0 → s.dueHold gid (s.atPort gid l set none stall).cycle = none →
    s.issueFrom gid l set stall = exec (.allowanceSpent gid) (s.atPort gid l set none stall))


/-! ## Memory -/

/-- An access of a lane outside a trial: a misaligned address faults MISALIGNED and a global one outside the space
ADDR_RANGE, before any translation; a global read gives the bytes of the translated address in little-endian order, a
read of the store the bytes there, and one past what the workgroup sees STORE_RANGE (R114, R117, R128, R243).
`LD` whose every lane can read its address: the lanes read one after another at base + offset * size, the register
gets the zero-extended value, and memory stands but for accessed bits of the leaf entries that the reads walk (R114,
R128, R361, R362). Where every lane's access is plain, and of the store within the scratchpad, they complete with the bytes
that memory, the constant block or the scratchpad holds, and no byte of memory changes. That an access of the constant block
is bounded by the size of its object's file and is read through the translation is the model's choice (log 35). -/
def Obligations.LoadsAndAccesses : Prop :=
  (∀ (s : State) (gid l ea n : Nat) (sp : Space) (bs : List Byte) (due : Due),
  ((s.grp gid).th l).trial = none → 0 < n → bs.length = n →
  (ea % n ≠ 0 → s.laneLoad gid l sp ea n = (s, .error Code.misaligned)
    ∧ s.laneStore gid l sp ea bs due = (s, .error Code.misaligned))
  ∧ (ea % n = 0 →
    (2 ^ 54 ≤ ea → s.laneLoad gid l .g ea n = (s, .error Code.addrRange)
      ∧ s.laneStore gid l .g ea bs due = (s, .error Code.addrRange))
    ∧ (∀ q m, s.accessG (some (s.grp gid).core) (s.cidOf gid) ea n .read = (q, .ok (.mem m)) → q.poisoned m n = false →
        s.laneLoad gid l .g ea n = (q, .ok (natLE (q.bytesAt m n))))
    ∧ (∀ q m, s.accessG (some (s.grp gid).core) (s.cidOf gid) ea n .read = (q, .ok (.mem m)) → q.poisoned m n = true →
        s.laneLoad gid l .g ea n = (q, .error Code.memUncorrectable))
    ∧ (s.storeVisible gid ea n = false → s.laneLoad gid l .s ea n = (s, .error Code.storeRange)
        ∧ s.laneStore gid l .s ea bs due = (s, .error Code.storeRange))
    ∧ (ea + n ≤ s.spBytes (s.wgOf gid) →
        s.laneLoad gid l .s ea n = (s, .ok (natLE ((List.range n).map (fun j => (s.wgOf gid).padByte (ea + j))))))
    ∧ s.laneStore gid l .k ea bs due = (s, .error Code.accessDenied)))
  ∧ (∀ (s : State) (c : Ctl) (sp : Space) (z : Size) (o : Ord) (sc : Scope) (d a : Reg)
    (off : BitVec 11) (x : Nat → Nat),
  let i := Instr.ld c sp z o sc d a off
  let n := sizeBytes z
  let ops : Ops := { a := s.bases a, b := [], c := [] }
  let lanes := actLanes c (s.active c) s.ilane
  let q := State.turnOf (ldLane sp z d off s.cur ops s.nextId) lanes (s.begun i c ops)
  let ea (l : Nat) : Nat := (effAddr (nth (s.bases a) 0 l) off n).toNat
  let walked (l loc : Nat) : Prop := match sp with
    | .g => (q l).marks (s.cidOf s.cur) (ea l) loc
    | .k => ∃ b, s.constBlock s.cur = some b ∧ (q l).marks (s.cidOf s.cur) (b.1 + ea l) loc
    | .s => False
  s.Issues i → s.Inside → (∀ l ∈ lanes, ((q l).laneLoad s.cur l sp (ea l) n).2 = .ok (x l)) →
  ∃ t, exec i s = .next t ∧ MemFrame s t i c ∧ SameOthers s t
    ∧ Holds t d (z == .b64) (s.active c) s.ilane (fun l => wordN (x l)) ∧ OnlyWrites s t d (z == .b64) (s.active c)
    ∧ ∀ loc, (s.active c ≠ 0 → ∀ l ∈ lanes, ¬walked l loc) → t.byteAt loc = s.byteAt loc)
  ∧ (∀ (s : State) (c : Ctl) (sp : Space) (z : Size) (o : Ord) (sc : Scope) (d a : Reg) (off : BitVec 11)
    (leaf : Nat → TlbEnt) (loc : Nat → Nat),
  let i := Instr.ld c sp z o sc d a off
  let n := sizeBytes z
  let lanes := actLanes c (s.active c) s.ilane
  let ea (l : Nat) : Nat := (effAddr (nth (s.bases a) 0 l) off n).toNat
  let base : Nat := match sp, s.constBlock s.cur with
    | .k, some b => b.1
    | _, _ => 0
  let bytes (l : Nat) : List Byte := match sp with
    | .s => (List.range n).map (fun j => (s.wgOf s.cur).padByte (ea l + j))
    | _ => s.bytesAt (loc (base + ea l)) n
  s.Issues i → s.Inside → (∀ l ∈ lanes, s.g.inTrial l = false ∧ ea l % n = 0 ∧ match sp with
    | .g => True
    | .s => ea l + n ≤ s.spBytes (s.wgOf s.cur)
    | .k => ∃ b, s.constBlock s.cur = some b ∧ ea l < b.2 ∧ ea l < 2 ^ 32) →
  (sp ≠ .s → s.Plain (some s.g.core) (s.cidOf s.cur) n .read (lanes.map (fun l => base + ea l)) leaf loc) →
  ∃ t, exec i s = .next t ∧ MemFrame s t i c ∧ SameOthers s t
    ∧ Holds t d (z == .b64) (s.active c) s.ilane (fun l => wordN (natLE (bytes l)))
    ∧ OnlyWrites s t d (z == .b64) (s.active c) ∧ SameMemory s t)

/-- `ST.g` whose every lane can write its address: the bytes at the translated address of each lane are those of its
operand, unless a later lane wrote them, and every other byte of memory stands but for page-table entries and dirty logs;
no register changes (R114, R132, R399, R400).
`ST.s` of visible, aligned addresses: each byte of the scratchpad or of a register window that lanes address holds
that of the last of them, in flight in a window, and every other byte of the store, and memory, stand (R117, R118, R400).
`ST.g` whose every access is plain completes likewise. -/
def Obligations.Stores : Prop :=
  (∀ (s : State) (c : Ctl) (z : Size) (o : Ord) (sc : Scope) (d a : Reg)
    (off : BitVec 11),
  let i := Instr.st c .g z o sc d a off
  let n := sizeBytes z
  let ops : Ops := { a := s.bases a, b := s.srcs (z == .b64) d, c := [] }
  let lanes := actLanes c (s.active c) s.ilane
  let q := State.turnOf (stLane .g z off s.cur ops s.nextId) lanes (s.begun i c ops)
  let ea (l : Nat) : Nat := (effAddr (nth (s.bases a) 0 l) off n).toNat
  let writes (l loc : Nat) : Prop :=
    (q l).marks (s.cidOf s.cur) (ea l) loc ∨ ∃ m, (q l).dataAt s.cur (ea l) n .write = some m ∧ m ≤ loc ∧ loc < m + n
  s.Issues i → s.Inside →
  (∀ l ∈ lanes, ((q l).laneStore s.cur l .g (ea l) (bytesLE n (nth ops.b 0 l).toNat) (.on s.nextId)).2 = .ok ()) →
  ∃ t, exec i s = .next t ∧ MemFrame s t i c ∧ SameOthers s t ∧ SameRegs s t
    ∧ (s.active c ≠ 0 → ∀ l ∈ lanes, ∀ m j, (q l).dataAt s.cur (ea l) n .write = some m → j < n →
        (∀ k ∈ lanes, l < k → ¬writes k (m + j)) → t.byteAt (m + j) = byteOf (s.src (z == .b64) d l) j)
    ∧ ∀ loc, (s.active c ≠ 0 → ∀ l ∈ lanes, ¬writes l loc) → t.byteAt loc = s.byteAt loc)
  ∧ (∀ (s : State) (c : Ctl) (z : Size) (o : Ord) (sc : Scope) (d a : Reg)
    (off : BitVec 11),
  let i := Instr.st c .s z o sc d a off
  let n := sizeBytes z
  let lanes := actLanes c (s.active c) s.ilane
  let ea (l : Nat) : Nat := (effAddr (nth (s.bases a) 0 l) off n).toNat
  s.Issues i → s.Inside → s.Owned s.cur → (∀ q ∈ s.groups, ∀ p ∈ q.2.pending, p.id ≠ s.nextId) →
  (∀ l ∈ lanes, s.g.inTrial l = false ∧ ea l % n = 0 ∧ s.storeVisible s.cur (ea l) n = true) →
  ∃ t, exec i s = .next t ∧ MemFrame s t i c ∧ t.mem = s.mem ∧ t.cores = s.cores
    ∧ (s.active c ≠ 0 → ∀ l ∈ lanes, ∀ j, j < n → ∀ x, s.storeLoc s.cur (ea l + j) = some x →
        (∀ k ∈ lanes, l < k → ∀ j', j' < n → s.storeLoc s.cur (ea k + j') ≠ some x) →
        t.rawStore s.cur x = byteOf (s.src (z == .b64) d l) j)
    ∧ ∀ x, (s.active c ≠ 0 → ∀ l ∈ lanes, ∀ j, j < n → s.storeLoc s.cur (ea l + j) ≠ some x) →
        (∀ g n l b, x = .win g n l b → l < 32 ∧ b < 4) → t.rawStore s.cur x = s.rawStore s.cur x)
  ∧ (∀ (s : State) (c : Ctl) (z : Size) (o : Ord) (sc : Scope) (d a : Reg) (off : BitVec 11) (leaf : Nat → TlbEnt)
    (loc : Nat → Nat),
  let i := Instr.st c .g z o sc d a off
  let n := sizeBytes z
  let lanes := actLanes c (s.active c) s.ilane
  let ea (l : Nat) : Nat := (effAddr (nth (s.bases a) 0 l) off n).toNat
  let hits (l x : Nat) : Prop := loc (ea l) ≤ x ∧ x < loc (ea l) + n
  s.Issues i → s.Inside → (∀ l ∈ lanes, s.g.inTrial l = false) →
  s.Plain (some s.g.core) (s.cidOf s.cur) n .write (lanes.map ea) leaf loc →
  ∃ t, exec i s = .next t ∧ MemFrame s t i c ∧ SameOthers s t ∧ SameRegs s t
    ∧ (s.active c ≠ 0 → ∀ l ∈ lanes, ∀ j, j < n → (∀ k ∈ lanes, l < k → ¬hits k (loc (ea l) + j)) →
        t.byteAt (loc (ea l) + j) = byteOf (s.src (z == .b64) d l) j)
    ∧ ∀ x, (s.active c ≠ 0 → ∀ l ∈ lanes, ¬hits l x) → t.byteAt x = s.byteAt x)

/-- `ATOM` and `RED` whose every lane can read and write its address: each lane in turn combines the old value with its
operand, ATOM gets the old value, and memory stands elsewhere (R317 to R319, R381, R382). Lanes that address the store
through a register window complete as well. Where every access is plain, or of the store within the scratchpad, they
complete; and with addresses apart from each other each lane gets the value that memory held there, and leaves the combined
one, or that value where a cas fails. -/
def Obligations.Atomics : Prop := (∀ (s : State) (c : Ctl) (sp : Space) (z : Size) (op : AtomOp) (o : Ord) (sc : Scope)
    (d : Option Reg) (r a b : Reg) (old : Nat → Nat), d = none ∨ d = some r →
  let i := if d.isSome then Instr.atom c sp z op o sc r a b else .red c sp z op o sc a b
  let n := sizeBytes z
  let ops := s.atomOps z op a b
  let lanes := actLanes c (s.active c) s.ilane
  let q := State.turnOf (atomLane sp z op d s.cur ops s.nextId) lanes (s.begun i c ops)
  let ea (l : Nat) : Nat := (nth (s.bases a) 0 l).toNat
  let writes (l loc : Nat) : Prop :=
    (q l).marks (s.cidOf s.cur) (ea l) loc ∨ ∃ m, (q l).dataAt s.cur (ea l) n .rmw = some m ∧ m ≤ loc ∧ loc < m + n
  sp ≠ .k → s.Issues i → s.Inside → s.Owned s.cur → (∀ q ∈ s.groups, ∀ p ∈ q.2.pending, p.id ≠ s.nextId) →
  (∀ l ∈ lanes, ((q l).laneRmw s.cur sp (ea l) n op (nth ops.b 0 l) (nth ops.c 0 l) (.on s.nextId)).2 = .ok (old l)) →
  ∃ t, exec i s = .next t ∧ t.cur = s.cur ∧ Charged s t c ∧ Recorded s t i c .result
    ∧ ((sp = .g ∨ ∀ l ∈ lanes, ea l + n ≤ s.spBytes (s.wgOf s.cur)) → MemFrame s t i c ∧ match d with
      | some r => Holds t r (z == .b64) (s.active c) s.ilane (fun l => wordN (old l))
          ∧ OnlyWrites s t r (z == .b64) (s.active c)
      | none => SameRegs s t)
    ∧ (sp = .s → t.mem = s.mem)
    ∧ (sp = .g → s.active c ≠ 0 → ∀ l ∈ lanes, ∀ m j bs, (q l).dataAt s.cur (ea l) n .rmw = some m → j < n →
        combineN op n (old l) (nth ops.b 0 l) (nth ops.c 0 l) = some bs →
        (∀ k ∈ lanes, l < k → ¬writes k (m + j)) → t.byteAt (m + j) = nth bs 0 j)
    ∧ (sp = .g → ∀ loc, (s.active c ≠ 0 → ∀ l ∈ lanes, ¬writes l loc) → t.byteAt loc = s.byteAt loc))
  ∧ ∀ (s : State) (c : Ctl) (inStore : Bool) (z : Size) (op : AtomOp) (o : Ord) (sc : Scope) (d : Option Reg) (r a b : Reg)
    (leaf : Nat → TlbEnt) (loc : Nat → Nat), d = none ∨ d = some r →
  let sp := if inStore then Space.s else .g
  let i := if d.isSome then Instr.atom c sp z op o sc r a b else .red c sp z op o sc a b
  let n := sizeBytes z
  let ops := s.atomOps z op a b
  let lanes := actLanes c (s.active c) s.ilane
  let ea (l : Nat) : Nat := (nth (s.bases a) 0 l).toNat
  let at_ (l : Nat) : Nat := if inStore then ea l else loc (ea l)
  let byte (u : State) (x : Nat) : Byte := if inStore then (u.wgOf s.cur).padByte x else u.byteAt x
  let old (l : Nat) : List Byte := (List.range n).map (fun j => byte s (at_ l + j))
  s.Issues i → s.Inside → s.Owned s.cur → (∀ l ∈ lanes, s.g.inTrial l = false) →
  (if inStore then ∀ l ∈ lanes, ea l % n = 0 ∧ ea l + n ≤ s.spBytes (s.wgOf s.cur)
    else s.Plain (some s.g.core) (s.cidOf s.cur) n .rmw (lanes.map ea) leaf loc) →
  ∃ t, exec i s = .next t ∧ MemFrame s t i c
    ∧ (match d with
      | some r => OnlyWrites s t r (z == .b64) (s.active c)
      | none => SameRegs s t)
    ∧ (∀ x, (s.active c ≠ 0 → ∀ l ∈ lanes, ¬(at_ l ≤ x ∧ x < at_ l + n)) → byte t x = byte s x)
    ∧ ((∀ k ∈ lanes, ∀ l ∈ lanes, k ≠ l → at_ k + n ≤ at_ l ∨ at_ l + n ≤ at_ k) →
      (∀ r, d = some r → Holds t r (z == .b64) (s.active c) s.ilane (fun l => wordN (natLE (old l))))
      ∧ (s.active c ≠ 0 → ∀ l ∈ lanes, ∀ j, j < n → byte t (at_ l + j) =
          nth ((combineN op n (natLE (old l)) (nth ops.b 0 l) (nth ops.c 0 l)).getD (old l)) 0 j))

/-- `FENCE`, `CFLUSH` and `PREF` change no register, no flag but the charged one, and no byte of memory; PREF keeps every
flag (R333, R350 to R352, R380). An access, a fence or a seal that an older instruction of one of its threads must precede is
issued all the same: its threads go on, its flag is charged, and it stands recorded to be performed later, with no effect yet
(R351, R363, R401, R412; which instructions wait for which: log 54). One whose operands the checks at its issue refuse does
not wait for that: it faults at its issue for every active lane (R321, R369, R378, R396, R398, R411). -/
def Obligations.OrderingForms : Prop :=
  (∀ (s : State) (c : Ctl) (o : Ord) (sc : Scope) (inv : Bool) (a : Reg) (off : BitVec 11), s.Inside →
  (s.Issues (.fence c o sc) → ∃ t, exec (.fence c o sc) s = .next t ∧ Frame s t ∧ Charged s t c
    ∧ Recorded s t (.fence c o sc) c .result ∧ SameRegs s t)
  ∧ (s.Issues (.cflush c inv sc a off) → ∃ t, exec (.cflush c inv sc a off) s = .next t ∧ Frame s t ∧ Charged s t c
    ∧ Recorded s t (.cflush c inv sc a off) c .result ∧ SameRegs s t)
  ∧ (s.Issues (.pref c inv a off) → ∃ t, exec (.pref c inv a off) s = .next t ∧ Frame s t ∧ t.nextId = s.nextId
    ∧ (∀ n, t.g.flagOf n = s.g.flagOf n) ∧ t.g.pending = s.g.pending ∧ SameRegs s t))
  ∧ ∀ (s : State) (i : Instr) (c : Ctl), i.ctl? = some c → i.inOrder = true → s.Inside → s.hasGroup s.cur = true →
    s.g.inTrial s.ilane = false → s.wordFault i = none → s.ilane < 32 → s.active c ≠ 0 →
    (s.mustWait i (s.active c) = true → s.refusedNow i = false →
      ∃ t, exec i s = .next t ∧ Frame s t ∧ Charged s t c ∧ Recorded s t i c .behind ∧ SameRegs s t)
    ∧ (s.refusedNow i = true → s.Owned s.cur → (∀ l, bitOf (s.active c) l = true → s.g.inTrial l = false) →
      (∀ p ∈ s.g.pending, p.id ≠ s.nextId) →
      ∃ t info, exec i s = .next t ∧ Faulted s t s.cur info (.instr s.cur s.nextId) ∧ SameRegs s t ∧ t.mem = s.mem
        ∧ info.pc = s.issuePc ∧ info.lanes = s.active c ∧ info.word = wordOf i)

/-- What the axioms of the memory order say of any execution that obeys them, as every allowed one without a data race does.
A read that a write happens-before takes its byte from that write or from a later one in coherence order; so a load that
reads, with acquire, a byte of a release store makes every older write of the storing thread visible to the younger reads of
the loading thread, when the two accesses are mutually covering. Two reads of one thread do not go back in coherence order.
Load buffering is forbidden, and so is store buffering between sc accesses. Two mutually covering read-modify-writes, or
arrivals at a weir, never take a byte from the same write.
The events of the machine's steps: an access or a fence outside a trial makes at most one for each active lane with u = 0, one
with u = 1, and none where every guard is false, with its order and scope at the place of its record; a cas that fails is a read
with the acquire half of its order. A fence makes them all, and so does an access whose addresses are plain, each on the bytes of
its lane. In a trial a store, an ATOM, a RED and a FENCE make none, and a load is a read of the window at dev scope. `WARRIVE`
makes one arrival of its active threads, with the release half of its order (one event: log 65). The host and peers act at sys
scope, engines and the device at dev or sys (R135, R139, R141, R142, R145 to R147, R150, R151, R272, R318). -/
def Obligations.MemoryOrder : Prop :=
  (∀ x : Execution, x.Allowed → ¬x.Race → x.WellFormed ∧ x.Coherent ∧ x.Atomic ∧ x.Causal)
  ∧ (∀ x : Execution, x.WellFormed → x.Coherent → x.Atomic → x.Causal → ∀ l l' : Loc,
    (∀ i r, x.writesAt l i = true → x.readsAt l r = true → i ≠ r → x.Hb i r →
      ∃ w, x.src r l = some w ∧ (w = i ∨ x.coAt l i w = true))
    ∧ (∀ i w a r, x.writesAt l i = true → x.po i w = true → x.writesAt l' w = true → (x.e w).isRel = true →
        x.src a l' = some w → (x.e a).isAcq = true → (x.e w).mutual (x.e a) = true → x.po a r = true →
        x.readsAt l r = true → i ≠ r → ∃ v, x.src r l = some v ∧ (v = i ∨ x.coAt l i v = true))
    ∧ (∀ a b w, x.po a b = true → x.src a l = some w → x.readsAt l b = true →
        ∃ v, x.src b l = some v ∧ (v = w ∨ x.coAt l w v = true))
    ∧ (∀ a b c d, x.po a b = true → x.rfAt l b c = true → x.po c d = true → x.rfAt l' d a = true → False)
    ∧ (∀ a b c d, (∀ e ∈ [a, b, c, d], (x.e e).ord = .sc ∧ ∀ f ∈ [a, b, c, d], (x.e e).mutual (x.e f) = true) →
        x.po a b = true → x.po c d = true → x.frAt l' b c = true → x.frAt l d a = true → False)
    ∧ ∀ a b, (x.e a).updates = true → (x.e b).updates = true → a ≠ b → (x.e a).mutual (x.e b) = true →
        x.readsAt l a = true → x.readsAt l b = true → x.src a l ≠ x.src b l)
  ∧ (∀ (s : State) (c : Ctl) (sp : Space) (z : Size) (op : AtomOp) (o : Ord) (sc : Scope) (d a b : Reg)
      (off : BitVec 11), (∀ k, k < 32 → s.g.inTrial k = false) → (∀ p ∈ s.g.pending, p.id ≠ s.nextId) →
      ∀ i ∈ [Instr.ld c sp z o sc d a off, .st c sp z o sc d a off, .atom c sp z op o sc d a b, .red c sp z op o sc a b,
        .fence c o sc], s.Issues i → s.Inside →
      let most := if s.active c = 0 then 0 else if c.u then 1 else (lanesOf (s.active c)).length
      (s.eventsOf i).length ≤ most ∧ (i = .fence c o sc → (s.eventsOf i).length = most)
      ∧ ∀ e ∈ s.eventsOf i, e.scope = sc
        ∧ (e.ord = o ∧ e.act = (match i with | .ld .. => .read | .st .. => .write | .fence .. => .fence | _ => .rmw)
          ∨ e.ord = acqHalf o ∧ e.act = .read ∧ op = .cas ∧ (i = .atom c sp z op o sc d a b ∨ i = .red c sp z op o sc a b))
        ∧ ∀ p ∈ e.places, p.pos = s.nextId ∧ ∃ k,
          p.who = .thread s.g.wid s.cur k ∧ bitOf (if c.u then s.iset else s.active c) k = true)
  ∧ (∀ (s : State) (c : Ctl) (z : Size) (op : AtomOp) (o : Ord) (sc : Scope) (d a b : Reg) (off : BitVec 11) (i : Instr)
      (k : XKind) (ea : Nat → Nat) (leaf : Nat → TlbEnt) (loc : Nat → Nat),
      let n := sizeBytes z
      let lanes := actLanes c (s.active c) s.ilane
      (k = .read ∧ i = .ld c .g z o sc d a off ∧ (∀ l, ea l = (effAddr (nth (s.bases a) 0 l) off n).toNat))
        ∨ (k = .write ∧ i = .st c .g z o sc d a off ∧ (∀ l, ea l = (effAddr (nth (s.bases a) 0 l) off n).toNat))
        ∨ (k = .rmw ∧ (i = .atom c .g z op o sc d a b ∨ i = .red c .g z op o sc a b)
          ∧ ∀ l, ea l = (nth (s.bases a) 0 l).toNat) →
      (∀ l ∈ lanes, s.g.inTrial l = false) → (∀ p ∈ s.g.pending, p.id ≠ s.nextId) → s.Issues i → s.Inside →
      s.Plain (some s.g.core) (s.cidOf s.cur) n k (lanes.map ea) leaf loc →
      (s.eventsOf i).map (fun e => e.bytes) = if s.active c = 0 then []
        else lanes.map (fun l => (List.range n).map (fun j => Loc.mem (loc (ea l) + j))))
  ∧ (∀ (s : State) (c : Ctl) (sp : Space) (z : Size) (op : AtomOp) (o : Ord) (sc : Scope) (d a b : Reg) (off : BitVec 11),
      (∀ k, k < 32 → s.g.inTrial k = true) → (∀ p ∈ s.g.pending, p.id ≠ s.nextId) → s.ilane < 32 →
      (∀ i ∈ [Instr.st c sp z o sc d a off, .ld c .s z o sc d a off, .atom c sp z op o sc d a b, .red c sp z op o sc a b,
        .fence c o sc], s.eventsOf i = [])
      ∧ ∀ e ∈ s.eventsOf (.ld c .g z o sc d a off), e.act = .read ∧ e.scope = .dev ∧ e.ord = .rlx)
  ∧ (∀ (s : State) (c : Ctl) (o : Ord) (a : SR) (b : Option SR) (y : Weir),
      let w := (s.readS a.val).toNat
      s.Issues (.warrive c o a b) → s.Inside → (∀ p ∈ s.g.pending, p.id ≠ s.nextId) →
      s.active c ≠ 0 → w % 16 = 0 → w + 16 ≤ s.spBytes (s.wgOf s.cur) →
      ((s.wgOf s.cur).weir w).arrive (lanesOf (s.active c)).length (bits (optReg s b).toNat 15 0) none = .ok y →
      ∃ e, s.eventsOf (.warrive c o a b) = [e]
        ∧ e.act = .arrive s.g.wid w ((s.wgOf s.cur).weir w).seqbase ∧ e.bytes = (weirSite s.g.wid w).bytes
        ∧ e.ord = relHalf o ∧ e.scope = .wg
        ∧ ∀ k, k < 32 → ((∃ p ∈ e.places, p.who = .thread s.g.wid s.cur k)
            ↔ bitOf (if c.u then s.iset else s.active c) k = true))
  ∧ ∀ (s : State) (i : Instr), ∀ e ∈ s.eventsOf i, e.scopeOk = true

/-- `ICINV` and `TLBINV` are privileged. From pages of a segment of system code they execute: every core drops its copies
of the context's 128-byte lines, or its translations of the context's pages, that share a byte with the range, or all of
them; under ICINV a word that a group of the context has fetched for issue is such a copy. Elsewhere they fault PRIVILEGED
with no effect (R69, R129, R355, R403). That just what the range names is dropped, and at the issue, is the model's choice
(log 33). -/
def Obligations.PrivilegedInvalidation : Prop := ∀ (s : State) (c : Ctl) (r : InvRange) (tlb : Bool),
  let i := if tlb then Instr.tlbinv c r else .icinv c r
  let hit (lo len : Nat) : Bool := match r with
    | .all => true
    | .range a b => decide ((s.readS a.val).toNat < lo + len ∧ lo < (s.readS a.val).toNat + (s.readS b.val).toNat
        ∧ 0 < (s.readS b.val).toNat)
  s.hasGroup s.cur = true → s.g.inTrial s.ilane = false → s.ilane < 32 → wellFormed i = true → vtop i ≤ s.g.valloc →
  (s.systemCode (s.cidOf s.cur) s.issuePc.toNat = true → s.Inside → s.active c ≠ 0 → s.mustWait i (s.active c) = false →
    ∃ t, exec i s = .next t ∧ t = { s with groups := t.groups, nextId := t.nextId, cores := t.cores }
      ∧ SameRegs s t ∧ Charged s t c ∧ Recorded s t i c .result
      ∧ (∀ gid, (t.grp gid).fetched = if tlb then (s.grp gid).fetched
          else (s.grp gid).fetched.filter (fun x => !(s.cidOf gid == s.cidOf s.cur && hit (x.1.toNat / 128 * 128) 128)))
      ∧ ∀ k, t.core k = if tlb
          then { s.core k with
            tlb := (s.core k).tlb.filter (fun e => !(e.ctx == s.cidOf s.cur && hit e.va e.size)) }
          else { s.core k with
            icache := (s.core k).icache.filter (fun e => !(e.ctx == s.cidOf s.cur && hit (e.va / 128 * 128) 128)) })
  ∧ (s.systemCode (s.cidOf s.cur) s.issuePc.toNat = false → s.Owned s.cur →
    ∃ t, exec i s = .next t ∧ SameRegs s t ∧ t.cores = s.cores ∧ t.mem = s.mem
      ∧ Faulted s t s.cur
          { code := Code.privileged, pc := s.issuePc, addr := 0, lanes := s.iset, detail := 0, word := wordOf i }
          (.word s.cur s.iset))

/-- `SPROBE` of a well-formed table in the scratchpad probes at most 64 slots from the hash on: the value of the first
slot that holds the key, unless an empty slot comes before it, else 0 with the predicate false (R397, R398). -/
def Obligations.StoreProbe : Prop := ∀ (s : State) (c : Ctl) (d : VR) (f : PR) (a : Reg) (b : SR),
  let i := Instr.sprobe c d f a b
  let t64 := (s.readS b.val).toNat
  let z := bits t64 31 27
  let base := bits t64 21 0
  let key (l : Nat) : Nat := (s.src false a l).toNat
  let h (l : Nat) : Nat := if z = 0 then 0 else key l * 0x9E3779B9 % 2 ^ 32 / 2 ^ (32 - z)
  let slot (l j : Nat) : Nat :=
    natLE ((List.range 8).map (fun k => (s.wgOf s.cur).padByte (base + 8 * ((h l + j) % 2 ^ z) + k)))
  let finds (l j : Nat) : Prop := j < min (2 ^ z) 64 ∧ slot l j % 2 ^ 32 = key l ∧ key l ≠ 0xFFFFFFFF
    ∧ ∀ k, k < j → slot l k % 2 ^ 32 ≠ key l ∧ slot l k % 2 ^ 32 ≠ 0xFFFFFFFF
  s.Issues i → s.Inside → base % 8 = 0 → bits t64 63 32 = 0 → bits t64 26 22 = 0 → z ≤ 19 →
  base + 8 * 2 ^ z ≤ s.spBytes (s.wgOf s.cur) → s.Owned s.cur →
  ∃ t, exec i s = .next t ∧ Frame s t ∧ Charged s t c ∧ Recorded s t i c .result
    ∧ (∀ l, bitOf (s.active c) l = true →
        (∀ j, finds l j → t.g.rawV d.val l = BitVec.ofNat 32 (slot l j / 2 ^ 32)
          ∧ (f.val ≠ 0 → bitOf (t.g.rawP f.val) l = true))
        ∧ ((∀ j, ¬finds l j) → t.g.rawV d.val l = 0 ∧ (f.val ≠ 0 → bitOf (t.g.rawP f.val) l = false)))
    ∧ ∀ k l, l < 32 → ¬((k = .v d.val ∨ k = .p f.val) ∧ bitOf (s.active c) l = true) → t.g.rawKey k l = s.g.rawKey k l

/-- `SWF` folds a value into the swatch and the check of every active lane: s rotated left by 7 xor x, c rotated left by
11 plus x (R274, R402). `SWC` commits the swatches of the lanes one after another to their buckets: each lane gets the
verdict of R276 on the bucket it finds. Where every access is plain and the buckets are distinct, that is the verdict on what
memory held, and the bucket holds afterwards what it held but for the way that the commit writes (R275, R276); every other
byte of memory stands. -/
def Obligations.Swatches : Prop := ∀ (s : State) (c : Ctl) (d e : VR) (a : Reg) (b : SR),
  (s.Issues (.swf c d a) → s.Inside → ∃ t, exec (.swf c d a) s = .next t ∧ Frame s t ∧ Charged s t c
    ∧ Recorded s t (.swf c d a) c .result
    ∧ (∀ l, bitOf (s.active c) l = true →
        let x : U32 := (s.src false a l).setWidth 32
        let new := (s.src true (.v d) l).rotateLeft 7 ^^^ x.setWidth 64
        t.g.rawV d.val l = new.setWidth 32 ∧ t.g.rawV (d.val + 1) l = (new >>> 32).setWidth 32
        ∧ t.g.rawV (d.val + 2) l = (s.readV (d.val + 2) l).rotateLeft 11 + x)
    ∧ ∀ k l, l < 32 → ¬((k = .v d.val ∨ k = .v (d.val + 1) ∨ k = .v (d.val + 2)) ∧ bitOf (s.active c) l = true) →
        t.g.rawKey k l = s.g.rawKey k l)
  ∧ (let i := Instr.swc c d e b
    let ops : Ops := { a := s.srcs true (.v e), b := laneList.map (fun l => (s.readV (e.val + 2) l).setWidth 64),
                       c := s.srcs true (.s b) }
    let lanes := lanesOf (s.active c)
    let q := State.turnOf (swcLane d s.cur ops s.nextId) lanes (s.begun i c ops)
    let table := (s.readS b.val).toNat
    let ea (l : Nat) : Nat := table + 64 * (((s.src true (.v e) l).toNat * 0x9E3779B97F4A7C15 % 2 ^ 64) / 2 ^ 44)
    let ways (l : Nat) : List Way := match (q l).accessG (some s.g.core) (s.cidOf s.cur) (ea l) 8 .rmw with
      | (p, .ok (.mem m)) => (List.range 4).map (wayOf (p.bytesAt m 64))
      | _ => []
    s.Issues i → s.Inside → table % 2 ^ 26 = 0 → table + 2 ^ 26 ≤ 2 ^ 54 →
    (∀ l ∈ lanes, ∃ p m, (q l).accessG (some s.g.core) (s.cidOf s.cur) (ea l) 8 .rmw = (p, .ok (.mem m))
      ∧ p.poisoned m 64 = false) →
    ∃ t, exec i s = .next t ∧ MemFrame s t i c ∧ SameOthers s t
      ∧ Holds t (.v d) false (s.active c) 0 (fun l =>
          wordN (swatchCommit (ways l) (s.src true (.v e) l).toNat (s.readV (e.val + 2) l).toNat).2)
      ∧ OnlyWrites s t (.v d) false (s.active c)
      ∧ ∀ loc, (∀ l ∈ lanes, ¬(q l).marks (s.cidOf s.cur) (ea l) loc
          ∧ ∀ m, (q l).dataAt s.cur (ea l) 8 .rmw = some m → ¬(m ≤ loc ∧ loc < m + 64)) → t.byteAt loc = s.byteAt loc)
  ∧ (∀ leaf loc, let i := Instr.swc c d e b
    let lanes := lanesOf (s.active c)
    let table := (s.readS b.val).toNat
    let ea (l : Nat) : Nat := table + 64 * (((s.src true (.v e) l).toNat * 0x9E3779B97F4A7C15 % 2 ^ 64) / 2 ^ 44)
    let ways (l : Nat) : List Way := (List.range 4).map (wayOf (s.bytesAt (loc (ea l)) 64))
    s.Issues i → s.Inside → table % 2 ^ 26 = 0 → table + 2 ^ 26 ≤ 2 ^ 54 →
    s.Plain (some s.g.core) (s.cidOf s.cur) 64 .rmw (lanes.map ea) leaf loc →
    ∃ t, exec i s = .next t ∧ MemFrame s t i c ∧ SameOthers s t ∧ OnlyWrites s t (.v d) false (s.active c)
      ∧ ((∀ k ∈ lanes, ∀ l ∈ lanes, k ≠ l → loc (ea k) + 64 ≤ loc (ea l) ∨ loc (ea l) + 64 ≤ loc (ea k)) →
        Holds t (.v d) false (s.active c) 0 (fun l =>
          wordN (swatchCommit (ways l) (s.src true (.v e) l).toNat (s.readV (e.val + 2) l).toNat).2)
        ∧ ∀ l ∈ lanes, ∀ j, j < 64 → t.byteAt (loc (ea l) + j) =
            match (swatchCommit (ways l) (s.src true (.v e) l).toNat (s.readV (e.val + 2) l).toNat).1 with
            | some (k, w) =>
              if 16 * k ≤ j ∧ j < 16 * k + 16 then nth (wayBytes w) 0 (j - 16 * k) else s.byteAt (loc (ea l) + j)
            | none => s.byteAt (loc (ea l) + j))
      ∧ ∀ x, (∀ l ∈ lanes, ¬(loc (ea l) ≤ x ∧ x < loc (ea l) + 64)) → t.byteAt x = s.byteAt x)

/-! ## Weirs -/

/-- An arrival at a weir: a reserved bit, or no expected count from either side, is BAD_WEIR; an expected count that
differs while a phase collects is WEIR_MISMATCH; one arrival too many is WEIR_OVERFLOW. Else the count rises, an error is
kept if it is the first, and the arrival that fills the phase flips it, clears the count and advances seqbase (R159,
R160). -/
def Obligations.WeirArrival : Prop := ∀ (x : Weir) (n e : Nat) (err : Option (Nat × Nat)),
  let want := if e ≠ 0 then e else x.expected
  ((x.resv = true ∨ (x.expected = 0 ∧ e = 0)) → x.arrive n e err = .error Code.badWeir)
  ∧ (x.resv = false → ¬(x.expected = 0 ∧ e = 0) →
    ((e ≠ 0 ∧ x.count ≠ 0 ∧ x.expected ≠ e) → x.arrive n e err = .error Code.weirMismatch)
    ∧ (¬(e ≠ 0 ∧ x.count ≠ 0 ∧ x.expected ≠ e) → (want < x.count + n → x.arrive n e err = .error Code.weirOverflow)
      ∧ (x.count + n ≤ want → ∃ y, x.arrive n e err = .ok y ∧ y.expected = want ∧ y.window = x.window ∧ y.resv = false
        ∧ (if x.count + n = want then y.phase = !x.phase ∧ y.count = 0 ∧ y.seqbase = (x.seqbase + 1) % 2 ^ 32
          else y.phase = x.phase ∧ y.count = x.count + n ∧ y.seqbase = x.seqbase)
        ∧ match err with
          | none => y.err = x.err ∧ y.code = x.code ∧ y.detail = x.detail
          | some (k, d) => y.err = true ∧ (x.err = true → y.code = x.code ∧ y.detail = x.detail)
              ∧ (x.err = false → y.code = k ∧ y.detail = d))))

/-- `WINIT` writes a fresh weir from its operand; `WARRIVE` makes an arrival of as many as there are active threads.
Registers, memory and every other byte of the scratchpad stand (R158 to R160, R412, R414). -/
def Obligations.WeirSetAndArrive : Prop := ∀ (s : State) (c : Ctl) (o : Ord) (a : SR) (b : Option SR),
  let w := (s.readS a.val).toNat
  let x := (optReg s b).toNat
  s.Inside → s.Owned s.cur → s.active c ≠ 0 → w % 16 = 0 → w + 16 ≤ s.spBytes (s.wgOf s.cur) →
  (s.Issues (.winit c o a b) → bits x 31 24 = 0 → ∃ t, exec (.winit c o a b) s = .next t ∧ UnitFrame s t c
    ∧ Recorded s t (.winit c o a b) c .result ∧ SameRegs s t ∧ t.mem = s.mem ∧ SamePad s t s.cur w 16
    ∧ (t.wgOf s.cur).weir w = { expected := bits x 15 0, count := 0, window := bits x 23 16, phase := false, err := false,
                                code := 0, seqbase := bits x 63 32, detail := 0, resv := false })
  ∧ (s.Issues (.warrive c o a b) → ∀ y,
    ((s.wgOf s.cur).weir w).arrive (lanesOf (s.active c)).length (bits x 15 0) none = .ok y →
    ∃ t, exec (.warrive c o a b) s = .next t ∧ UnitFrame s t c ∧ Recorded s t (.warrive c o a b) c .result
      ∧ SameRegs s t ∧ t.mem = s.mem ∧ SamePad s t s.cur w 16 ∧ (t.wgOf s.cur).weir w = y)

/-- The waits: `WSYNC` arrives and waits for the phase it arrived in, `WWAIT` for the parity of its operand, `WWAITSEQ`
for that of a use of a ring. A wait whose phase has completed returns at once with the weir's error and report, one whose
phase has not stands recorded and writes nothing; `WTEST` reports and never waits (R161, R167, R413, R415).
The return of a recorded weir wait whose phase has completed: its results are written where no younger instruction has
written the register since, its record goes and its flag is discharged (R51, R53, R161, R413).
`WAITSTAMP` polls the words of its lanes: a lane whose word, in its low 48 bits, has reached the operand gets the
word and is done; while others remain the issue stands recorded as a stamp wait, their lanes' registers as they were. The
return of a recorded stamp wait: the lanes whose words suffice now get them where no younger instruction has written the
register since, and when none remains the record goes and the flag is discharged (R53, R409, R410). That a wait whose
condition holds already returns within its issue is the model's choice (log 36). -/
def Obligations.Waits : Prop :=
  ((∀ (s : State) (c : Ctl) (o : Ord) (d : Reg) (pe : PR) (a : SR) (b : Option SR),
  let w := (s.readS a.val).toNat
  let x := (optReg s b).toNat
  let sp := s.spBytes (s.wgOf s.cur)
  let done (t : State) (v : Weir) : Prop :=
    Holds t d false (s.active c) s.ilane (fun _ => wordN (v.code * 2 ^ 24 + v.detail % 2 ^ 24))
  let waits (i : Instr) (t : State) (at' : Nat) (par : Bool) : Prop :=
    let v := (t.wgOf s.cur).weir at'
    if v.phase = par then Recorded s t i c (.weir at' par d pe) ∧ SameRegs s t
    else Recorded s t i c .result ∧ done t v ∧ HoldsPred t pe.val (s.active c) (fun _ => v.err)
      ∧ ∀ k l, l < 32 → touches d false (s.active c) k l = false → ¬(k = .p pe.val ∧ bitOf (s.active c) l = true) →
        t.g.rawKey k l = s.g.rawKey k l
  s.Inside → s.Owned s.cur → s.active c ≠ 0 →
  (s.Issues (.wsync c o d pe a b) → w % 16 = 0 → w + 16 ≤ sp → ∀ y,
    ((s.wgOf s.cur).weir w).arrive (lanesOf (s.active c)).length (bits x 15 0) none = .ok y →
    ∃ t, exec (.wsync c o d pe a b) s = .next t ∧ UnitFrame s t c ∧ t.mem = s.mem ∧ SamePad s t s.cur w 16
      ∧ (t.wgOf s.cur).weir w = y ∧ waits (.wsync c o d pe a b) t w ((s.wgOf s.cur).weir w).phase)
  ∧ (s.Issues (.wwait c o d pe a b) → w % 16 = 0 → w + 16 ≤ sp →
    ∃ t, exec (.wwait c o d pe a b) s = .next t ∧ UnitFrame s t c ∧ t.mem = s.mem ∧ t.wgs = s.wgs
      ∧ waits (.wwait c o d pe a b) t w (x % 2 == 1))
  ∧ (s.Issues (.wwaitseq c o d pe a b) → ∀ r, (s.wgOf s.cur).ring sp w = some r →
    ∃ t, exec (.wwaitseq c o d pe a b) s = .next t ∧ UnitFrame s t c ∧ t.mem = s.mem ∧ t.wgs = s.wgs
      ∧ waits (.wwaitseq c o d pe a b) t (w + 16 + 16 * (bits x 31 0 % r.depth)) (bits x 31 0 / r.depth % 2 == 1))
  ∧ (s.Issues (.wtest c o d pe a b) → w % 16 = 0 → w + 16 ≤ sp →
    ∃ t, exec (.wtest c o d pe a b) s = .next t ∧ UnitFrame s t c ∧ t.mem = s.mem ∧ t.wgs = s.wgs
      ∧ Recorded s t (.wtest c o d pe a b) c .result ∧ done t ((s.wgOf s.cur).weir w)
      ∧ HoldsPred t pe.val (s.active c) (fun _ => ((s.wgOf s.cur).weir w).phase != (x % 2 == 1))
      ∧ ∀ k l, l < 32 → touches d false (s.active c) k l = false → ¬(k = .p pe.val ∧ bitOf (s.active c) l = true) →
        t.g.rawKey k l = s.g.rawKey k l))
  ∧ (∀ (s : State) (id w : Nat) (par : Bool) (d : Reg) (pe : PR) (p : Pend),
  let v := (s.wgOf s.cur).weir w
  s.hasGroup s.cur = true → s.g.pend? id = some p → p.kind = .weir w par d pe → v.phase ≠ par →
  (s.wgOf s.cur).onCore = true →
  ∃ t, exec (.weirWaitReturn s.cur id) s = .next t ∧ t.cur = s.cur ∧ t.mem = s.mem ∧ t.wgs = s.wgs ∧ t.g.pend? id = none
    ∧ Holds t d false (s.g.owes id d p.lanes) 0 (fun _ => wordN (v.code * 2 ^ 24 + v.detail % 2 ^ 24))
    ∧ HoldsPred t pe.val (p.lanes &&& ~~~(s.g.deadIn (.on id) (.p pe.val))) (fun _ => v.err)
    ∧ (∀ k l, l < 32 → touches d false (s.g.owes id d p.lanes) k l = false →
        ¬(k = .p pe.val ∧ bitOf (p.lanes &&& ~~~(s.g.deadIn (.on id) (.p pe.val))) l = true) → t.g.rawKey k l = s.g.rawKey k l)
    ∧ ∀ n, t.g.flagOf n = s.g.flagOf n - (if p.flag = some n then 1 else 0)))
  ∧ (∀ (s : State) (c : Ctl) (o : Ord) (sc : Scope) (d a : Reg) (b : SR),
  let i := Instr.waitstamp c o sc d a b
  let ops : Ops := { a := s.bases a, b := s.srcs true (.s b), c := [] }
  let m := s.active c
  let r := (s.begun i c ops).stampLanes s.cur s.nextId c.u d ops (actLanes c m (lowLane m)) 0 []
  (s.Issues i → s.Inside → m ≠ 0 → r.2.2 = [] → ∃ t, exec i s = .next t ∧ UnitFrame s t c ∧ t.mem = r.1.mem
    ∧ (if c.u = false then
        (Recorded s t i c (if m &&& ~~~r.2.1 = 0 then .result else .stampWait false d) ∧ OnlyWrites s t d true r.2.1)
      else ∀ q x, (s.begun i c ops).stampLane s.cur ops (lowLane m) = (q, .ok x) → match x with
        | some v => Recorded s t i c .result ∧ Holds t d true m 0 (fun _ => wordN v)
        | none => Recorded s t i c (.stampWait true d) ∧ SameRegs s t))
  ∧ ∀ id p q v, s.hasGroup s.cur = true → s.g.pend? id = some p → p.kind = .stampWait true d → p.instr = i → c.u = true →
    wellFormed i = true → p.lanes &&& ~~~p.done ≠ 0 → (s.wgOf s.cur).issues = true →
    s.stampLane s.cur p.ops (lowLane (p.lanes &&& ~~~p.done)) = (q, .ok (some v)) →
    ∃ t, exec (.waitstampReturn s.cur id) s = .next t ∧ t.mem = q.mem ∧ t.g.pend? id = none
      ∧ Holds t d true (s.g.owes id d p.lanes) 0 (fun _ => wordN v)
      ∧ ∀ n, t.g.flagOf n = s.g.flagOf n - (if p.flag = some n then 1 else 0))
  ∧ (∀ (s : State) (c : Ctl) (o : Ord) (sc : Scope) (d a : Reg) (b : SR) (leaf : Nat → TlbEnt) (loc : Nat → Nat),
  let i := Instr.waitstamp c o sc d a b
  let m := s.active c
  let lanes := actLanes c m (lowLane m)
  let ea (l : Nat) : Nat := (nth (s.bases a) 0 l).toNat
  let value (l : Nat) : Nat := natLE (s.bytesAt (loc (ea l)) 8)
  let suffices_ (l : Nat) : Bool := decide (bits (s.readS b.val).toNat 47 0 ≤ value l % 2 ^ 48)
  let ready : LaneMask := if c.u then (if suffices_ (lowLane m) then m else 0) else filterLanes m suffices_
  s.Issues i → s.Inside → m ≠ 0 → s.Plain (some s.g.core) (s.cidOf s.cur) 8 .read (lanes.map ea) leaf loc →
  ∃ t, exec i s = .next t ∧ UnitFrame s t c ∧ SameMemory s t
    ∧ Recorded s t i c (if ready = m then .result else .stampWait c.u d)
    ∧ (∃ p ∈ t.g.pending, p.id = s.nextId ∧ p.lanes = m ∧ p.done = ready)
    ∧ Holds t d true ready (lowLane m) (fun l => wordN (value l)) ∧ OnlyWrites s t d true ready)
  ∧ (∀ (s : State) (c : Ctl) (o : Ord) (sc : Scope) (d a : Reg) (b : SR) (id : Nat) (p : Pend) (leaf : Nat → TlbEnt)
    (loc : Nat → Nat),
  let i := Instr.waitstamp c o sc d a b
  let todo := p.lanes &&& ~~~p.done
  let ea (l : Nat) : Nat := (p.ops.la l).toNat
  let value (l : Nat) : Nat := natLE (s.bytesAt (loc (ea l)) 8)
  let ready := filterLanes todo (fun l => decide (bits (p.ops.lb l).toNat 47 0 ≤ value l % 2 ^ 48))
  s.hasGroup s.cur = true → s.g.pend? id = some p → p.kind = .stampWait false d → p.instr = i → c.u = false →
  wellFormed i = true → todo ≠ 0 → (s.wgOf s.cur).issues = true →
  s.Plain (some s.g.core) (s.cidOf s.cur) 8 .read ((lanesOf todo).map ea) leaf loc →
  ∃ t, exec (.waitstampReturn s.cur id) s = .next t ∧ SameMemory s t ∧ OnlyWrites s t d true ready
    ∧ (∀ n, d = .v n →
      (∀ l, bitOf ready l = true → bitOf (s.g.deadIn (.on id) (.v n.val)) l = false →
        t.g.rawV n.val l = (wordN (value l)).setWidth 32)
      ∧ ∀ l, bitOf ready l = true → bitOf (s.g.deadIn (.on id) (.v (n.val + 1))) l = false →
        t.g.rawV (n.val + 1) l = (wordN (value l) >>> 32).setWidth 32)
    ∧ (ready = todo → t.g.pend? id = none ∧ ∀ n, t.g.flagOf n = s.g.flagOf n - (if p.flag = some n then 1 else 0))
    ∧ (ready ≠ todo → (∀ n, t.g.flagOf n = s.g.flagOf n)
      ∧ ∃ q, t.g.pend? id = some q ∧ q.kind = .stampWait false d ∧ q.done = p.done ||| ready))

/-! ## Copies -/

/-- `BCOPY` of spans in the space supplies the group's slice to the workgroup's next copy, `BSEAL` of a batch number that
rises records its seal, with memory and registers as they were (R168, R169, R321, R330). In a workgroup of one group with
no seal open the batch closes at once with the copies issued before it: the group's copies supplied before the seal that
belong to no batch are the batch's, every other copy keeps its own. An error met since the last close goes to it (log 37,
DEDUCED).
`BWAIT` holds its active threads until every copy of its batch and of earlier ones is done: at once they go on, else
they are held and the issue is recorded; the release frees them together and discharges the flag (R331). -/
def Obligations.CopyForms : Prop :=
  (∀ (s : State) (c : Ctl) (srcS dstS : Bool) (d a b : SR),
  let n := (low32 (s.readS b.val)).toNat
  let x : Slice := { grpid := s.g.grpid, src := (s.readS d.val).toNat, dst := (s.readS a.val).toNat, len := n,
                     srcS := srcS, dstS := dstS }
  s.Inside → s.Owned s.cur → s.active c ≠ 0 →
  (s.Issues (.bcopy c srcS dstS d a b) →
    s.spanFault s.cur srcS (s.readS d.val) n = none → s.spanFault s.cur dstS (s.readS a.val) n = none →
    ∃ t, exec (.bcopy c srcS dstS d a b) s = .next t ∧ UnitFrame s t c ∧ t.mem = s.mem ∧ SameRegs s t
      ∧ Recorded s t (.bcopy c srcS dstS d a b) c .result ∧ t.g.nCopy = s.g.nCopy + 1
      ∧ ∃ k ∈ (t.wgOf s.cur).copies, k.index = s.g.nCopy ∧ x ∈ k.slices)
  ∧ (s.Issues (.bseal c d a) → let k := (s.readS d.val).toNat
    1 ≤ k → k < 2 ^ 48 → s.g.lastSeal < k → (s.readS a.val).toNat % 8 = 0 → (s.readS a.val).toNat < 2 ^ 54 →
    ∃ t, exec (.bseal c d a) s = .next t ∧ UnitFrame s t c ∧ t.mem = s.mem ∧ SameRegs s t
      ∧ Recorded s t (.bseal c d a) c .result ∧ t.g.nSeal = s.g.nSeal + 1 ∧ t.g.lastSeal = k
      ∧ ((s.wgOf s.cur).ngroups = 1 → s.g.grpid = 0 → (s.wgOf s.cur).seals = [] → (s.wgOf s.cur).retiredGroups = [] →
        (t.wgOf s.cur).closed = max (s.wgOf s.cur).closed k
        ∧ (t.wgOf s.cur).copies = (s.wgOf s.cur).copies.map (fun x =>
            let goes := x.started || (decide (x.index < s.g.nCopy) && x.slices.any (fun y => y.grpid == 0))
            { x with started := goes, batch := if goes ∧ x.batch = 0 then k else x.batch })
        ∧ (t.wgOf s.cur).batches = (s.wgOf s.cur).batches
            ++ [{ n := k, stamp := (s.readS a.val).toNat, err := (s.wgOf s.cur).openErr, heldRec := 0, dropped := false }])))
  ∧ (∀ (s : State) (c : Ctl) (a : SR),
  let n := (s.readS a.val).toNat
  let w := s.wgOf s.cur
  let ready : Prop := n = 0 ∨ (n ≤ w.closed ∧ ∀ k ∈ w.copies, k.batch = 0 ∨ n < k.batch)
  (s.Issues (.bwait c a) → s.Inside → s.active c ≠ 0 → (∀ p ∈ s.g.pending, p.id ≠ s.nextId) →
    ∃ t, exec (.bwait c a) s = .next t ∧ SameRegs s t ∧ t.mem = s.mem ∧ t.wgs = s.wgs
      ∧ (ready → (∀ k, t.g.flagOf k = s.g.flagOf k) ∧ ∀ l, l < s.g.threads.length →
          (t.g.th l).pc = if bitOf s.iset l then (s.g.th l).pc + 8 else (s.g.th l).pc)
      ∧ (¬ready → Charged s t c ∧ Recorded s t (.bwait c a) c (.bwait n) ∧ ∀ l, l < s.g.threads.length → t.g.th l =
          if bitOf (s.active c) l then { s.g.th l with held := .bwait s.nextId }
          else if bitOf s.iset l then { s.g.th l with pc := (s.g.th l).pc + 8 } else s.g.th l))
  ∧ ∀ id p, s.g.pend? id = some p → p.kind = .bwait n → p.done = 0 → ready → w.onCore = true → s.hasGroup s.cur = true →
    (∀ l, bitOf p.lanes l = true → (s.g.th l).entering = none
      ∧ (s.g.th l).pc + 8 ≠ (s.g.th l).hdr + wordN (((s.g.th l).len + 1) * 8)) →
    ∃ t, exec (.bwaitRelease s.cur id) s = .next t ∧ t.mem = s.mem ∧ SameRegs s t ∧ t.g.pend? id = none
      ∧ (∀ k, t.g.flagOf k = s.g.flagOf k - (if p.flag = some k then 1 else 0))
      ∧ ∀ l, l < s.g.threads.length → t.g.th l =
          if bitOf p.lanes l then { s.g.th l with held := .no, pc := (s.g.th l).pc + 8 } else s.g.th l)

/-- The copy engine: a copy whose slices are all there starts; a piece of a running copy within the scratchpad moves its
bytes, in ascending order up to a 4 KiB boundary of the destination, and nothing else, and leaves what is still to be copied
as it was even where source and destination overlap; a slice whose destination overlaps its source from above is one piece
(log 37, DEDUCED). The stamp of the first batch without copies is written as its number with its first error above, and the
batch is gone (R168 to R170, R320, R321). -/
def Obligations.CopyEngine : Prop := ∀ (s : State) (wid : Nat), (findK s.wgs wid).isSome = true →
  let w := s.wg wid
  (∀ k, w.nextStart = some k → ∃ t, exec (.copyStart wid) s = .next t ∧ t = { s with wgs := t.wgs }
    ∧ (t.wg wid).copies = w.copies.map (fun x => if x.index = k.index then { x with started := true } else x))
  ∧ (∀ k x rest, w.runningCopy = some k → k.slices = x :: rest → x.srcS = true → x.dstS = true → k.done < x.len →
      x.src + x.len ≤ s.spBytes w → x.dst + x.len ≤ s.spBytes w →
      let left := x.len - k.done
      let whole : Prop := x.src < x.dst ∧ x.dst < x.src + x.len
      ∀ n, (whole → n = left) → (¬whole → n = min left (4096 - (x.dst + k.done) % 4096)) →
      ∃ t, exec (.copyTransfer wid) s = .next t ∧ t = { s with wgs := t.wgs } ∧ 0 < n
        ∧ (∀ j, j < n → (t.wg wid).padByte (x.dst + k.done + j) = w.padByte (x.src + k.done + j))
        ∧ (∀ a, ¬(x.dst + k.done ≤ a ∧ a < x.dst + k.done + n) → (t.wg wid).padByte a = w.padByte a)
        ∧ ∀ j, j < left - n → (t.wg wid).padByte (x.src + k.done + n + j) = w.padByte (x.src + k.done + n + j))
  ∧ ∀ b, w.stampDue = some b → let bytes := bytesLE 8 (b.err * 2 ^ 56 + b.n)
    (∀ q, s.storeG (some w.home) w.ctx b.stamp bytes = (q, .ok ()) →
      ∃ t, exec (.batchStampWrite wid) s = .next t ∧ t.mem = q.mem ∧ t.groups = s.groups
        ∧ (t.wg wid).batches = w.batches.filter (fun x => x.n != b.n))
    ∧ ∀ leaf loc, s.Plain (some w.home) w.ctx 8 .write [b.stamp] leaf loc →
      ∃ t, exec (.batchStampWrite wid) s = .next t ∧ t.bytesAt (loc b.stamp) 8 = bytes ∧ t.groups = s.groups
        ∧ (∀ x, ¬(loc b.stamp ≤ x ∧ x < loc b.stamp + 8) → t.byteAt x = s.byteAt x)
        ∧ (t.wg wid).batches = w.batches.filter (fun x => x.n != b.n)

/-! ## Rill programs -/

/-- `RLAUNCH` of an aligned list that the group can read answers 0 and starts a program on the lowest free engine of the
list's stack, or queues it, where the workgroup has no program with that list, has fewer than 16 records or one that has
ended, and the stack's queue has room; the oldest record that has ended gives way. A list with a live program answers 2
(R171, R384, R385). A list in a page that needs no marking is read with memory as it is.
`RSTOP` answers 1 without a record, 2 for one that has ended, else 0 with the program stopped and held;
`RSTOP.resume` answers 3 unless it is stopped and held, and frees it; `RSTAT` reads a word of the context, 0 without a
record (R173, R387 to R389). -/
def Obligations.ProgramForms : Prop :=
  (∀ (s q : State) (c : Ctl) (d a : SR) (e : TlbEnt) (m : Nat),
  let i := Instr.rlaunch c d a
  let list := s.readS a.val
  let wid := s.g.wid
  let mine := s.progs.filter (fun p => p.2.wid == wid)
  let kept := match s.oldestEnded wid with | some k => delK s.progs k | none => s.progs
  let launched (e : TlbEnt) (t : State) : Prop := UnitFrame s t c ∧ Recorded s t i c .result
    ∧ Holds t (.s d) true (s.active c) 0 (fun _ => 0) ∧ OnlyWrites s t (.s d) true (s.active c)
    ∧ (t.prog (s.nextId + 1)).list = list ∧ (t.prog (s.nextId + 1)).wid = wid ∧ (t.prog (s.nextId + 1)).index = 0
    ∧ (t.prog (s.nextId + 1)).stack = stackOf e list.toNat ∧ (∀ k, s.oldestEnded wid = some k → findK t.progs k = none)
    ∧ match ({ s with progs := kept } : State).freeEngine (stackOf e list.toNat) with
      | some k => (t.prog (s.nextId + 1)).engine = some k ∧ (t.prog (s.nextId + 1)).state = .running
      | none => (t.prog (s.nextId + 1)).queued = true
  let room (e : TlbEnt) : Prop := (∀ p ∈ mine, p.2.list ≠ list) ∧ (mine.length < 16 ∨ (s.oldestEnded wid).isSome = true)
    ∧ (s.queueOf (stackOf e list.toNat)).length < 64
  let turned (t : State) : Prop := UnitFrame s t c ∧ Recorded s t i c .result ∧ t.progs = s.progs
    ∧ Holds t (.s d) true (s.active c) 0 (fun _ => 2) ∧ OnlyWrites s t (.s d) true (s.active c)
  let live : Prop := ∃ p, s.progOf wid list = some p ∧ p.2.ended = false ∧ p.2.state ≠ .stopped
  s.Issues i → s.Inside → s.active c ≠ 0 → list.toNat % 32 = 0 → list.toNat < 2 ^ 54 →
  (∀ p ∈ s.progs, p.1 ≤ s.nextId) → (∀ leaf loc, s.Plain (some s.g.core) (s.cidOf s.cur) 8 .read [list.toNat] leaf loc →
    (room (leaf list.toNat) → ∃ t, exec i s = .next t ∧ launched (leaf list.toNat) t ∧ SameMemory s t)
    ∧ (live → ∃ t, exec i s = .next t ∧ turned t ∧ SameMemory s t))
  ∧ ((s.begun i c { a := [list], b := [], c := [] }).translate (some s.g.core) (s.cidOf s.cur) list.toNat .read = (q, .ok e) →
    s.target (e.pa list.toNat) = some (.mem m) →
    (room e → ∃ t, exec i s = .next t ∧ launched e t ∧ t.mem = q.mem)
    ∧ (live → ∃ t, exec i s = .next t ∧ turned t)))
  ∧ (∀ (s : State) (c : Ctl) (d a : SR) (w : BitVec 3),
  let p := s.progOf s.g.wid (s.readS a.val)
  let answer (i : Instr) (t : State) (v : Word) : Prop := UnitFrame s t c ∧ Recorded s t i c .result ∧ t.mem = s.mem
    ∧ t.wgs = s.wgs ∧ Holds t (.s d) true (s.active c) 0 (fun _ => v) ∧ OnlyWrites s t (.s d) true (s.active c)
  s.Inside → s.active c ≠ 0 →
  (s.Issues (.rstop c d a) → ∃ t, exec (.rstop c d a) s = .next t ∧ match p with
    | none => answer (.rstop c d a) t 1 ∧ t.progs = s.progs
    | some (pid, r) => if r.ended = true then answer (.rstop c d a) t 2 ∧ t.progs = s.progs
      else answer (.rstop c d a) t 0 ∧ (r.state ≠ .idle → s.prog pid = r →
        (t.prog pid).state = .stopped ∧ (t.prog pid).hold = true ∧ (t.prog pid).done = r.done))
  ∧ (s.Issues (.rstopResume c d a) → ∃ t, exec (.rstopResume c d a) s = .next t ∧ match p with
    | none => answer (.rstopResume c d a) t 1 ∧ t.progs = s.progs
    | some (pid, r) => if r.ended = true then answer (.rstopResume c d a) t 2 ∧ t.progs = s.progs
      else if r.state = .stopped ∧ r.hold = true then
        answer (.rstopResume c d a) t 0 ∧ (s.prog pid = r → (t.prog pid).hold = false)
      else answer (.rstopResume c d a) t 3 ∧ t.progs = s.progs)
  ∧ (s.Issues (.rstat c d a w) → ∃ t, exec (.rstat c d a w) s = .next t ∧ t.progs = s.progs
    ∧ answer (.rstat c d a w) t (match p with
      | none => 0
      | some (_, r) => wordN (natLE (((r.bytes (s.region r.rid).regno).drop (8 * w.toNat)).take 8)))))

/-- A program that stops gives its engine up, and its place in a queue, and keeps its cursor; one that nothing holds goes on
as it was when its owner is resident, from PAGE with a new walk, one that leaves a queue among them; the first of a queue
takes the lowest free engine of its stack, but for a program of a halted context (R171, R191, R253, R388). -/
def Obligations.EngineEvents : Prop := ∀ (s : State) (pid : Nat), (findK s.progs pid).isSome = true →
  let p := s.prog pid
  (∀ hd : Bool, p.state = .running ∨ p.state = .waiting ∨ p.state = .page →
    ∃ t, exec (.engineStop pid hd) s = .next t ∧ t = { s with progs := t.progs }
      ∧ t.prog pid = { p with state := .stopped, hold := hd, engine := none, prior := p.state,
                              rewalk := p.engine.isNone && (p.rewalk || p.prior == .page) })
  ∧ (p.state = .stopped → p.hold = false → (s.wg p.wid).issues = true →
    ∃ t, exec (.engineResume pid) s = .next t ∧ t.mem = s.mem ∧ (t.prog pid).index = p.index ∧ (t.prog pid).done = p.done
      ∧ match s.freeEngine p.stack with
        | some e => (t.prog pid).engine = some e
            ∧ (t.prog pid).state = (if p.prior = .waiting ∨ p.prior = .page then p.prior else .running)
            ∧ (t.prog pid).rewalk = (p.prior == .page || p.rewalk)
        | none => (t.prog pid).queued = true)
  ∧ (∀ stack e, s.freeEngine stack = some e → s.nextQueued stack = some pid → p.stack = stack →
    ∃ t, exec (.rillDequeue stack) s = .next t ∧ t = { s with progs := t.progs } ∧ (t.prog pid).engine = some e
      ∧ (t.prog pid).engineNo = 16 * stack + e)
  ∧ ∀ stack, (s.ctx p.ctx).halted = true → (∀ q ∈ s.progs, q.1 = pid → q.2 = p) →
    ∃ t, exec (.rillDequeue stack) s = .next t ∧ t.prog pid = p

namespace Sys2Proof.Machine

/-- The running program goes on with command `k`, an index of 32 bits (R173; that it wraps: log 41), its cursor at the start
(R176); every other program and the groups stand. -/
def GoesOn (s t : State) (k : Nat) : Prop :=
  t.groups = s.groups ∧ (t.prog s.eng).index = k % 2 ^ 32
    ∧ (t.prog s.eng).state = .running ∧ (t.prog s.eng).done = 0 ∧ (t.prog s.eng).owed = none
    ∧ ∀ pid, pid ≠ s.eng → findK t.progs pid = findK s.progs pid

/-- The owner of the running program is resident (R191). -/
def State.Engine (s : State) : Prop :=
  (findK s.progs s.eng).isSome = true ∧ (findK s.wgs (s.prog s.eng).wid).isSome = true
    ∧ (s.wg (s.prog s.eng).wid).issues = true

end Sys2Proof.Machine

/-- `LOOP` holds its level in q0 [9:8], its target in q1 [31:0], below its own index, and its count, at least 1, in
q1 [63:32]; it counts at its level and goes back to its target until the count is reached, then clears the level and goes
on. A target that is not below stops the engine with BAD_COMMAND. `JUMP` holds its target in q1 [31:0] and goes to it.
Where the list does not reach, the fetch of the command faults: ACCESS (R183, R176). -/
def Obligations.LoopAndJump : Prop :=
  (∀ (lv : BitVec 2) (target count : BitVec 32),
    decodeCmd (BitVec.ofNat 256 (0x08 + lv.toNat * 2 ^ 8 + target.toNat * 2 ^ 64 + count.toNat * 2 ^ 96))
      = (if count = 0 then .rillBadCommand (BitVec.ofNat 256 (0x08 + lv.toNat * 2 ^ 8 + target.toNat * 2 ^ 64)) else .loop lv target count)
    ∧ decodeCmd (BitVec.ofNat 256 (0x09 + target.toNat * 2 ^ 64)) = .jump target)
  ∧ ∀ (s : State) (lv : BitVec 2) (target count : BitVec 32),
  (findK s.progs s.eng).isSome = true → let p := s.prog s.eng
  let n := nth p.loop 0 lv.toNat
  (target.toNat < p.index → ∃ t, exec (.loop lv target count) s = .next t ∧ t = { s with progs := t.progs }
    ∧ if n + 1 < count.toNat
      then GoesOn s t target.toNat ∧ (t.prog s.eng).loop = p.loop.set lv.toNat (n + 1)
      else GoesOn s t (p.index + 1) ∧ (t.prog s.eng).loop = p.loop.set lv.toNat 0)
  ∧ (p.index ≤ target.toNat → ∃ t, exec (.loop lv target count) s = .next t ∧ (t.prog s.eng).state = .error
    ∧ (t.prog s.eng).err = 0x0A)
  ∧ (∃ t, exec (.jump target) s = .next t ∧ t = { s with progs := t.progs } ∧ GoesOn s t target.toNat
    ∧ (t.prog s.eng).loop = p.loop)
  ∧ ∀ (q : State) (c : Nat), p.owed = none → s.accessG none p.ctx (p.list.toNat + 32 * p.index) 1 .read = (q, .error c) →
    c ≠ Code.notPresent → c ≠ Code.memUncorrectable → ∃ u, s.fetchCmd s.eng = (u, .idle) ∧ (u.prog s.eng).state = .error
      ∧ (u.prog s.eng).err = 0x08

/-- The commands of synchronisation where their weir or word is there: `ARRIVE` and an `END` with an arrival count at the
weir, `END` frees the engine, `WAITW` and `WAITS` go on once their condition holds and wait before, `STAMP` writes its
value, `FENCE` goes on; a command that is none stops its engine in ERROR with BAD_COMMAND (R176, R182, R183). -/
def Obligations.RillSynchronisation : Prop := ∀ (s : State) (n : BitVec 16) (weir : BitVec 22) (par : Bool)
    (addr : BitVec 54) (val : Word) (raw : BitVec 256), s.Engine →
  let p := s.prog s.eng
  let w := s.wg p.wid
  let ended (t : State) : Prop := (t.prog s.eng).state = .done ∧ (t.prog s.eng).engine = none
  (weir.toNat + 16 ≤ s.spBytes w → ∀ y, (w.weir weir.toNat).arrive n.toNat 0 none = .ok y →
    (∃ t, exec (.arrive n weir) s = .next t ∧ GoesOn s t (p.index + 1) ∧ t.mem = s.mem ∧ (t.wg p.wid).weir weir.toNat = y)
    ∧ ∃ t, exec (.rillEnd true n weir) s = .next t ∧ ended t ∧ t.mem = s.mem ∧ (t.wg p.wid).weir weir.toNat = y)
  ∧ (∃ t, exec (.rillEnd false n weir) s = .next t ∧ ended t ∧ t = { s with progs := t.progs })
  ∧ (weir.toNat + 16 ≤ s.spBytes w → ∃ t, exec (.waitw par weir) s = .next t ∧ t = { s with progs := t.progs }
    ∧ if (w.weir weir.toNat).phase = par then t.prog s.eng = { p with state := .waiting } else GoesOn s t (p.index + 1))
  ∧ (∀ q x, s.loadG none p.ctx addr.toNat 8 = (q, .ok x) → ∃ t, exec (.waits addr val) s = .next t
    ∧ t.mem = q.mem ∧ if val.toNat ≤ x then GoesOn s t (p.index + 1) else t.prog s.eng = { p with state := .waiting })
  ∧ (∀ leaf loc, s.Plain none p.ctx 8 .read [addr.toNat] leaf loc → ∃ t, exec (.waits addr val) s = .next t
    ∧ SameMemory s t ∧ if val.toNat ≤ natLE (s.bytesAt (loc addr.toNat) 8) then GoesOn s t (p.index + 1)
      else t.prog s.eng = { p with state := .waiting })
  ∧ (∀ q, s.storeG none p.ctx addr.toNat (bytesLE 8 val.toNat) = (q, .ok ()) →
    ∃ t, exec (.stamp addr val) s = .next t ∧ t.mem = q.mem ∧ GoesOn s t (p.index + 1))
  ∧ (∀ leaf loc, s.Plain none p.ctx 8 .write [addr.toNat] leaf loc → ∃ t, exec (.stamp addr val) s = .next t
    ∧ t.bytesAt (loc addr.toNat) 8 = bytesLE 8 val.toNat ∧ GoesOn s t (p.index + 1)
    ∧ ∀ x, ¬(loc addr.toNat ≤ x ∧ x < loc addr.toNat + 8) → t.byteAt x = s.byteAt x)
  ∧ (∃ t, exec .rillFence s = .next t ∧ t = { s with progs := t.progs } ∧ GoesOn s t (p.index + 1))
  ∧ ∃ t, exec (.rillBadCommand raw) s = .next t ∧ (t.prog s.eng).state = .error ∧ (t.prog s.eng).err = 0x0A
    ∧ (t.prog s.eng).engine = none

namespace Sys2Proof.Machine

/-- The cursor and the arrival after `n` of `count` elements from the start of a slot that takes `per` (R172, R178): the
last element of a slot, or of the command, is followed by an arrival at the slot's weir and the next slot; after the last
of the command the program goes on. -/
structure Chunk (s t : State) (weir per count n unit : Nat) (seq : Prog → Nat) : Prop where
  within : n < per → n < count →
    (t.prog s.eng).done = n * unit ∧ (t.prog s.eng).state = .running ∧ seq (t.prog s.eng) = seq (s.prog s.eng)
  last   : n = per ∨ n = count → ∀ y, ((s.wg (s.prog s.eng).wid).weir weir).arrive 1 0 none = .ok y →
    (t.wg (s.prog s.eng).wid).weir weir = y ∧ seq (t.prog s.eng) = (seq (s.prog s.eng) + 1) % 2 ^ 32
      ∧ if n = count then GoesOn s t ((s.prog s.eng).index + 1)
        else (t.prog s.eng).done = n * unit ∧ (t.prog s.eng).state = .running

/-- The slots of a ring stand apart from its record and its weirs. -/
def Ring.apart (r : Ring) (g : Nat) : Prop :=
  g + 16 + 32 * r.depth ≤ r.slotbase ∨ r.slotbase + r.depth * r.slotbytes ≤ g

/-- The slot of use `q` may be filled: its empty weir has completed the use before, if there was one (R167). -/
def Ring.fillable (r : Ring) (w : Wg) (g q : Nat) : Prop :=
  q < r.depth ∨ (w.weir (g + 16 + 16 * (r.depth + q % r.depth))).phase ≠ ((q / r.depth - 1) % 2 == 1)

/-- Memory after values of `n` bytes were written at `at_ j`, one after another: each byte holds that of the last of them
there, and every other byte stands. -/
def Written (s t : State) (n : Nat) (at_ : Nat → Nat) (vals : List Nat) : Prop :=
  (∀ j b, j < vals.length → b < n →
    (∀ k, j < k → k < vals.length → ¬(at_ k ≤ at_ j + b ∧ at_ j + b < at_ k + n)) →
    t.byteAt (at_ j + b) = nth (bytesLE n (nth vals 0 j)) 0 b)
  ∧ ∀ x, (∀ j, j < vals.length → ¬(at_ j ≤ x ∧ x < at_ j + n)) → t.byteAt x = s.byteAt x

end Sys2Proof.Machine

/-- A chunk of `STREAM` or `PALETTE` at the start of a slot that may be filled places the converted elements in the slot;
of `DRAIN` it converts the elements of a slot that is full and writes them to memory. The cursor advances, and where no
element reports, an arrival without an error follows the last element of the slot or of the command (R167, R172, R177 to
R179, R181).
`DECODE` places the decoded bytes of its first block in the slot, up to the slot's end, and its cursor keeps the
bytes delivered; a block that holds no header is an error arrival with code 2 (R180, R185, R189).
`REDUCE` whose buffer, descriptor and stamp can be accessed writes the all-reduced bytes in place, at most 262,144 in a
chunk, and after the last of them the number of the chunk, one up, to the stamp; without a route to the peers the stamp
carries LINK_LOST and the buffer stands (R172, R173, R184, R190, R306, R307).
That REDUCE checks its stamp first and writes it last, that DECODE takes its blocks whole, and a conversion of a format to
itself are the model's choices (log 41); so are what the other ranks contribute (log 7) and the order of i32 saturation and
of NaNs and zeros in max and min (log 4).
Each is said twice: where the pages of its accesses are plain, and where the accesses, one after another, meet no fault. -/
def Obligations.RillPayload : Prop :=
  ((∀ (s : State) (f : Affine) (ring : BitVec 22) (src : BitVec 54) (count : BitVec 32) (r : Ring), s.Engine →
  let p := s.prog s.eng
  let w := s.wg p.wid
  let v1 := s.progV1 s.eng
  p.owed = none → p.done = 0 → p.slotErr = none →
  (w.ring (s.spBytes w) f.ring.toNat = some r → r.apart f.ring.toNat → r.fillable w f.ring.toNat p.seqf →
    let gsz := Fmt.bytes f.fmtin
    let ssz := Fmt.bytes f.fmtout
    let n := min (min (r.slotbytes / ssz) (affCount f)) (262144 / max gsz ssz)
    let addrs := (List.range n).map (affAddr f gsz)
    let streamed (t : State) (vals : List Nat) : Prop :=
      (t.wg p.wid).padBytes (r.slotbase + (p.seqf % r.depth) * r.slotbytes) (n * ssz)
          = vals.flatMap (fun x => bytesLE ssz (convElem v1 f x).1)
      ∧ Chunk s t (f.ring.toNat + 16 + 16 * (p.seqf % r.depth)) (r.slotbytes / ssz) (affCount f) n ssz (fun p => p.seqf)
    (∀ leaf loc, s.Plain none p.ctx gsz .read addrs leaf loc →
      let vals := addrs.map (fun a => natLE (s.bytesAt (loc a) gsz))
      (∀ x ∈ vals, (convElem v1 f x).2 = none) → ∃ t, exec (.stream f) s = .next t ∧ SameMemory s t ∧ streamed t vals)
    ∧ ∀ q vals, s.readElems p.ctx gsz addrs [] = (q, vals, .none) → (∀ x ∈ vals, (convElem v1 f x).2 = none) →
      ∃ t, exec (.stream f) s = .next t ∧ t.mem = q.mem ∧ streamed t vals)
  ∧ (w.ring (s.spBytes w) ring.toNat = some r → r.apart ring.toNat → r.fillable w ring.toNat p.seqf →
    let n := min (min (r.slotbytes / 2) count.toNat) 131072
    let addrs := (List.range n).map (fun j => src.toNat + 2 * j)
    let placed (t : State) (vals : List Nat) : Prop :=
      (t.wg p.wid).padBytes (r.slotbase + (p.seqf % r.depth) * r.slotbytes) (2 * n) = vals.flatMap (bytesLE 2)
      ∧ Chunk s t (ring.toNat + 16 + 16 * (p.seqf % r.depth)) (r.slotbytes / 2) count.toNat n 1 (fun p => p.seqf)
    (∀ leaf loc, s.Plain none p.ctx 2 .read addrs leaf loc →
      ∃ t, exec (.palette ring src count) s = .next t ∧ SameMemory s t
        ∧ placed t (addrs.map (fun a => natLE (s.bytesAt (loc a) 2))))
    ∧ ∀ q vals, s.readElems p.ctx 2 addrs [] = (q, vals, .none) →
      ∃ t, exec (.palette ring src count) s = .next t ∧ t.mem = q.mem ∧ placed t vals)
  ∧ (w.ring (s.spBytes w) f.ring.toNat = some r →
    let i := p.seqd % r.depth
    let gsz := Fmt.bytes f.fmtout
    let n := min (min (r.slotbytes / Fmt.bytes f.fmtin) (affCount f)) (262144 / max gsz (Fmt.bytes f.fmtin))
    let elems := (List.range n).map (fun j => convElem v1 f (natLE (w.padBytes
      (r.slotbase + i * r.slotbytes + j * Fmt.bytes f.fmtin) (Fmt.bytes f.fmtin))))
    let vals := elems.map (fun x => x.1)
    (w.weir (f.ring.toNat + 16 + 16 * i)).phase ≠ (p.seqd / r.depth % 2 == 1) → (∀ x ∈ elems, x.2 = none) →
    let addrs := (List.range n).map (affAddr f gsz)
    let drained (t : State) : Prop := Chunk s t (f.ring.toNat + 16 + 16 * (r.depth + i)) (r.slotbytes / Fmt.bytes f.fmtin)
      (affCount f) n gsz (fun p => p.seqd)
    (∀ leaf loc, s.Plain none p.ctx gsz .write addrs leaf loc → ∃ t, exec (.rillDrain f) s = .next t ∧ drained t
      ∧ Written s t gsz (fun j => loc (affAddr f gsz j)) vals)
    ∧ ∀ q, s.checkElems p.ctx addrs 0 = (q, n, .none) → ∃ t, exec (.rillDrain f) s = .next t ∧ drained t
      ∧ t.mem = (q.writeElems p.ctx gsz (addrs.zip vals)).mem))
  ∧ (∀ (s : State) (ring : BitVec 22) (src : BitVec 54) (blocks ibase : BitVec 32) (r : Ring), s.Engine →
  let p := s.prog s.eng
  let w := s.wg p.wid
  let at_ := ring.toNat + 16 + 16 * (p.seqf % r.depth)
  w.ring (s.spBytes w) ring.toNat = some r → r.fillable w ring.toNat p.seqf → p.owed = none → p.done = 0 → p.blk = 0 →
  p.blkDone = 0 →
  let decoded (data : List Byte) (y : Weir) (t : State) : Prop :=
    (t.wg p.wid).padBytes (r.slotbase + (p.seqf % r.depth) * r.slotbytes) r.slotbytes = data.take r.slotbytes
    ∧ (t.wg p.wid).weir at_ = y ∧ (t.prog s.eng).blkDone = r.slotbytes ∧ (t.prog s.eng).seqf = (p.seqf + 1) % 2 ^ 32
  (ring.toNat + 16 + 32 * r.depth ≤ r.slotbase → ∀ data y, r.slotbytes < data.length →
    (w.weir at_).arrive 1 0 p.slotErr = .ok y →
    (∀ h leaf loc, let bytes (n : Nat) : List Byte := (List.range n).map (fun k => s.byteAt (loc (src.toNat + k)))
      blockHdr (bytes 32) = some h → h.decode (bytes h.total) = some data →
      s.Plain none p.ctx 1 .read ((List.range h.total).map (fun k => src.toNat + k)) leaf loc →
      ∃ t, exec (.decode ring src blocks ibase) s = .next t ∧ SameMemory s t ∧ decoded data y t)
    ∧ ∀ q total good, s.loadBlock p.ctx src.toNat = (q, .ok data total good) →
      ∃ t, exec (.decode ring src blocks ibase) s = .next t ∧ t.mem = q.mem ∧ decoded data y t)
  ∧ ∀ y leaf loc, (w.weir at_).arrive 1 0 (some (2, ibase.toNat)) = .ok y →
    blockHdr ((List.range 32).map (fun k => s.byteAt (loc (src.toNat + k)))) = none →
    s.Plain none p.ctx 1 .read ((List.range 32).map (fun k => src.toNat + k)) leaf loc →
    ∃ t, exec (.decode ring src blocks ibase) s = .next t ∧ SameMemory s t ∧ (t.wg p.wid).weir at_ = y
      ∧ GoesOn s t (p.index + 1)))
  ∧ (∀ (s : State) (fn : RedFn) (fmt : Fmt) (group : Byte) (chunk : BitVec 32) (buf : BitVec 54) (bytes : BitVec 32)
    (desc : BitVec 54) (db : List Byte) (d : RedDesc),
  (findK s.progs s.eng).isSome = true → let p := s.prog s.eng
  let i := Instr.reduce fn fmt group chunk buf bytes desc
  let n := min 262144 (bytes.toNat - p.done)
  let here := buf.toNat + p.done
  let reduced (own : List Byte) : List Byte := redBytes (s.progV1 s.eng) fn fmt group.toNat chunk.toNat p.done d own
  let ends : Prop := bytes.toNat ≤ p.done + n
  let onward (t : State) : Prop := if ends then GoesOn s t (p.index + 1)
    else (t.prog s.eng).done = p.done + n ∧ (t.prog s.eng).state = .running ∧ (t.prog s.eng).index = p.index
  redDesc db = some d →
  (∀ leafd locd leafs locs leafb locb,
    let buffer := (List.range n).map (fun k => here + k)
    db = (List.range 64).map (fun k => s.byteAt (locd (desc.toNat + k))) →
    s.Plain none p.ctx 1 .read ((List.range 64).map (fun k => desc.toNat + k)) leafd locd →
    s.Plain none p.ctx 8 .write [d.stamp] leafs locs → s.Plain none p.ctx 1 .rmw buffer leafb locb →
    (∀ a ∈ buffer, ∀ b ∈ buffer, a ≠ b → locb a ≠ locb b) →
    (∀ mem : KMap Byte, (∀ x, (∀ a ∈ buffer, x ≠ locb a) → ({ s with mem := mem } : State).byteAt x = s.byteAt x) →
      ({ s with mem := mem } : State).walk p.ctx d.stamp = .ok (leafs d.stamp)) →
    (∀ a ∈ buffer, ¬(locs d.stamp ≤ locb a ∧ locb a < locs d.stamp + 8)) →
    let own := buffer.map (fun a => s.byteAt (locb a))
    let stamped (t : State) (v : Nat) : Prop := t.bytesAt (locs d.stamp) 8 = bytesLE 8 v
    let others (t : State) (inBuf inStamp : Prop) : Prop := ∀ x, (inBuf → ∀ a ∈ buffer, x ≠ locb a) →
      (inStamp → ¬(locs d.stamp ≤ x ∧ x < locs d.stamp + 8)) → t.byteAt x = s.byteAt x
    (s.svc.routes = true → (reduced own).length = n → ∃ t, exec i s = .next t ∧ onward t
      ∧ (∀ k, k < n → t.byteAt (locb (here + k)) = nth (reduced own) 0 k) ∧ (ends → stamped t (chunk.toNat + 1))
      ∧ others t True ends)
    ∧ (s.svc.routes = false → ∃ t, exec i s = .next t ∧ GoesOn s t (p.index + 1)
      ∧ stamped t (9 * 2 ^ 56 + (chunk.toNat + 1)) ∧ others t False True))
  ∧ ∀ q1 q2 q3 q4 q5 tg own, s.loadBytes none p.ctx desc.toNat 64 = (q1, .ok db) →
    q1.accessG none p.ctx d.stamp 8 .write = (q2, .ok tg) →
    (s.svc.routes = true → q2.loadBytes none p.ctx here n = (q3, .ok own) →
      q3.checkElems p.ctx ((List.range n).map (fun k => here + k)) 0 = (q4, n, .none) →
      q4.storeBytes none p.ctx here ((reduced own).take n) = (q5, .ok ()) →
      (¬ends → ∃ t, exec i s = .next t ∧ t.mem = q5.mem ∧ onward t)
      ∧ (ends → ∀ q6, q5.storeG none p.ctx d.stamp (bytesLE 8 (chunk.toNat + 1)) = (q6, .ok ()) →
        ∃ t, exec i s = .next t ∧ t.mem = q6.mem ∧ onward t))
    ∧ (s.svc.routes = false → ∀ q5, q2.storeG none p.ctx d.stamp (bytesLE 8 (9 * 2 ^ 56 + (chunk.toNat + 1))) = (q5, .ok ()) →
      ∃ t, exec i s = .next t ∧ t.mem = q5.mem ∧ GoesOn s t (p.index + 1)))

/-! ## The matrix and palette units -/

/-- `SIGN`: every thread of the issue set signs, those whose guard is false too, whose fragments are zero (R49, R206, R207,
R394). By every lane of its mask, when the register is empty and none of them has exited, it completes the round: the register
is COMPLETE under the group's ownership with the mask, and every thread goes on.
By some lanes of its mask, the first or after others of the group that declared the same mask, it leaves the round COLLECTING
with their bits added: those whose guard was true are held and stand in the record of the issue, the others go on.
By the last lanes of the mask it completes the round, and every signer of the group that is held there goes on with them. -/
def Obligations.SignCompletes : Prop := ∀ (s : State) (c : Ctl) (k : Fin 8) (a : SR),
  let mask : LaneMask := (s.readS a.val).setWidth 32
  let old := s.conv s.g.wid k.val
  let i := Instr.sign c k a
  s.Issues i → s.Inside → s.Owned s.cur → s.iset ≠ 0 → k.val < (s.wg s.g.wid).conv.length →
  (∀ p ∈ s.g.pending, p.id ≠ s.nextId) → (∀ l, bitOf s.iset l = true → l < s.g.threads.length) →
  (mask = s.iset → old.state = .empty → (∀ l, bitOf s.iset l = true → (s.g.th l).exited = false) →
    ∃ t, exec i s = .next t ∧ t.mem = s.mem ∧ SameRegs s t ∧ (∀ n, t.g.flagOf n = s.g.flagOf n)
      ∧ (let v := t.conv s.g.wid k.val
        v.state = .complete ∧ v.owner = s.g.grpid ∧ v.declared = mask ∧ v.signed = mask
          ∧ v.zfrag = mask &&& ~~~(s.active c))
      ∧ ∀ l, l < s.g.threads.length → (t.g.th l).pc = if bitOf s.iset l then (s.g.th l).pc + 8 else (s.g.th l).pc)
  ∧ (let before : LaneMask := if old.state = .empty then 0 else old.signed
    let zeros : LaneMask := if old.state = .empty then 0 else old.zfrag
    old.state = .empty ∨ (old.state = .collecting ∧ old.owner = s.g.grpid ∧ old.declared = mask) →
    s.iset &&& mask = s.iset → (∀ l, l < 32 → bitOf mask l = true → (s.g.th l).exited = false) →
    (before ||| s.iset ≠ mask →
      ∃ t, exec i s = .next t ∧ t.mem = s.mem ∧ SameRegs s t ∧ Charged s t c
        ∧ (let v := t.conv s.g.wid k.val
          v.state = .collecting ∧ v.owner = s.g.grpid ∧ v.declared = mask ∧ v.signed = before ||| s.iset
            ∧ v.zfrag = zeros ||| (s.iset &&& ~~~(s.active c)))
        ∧ (∀ l, l < s.g.threads.length → t.g.th l =
            if bitOf (s.active c) l then { s.g.th l with held := .sign k.val s.nextId }
            else if bitOf s.iset l then { s.g.th l with held := .no, pc := (s.g.th l).pc + 8 } else s.g.th l)
        ∧ (s.active c ≠ 0 → ∃ p ∈ t.g.pending, p.id = s.nextId ∧ p.kind = .sign ∧ p.lanes = s.iset
            ∧ p.done = s.iset &&& ~~~(s.active c)))
    ∧ (before ||| s.iset = mask → before &&& s.iset = 0 → (s.g.pending.map (fun p => p.id)).Nodup →
      let waits (l : Nat) : Prop := bitOf before l = true ∧ ∃ p ∈ s.g.pending, (s.g.th l).held = .sign k.val p.id
      (∀ l, waits l → (s.g.th l).entering = none ∧ (s.g.th l).pc + 8 ≠ (s.g.th l).hdr + wordN (((s.g.th l).len + 1) * 8)) →
      ∃ t, exec i s = .next t ∧ t.mem = s.mem ∧ SameRegs s t
        ∧ (let v := t.conv s.g.wid k.val
          v.state = .complete ∧ v.owner = s.g.grpid ∧ v.declared = mask ∧ v.signed = mask
            ∧ v.zfrag = zeros ||| (s.iset &&& ~~~(s.active c)))
        ∧ ∀ l, l < s.g.threads.length →
          ((bitOf s.iset l = true ∨ waits l) → t.g.th l = { s.g.th l with held := .no, pc := (s.g.th l).pc + 8 })
          ∧ (bitOf s.iset l = false → ¬waits l → t.g.th l = s.g.th l)))

/-- The matrix and palette forms hand their command to the unit and are recorded until it is done: `MMA` with
well-formed descriptors and a complete round of its group that an active lane signed, which it takes; `MLDA` and `MSTA`
with a well-formed descriptor; `MZERO`; `PMV` of 1 to 2,097,152 tokens at aligned addresses. Without an active thread
they only go on. `MCHK` and `PSTAT` read the status and the cursor (R205, R209, R211, R215, R221, R224, R229, R365,
R369, R370, R378). -/
def Obligations.UnitCommands : Prop := ∀ (s : State) (c : Ctl) (f : MmaFmt) (t : Fin 16) (k : Fin 8) (a b : SR)
    (na nb w : BitVec 2) (cont : Bool) (y : SR),
  let pair (r : SR) : Word × Word := (s.readS r.val, s.readS (r.val + 1))
  GivesLater s (.mchk c a) c (.s a) true 0 (fun _ => s.g.mchk)
  ∧ GivesLater s (.pstat c a w) c (.s a) true 0 (fun _ =>
      wordN (natLE ((s.g.cursor.bytes.drop (8 * w.toNat)).take 8)))
  ∧ (s.active c = 0 → ∀ i, i = Instr.mma c f t k a b na nb ∨ i = .mlda c t a ∨ i = .msta c t a ∨ i = .mzero c t
      ∨ i = .pmv c cont a b y → s.Issues i → exec i s = .next (s.advance s.cur s.iset))
  ∧ (s.Inside → s.Owned s.cur → s.active c ≠ 0 →
  (let i := Instr.mma c f t k a b na nb
    let v := s.conv s.g.wid k.val
    s.Issues i → descFault [pair a, pair b] (if f.scaled then some 159 else none) false (rowLen f) = none →
    (f.scaled = true → bits (pair a).2.toNat 39 32 + 3 < s.g.valloc ∧ bits (pair b).2.toNat 39 32 + 3 < s.g.valloc) →
    v.state = .complete → v.owner = s.g.grpid → v.signed &&& s.active c ≠ 0 →
    ∃ q, exec i s = .next q ∧ Charged s q c ∧ Recorded s q i c .unit ∧ SameRegs s q ∧ q.mem = s.mem
      ∧ (k.val < (s.wg s.g.wid).conv.length → (q.conv s.g.wid k.val).state = .empty)
      ∧ ∃ m, q.g.mat = some m ∧ m.instr = i ∧ m.tile = t.val ∧ m.rows = 0 ∧ m.declared = v.declared ∧ m.zfrag = v.zfrag
        ∧ m.baseA = (pair a).1.toNat ∧ m.baseB = (pair b).1.toNat ∧ q.g.rowprog = 0)
  ∧ (∀ i, i = Instr.mlda c t a ∨ i = .msta c t a → s.Issues i → descFault [pair a] none true 256 = none →
    ∃ q, exec i s = .next q ∧ Charged s q c ∧ Recorded s q i c .unit ∧ SameRegs s q ∧ q.mem = s.mem
      ∧ ∃ m, q.g.mat = some m ∧ m.instr = i ∧ m.tile = t.val ∧ m.rows = 0 ∧ m.baseA = (pair a).1.toNat)
  ∧ (s.Issues (.mzero c t) → ∃ q, exec (.mzero c t) s = .next q ∧ Charged s q c ∧ Recorded s q (.mzero c t) c .unit
    ∧ SameRegs s q ∧ q.mem = s.mem ∧ ∃ m, q.g.mat = some m ∧ m.instr = .mzero c t ∧ m.tile = t.val)
  ∧ (let i := Instr.pmv c cont a b y
    s.Issues i → 1 ≤ (pair a).2.toNat → (pair a).2.toNat ≤ 2097152 → (pair a).1.toNat % 2 = 0 →
    (s.readS b.val).toNat % 4 = 0 → (s.readS y.val).toNat % 4 = 0 →
    ∃ q, exec i s = .next q ∧ Charged s q c ∧ Recorded s q i c .unit ∧ SameRegs s q ∧ q.mem = s.mem
      ∧ q.g.cursor = (if cont then { s.g.cursor with next := 0 } else Cursor.fresh)
      ∧ ∃ m, q.g.pal = some m ∧ m.base = (pair a).1.toNat ∧ m.count = (pair a).2.toNat ∧ m.x = (s.readS b.val).toNat
        ∧ m.y = (s.readS y.val).toNat))

/-- The chunks of the units. An integer `MMA` adds to eight more rows of its tile, modulo 2^32, the exact products of the
rows it reads, and its charge is debited. One of E4M3, E5M2, BF16 or FP16 adds to each cell whose row and column are no zero
fragments the products of its elements with their block scales: under nbv = 2 the rounded sum of a tree of six levels, under
nbv = 1 one product after another, each sum rounded; the cells of zero fragments stand; so it does where the chunk's checks
are skipped or pass, and nothing is injected (log 40, DESIGN CHOICE). `MLDA` loads eight rows, `MSTA` stores eight; `MZERO`
clears its tile; each is done after its last row. They do where the pages of the rows are plain, and wherever the rows can be
read. `PMV` at the last token of its count, the end of a row in positions, adds the row's scaled sum to `y[idx]`, each
operation rounded to nearest even, and is done (R87, R103, R107, R109, R112, R209, R212, R213, R215, R217 to R219, R225, R227,
R228); that the cursor is then clear but for the token count is log 38 (DEDUCED). -/
def Obligations.UnitChunks : Prop := ∀ (s : State) (gid : Nat) (m : MatCmd) (c : Ctl) (t : Fin 16) (kk : Fin 8)
    (a b : SR) (na nb : BitVec 2), s.hasGroup gid = true → (findK s.wgs (s.grp gid).wid).isSome = true →
  (findK s.regions (s.wgOf gid).rid).isSome = true →
  let g := s.grp gid
  let plain (n : Nat) (k : XKind) := s.Plain (some g.core) (s.cidOf gid) n k
  let spanOf (base stride n : Nat) (is : List Nat) : List Nat :=
    is.flatMap (fun i => (List.range n).map (fun j => base + i * stride + j))
  let rows := (List.range 8).map (· + m.rows)
  let read (loc : Nat → Nat) (n a : Nat) : Nat := natLE ((List.range n).map (fun j => s.byteAt (loc (a + j))))
  let ended : State → Prop := fun u => (u.grp gid).mat = none ∧ (u.grp gid).pend? m.pend = none
  (g.mat = some m → m.instr = .mma c .i8 t kk a b na nb → m.rows + 8 ≤ 64 → m.declared = BitVec.allOnes 32 → m.zfrag = 0 →
    s.inject.chunk = 0 →
    let added (ra rb : List Nat) (u : State) : Prop := (u.grp gid).rowprog = m.rows + 8
      ∧ (∀ i j, i < 8 → j < 64 →
          getD ((u.wgOf gid).tile m.tile) 0 (64 * (m.rows + i) + j) =
            getD ((s.wgOf gid).tile m.tile) 0 (64 * (m.rows + i) + j)
            + BitVec.ofInt 32 (((List.range 64).map (fun k =>
                sextI (nth ra 0 i / 256 ^ k % 256) 8 * sextI (nth rb 0 k / 256 ^ j % 256) 8)).sum))
      ∧ (∀ n, (n < 64 * m.rows ∨ 64 * (m.rows + 8) ≤ n) →
          getD ((u.wgOf gid).tile m.tile) 0 n = getD ((s.wgOf gid).tile m.tile) 0 n)
      ∧ (u.regOf gid).ebal ≤ (s.regOf gid).ebal - 96 ∧ (m.rows + 8 = 64 → ended u)
    (∀ leaf loc, plain 1 .read (spanOf m.baseA m.strideA 64 rows ++ spanOf m.baseB m.strideB 64 (List.range 64)) leaf loc →
      ∃ u, exec (.mmaChunk gid) s = .next u ∧ SameMemory s u
        ∧ added (rows.map (fun i => read loc 64 (m.baseA + i * m.strideA)))
            ((List.range 64).map (fun i => read loc 64 (m.baseB + i * m.strideB))) u)
    ∧ ∀ q q' ra rb, (s.serve gid).loadRows gid m.baseA m.strideA 64 (fun _ => false) rows [] = (q, .ok ra) →
      q.loadRows gid m.baseB m.strideB 64 (fun _ => false) (List.range 64) [] = (q', .ok rb) →
      ∃ u, exec (.mmaChunk gid) s = .next u ∧ u.mem = q'.mem ∧ added ra rb u)
  ∧ (∀ f, g.mat = some m → m.instr = .mma c f t kk a b na nb → f = .e4m3 ∨ f = .e5m2 ∨ f = .bf16 ∨ f = .fp16 → m.rows + 8 ≤ 64 →
    s.inject.chunk = 0 →
    let zero : LaneMask := ~~~m.declared ||| m.zfrag
    let live (i : Nat) : Bool := !bitOf zero (i % 32)
    let w := if f = .bf16 ∨ f = .fp16 then 16 else 8
    let cell (u : State) (i j : Nat) : U32 := getD ((u.wgOf gid).tile m.tile) 0 (64 * (m.rows + i) + j)
    let value (ra rb : List Nat) (i j : Nat) : U32 :=
      let ps := (List.range 64).map (fun k => elemProd f (nth ra 0 i / 2 ^ (w * k) % 2 ^ w) (nth rb 0 k / 2 ^ (w * j) % 2 ^ w)
        (nth m.scalesA 0 (2 * (m.rows + i) + k / 32)).toNat (nth m.scalesB 0 (2 * j + k / 32)).toNat)
      if s.v1Of gid then ps.foldl (fun acc p => toFp32 true .rne ((fp32 true acc).add .rne p)) (cell s i j)
      else toFp32 false .rne ((fp32 false (cell s i j)).add .rne (treeFV 6 ps))
    let accepted (ra rb : List Nat) : Prop :=
      let x : ChunkIn := { v1 := s.v1Of gid, fmt := f, first := m.rows, rowsA := ra, rowsB := rb, scA := m.scalesA,
                           scB := m.scalesB, zero := zero }
      let cs := x.cells ((s.wgOf gid).tile m.tile)
      x.unchecked cs = true ∨ x.checkOk cs = true
    let added (ra rb : List Nat) (u : State) : Prop := (u.grp gid).rowprog = m.rows + 8
      ∧ (∀ i j, i < 8 → j < 64 → cell u i j = if live (m.rows + i) && live j then value ra rb i j else cell s i j)
      ∧ (∀ n, (n < 64 * m.rows ∨ 64 * (m.rows + 8) ≤ n) →
          getD ((u.wgOf gid).tile m.tile) 0 n = getD ((s.wgOf gid).tile m.tile) 0 n)
      ∧ (m.rows + 8 = 64 → ended u)
    (∀ leaf loc, plain 1 .read (spanOf m.baseA m.strideA (8 * w) (rows.filter live)
        ++ spanOf m.baseB m.strideB (8 * w) (List.range 64)) leaf loc →
      let ra := rows.map (fun i => if live i then read loc (8 * w) (m.baseA + i * m.strideA) else 0)
      let rb := (List.range 64).map (fun i => read loc (8 * w) (m.baseB + i * m.strideB))
      accepted ra rb → ∃ u, exec (.mmaChunk gid) s = .next u ∧ SameMemory s u ∧ added ra rb u)
    ∧ ∀ q q' ra rb, (s.serve gid).loadRows gid m.baseA m.strideA (8 * w) (fun i => bitOf zero (i % 32)) rows [] = (q, .ok ra) →
      q.loadRows gid m.baseB m.strideB (8 * w) (fun _ => false) (List.range 64) [] = (q', .ok rb) → accepted ra rb →
      ∃ u, exec (.mmaChunk gid) s = .next u ∧ u.mem = q'.mem ∧ added ra rb u)
  ∧ (g.mat = some m → m.instr = .mlda c t a → m.rows + 8 ≤ 64 →
    let loaded (xs : List Nat) (u : State) : Prop := (∀ i j, i < 8 → j < 64 →
        getD ((u.wgOf gid).tile m.tile) 0 (64 * (m.rows + i) + j) = BitVec.ofNat 32 (nth xs 0 i / 2 ^ (32 * j)))
      ∧ (m.rows + 8 = 64 → ended u)
    (∀ leaf loc, plain 1 .read (spanOf m.baseA m.strideA 256 rows) leaf loc →
      ∃ u, exec (.tileChunk gid) s = .next u ∧ SameMemory s u
        ∧ loaded (rows.map (fun i => read loc 256 (m.baseA + i * m.strideA))) u)
    ∧ ∀ q xs, (s.serve gid).loadRows gid m.baseA m.strideA 256 (fun _ => false) rows [] = (q, .ok xs) →
      ∃ u, exec (.tileChunk gid) s = .next u ∧ u.mem = q.mem ∧ loaded xs u)
  ∧ (g.mat = some m → m.instr = .msta c t a → m.rows + 8 ≤ 64 → ∀ leaf loc,
    let span := spanOf m.baseA m.strideA 256 rows
    let at_ (i j : Nat) : Nat := m.baseA + (m.rows + i) * m.strideA + j
    plain 1 .write span leaf loc → (∀ x ∈ span, ∀ y ∈ span, x ≠ y → loc x ≠ loc y) →
    ∃ u, exec (.tileChunk gid) s = .next u ∧ (u.wgOf gid).tile m.tile = (s.wgOf gid).tile m.tile
      ∧ (∀ i j, i < 8 → j < 256 → (∀ k b, i < k → k < 8 → b < 256 → at_ k b ≠ at_ i j) →
        u.byteAt (loc (at_ i j)) = nth (bytesLE 4 (getD ((s.wgOf gid).tile m.tile) 0 (64 * (m.rows + i) + j / 4)).toNat) 0 (j % 4))
      ∧ (∀ x, (∀ y ∈ span, x ≠ loc y) → u.byteAt x = s.byteAt x) ∧ (m.rows + 8 = 64 → ended u))
  ∧ (g.mat = some m → m.instr = .mzero c t → ∃ u, exec (.tileChunk gid) s = .next u ∧ u.mem = s.mem
      ∧ ended u ∧ ∀ n, getD ((u.wgOf gid).tile m.tile) 0 n = 0)
  ∧ ∀ p y₀, g.pal = some p → p.count = g.cursor.next + 1 → g.cursor.state = 5 →
      s.loadS gid (p.base + 2 * g.cursor.next) 2 = .ok 0xFFFF →
      (∀ o, ∀ x ∈ (s.grp o).pending, x.id = p.pend → o = gid ∧ x.dead = []) →
      s.palRead gid (p.y + 4 * g.cursor.idx.toNat) = some y₀ →
      let v1 := s.v1Of gid
      let fl (x : FV) : FV := fp32 v1 (toFp32 v1 .rne x)
      let term := fl ((fp32 v1 g.cursor.basin).mul (lnsVal g.cursor.code.toNat))
      let r := if g.cursor.groups = 1 then term else fl ((fp32 v1 g.cursor.part).add .rne term)
      let scaled := if g.cursor.e8 = 0xFF#8 then FV.nan else fl (r.scale ((g.cursor.e8.toNat : Int) - 127))
      ∃ u, exec (.pmvChunk gid) s = .next u ∧ u.mem = s.mem
        ∧ u.palRead gid (p.y + 4 * g.cursor.idx.toNat) = some (toFp32 v1 .rne ((fp32 v1 y₀).add .rne scaled))
        ∧ (u.grp gid).pal = none ∧ (u.grp gid).pend? p.pend = none
        ∧ (u.grp gid).cursor = { Cursor.fresh with next := g.cursor.next + 1 }
        ∧ (u.regOf gid).ebal = (s.regOf gid).ebal - ((g.cursor.next + 1 + 15) / 16 : Nat)

/-! ## Regions -/

/-- A block of 256 bytes offered as a region of context `cid` in a state `v` answers `n`: with 0 region `v.nextId` has the
block's values and the balances it states are carved from its parent's; with another `n` no region and no balance changes
(R33 to R35, R38). -/
structure Carved (v t : State) (cid : Nat) (va : Word) (bs : List Byte) (par : Option (Nat × Region)) (n : Nat) : Prop where
  accepted : n = 0 →
    let r := fillRcb bs (par.map (fun p => p.2))
    let q := t.region v.nextId
    q.ctx = cid ∧ q.rcb = r ∧ q.parent = par.map (fun p => p.1) ∧ q.ebal = r.ebudget ∧ q.tbal = r.tbudget
      ∧ q.level = (match par with | some p => p.2.level + 1 | none => 1) ∧ q.nextwg = 0
      ∧ q.state = (if r.afterA = 0 then RegionState.eligible else RegionState.afterWait)
      ∧ (∀ p, par = some p → (t.region p.1).ebal = p.2.ebal - r.ebudget ∧ (t.region p.1).tbal = p.2.tbal - r.tbudget
          ∧ (t.region p.1).openKids = p.2.openKids + 1)
      ∧ ∀ rid, rid ≠ v.nextId → (∀ p, par = some p → rid ≠ p.1) → findK t.regions rid = findK v.regions rid
  refused  : n ≠ 0 → ∀ rid, (t.region rid).ebal = (v.region rid).ebal ∧ (t.region rid).tbal = (v.region rid).tbal
    ∧ (findK t.regions rid).isSome = (findK v.regions rid).isSome

/-- What the block says then: that it is accepted and under which number, or why it is not (R38, R39). -/
def blockAnswer (v t : State) (n : Nat) : List Byte :=
  if n = 0 then [1, 0, 0, 0] ++ bytesLE 4 (t.region v.nextId).regno else [4, BitVec.ofNat 8 n]

/-- The offer of a block that a state `v` has read, with the answer written to the block. -/
structure Offered (v t : State) (cid : Nat) (va : Word) (bs : List Byte) (par : Option (Nat × Region)) (n : Nat) : Prop where
  carved  : Carved v t cid va bs par n
  written : t.mem = ({ v with regions := t.regions }.storeG none cid (va.toNat + 0xF0) (blockAnswer v t n)).1.mem

/-- A block at `va` can be read and its answer written: both pages are plain. -/
structure BlockAt (s : State) (core : Option Nat) (cid : Nat) (va : Word) (k : XKind) (leaf leaf' : Nat → TlbEnt)
    (loc loc' : Nat → Nat) : Prop where
  block  : s.Plain core cid 256 k [va.toNat] leaf loc
  answer : s.Plain none cid 16 .write [va.toNat + 0xF0] leaf' loc'
  inside : loc' (va.toNat + 0xF0) = loc va.toNat + 0xF0

/-- A plain block at `va` was offered in `v`: memory holds the answer, and nothing else of it changed. -/
structure OfferedPlain (v t : State) (cid : Nat) (va : Word) (par : Option (Nat × Region)) (loc : Nat → Nat) (n : Nat) :
    Prop where
  carved  : Carved v t cid va (v.bytesAt (loc va.toNat) 256) par n
  written : t.bytesAt (loc va.toNat + 0xF0) (if n = 0 then 8 else 2) = blockAnswer v t n
  others  : ∀ x, ¬(loc va.toNat + 0xF0 ≤ x ∧ x < loc va.toNat + 0xF0 + (if n = 0 then 8 else 2)) → t.byteAt x = v.byteAt x

/-- Regions come into being. `SPAWN`, once the core time that is due is debited, by a thread of a dry region answers 1, at
an address that is no multiple of 256 it answers 2, and else what the offer of the block it reads answers (R418). `ROOT_LAUNCH` reports its answer in `lstat`: 5
without a context, 2 for a block off a multiple of 256, else the offer's; a launch before the device is ready is
dropped. A region that starts after a location becomes eligible when its value suffices (R33 to R40, R303, R312, R395,
R396).
Regions end, and pay. When a region's work is done it writes its status and the value of its completion store,
hands what is left of its balances to its parent and is gone. A workgroup's residence of 4,096 cycles debits its
region one unit of core time, four for one that spreads over a cluster (R35, R36, R41, R236). -/
def Obligations.Regions : Prop :=
  ((∀ (s : State) (c : Ctl) (d a : SR),
    let va := s.readS a.val
    let rid := (s.wgOf s.cur).rid
    let p := (s.begun (.spawn c d a) c { a := [va], b := [], c := [] }).debitRegion rid
    let par := some (rid, p.region rid)
    let answered (u : State) (n : Nat) : Prop := Charged s u c ∧ Recorded s u (.spawn c d a) c .result
      ∧ Holds u (.s d) true (s.active c) 0 (fun _ => wordN n) ∧ OnlyWrites s u (.s d) true (s.active c)
    s.Issues (.spawn c d a) → (s.active c = 0 → exec (.spawn c d a) s = .next (s.advance s.cur s.iset))
    ∧ (s.Inside → s.active c ≠ 0 → s.Owned s.cur → inSpace va.toNat = true →
      (∀ n, ((p.region rid).dry = true ∧ n = 1) ∨ ((p.region rid).dry = false ∧ va.toNat % 256 ≠ 0 ∧ n = 2) →
        ∃ u, exec (.spawn c d a) s = .next u ∧ answered u n ∧ u.mem = s.mem ∧ u.regions = p.regions)
      ∧ ((p.region rid).dry = false → va.toNat % 256 = 0 → (findK s.regions rid).isSome = true → rid < s.nextId →
        (p.region rid).ctx = s.cidOf s.cur →
        (∀ leaf leaf' loc loc', BlockAt p (some s.g.core) (s.cidOf s.cur) va .rmw leaf leaf' loc loc' →
          let n := p.refusal (s.cidOf s.cur) (p.bytesAt (loc va.toNat) 256) (some (p.region rid))
          ∃ u, exec (.spawn c d a) s = .next u ∧ answered u n ∧ OfferedPlain p u (s.cidOf s.cur) va par loc n)
        ∧ ∀ v t x, p.accessG (some s.g.core) (s.cidOf s.cur) va.toNat 256 .rmw = (v, .ok t) → v.loadT t 256 = .ok x →
          let n := v.refusal (s.cidOf s.cur) (bytesLE 256 x) (some (p.region rid))
          ∃ u, exec (.spawn c d a) s = .next u ∧ answered u n
            ∧ Offered v u (s.cidOf s.cur) va (bytesLE 256 x) par n)))
  ∧ (∀ (s : State) (va : Word),
    (s.mgmt.ready = false →
      exec (.rootLaunch va) s = .next { s with mgmt := { s.mgmt with cstat := s.mgmt.cstat ||| 0x300 } })
    ∧ (s.mgmt.ready = true → ∃ u, exec (.rootLaunch va) s = .next u ∧ u.mgmt.launch = va
      ∧ ((s.namedCtx = none ∧ u.mgmt.lstat = 5 ∧ u.regions = s.regions ∧ u.mem = s.mem)
        ∨ ∃ cid, s.namedCtx = some cid ∧ u.mgmt.ctx.toNat = cid
          ∧ (va.toNat % 256 ≠ 0 → u.mgmt.lstat = 2 ∧ u.regions = s.regions ∧ u.mem = s.mem)
          ∧ (∀ leaf leaf' loc loc', va.toNat % 256 = 0 → BlockAt s none cid va .read leaf leaf' loc loc' →
            let n := s.refusal cid (s.bytesAt (loc va.toNat) 256) none
            u.mgmt.lstat = wordN n ∧ OfferedPlain s u cid va none loc n)
          ∧ ∀ v t x, inSpace va.toNat = true → va.toNat % 256 = 0 → s.accessG none cid va.toNat 256 .read = (v, .ok t) →
            v.loadT t 256 = .ok x →
            u.mgmt.lstat = wordN (v.refusal cid (bytesLE 256 x) none)
              ∧ Offered v u cid va (bytesLE 256 x) none (v.refusal cid (bytesLE 256 x) none))))
  ∧ ∀ (s : State) (rid : Nat) (r : Region), findK s.regions rid = some r → r.watching = true →
    let a := r.rcb.afterA.toNat
    let checked (x : Nat) (u : State) : Prop :=
      (u.region rid).state = (if r.rcb.afterV.toNat ≤ x then RegionState.eligible else RegionState.afterWait)
        ∧ ∀ k, k ≠ rid → findK u.regions k = findK s.regions k
    (∀ leaf loc, s.Plain none r.ctx 8 .read [a] leaf loc → ∃ u, exec (.startsAfterCheck rid) s = .next u ∧ SameMemory s u
      ∧ checked (natLE (s.bytesAt (loc a) 8)) u)
    ∧ ∀ v x, s.loadG none r.ctx a 8 = (v, .ok x) → ∃ u, exec (.startsAfterCheck rid) s = .next u ∧ u.mem = v.mem ∧ checked x u)
  ∧ ((∀ (s : State) (rid : Nat) (r : Region), findK s.regions rid = some r → s.completable rid = true →
    r.held = [] → (∀ q ∈ s.objects, q.2.revoked = false) →
    let status := r.rcbaddr.toNat + 0xF0
    let a := r.rcb.doneA.toNat
    let code : Byte := if r.abandoned then 3 else 2
    let closed (u : State) : Prop := findK u.regions rid = none
      ∧ ∀ p q, r.parent = some p → p ≠ rid → findK s.regions p = some q →
        findK u.regions p = some { q with ebal := q.ebal + r.ebal, tbal := q.tbal + r.tbal, openKids := q.openKids - 1 }
    (∀ leaf loc leaf' loc', s.Plain none r.ctx 1 .write [status] leaf loc →
      (r.rcb.doneA ≠ 0 → s.Plain none r.ctx 8 .write [a] leaf' loc' ∧ ¬(loc' a ≤ loc status ∧ loc status < loc' a + 8)
        ∧ ∀ mem : KMap Byte, (∀ x, x ≠ loc status → ({ s with mem := mem } : State).byteAt x = s.byteAt x) →
          ({ s with mem := mem } : State).walk r.ctx a = .ok (leaf' a)) →
      ∃ u, exec (.regionComplete rid) s = .next u ∧ closed u ∧ u.byteAt (loc status) = code
        ∧ (r.rcb.doneA ≠ 0 → u.bytesAt (loc' a) 8 = bytesLE 8 r.rcb.doneV.toNat)
        ∧ ∀ x, x ≠ loc status → (r.rcb.doneA ≠ 0 → ¬(loc' a ≤ x ∧ x < loc' a + 8)) → u.byteAt x = s.byteAt x)
    ∧ ∀ v, s.storeG none r.ctx status [code] = (v, .ok ()) →
    ∀ w, (r.rcb.doneA = 0 ∧ w = v ∨ r.rcb.doneA ≠ 0 ∧ (v.modRegion rid (fun r => { r with finished := true })).storeG
      none r.ctx a (bytesLE 8 r.rcb.doneV.toNat) = (w, .ok ())) →
    ∃ u, exec (.regionComplete rid) s = .next u ∧ u.mem = w.mem ∧ closed u)
  ∧ ∀ (s : State) (wid : Nat) (w : Wg) (r : Region), findK s.wgs wid = some w → findK s.regions w.rid = some r →
    (s.undebited wid < 4096 → exec (.coreTimeDebit wid) s = .next s)
    ∧ (4096 ≤ s.undebited wid → ∃ u, exec (.coreTimeDebit wid) s = .next u
      ∧ findK u.regions w.rid = some { r with tbal := r.tbal - (if w.spread then 4 else 1) }
      ∧ u.undebited wid = s.undebited wid - 4096
      ∧ u = { s with wgs := u.wgs, regions := u.regions }
      ∧ (∀ k, k ≠ w.rid → findK u.regions k = findK s.regions k) ∧ ∀ k, k ≠ wid → findK u.wgs k = findK s.wgs k))

/-! ## The distributor -/

/-- The distributor. The first candidate that fits is placed on a core that takes it: a workgroup of its region's next
number with fresh groups whose threads stand before the entry header, registers zero but `s0`, which holds the
region's arguments, or a workgroup that re-enters with what it left with. A candidate that waited 2^20 cycles while
others passed reserves the cluster with the most free store. The fusion of a cluster changes only while it is empty.
A switch is asked for a candidate that fits nowhere, of cores whose workgroups all have a lower class or a dry region; it takes
256 cycles, after which none of the outgoing workgroups holds a core; one whose candidate waits no more, or fits elsewhere by
then, sends nobody away. The shadow bank is free when the outgoing workgroups are saved (R14, R30, R123, R194, R236 to R240,
R249 to R251). The model's own choices in this: which of several cores and clusters (logs 11 and 45), that a failed core is
emptied by a switch (log 18), that a workgroup for which the save pool has no room stays in the shadow bank (log 44), that a
request is withdrawn (log 45), and which cores form a cluster (log 60). -/
def Obligations.Distributor : Prop :=
  (∀ (s : State) (c : Cand) (core : Nat) (r : Region), s.nextCand = some c → s.mayPlace c core = true →
    findK s.regions c.rid = some r → ∃ u, exec (.workgroupPlace c.rid c.wgid core) s = .next u
      ∧ (c.wid = none → ∃ w, findK u.wgs s.nextId = some w ∧ w.ctx = r.ctx ∧ w.rid = c.rid ∧ w.wgid = r.nextwg
        ∧ w.state = .resident ∧ w.home = core ∧ (∀ a, a < 256 → w.padByte a = 0)
        ∧ (u.region c.rid).nextwg = r.nextwg + 1
        ∧ ∀ k, k < (r.rcb.wgsize + 31) / 32 → ∃ g, findK u.groups (s.nextId + 1 + k) = some g ∧ g.grpid = k
          ∧ g.wid = s.nextId ∧ g.valloc = r.rcb.valloc ∧ g.rawS 0 = r.rcb.args
          ∧ (∀ n l, g.rawV n l = 0) ∧ (∀ n, n ≠ 0 → g.rawS n = 0 ∧ g.rawP n = 0) ∧ (∀ n, g.flagOf n = 0)
          ∧ ∀ l, l < 32 → (g.th l).exited = !(decide (32 * k + l < r.rcb.wgsize))
            ∧ (32 * k + l < r.rcb.wgsize → (g.th l).pc = r.rcb.entry ∧ (g.th l).entering = some 2))
      ∧ (∀ wid w, c.wid = some wid → findK s.wgs wid = some w → ∃ w', findK u.wgs wid = some w' ∧ w'.state = .resident
        ∧ w'.home = core ∧ w'.scratch = w.scratch ∧ w'.tiles = w.tiles ∧ w'.conv = w.conv
        ∧ ∀ gid, (u.grp gid).vregs = (s.grp gid).vregs ∧ (u.grp gid).sregs = (s.grp gid).sregs
          ∧ (u.grp gid).preds = (s.grp gid).preds ∧ (u.grp gid).pending = (s.grp gid).pending))
  ∧ (∀ (s : State) (cid : Nat) (c : Cand) (x : Ctx), s.mustReserve cid = some c → findK s.ctxs cid = some x →
    exec (.distributorReserve cid c.rid c.wgid) s
      = .next { s with ctxs := insK s.ctxs cid { x with reserved := some (s.freest, c.rid, c.wgid) } }
    ∧ s.freest < 40 ∧ ∀ k, k < 40 → s.clusterFree k ≤ s.clusterFree s.freest)
  ∧ (∀ (s : State) (k : Nat) (on : Bool),
    (s.clusterEmpty k = false → exec (.clusterFusionChange k on) s = .next s)
    ∧ (k < 40 → s.clusterEmpty k = true → ∃ u, exec (.clusterFusionChange k on) s = .next u
      ∧ u = { s with fused := u.fused } ∧ u.fused.contains k = on
      ∧ ∀ j, j ≠ k → u.fused.contains j = s.fused.contains j))
  ∧ (∀ (s : State) (c : Cand) (core : Nat), c.rid ≠ 0 →
    s.candidates.find? (fun x => x.rid == c.rid && x.wgid == c.wgid) = some c → (s.victims c).contains core = true →
    ∃ u, exec (.switchRequest core c.rid c.wgid) s = .next u ∧ u = { s with cores := u.cores }
      ∧ (∀ k, (u.core k).switch = if (s.switchCores core (s.need c).spread).contains k then .requested c.rid c.wgid core s.cycle
          else (s.core k).switch)
      ∧ ∀ wid ∈ s.outgoing (s.switchCores core (s.need c).spread),
          (s.region (s.wg wid).rid).dry = true ∨ (s.region (s.wg wid).rid).rcb.prio < (s.region c.rid).rcb.prio)
  ∧ (∀ (s : State) (core : Nat), s.mustEmpty core = true → ∃ u, exec (.switchRequest core 0 0) s = .next u
      ∧ ∀ k ∈ s.switchCores core false, (u.core k).switch = .requested 0 0 core s.cycle)
  ∧ (∀ (s : State) (core rid wgid home since : Nat), (s.core core).switch = .requested rid wgid home since →
    risingK s.wgs = true → (∀ q ∈ s.wgs, q.1 < s.nextId) →
    let swapped (cores : List Nat) (u : State) : Prop := s.cycle + 256 ≤ u.cycle
      ∧ (∀ k ∈ cores, ∃ l, (u.core k).switch = .spilling l)
      ∧ ∀ wid ∈ s.outgoing cores, ∀ w, findK u.wgs wid = some w → w.onCore = false
    (rid = 0 → ∃ u, exec (.bankSwap core) s = .next u ∧ swapped (s.switchCores home false) u)
    ∧ (rid ≠ 0 → ∀ c, s.switchCand rid wgid = some c →
      ∃ u, exec (.bankSwap core) s = .next u ∧ swapped (s.switchCores home (s.need c).spread) u)
    ∧ (rid ≠ 0 → s.switchCand rid wgid = none → ∃ u, exec (.bankSwap core) s = .next u ∧ u = { s with cores := u.cores }
      ∧ ∀ k, (u.core k).switch = match (s.core k).switch with
        | .requested r n _ _ => if r = rid ∧ n = wgid then .none else (s.core k).switch
        | x => x))
  ∧ ∀ (s : State) (core wid : Nat), (s.core core).switch = .spilling [wid] → (findK s.wgs wid).isSome = true →
    ∃ u, exec (.spillDone core) s = .next u ∧ (∀ k, k / 4 ≠ core / 4 → u.core k = s.core k)
      ∧ match s.spillWg wid with
        | some t => (u.core core).switch = .none ∧ u.wgs = t.wgs ∧ u.mem = t.mem ∧ u.ctxs = t.ctxs
        | none => (u.core core).switch = .spilling [wid] ∧ u.wgs = s.wgs ∧ u.mem = s.mem ∧ u.ctxs = s.ctxs

/-! ## Events of groups -/

/-- What comes about in a group. An instruction that waits for its latency completes: its flag is discharged, and what it
wrote is readable. A group whose threads have all exited and whose flags read zero retires, and with the last one its
workgroup, which its region counts; but not before its copies and batches are done. A hold that has lasted 256 cycles ends, its threads with no reconvergence point. A
role takes effect when every live thread waits for it: allotment, class, and entry, with the registers below both
allotments kept and those gained zero. A group that has been eligible for 4,096 cycles is chosen first (R15, R21, R42 to
R45, R51, R52, R242, R334, R386). The 256 opportunities of a hold are 256 cycles in which its workgroup issues, counted from
the cycle of the hold: c + 255 ≤ now; the 4,096 cycles count from the cycle since which the group is eligible (log 50, DESIGN
CHOICE). -/
def Obligations.GroupEvents : Prop := ∀ (s : State) (gid : Nat) (g : Group), findK s.groups gid = some g →
  (∀ p, g.pend? p.id = some p → p.kind = .result → ∃ u, exec (.instructionComplete gid p.id) s = .next u
    ∧ u.mem = s.mem ∧ u.cycle = max s.cycle p.due ∧ (u.grp gid).pend? p.id = none
    ∧ (∀ n, (u.grp gid).flagOf n = g.flagOf n - (if p.flag = some n then 1 else 0))
    ∧ (∀ k l, l < 32 → (u.grp gid).rawKey k l = g.rawKey k l)
    ∧ (∀ j, j ≠ gid → findK u.groups j = findK s.groups j)
    ∧ ((∀ x ∈ g.landing, x.due = .on p.id) → ∀ n l, l < 32 →
        ({ u with cur := gid } : State).readV n l = g.rawV n l ∧ ({ u with cur := gid } : State).readS n = g.rawS n
          ∧ ({ u with cur := gid } : State).readP n l = bitOf (g.rawP n) l))
  ∧ (∀ w r, s.retireReady gid = true → findK s.wgs g.wid = some w → findK s.regions w.rid = some r →
    ∃ u, exec (.groupRetire gid) s = .next u
      ∧ (w.retiredGroups.length + 1 ≠ w.ngroups → (u.wg g.wid).retiredGroups = w.retiredGroups ++ [g.grpid])
      ∧ (w.copies ≠ [] ∨ w.batches ≠ [] → (u.wg g.wid).retiredGroups = w.retiredGroups ++ [g.grpid]
          ∧ (findK u.wgs g.wid).isSome = true)
      ∧ (w.retiredGroups.length + 1 = w.ngroups → w.copies = [] → w.batches = [] → w.seals = [] → findK u.wgs g.wid = none
          ∧ (∀ k ∈ w.gids, findK u.groups k = none) ∧ (u.region w.rid).retired = r.retired + 1))
  ∧ (∀ j l c, l < 32 → (g.th l).held = .rc c → (g.th l).rc = some j → c + 255 ≤ s.cycle → (s.wgOf gid).issues = true →
    s.holdSpent gid j = true)
  ∧ (∀ b c, (if b then g.eligB else g.eligA) = some c → (s.starves gid b = true ↔ c + 4096 ≤ s.cycle))
  ∧ (∀ j, s.holdSpent gid j = true → ∃ u, exec (.holdExpiry gid j) s = .next u ∧ u = { s with groups := u.groups }
    ∧ ∀ l, l < g.threads.length → (u.grp gid).th l =
        if (g.th l).held.atRc = true ∧ (g.th l).rc = some j then { g.th l with held := .no, rc := none } else g.th l)
  ∧ (∀ r n a, s.roleReady gid = some (r, n, a) → ∃ u, exec (.roleTakesEffect gid) s = .next u
    ∧ u = { s with groups := u.groups } ∧ (u.grp gid).valloc = r.valloc ∧ (u.grp gid).prio = r.prio
    ∧ (u.grp gid).role = n ∧ (u.grp gid).regbase = a
    ∧ (∀ l, l < g.threads.length → (g.th l).exited = false → ((u.grp gid).th l).pc = r.entry
        ∧ ((u.grp gid).th l).entering = some 2 ∧ ((u.grp gid).th l).held = .no ∧ ((u.grp gid).th l).rc = none)
    ∧ (∀ k l, l < 32 → (u.grp gid).rawV k l = if k < g.valloc ∧ k < r.valloc then g.rawV k l else 0)
    ∧ (∀ k, (u.grp gid).rawS k = g.rawS k ∧ (u.grp gid).rawP k = g.rawP k))
  ∧ ∀ b, s.starves gid b = true → s.first.contains (gid, b) = false →
    exec (.starvationFirst gid b) s = .next { s with first := s.first ++ [(gid, b)] }

/-! ## Fault records -/

/-- One record of a workgroup is done with: it is forgotten, and with the last one the workgroup issues again, or waits
to re-enter where it had left its core (R246, R247). -/
structure Settled (s t : State) (cid key wid : Nat) : Prop where
  gone  : findK (t.ctx cid).recs key = none ∧ (t.ctx cid).hold = (s.ctx cid).hold.filter (fun k => !(k == key))
  recs  : (t.wg wid).recs = (s.wg wid).recs.filter (fun k => !(k == key))
  state : (t.wg wid).state = match (s.wg wid).state, (t.wg wid).recs with
    | .suspended true, [] => .resident
    | .suspended false, [] => .waiting
    | x, _ => x
  mem   : t.mem = s.mem
  regs  : ∀ gid k l, k ≠ .win → l < 32 → (t.grp gid).rawKey k l = (s.grp gid).rawKey k l
  pcs   : ∀ gid l, ((t.grp gid).th l).pc = ((s.grp gid).th l).pc

/-- Posting: the first held record of each domain of a context goes to the slot of its sequence in its domain's queue, the
tail is advanced, and a record without a handler raises the host's bit; with a full queue it stays held, and a queue that
cannot be used raises bit 5; either way the other domains' records are posted all the same (R244 is silent across domains;
that each posts one in a step is the model's choice, log 49). Resolutions: `RETRY` performs the faulted instruction again, for
the lanes not done with the operands it read; `SKIP` passes it without effect (log 46, DEDUCED); either frees the workgroup
when no other record holds it. An engine acts on the record of its present stop only: under `RETRY` one that stopped in ERROR
goes on from its cursor; under `SKIP` its command is abandoned, or passed where it waited at WAITS or STAMP.
`ABANDON_WG` retires the workgroup, `ABANDON_REGION` every workgroup of the region and its descendants, which place no
more (R130, R244 to R247). -/
def Obligations.FaultsResolved : Prop := ∀ (s : State) (cid key : Nat) (r : FaultRec), findK (s.ctx cid).recs key = some r →
  (findK s.ctxs cid).isSome = true → key < (s.ctx cid).nextRec →
  (∀ before after d v bs, (((s.saveHeld cid).ctx cid).heads = before ++ (key, r) :: after) →
    let posts : List (Nat × FaultRec) → State → State := fun l s => l.foldl (fun s q => s.postRecord cid q.1 q.2) s
    let p := posts before (s.saveHeld cid)
    (findK p.ctxs cid).isSome = true → findK (p.ctx cid).domains r.domain = some d →
    p.loadBytes none cid d.desc 32 = (v, .ok bs) →
    (queueDesc bs = none → ∃ u, exec (.faultRecordPost cid) s = .next (posts after u) ∧ (u.ctx cid).hold = (p.ctx cid).hold
      ∧ u.mgmt.irq = v.mgmt.irq ||| 32 ∧ u.mem = v.mem)
    ∧ ∀ q, queueDesc bs = some q →
      (q.size ≤ d.next - 1 - q.head → exec (.faultRecordPost cid) s = .next (posts after v))
      ∧ (d.next - 1 - q.head < q.size →
        let va := q.base + 64 * ((d.next - 1) % q.size)
        ∀ w tr td, v.accessG none cid va 64 .write = (w, .ok tr) → (v.accessG none cid (d.desc + 24) 8 .write).2 = .ok td →
        ∃ u, exec (.faultRecordPost cid) s = .next (posts after u)
          ∧ u.mem = ((w.storeT tr { r with seq := d.next }.bytes).storeG none cid (d.desc + 24) (bytesLE 8 d.next)).1.mem
          ∧ (∃ q', findK (u.ctx cid).recs key = some q' ∧ q' = { r with seq := d.next, va := va, host := q'.host }
              ∧ (q'.host = true → u.mgmt.irq = v.mgmt.irq ||| 1))
          ∧ (u.ctx cid).hold = (p.ctx cid).hold.filter (fun k => !(k == key))
          ∧ (findK (u.ctx cid).domains r.domain).map (fun d => d.next) = some (d.next + 1)))
  ∧ (∀ d q slot leafd locd leaft loct leafr locr, (s.ctx cid).heads = [(key, r)] →
    (∀ x ∈ (s.ctx cid).holding, x.2.kind = 0 → (s.wg x.2.wid).state ≠ .suspended true) →
    findK (s.ctx cid).domains r.domain = some d → let va := q.base + 64 * ((d.next - 1) % q.size)
    slot = { r with seq := d.next } →
    queueDesc ((List.range 32).map (fun j => s.byteAt (locd (d.desc + j)))) = some q → d.next - 1 - q.head < q.size →
    s.Plain none cid 1 .read ((List.range 32).map (fun j => d.desc + j)) leafd locd →
    s.Plain none cid 8 .write [d.desc + 24] leaft loct → s.Plain none cid 64 .write [va] leafr locr →
    (∀ j, j < 64 → ¬(loct (d.desc + 24) ≤ locr va + j ∧ locr va + j < loct (d.desc + 24) + 8)) →
    (∀ mem : KMap Byte, (∀ x, ¬(locr va ≤ x ∧ x < locr va + 64) → ({ s with mem := mem } : State).byteAt x = s.byteAt x) →
      ({ s with mem := mem } : State).walk cid (d.desc + 24) = .ok (leaft (d.desc + 24))) →
    ∃ u, exec (.faultRecordPost cid) s = .next u ∧ u.bytesAt (locr va) 64 = slot.bytes
      ∧ u.bytesAt (loct (d.desc + 24)) 8 = bytesLE 8 d.next ∧ (∀ x, ¬(locr va ≤ x ∧ x < locr va + 64) →
        ¬(loct (d.desc + 24) ≤ x ∧ x < loct (d.desc + 24) + 8) → u.byteAt x = s.byteAt x)
      ∧ (u.ctx cid).hold = (s.ctx cid).hold.filter (fun k => !(k == key)))
  ∧ (∀ pid, r.subject = .engine pid → (findK s.progs pid).isSome = true → let q := s.prog pid
    let here : Prop := (s.wg q.wid).state ≠ .waiting ∧ (s.wg q.wid).state ≠ .halted
    let goesOn (u : State) : Prop := findK (u.ctx cid).recs key = none ∧ u.mem = s.mem ∧ (u.prog pid).recKey = 0
    let state : EngState := if q.state = .stopped ∨ q.engine = none then q.state else .running
    (s.resolution cid key = 1 → q.recKey = key → q.state = .error → q.prior = .idle → here →
      ∀ e, s.freeEngine q.stack = some e → ∃ u, exec (.retry cid key) s = .next u ∧ goesOn u
        ∧ (u.prog pid).engine = some e ∧ (u.prog pid).state = .running ∧ (u.prog pid).index = q.index
        ∧ (u.prog pid).done = q.done ∧ (u.prog pid).owed = q.owed)
    ∧ (s.resolution cid key = 1 → q.recKey = key → q.state ≠ .error → ∃ u, exec (.retry cid key) s = .next u ∧ goesOn u
        ∧ (u.prog pid).state = state ∧ (u.prog pid).index = q.index ∧ (u.prog pid).done = q.done ∧ (u.prog pid).owed = q.owed)
    ∧ (s.resolution cid key = 2 → q.recKey = key → q.state = .error → q.prior = .idle → here →
      ∀ e, s.freeEngine q.stack = some e → ∃ u, exec (.skip cid key) s = .next u ∧ goesOn u
        ∧ (u.prog pid).state = .running ∧ (u.prog pid).owed = some (q.err, none) ∧ (u.prog pid).index = q.index)
    ∧ (s.resolution cid key = 2 → q.recKey = key → q.state ≠ .error → ∃ u, exec (.skip cid key) s = .next u ∧ goesOn u
        ∧ (u.prog pid).state = state
        ∧ (r.code = Code.enginePage → (u.prog pid).owed = some (8, none) ∧ (u.prog pid).index = q.index)
        ∧ (r.code ≠ Code.enginePage → (u.prog pid).owed = none ∧ (u.prog pid).index = (q.index + 1) % 2 ^ 32
          ∧ (u.prog pid).done = 0))
    ∧ (q.recKey ≠ key →
      (s.resolution cid key = 1 → ∃ u, exec (.retry cid key) s = .next u ∧ u.progs = s.progs ∧ u.mem = s.mem)
      ∧ (s.resolution cid key = 2 → ∃ u, exec (.skip cid key) s = .next u ∧ u.progs = s.progs ∧ u.mem = s.mem)))
  ∧ (∀ w, findK s.wgs r.wid = some w → w.ctx = cid →
    (∀ p, s.resolution cid key = 1 →
      ((∃ gid m, r.subject = .word gid m) ∧ p = s ∨ (∃ gid id q, r.subject = .instr gid id ∧ (s.grp gid).pend? id = some q
        ∧ p = s.redo gid q ∧ (p.wg r.wid).ctx = cid ∧ (findK p.wgs r.wid).isSome = true)) →
      ∃ u, exec (.retry cid key) s = .next u ∧ Settled p u cid key r.wid)
    ∧ (∀ p, s.resolution cid key = 2 →
      ((∃ gid m, r.subject = .word gid m ∧ p = s.advance gid m ∧ (findK p.wgs r.wid).isSome = true
          ∧ (p.wg r.wid).ctx = cid)
        ∨ ∃ gid id q, r.subject = .instr gid id ∧ (s.grp gid).pend? id = some q ∧ q.id = id ∧ q.lanes &&& ~~~(q.done ||| r.lanes) = 0
          ∧ (∀ c f d o, q.instr ≠ .tryT c f d o)
          ∧ p = s.modGrp gid (fun g => g.modPend id (fun _ =>
              { q with done := q.done ||| (q.lanes &&& r.lanes), kind := .result, recKey := 0 }))) →
      ∃ u, exec (.skip cid key) s = .next u ∧ Settled p u cid key r.wid)
    ∧ (s.resolution cid key = 3 → r.kind ≠ 3 → (∀ rid, r.subject ≠ .rcbWrite rid) →
      ∃ u, exec (.abandonWg cid key) s = .next u ∧ findK (u.ctx cid).recs key = none ∧ findK u.wgs r.wid = none
        ∧ (∀ k ∈ w.gids, findK u.groups k = none)
        ∧ ∀ q, findK s.regions w.rid = some q → (u.region w.rid).retired = q.retired + 1))
  ∧ (4 ≤ s.resolution cid key → (∀ rid, r.subject ≠ .rcbWrite rid) →
    ∃ u, exec (.abandonRegion cid key) s = .next u ∧ findK (u.ctx cid).recs key = none
      ∧ (∀ k ∈ s.subtree r.rid, (u.region k).abandoned = true) ∧ ∀ q ∈ u.wgs, q.2.rid ∉ s.subtree r.rid)

/-! ## The management port -/

/-- A command is done: `cstat` has its status and index with busy clear, and overrun as writes dropped meanwhile left it;
`result` has its result, and irq bit 1 is raised (R303). -/
def answered (m : Mgmt) (status index : Nat) (result : Word) : Mgmt :=
  { m with cstat := m.cstat &&& 0x200 ||| wordN (status + index * 2 ^ 32), result := result, irq := m.irq ||| 2 }

/-- Writes of device registers, and commands that act at once. A write to `launch` or `cmd` sets its
busy bit and is done next, unless the port is not ready or that bit is set: then it is dropped and overrun is set. `CTX_CREATE` checks the root and the save pool,
`CTX_DESTROY` and `DISCARD` release a context that nothing holds and that is halted, `TLB_INVAL` reaches every core, `CREDIT`
adds to the balances of the region whose block it names, `UNLOAD` removes, revokes or refuses, `RETIRE` moves a granule to
a spare of its stack, `DRAIN` is busy until its unit is empty (R129, R263, R302 to R309, R311). The model's own choices in
this: status 11 for a context that is not halted (log 19); the layout of a rank table (log 22); that a failed command and a
DRAIN leave 0 in `result` (log 25); status 4 for a slot above 1, status 12 for a granule outside HBM, the low 8 bits of a
domain and the sequence that DOMAIN keeps (log 26). -/
def Obligations.PortCommands : Prop := ∀ (s : State),
  (∀ (off : Nat) (v : Word), ∃ u, exec (.registerWrite off v) s = .next u
    ∧ u = { s with mgmt := u.mgmt, agenda := u.agenda }
    ∧ (let m := s.mgmt
      (off = 0x008 → u.mgmt = { m with ctx := v } ∧ u.agenda = s.agenda)
      ∧ (off = 0x030 → u.mgmt = { m with arg0 := v } ∧ u.agenda = s.agenda)
      ∧ (off = 0x038 → u.mgmt = { m with arg1 := v } ∧ u.agenda = s.agenda)
      ∧ (off = 0x040 → u.mgmt = { m with arg2 := v } ∧ u.agenda = s.agenda)
      ∧ (off = 0x048 → u.mgmt = { m with arg3 := v } ∧ u.agenda = s.agenda)
      ∧ (off = 0x058 → u.mgmt = { m with irq := m.irq &&& ~~~v } ∧ u.agenda = s.agenda)
      ∧ (off ∉ [0x008, 0x010, 0x020, 0x030, 0x038, 0x040, 0x048, 0x058] → u = s)
      ∧ (off = 0x010 → if m.ready && !m.lstat.getLsbD 8 then u.agenda = s.agenda ++ [.run (.rootLaunch v)]
            ∧ u.mgmt.cstat.getLsbD 9 = false ∧ u.mgmt.lstat = m.lstat ||| 0x100
          else u.agenda = s.agenda ∧ u.mgmt.cstat = m.cstat ||| (if m.ready then 0x200 else 0x300) ∧ u.mgmt.lstat = m.lstat)
      ∧ (off = 0x020 → if m.ready && !m.cstat.getLsbD 8 then
            u.agenda = s.agenda ++ [.run (decodeHostCmd (v.extractLsb' 0 8))] ∧ u.mgmt.cstat.getLsbD 9 = false
              ∧ u.mgmt.cstat.getLsbD 8 = true
          else u.agenda = s.agenda ∧ u.mgmt.cstat = m.cstat ||| (if m.ready then 0x200 else 0x300))))
  ∧ (∀ v, exec (.irqClear v) s = .next { s with mgmt := { s.mgmt with irq := s.mgmt.irq &&& ~~~v } })
  ∧ (s.mgmt.ready = false → ∀ b, ∀ i ∈ ([.ctxCreate, .ctxDestroy, .halt, .resume, .discard, .load, .unload, .tlbInval,
      .domain, .credit, .drain, .fwSlot, .retire, .group, .badCommand b] : List Instr),
      exec i s = .next { s with mgmt := { s.mgmt with cstat := s.mgmt.cstat ||| 0x300 } })
  ∧ (s.mgmt.ready = true →
    let m := s.mgmt
    let cid := m.ctx.toNat
    let reply (t : State) (st : Nat) (r : Word) : Host.Outcome State Fault Refusal :=
      .next { t with mgmt := answered t.mgmt st 0 r }
    (∀ b, exec (.badCommand b) s = reply s 13 0)
    ∧ (exec .ctxCreate s =
        if m.arg0.toNat % 8192 ≠ 0 ∨ 2 ^ 40 ≤ m.arg0.toNat then reply s 7 0
        else if m.arg1.toNat % 65536 ≠ 0 ∨ m.arg2 = 0 ∨ m.arg2.toNat % 65536 ≠ 0 ∨ 2 ^ 40 < m.arg1.toNat + m.arg2.toNat then
          reply s 17 0
        else reply { s with ctxs := insK s.ctxs s.freeCtx { Ctx.absent with
          root := m.arg0.toNat, poolBase := m.arg1.toNat, poolBytes := m.arg2.toNat, measure := zeroBytes 48 } } 0
          (wordN s.freeCtx))
    ∧ findK s.ctxs s.freeCtx = none
    ∧ exec .fwSlot s = (if m.arg0.toNat ≤ 1 ∧ Config.slotVerifies m.arg0.toNat = true then
        reply { s with svc := { s.svc with fwSlot := m.arg0.toNat } } 0 0 else reply s 4 0)
    ∧ (∀ bs, s.getPhys m.arg1.toNat m.arg2.toNat = some bs → exec .group s =
        reply { s with svc := { s.svc with groups := insK s.svc.groups (m.arg0.toNat % 256) (bs.map (fun (b : Byte) => b.toNat)) } }
          0 0)
    ∧ (∀ g, granuleOf m.arg0.toNat = some g →
        let stack := g * 4096 / 2 ^ 36
        let used := getD s.svc.spares 0 stack
        (256 ≤ used → exec .retire s = reply s 12 0)
        ∧ (used < 256 → ∃ u, exec .retire s = .next u ∧ u.mgmt.cstat = m.cstat &&& 0x200 ∧ getD u.svc.spares 0 stack = used + 1
          ∧ findK u.svc.remap g = some (spareLoc stack used / 4096)
          ∧ (∀ k, k < 4096 → u.byteAt (spareLoc stack used + k) = s.byteAt (s.remapped (g * 4096) + k))
          ∧ (used = 255 → u.mgmt.health = m.health ||| 0x40)))
    ∧ (granuleOf m.arg0.toNat = none → exec .retire s = reply s 12 0)
    ∧ (∃ u, exec .drain s = .next u ∧ u.mgmt.cstat = m.cstat &&& 0x200 ||| 0x100
        ∧ u.svc.drainUnit = some (bits m.arg0.toNat 15 8, bits m.arg0.toNat 7 0, m.arg1 == 1)
        ∧ (bits m.arg0.toNat 15 8 = 2 → bits m.arg0.toNat 7 0 < 18 → u.linkUp (bits m.arg0.toNat 7 0)
            = ((s.link (bits m.arg0.toNat 7 0)).up && (m.arg1 == 1)) ∧ u.svc.routes = (List.range 18).any u.linkUp)
        ∧ (bits m.arg0.toNat 15 8 = 3 → (u.hostModules.contains (bits m.arg0.toNat 7 0)
            = (s.svc.uciePorts.contains (bits m.arg0.toNat 7 0) && (m.arg1 == 1))))
        ∧ (bits m.arg0.toNat 15 8 = 0 → bits m.arg0.toNat 7 0 < 160 → (u.core (bits m.arg0.toNat 7 0)).drained = !(m.arg1 == 1)))
    ∧ (findK s.ctxs cid = none → ∀ i ∈ ([.ctxDestroy, .discard, .load, .unload, .tlbInval, .domain, .credit] : List Instr),
        exec i s = reply s 14 0)
    ∧ ∀ c, findK s.ctxs cid = some c →
      (exec .ctxDestroy s = if s.regions.any (fun q => q.2.ctx == cid) || s.ctxPins cid then reply s 11 0 else
        reply (s.dropCtx cid) 0 0)
      ∧ (exec .discard s = if c.halted then reply (s.dropCtx cid) 0 0 else reply s 11 0)
      ∧ findK (s.dropCtx cid).ctxs cid = none
      ∧ (∀ q, (q ∈ (s.dropCtx cid).regions → q.2.ctx ≠ cid)) ∧ (∀ q ∈ (s.dropCtx cid).wgs, q.2.ctx ≠ cid)
      ∧ (∀ q ∈ (s.dropCtx cid).objects, q.2.ctx ≠ cid) ∧ (∀ q ∈ (s.dropCtx cid).progs, q.2.ctx ≠ cid)
      ∧ (∀ k, ∀ e ∈ ((s.dropCtx cid).core k).tlb, e.ctx ≠ cid)
      ∧ (∃ u, exec .tlbInval s = .next u ∧ u = { s with cores := u.cores, mgmt := answered m 0 0 0 }
        ∧ ∀ k e, e ∈ (u.core k).tlb ↔ e ∈ (s.core k).tlb ∧ ¬(e.ctx = cid ∧ (m.arg1 = 0 ∨
            overlaps e.va e.size (m.arg0.toNat / 65536 * 65536) (65536 * m.arg1.toNat) = true)))
      ∧ (c.hold = [] →
          let seq := match findK c.domains (m.arg0.toNat % 256) with
            | some d => d.next
            | none => 1
          let ds := insK c.domains (m.arg0.toNat % 256) { desc := m.arg1.toNat, next := seq }
          exec .domain s = reply { s with ctxs := insK s.ctxs cid { c with domains := ds } } 0 0)
      ∧ (∀ q, (s.openOf cid).find? (fun q => q.2.rcbaddr == m.arg0) = some q → risingK s.regions = true → 
          let r := { q.2 with ebal := q.2.ebal + m.arg1.toInt, tbal := q.2.tbal + m.arg2.toInt }
          exec .credit s = reply { s with regions := insK s.regions q.1 r } 0 0)
      ∧ ((s.openOf cid).find? (fun q => q.2.rcbaddr == m.arg0) = none → exec .credit s = reply s 15 0)
      ∧ (findK s.objects m.arg0.toNat = none → match s.loadOf cid m.arg0.toNat with
          | none => exec .unload s = reply s 16 0
          | some l => if m.arg1.getLsbD 0 = true ∧ (∃ b, l.stage = .translate b) then
              ∃ u, exec .unload s = .next u ∧ u.mgmt = answered m 0 0 0 ∧ u = { s with loads := u.loads, mgmt := u.mgmt }
                ∧ { l with stage := .translate true } ∈ u.loads
            else exec .unload s = reply s 11 0)
      ∧ ∀ o, findK s.objects m.arg0.toNat = some o →
        (o.ctx ≠ cid → exec .unload s = reply s 16 0)
        ∧ (o.ctx = cid → o.revoked = true → exec .unload s = reply s 0 0)
        ∧ (o.ctx = cid → o.revoked = false → s.pinned m.arg0.toNat = true → m.arg1.getLsbD 0 = false →
            exec .unload s = reply s 11 0)
        ∧ (o.ctx = cid → o.revoked = false → s.pinned m.arg0.toNat = true → m.arg1.getLsbD 0 = true →
            ∃ u ps, exec .unload s = .next u ∧ u.mgmt.cstat = m.cstat &&& 0x200
              ∧ findK u.objects m.arg0.toNat = some { o with revoked := true, pages := ps })
        ∧ (o.ctx = cid → o.revoked = false → s.pinned m.arg0.toNat = false →
            ∃ u, exec .unload s = .next u ∧ u.mgmt.cstat = m.cstat &&& 0x200 ∧ findK u.objects m.arg0.toNat = none))
  ∧ (s.drainReady = true → exec .drainDone s = .next { s with
      mgmt := { s.mgmt with cstat := s.mgmt.cstat &&& 0x200, result := 0, irq := s.mgmt.irq ||| 2 },
      svc := { s.svc with drainUnit := none } })

/-- Images and code objects. `HALT` of the root that `arg0` names takes every workgroup of the context off its cores and
writes the context's image where it fits, or says how much it takes; `RESUME` of an image that passes the checks in their
order makes a new context of it. `LOAD` of a container that passes its first checks in their order is busy until the loader
engine is done with it: it translates where it must, maps the segments, not executable, with their relocations and
multicasts a pod's native image, its segments as they were before any relocation, then extends the context's measurement by
the events, makes code executable and lists an object under the container's SHA-384; a load that fails on the way answers why.
A peer maps a multicast native image under the hash of the original, unless it translates for itself (R253, R260, R262, R288
to R292, R294, R304). The model's own choices in this: HALT in one step (log 48); what an image cannot carry (log 17); the
stages of LOAD, status 1 for a buffer that cannot be read and a result of 0 (log 25); the flags of a load event (log 24); the
SHA-384 (log 20, PRESUMED); the layout of the native image (log 59). -/
def Obligations.ImagesAndObjects : Prop := ∀ (s : State), s.mgmt.ready = true →
  let m := s.mgmt
  let cid := m.ctx.toNat
  (s.rootAt cid m.arg0 = false → exec .halt s = .next { s with mgmt := answered m 2 0 0 })
  ∧ (∀ c, findK s.ctxs cid = some c → s.rootAt cid m.arg0 = true → ∀ h, h = (if c.halted then s else s.haltCtx cid) →
    let bs := h.image cid m.arg3
    ∃ u, exec .halt s = .next u ∧ (u.ctx cid).halted = true
      ∧ (if m.arg2.toNat < bs.length then u = { h with mgmt := answered h.mgmt 1 0 (wordN bs.length) }
          else u.mgmt = answered h.mgmt 0 0 (wordN bs.length) ∧ u.mem = (h.putPhys m.arg1.toNat bs).mem)
      ∧ (c.halted = false → ∀ wid w, findK u.wgs wid = some w → w.ctx = cid → w.onCore = false))
  ∧ (s.getPhys m.arg0.toNat m.arg1.toNat = none → exec .resume s = .next { s with mgmt := answered m 1 0 0 })
  ∧ (∀ bs, s.getPhys m.arg0.toNat m.arg1.toNat = some bs →
    let root := if m.arg2 = 0 then fieldLE (secOf bs 4) 0 8 else m.arg2.toNat
    (∀ st k, s.resumeFault bs root = some (st, k) → exec .resume s = .next { s with mgmt := answered m st k 0 })
    ∧ (s.resumeFault bs root = none → ∃ u new, exec .resume s = .next u ∧ findK s.ctxs new = none
      ∧ u.mgmt = answered m 0 0 (wordN new) ∧ (findK u.ctxs new).isSome = true ∧ (u.ctx new).root = root
      ∧ (u.ctx new).halted = false ∧ ∀ k, k ≠ new → findK u.ctxs k = findK s.ctxs k))
  ∧ (∀ c, findK s.ctxs cid = some c → (s.getPhys m.arg0.toNat m.arg1.toNat = none →
      exec .load s = .next { s with mgmt := answered m 1 0 0 })
    ∧ ∀ bs, s.getPhys m.arg0.toNat m.arg1.toNat = some bs →
      let pod := m.arg3.getLsbD 0
      let plan := planLoad (fun k => (findK c.domains k).isSome) bs pod
      (∀ k, containerFault bs = some k → exec .load s = .next { s with mgmt := answered m 1 k 0 })
      ∧ (∀ st k, plan = .error (st, k) → exec .load s = .next { s with mgmt := answered m st k 0 })
      ∧ ∀ p tr, plan = .ok (p, tr) → ∃ h, h ≠ 0 ∧ findK s.objects h = none ∧ (∀ l ∈ s.loads, l.handle ≠ h)
        ∧ exec .load s = .next { s with
            mgmt := { m with cstat := m.cstat &&& 0x200 ||| 0x100 }
            loads := s.loads ++ [{ handle := h, ctx := cid, base := if m.arg2 = 0 then fieldLE bs 0x10 8 else m.arg2.toNat,
                                   host := true, pod := pod, image := bs, plan := p,
                                   stage := if tr then .translate false else .map }] })
  ∧ (∀ l rest c, s.loads = l :: rest → findK s.ctxs l.ctx = some c →
    let gone : State := { s with loads := rest }
    let fails (st k : Nat) : Prop := s.loaderTurn = if l.host then { gone with mgmt := answered m st k 0 } else gone
    (l.stage = .translate true → fails 10 0)
    ∧ (l.stage = .translate false → match l.plan.translate l.image with
      | none => fails 10 0
      | some p => s.loaderTurn = { s with loads := { l with stage := .map, plan := p } :: rest })
    ∧ (l.stage = .map → (∀ k, s.roomFault l.ctx l.base l.plan.segs = some k → fails 8 k)
      ∧ (s.roomFault l.ctx l.base l.plan.segs = none →
        (∀ st k, applyRels l.base l.plan.recs 0 l.plan.recs l.plan.segs = .error (st, k) → fails st k)
        ∧ ∀ gs, applyRels l.base l.plan.recs 0 l.plan.recs l.plan.segs = .ok gs → ∃ u, s.loaderTurn = u
          ∧ u.loads = { l with stage := .finish, plan := { l.plan with segs := gs } } :: rest ∧ u.objects = s.objects
          ∧ u.ctxs = s.ctxs ∧ u.mgmt = m
          ∧ u.svc.outbox = s.svc.outbox ++ (if l.pod then [nativeImage l.plan l.image] else [])))
    ∧ (l.stage = .finish → ∃ u o, s.loaderTurn = u ∧ u.loads = rest
      ∧ u.mgmt = (if l.host then answered m 0 0 (wordN l.handle) else m)
      ∧ findK u.objects l.handle = some o ∧ o.ctx = l.ctx ∧ o.hash = l.plan.hash ∧ o.base = l.base ∧ o.revoked = false
      ∧ o.flags = l.plan.flags ∧ o.kernels = l.plan.kernels
      ∧ (u.ctx l.ctx).log = c.log ++ l.plan.events ++ [l.plan.hash ++ bytesLE 8 l.base ++ bytesLE 8 l.plan.flags]
      ∧ (u.ctx l.ctx).measure = ((u.ctx l.ctx).log.drop c.log.length).foldl (fun x ev => sha384 (padTo 48 x ++ ev)) c.measure
      ∧ ∀ k, k ≠ l.handle → findK u.objects k = findK s.objects k))
  ∧ ∀ (k : Nat) (img org : List Byte) (b : Nat) (own : Bool),
    (findK s.ctxs k = none → exec (.nativeImageReceived k img org b own) s = .next s)
    ∧ ∀ c, findK s.ctxs k = some c →
      (s.translating k org = true → exec (.nativeImageReceived k img org b own) s = .next s)
      ∧ (s.translating k org = false →
        let begun (st : LoadStage) (p : LoadPlan) : Prop := ∃ h, h ≠ 0 ∧ findK s.objects h = none
          ∧ exec (.nativeImageReceived k img org b own) s = .next { s with
            loads := s.loads ++ [{ handle := h, ctx := k, base := if b = 0 then fieldLE org 0x10 8 else b, host := false,
                                   pod := false, image := org, plan := p, stage := st }] }
        (∀ p, own = false → planImage img org = some p → begun .map p ∧ p.hash = sha384 org ∧ p.flags = 3)
        ∧ (own = true ∨ planImage img org = none → ∀ p tr,
          planLoad (fun k => (findK c.domains k).isSome) org true = .ok (p, tr) →
          begun (if tr then .translate false else .map) p))

/-! ## The world outside -/

/-- What the world does. A flit in order is taken, with the credits that it grants, and one that fails its CRC is asked for
again; a peer writes only
where the peer table lets it; the host reaches HBM and its own memory; a link, UCIe module or core that fails is
fenced, with its bits in `irq` and `health`; a line with an uncorrectable error cannot be read; the current cap pauses a die,
and the cycles of the pause count for no switch of its cores; firmware refills balances and retires a unit, with its bits;
`DEVICE_RESET` leaves no context, no code object and no byte of HBM, and sets ready (R128, R302, R305, R307, R308, R310 to
R312). The model's own choices in this: which cores form a die (log 60); that a read by the host or by a peer changes nothing
here (log 28); the CRC and the credits of a flit (log 15); what a reset leaves of host memory and of the peer table (log 27);
the effect of retiring a unit (log 29). -/
def Obligations.TheWorld : Prop := ∀ (s : State),
  (∀ link seq flit, ∃ u, exec (.flitReceive link seq flit) s = .next u ∧ u = { s with svc := { s.svc with links := u.svc.links } }
    ∧ (link < 18 → s.linkUp link = true → flit.length = 256 → Config.flitOk flit = true →
        u.link link = if seq = (s.link link).rxSeq then
            { s.link link with rxSeq := seq + 1, credits := (s.link link).credits + Config.flitCredits flit }
          else s.link link)
    ∧ (link < 18 → s.linkUp link = true → flit.length ≠ 256 ∨ Config.flitOk flit = false →
        u.link link = { s.link link with resend := (s.link link).resend + 1 })
    ∧ (s.linkUp link = false → u = s))
  ∧ (∀ src addr v, exec (.peerRequest src addr (some v)) s
      = .next (if s.peerAllows src addr true then s.putPhys addr (bytesLE 8 v.toNat) else s)
    ∧ exec (.peerRequest src addr none) s = .next s
    ∧ (s.peerAllows src addr true = true → addr + 8 ≤ 2 ^ 40 ∧ ∃ r ∈ s.svc.peers, r.src = src ∧ r.w = true
        ∧ r.base ≤ addr ∧ addr + 8 ≤ r.base + r.size))
  ∧ (∀ link, link < 18 → ∃ u, exec (.linkFailure link) s = .next u ∧ (u.link link).up = false
    ∧ u.mgmt.irq = s.mgmt.irq ||| 0x14 ∧ u.mgmt.health = s.mgmt.health ||| 0x10
    ∧ u.svc.routes = (List.range 18).any u.linkUp ∧ (∀ k, k ≠ link → u.link k = s.link k) ∧ u.mem = s.mem ∧ u.regions = s.regions)
  ∧ (∀ pa bs, (pa + bs.length ≤ 2 ^ 39 ∨ 2 ^ 48 ≤ pa ∧ pa + bs.length ≤ 2 ^ 51) →
    exec (.hostMemAccess pa (some bs)) s = .next (s.putPhys pa bs) ∧ exec (.hostMemAccess pa none) s = .next s)
  ∧ (∀ n, n < 4 → ∃ u, exec (.ucieModuleFail n) s = .next u
    ∧ (∀ k, k ∈ u.svc.uciePorts ↔ k ∈ s.svc.uciePorts ∧ k ≠ n)
    ∧ u.mgmt.irq = s.mgmt.irq ||| 4 ∧ u.mgmt.health = s.mgmt.health ||| 0x20 ∧ u.mem = s.mem ∧ u.ctxs = s.ctxs)
  ∧ (∀ die gid, ∃ u v, exec (.currentCapTrip die) s = .next u ∧ exec (.currentCapTripClear die) s = .next v
    ∧ u.mgmt.irq = s.mgmt.irq ||| 8 ∧ u.mem = s.mem ∧ v.mem = s.mem ∧ v.mgmt = s.mgmt
    ∧ ((s.grp gid).core / 40 = die → u.mayIssue gid = false)
    ∧ (∀ k rid wgid home since at_, k / 40 = die → (s.core k).switch = .requested rid wgid home since →
        findK s.svc.pausedAt die = some at_ → (v.core k).switch = .requested rid wgid home (since + (s.cycle - max since at_)))
    ∧ (s.svc.paused.contains die = false → findK u.svc.pausedAt die = some s.cycle)
    ∧ ∀ k, (k ∈ v.svc.paused ↔ k ∈ s.svc.paused ∧ k ≠ die) ∧ (k ∈ u.svc.paused ↔ k ∈ s.svc.paused ∨ k = die))
  ∧ (∃ u, exec .deviceReset s = .next u ∧ u.mgmt.ready = true ∧ u.ctxs = [] ∧ u.regions = [] ∧ u.wgs = [] ∧ u.groups = []
    ∧ u.progs = [] ∧ u.objects = [] ∧ u.cores = [] ∧ u.agenda = [] ∧ u.svc.log = [Config.slotMeasure 0]
    ∧ (∀ loc, loc < 2 ^ 48 → u.byteAt loc = memDefault) ∧ (∀ loc, 2 ^ 48 ≤ loc → u.byteAt loc = s.byteAt loc)
    ∧ (s.mgmt.ready = true → u.mgmt.cstat = 0 ∧ u.mgmt.irq = 0)
    ∧ (s.mgmt.ready = false → u.mgmt.cstat = s.mgmt.cstat &&& 0x200))
  ∧ (∀ rid r energy time clock, findK s.regions rid = some r → r.closed = false → 1 ≤ clock → clock ≤ 16 →
    exec (.policyStep r.ctx rid energy time clock none) s = .next { s with
      regions := insK s.regions rid { r with ebal := r.ebal + energy, tbal := r.tbal + time },
      svc := { s.svc with clock := clock } }
    ∧ ∀ d : DevUnit, ∃ u, exec (.policyStep r.ctx rid energy time clock (some d)) s = .next u ∧ u.mem = s.mem
      ∧ match d with
        | .core k => k < 160 → (u.core k).failed = true ∧ u.mgmt.health = s.mgmt.health ||| 4
        | .partition k p => k < 160 → p < 4 → (u.core k).partFailed.contains p = true ∧ u.mgmt.health = s.mgmt.health ||| 2
        | .lane k p l => k < 160 → p < 4 → l < 33 → (u.core k).laneFenced.contains (p, l) = true
            ∧ u.mgmt.health = s.mgmt.health ||| 1
        | .matrixUnit k => k < 160 → (u.core k).matFenced = true ∧ u.mgmt.health = s.mgmt.health ||| 8
        | .link n => n < 18 → u.linkUp n = false ∧ u.mgmt.health = s.mgmt.health ||| 0x10
        | .ucie n => n < 4 → u.hostModules.contains n = false ∧ u.mgmt.health = s.mgmt.health ||| 0x20)
  ∧ (∀ core p gid, core < 160 → p < 4 → ∃ u v, exec (.coreFailure core none) s = .next u
    ∧ exec (.coreFailure core (some p)) s = .next v
    ∧ u.mgmt.irq = s.mgmt.irq ||| 4 ∧ u.mgmt.health = s.mgmt.health ||| 4
    ∧ v.mgmt.irq = s.mgmt.irq ||| 4 ∧ v.mgmt.health = s.mgmt.health ||| 2
    ∧ (∀ n out home, u.coreTakes n home out core = false)
    ∧ ((s.grp gid).core = core → u.mayIssue gid = false)
    ∧ ((s.grp gid).core = core → (s.grp gid).part = p → v.mayIssue gid = false)
    ∧ (∀ k, k ≠ core → u.core k = s.core k ∧ v.core k = s.core k) ∧ u.mem = s.mem ∧ v.mem = s.mem)
  ∧ ∀ pa loc, s.target (pa / 128 * 128) = some (.mem loc) → ∃ u, exec (.memoryError pa) s = .next u
    ∧ (∀ k n, k < 128 → 1 ≤ n → u.loadT (.mem (loc + k)) n = .error Code.memUncorrectable)
    ∧ (∀ a n, (a + n ≤ loc ∨ loc + 128 ≤ a) → u.loadT (.mem a) n = s.loadT (.mem a) n) ∧ u.mem = s.mem

/-! ## Encodings -/

/-- The encodings of the spec's own examples decode to the instructions that they stand for: one of each family, with
their guards, waits, set flags, orders, scopes and offsets (R47, R48, R55 to R59, R175). -/
def Obligations.SpecWordsDecode : Prop :=
  let c : Ctl := { u := false, dist := 0, wait := 0, set := 15, neg := false, pred := 0 }
  decodeWord 0x328002F0A2A10FF8#64 = .ok (.addi { c with u := true, wait := 0x002 } (.s 2) (.s 1) 0xFF8)
  ∧ decodeWord 0x062000FA00000000#64 = .ok (.exit { c with dist := 2, neg := true, pred := 2 })
  ∧ decodeWord 0x1F0000F00406A902#64 = .ok (.and c .b64 (.v 4) (.v 6) (.s 9))
  ∧ decodeWord 0x4100002005030402#64 = .ok (.fdiv { c with set := 2 } .rup (.v 5) (.v 3) (.v 4))
  ∧ decodeWord 0x4B0000F006023040#64 = .ok (.fcvt c .e4m3 .fp32 2 0 .rne (.v 6) (.v 2))
  ∧ decodeWord 0x77800010B4ACB66F#64 =
      .ok (.atom { c with u := true, set := 1 } .s .b64 .cas .ar .wg (.s 20) (.s 12) (.s 22))
  ∧ decodeWord 0x67800010B4AC8FFF#64 = .ok (.ld { c with u := true, set := 1 } .s .b64 .sc .wg (.s 20) (.s 12) 0x7FF)
  ∧ decodeWord 0x020000F043000005#64 = .ok (.brc c .any false 3 5)
  ∧ decodeWord 0x9100006000B4B64C#64 = .ok (.mma { c with set := 6 } .lns6 0 2 20 22 1 2)
  ∧ decodeWord 0x8760001014AAAF20#64 = .ok (.wwait { c with dist := 6, set := 1 } .acq (.v 20) 0 10 (some 15))
  ∧ decodeWord 0x54000030AC000008#64 = .ok (.vote { c with set := 3 } (.ballot (.s 12)) false 2)
  ∧ decodeWord 0x9D400810180AA400#64 = .ok (.tryT { c with dist := 4, wait := 0x008, set := 1 } 24 10 4)
  ∧ decodeCmd 0x000000020000000000000109#256 = .rillBadCommand 0x000000020000000000000109#256
  ∧ decodeCmd (0x00000005000000020000000000000108#256) = .loop 1 2 5
  ∧ decodeHostCmd 0x06 = .load

/-- Decoding and encoding agree. For every well-formed word or rill command, with every operand at every value, decoding
its encoding gives it back, and every word or command that decodes is the encoding of what it decodes to, which is
well-formed: no bit is dropped. Every instruction word and every rill command has an encoding, and a command is a bad one
only where it is the encoding of no well-formed command. -/
def Obligations.DecodeEncode : Prop :=
  (∀ (i : Instr) (w : Word), wellFormed i = true → encodeWord i = some w → decodeWord w = .ok i)
  ∧ (∀ (i : Instr) (q : BitVec 256), wellFormed i = true → encodeCmd i = some q → decodeCmd q = i)
  ∧ (∀ (i : Instr) (w : Word), decodeWord w = .ok i → encodeWord i = some w)
  ∧ (∀ (i : Instr), i.ctl?.isSome = true → (encodeWord i).isSome = true)
  ∧ (∀ (f : Affine) (ring weir : BitVec 22) (a d : BitVec 54) (n b : BitVec 32) (k : BitVec 16) (p : Bool) (v : Word)
      (lv : BitVec 2) (fn : RedFn) (fm : Fmt) (g : Byte),
      ∀ i ∈ [Instr.stream f, .decode ring a n b, .palette ring a n, .rillDrain f, .arrive k weir, .waitw p weir, .waits a v,
        .loop lv n b, .jump n, .stamp a v, .reduce fn fm g n a b d, .rillFence, .rillEnd p k weir], (encodeCmd i).isSome = true)
  ∧ ∀ (q : BitVec 256), (decodeCmd q = .rillBadCommand q ∧ ∀ i, wellFormed i = true → encodeCmd i ≠ some q)
    ∨ (encodeCmd (decodeCmd q) = some q ∧ wellFormed (decodeCmd q) = true)

/-! ## The machine -/

/-- A step runs the decoded instruction. When it is a group's turn to issue, and the bytes at the program counter of its
chosen lane are a word `w`, the step is the instruction of `w` at the issue port, or the reserved opcode of `w` when it is
no instruction; a word that stalls takes a cycle and stays fetched; a hold of the group that ends by then ends first. When it
is a program's turn the step is the command that its engine fetched, and an event's turn is that event, one cycle later.
With nothing placed before the device is ready the step is `DEVICE_RESET`; else, with no turn due, what may not wait comes
first, which takes no cycle, and then the turn that has waited longest (R17, R21, R50, R68, R176, R311). The model's own
choices in this: the order of turns (log 11), that a word which stalls stays fetched (log 61, DEDUCED), and that a step in
which nothing issues takes a cycle, by which opportunities are counted (log 50). -/
def Obligations.StepRunsDecoded : Prop := ∀ (s : State) (rest : List Turn),
  (∀ (gid stall l : Nat) (u : State) (w : Word), s.agenda = .issue gid stall :: rest →
    let t := { s with agenda := rest, serial := s.serial + 1 }
    let set := t.issueSet gid l
    let pc := ((s.grp gid).th l).pc
    (findK s.groups gid).isSome = true → s.mayIssue gid = true →
    (∀ k, k < 32 → ((s.grp gid).th k).entering = none) → t.chosen gid = some l →
    t.exhausted gid set = 0 → t.astray gid set = 0 →
    (∀ leaf loc, s.Plain (some (s.grp gid).core) (s.cidOf gid) 8 .fetch [pc.toNat] leaf loc →
      s.revokedAt (s.cidOf gid) pc.toNat = false → w = wordN (natLE (s.bytesAt (loc pc.toNat) 8)) →
      (∀ x ∈ (s.core (s.grp gid).core).icache, x.ctx = s.cidOf gid → x.va = pc.toNat → x.word = w) →
      (∀ x, (s.grp gid).fetched = some (pc, x) → x = w) →
      ∃ v, t.issueFetch gid pc = (v, .ok w) ∧ SameMemory s v)
    ∧ (t.issueFetch gid pc = (u, .ok w) →
    (∀ i, decodeWord w = .ok i → let v := u.atPort gid l set (some i) stall
      (v.stalls i = false →
        (u.dueHold gid v.cycle = none → step s = exec i v)
        ∧ (∀ j d, u.dueHold gid v.cycle = some (j, d) → ∃ x n, step s = exec (.holdExpiry gid j) x
          ∧ x.agenda = .issue gid n :: rest ∧ x.mem = u.mem ∧ s.cycle < x.cycle ∧ x.groups = u.groups)
        ∧ (v.cur = gid ∧ v.iset = set ∧ v.ilane = l ∧ v.issuePc = pc ∧ v.mem = u.mem ∧ s.cycle ≤ v.cycle
            ∧ (v.cycle = s.cycle → (s.grp gid).lastIssue = s.cycle)
            ∧ ∀ k n, k < 32 → v.g.rawV n k = (u.grp gid).rawV n k ∧ v.g.rawS n = (u.grp gid).rawS n))
      ∧ (v.stalls i = true → step s = .next { u with
          groups := modK u.groups gid (fun g => { g with fetched := some (pc, w) })
          serial := u.serial + 1
          cycle := u.cycle + 1 }))
    ∧ (∀ e, decodeWord w = .error e → let v := u.atPort gid l set none stall
        u.dueHold gid v.cycle = none → step s = exec (.reservedOpcode w) v)))
  ∧ (∀ (pid : Nat) (u : State) (i : Instr), s.agenda = .engine pid :: rest →
    (({ s with agenda := rest, eng := pid, serial := s.serial + 1, cycle := s.cycle + 1 } : State).modProg pid
      Prog.onTurn).fetchCmd pid = (u, .perform i) → step s = exec i u)
  ∧ (∀ (i : Instr), s.agenda = .run i :: rest →
    step s = exec i { s with agenda := rest, serial := s.serial + 1, cycle := s.cycle + 1 })
  ∧ (s.agenda = .loader :: rest → step s =
    .next ({ s with agenda := rest, serial := s.serial + 1, cycle := s.cycle + 1 } : State).loaderTurn)
  ∧ (s.agenda = [] → s.mgmt.ready = false →
    step s = exec .deviceReset { s with serial := s.serial + 1, cycle := s.cycle + 1 })
  ∧ (s.agenda = [] → s.mgmt.ready = true → let t : State := { s with groups := s.groups.map (s.markGroup s.eligibles) }
    (∀ i is, t.urgent = i :: is → step s = exec i { t with serial := s.serial + 1 })
    ∧ (t.urgent = [] → ∀ x ts, inOrder s.queue (t.turns s.eligibles) = x :: ts → step s = ({ t with queue := ts } : State).take x))

/-- No step stops: with no instruction word in the agenda the machine answers a next state, which is again one of these
(no instruction of this device has a stop: an exception is taken). -/
def Obligations.NoStepStops : Prop := ∀ (s : State), s.AgendaOk → ∃ t, step s = .next t ∧ t.AgendaOk

/-- Every step keeps the canonical form of memory, and the lane at the issue port a lane. -/
def Obligations.StepKeepsCanonical : Prop := ∀ (s t : State), s.MemOk ∧ s.ilane < 32 → step s = .next t →
  t.MemOk ∧ t.ilane < 32

/-- Right after reset the device is not ready, nothing is placed, no context and no code object exists, memory lists
nothing; the first step brings the device up: the firmware of slot 0 is measured into the attestation log and ready is set
(R311). The state meets the invariants that steps keep. Register values that no rule gives: log 3. -/
def Obligations.ResetState : Prop :=
  let s := State.reset
  s.mgmt.ready = false ∧ s.groups = [] ∧ s.wgs = [] ∧ s.regions = [] ∧ s.ctxs = [] ∧ s.objects = [] ∧ s.progs = []
    ∧ s.mem = [] ∧ s.svc.fwSlot = 0 ∧ s.MemOk ∧ s.ilane < 32 ∧ s.AgendaOk
    ∧ ∃ t, step s = .next t ∧ t.mgmt.ready = true ∧ t.svc.log = [Config.slotMeasure 0] ∧ t.ctxs = [] ∧ t.objects = []
end

