-- ==== Sys2Proof/Laws/Maps.lean ====
section
/-! SUPPORT. The laws of finite maps: reading after writing, and that every operation keeps the canonical form. -/
namespace Sys2Proof.Machine

variable {α : Type}

@[simp] theorem findK_nil (k : Nat) : findK ([] : KMap α) k = none := rfl

theorem findK_cons (j : Nat) (x : α) (m : KMap α) (k : Nat) :
    findK ((j, x) :: m) k = if j = k then some x else findK m k := rfl

/-- The first key of a map lies above `b`. -/
def headAbove (b : Nat) : KMap α → Prop
  | [] => True
  | (j, _) :: _ => b < j

theorem risingK_cons {j : Nat} {x : α} {m : KMap α} :
    risingK ((j, x) :: m) = true ↔ headAbove j m ∧ risingK m = true := by
  cases m with
  | nil => simp [risingK, headAbove]
  | cons p m => obtain ⟨k, y⟩ := p; simp [risingK, headAbove]

/-- No key at or below the bound of a rising map is listed. -/
theorem findK_below {b k : Nat} {m : KMap α} (h : risingK m = true) (hb : headAbove b m) (hk : k ≤ b) :
    findK m k = none := by
  induction m generalizing b with
  | nil => rfl
  | cons p m ih =>
    obtain ⟨j, x⟩ := p
    simp only [headAbove] at hb
    rw [risingK_cons] at h
    rw [findK_cons, if_neg (by omega)]
    exact ih h.2 h.1 (by omega)

theorem headAbove_insK {b k : Nat} {v : α} {m : KMap α} (hb : headAbove b m) (hk : b < k) :
    headAbove b (insK m k v) := by
  cases m with
  | nil => exact hk
  | cons p m =>
    obtain ⟨j, x⟩ := p
    simp only [headAbove] at hb
    simp only [insK]
    split
    · exact hk
    · split
      · exact hk
      · exact hb

theorem risingK_insK {m : KMap α} (h : risingK m = true) (k : Nat) (v : α) : risingK (insK m k v) = true := by
  induction m with
  | nil => rfl
  | cons p m ih =>
    obtain ⟨j, x⟩ := p
    have h' := risingK_cons.1 h
    simp only [insK]
    split
    · rename_i hkj; exact risingK_cons.2 ⟨hkj, h⟩
    · split
      · rename_i hkj; subst hkj; exact risingK_cons.2 ⟨h'.1, h'.2⟩
      · exact risingK_cons.2 ⟨headAbove_insK h'.1 (by omega), ih h'.2⟩

theorem headAbove_weaken {a b : Nat} {m : KMap α} (h : headAbove b m) (hab : a ≤ b) : headAbove a m := by
  cases m with
  | nil => trivial
  | cons q m => obtain ⟨i, y⟩ := q; simp only [headAbove] at h ⊢; omega

theorem headAbove_delK {b k : Nat} {m : KMap α} (h : risingK m = true) (hb : headAbove b m) :
    headAbove b (delK m k) := by
  induction m with
  | nil => trivial
  | cons p m ih =>
    obtain ⟨j, x⟩ := p
    simp only [headAbove] at hb
    have h' := risingK_cons.1 h
    simp only [delK]
    split
    · exact ih h'.2 (headAbove_weaken h'.1 (by omega))
    · exact hb

theorem risingK_delK {m : KMap α} (h : risingK m = true) (k : Nat) : risingK (delK m k) = true := by
  induction m with
  | nil => rfl
  | cons p m ih =>
    obtain ⟨j, x⟩ := p
    have h' := risingK_cons.1 h
    simp only [delK]
    split
    · exact ih h'.2
    · exact risingK_cons.2 ⟨headAbove_delK h'.2 h'.1, ih h'.2⟩

/-- Reading after an insertion; the keys need not rise. -/
theorem findK_insK (m : KMap α) (k : Nat) (v : α) (i : Nat) :
    findK (insK m k v) i = if k = i then some v else findK m i := by
  induction m with
  | nil => rfl
  | cons p m ih =>
    obtain ⟨j, x⟩ := p
    simp only [insK]
    split
    · rfl
    · split
      · rename_i hkj; subst hkj; simp only [findK_cons]; split <;> rfl
      · simp only [findK_cons, ih]
        split
        · rename_i hji; rw [if_neg (by omega)]
        · rfl

/-- Reading another key after a removal. -/
theorem findK_delK_ne (m : KMap α) {k i : Nat} (h : k ≠ i) : findK (delK m k) i = findK m i := by
  induction m with
  | nil => rfl
  | cons p m ih =>
    obtain ⟨j, x⟩ := p
    simp only [delK]
    split
    · rename_i hj; rw [findK_cons, if_neg (by omega), ih]
    · simp only [findK_cons, ih]

/-- A removed key is not listed. -/
@[simp] theorem findK_delK_self (m : KMap α) (k : Nat) : findK (delK m k) k = none := by
  induction m with
  | nil => rfl
  | cons p m ih =>
    obtain ⟨j, x⟩ := p
    simp only [delK]
    split
    · exact ih
    · rename_i hj; rw [findK_cons, if_neg hj]; exact ih

/-- Reading after a change of one entry. -/
theorem findK_modK (m : KMap α) (k : Nat) (f : α → α) (i : Nat) :
    findK (modK m k f) i = if k = i then (findK m k).map f else findK m i := by
  simp only [modK]
  split
  · rename_i x hx; rw [findK_insK, hx]; rfl
  · rename_i hx; split
    · rename_i h; subst h; rw [hx]; rfl
    · rfl

theorem risingK_modK {m : KMap α} (h : risingK m = true) (k : Nat) (f : α → α) : risingK (modK m k f) = true := by
  simp only [modK]; split
  · exact risingK_insK h _ _
  · exact h

/-- Two writes of one key. -/
theorem insK_insK (m : KMap α) (k : Nat) (v w : α) : insK (insK m k v) k w = insK m k w := by
  induction m with
  | nil => simp [insK]
  | cons p m ih =>
    obtain ⟨j, x⟩ := p
    simp only [insK]
    split
    · simp [insK]
    · split
      · simp [insK]
      · rename_i h1 h2; simp only [insK, if_neg h1, if_neg h2, ih]

/-- Two changes of one entry are one. -/
theorem modK_modK (m : KMap α) (k : Nat) (f g : α → α) : modK (modK m k f) k g = modK m k (fun x => g (f x)) := by
  cases h : findK m k with
  | none => simp [modK, h]
  | some x => simp [modK, h, findK_insK, insK_insK]

theorem modK_congr {m : KMap α} {k : Nat} {f g : α → α} (h : ∀ x, findK m k = some x → f x = g x) :
    modK m k f = modK m k g := by
  cases hx : findK m k with
  | none => simp [modK, hx]
  | some x => simp [modK, hx, h x hx]

theorem isSome_findK_modK (m : KMap α) (k : Nat) (f : α → α) (i : Nat) :
    (findK (modK m k f) i).isSome = (findK m i).isSome := by
  rw [findK_modK]; split
  · rename_i h; subst h; cases findK m k <;> rfl
  · rfl

theorem getD_modK_self {m : KMap α} {d : α} {k : Nat} {x : α} (h : findK m k = some x) (f : α → α) :
    getD (modK m k f) d k = f x := by simp [getD, findK_modK, h]

theorem getD_modK_ne (m : KMap α) (d : α) {k i : Nat} (h : k ≠ i) (f : α → α) :
    getD (modK m k f) d i = getD m d i := by simp [getD, findK_modK, h]

section Default

variable [DecidableEq α]

/-- A write is read back. -/
theorem getD_putD_self (m : KMap α) (d : α) (k : Nat) (v : α) :
    getD (putD m d k v) d k = v := by
  unfold getD putD
  split
  · rename_i hv; rw [findK_delK_self, hv]; rfl
  · rw [findK_insK, if_pos rfl]; rfl

/-- A write leaves every other key alone. -/
theorem getD_putD_ne (m : KMap α) (d : α) {k i : Nat} (v : α) (h : k ≠ i) : getD (putD m d k v) d i = getD m d i := by
  unfold getD putD
  split
  · rw [findK_delK_ne m h]
  · rw [findK_insK, if_neg h]

theorem getD_putD (m : KMap α) (d : α) (k : Nat) (v : α) (i : Nat) :
    getD (putD m d k v) d i = if k = i then v else getD m d i := by
  split
  · rename_i hk; subst hk; exact getD_putD_self _ _ _ _
  · rename_i hk; exact getD_putD_ne m d v hk

omit [DecidableEq α] in
theorem all_insK {m : KMap α} {p : Nat × α → Bool} (h : m.all p = true) {k : Nat} {v : α} (hv : p (k, v) = true) :
    (insK m k v).all p = true := by
  induction m with
  | nil => simp [insK, hv]
  | cons q m ih =>
    obtain ⟨j, x⟩ := q
    simp only [List.all_cons, Bool.and_eq_true] at h
    simp only [insK]
    split
    · simp [hv, h.1, h.2]
    · split
      · simp [hv, h.2]
      · simp only [List.all_cons, Bool.and_eq_true]; exact ⟨h.1, ih h.2⟩

omit [DecidableEq α] in
theorem all_delK {m : KMap α} {p : Nat × α → Bool} (h : m.all p = true) (k : Nat) : (delK m k).all p = true := by
  induction m with
  | nil => rfl
  | cons q m ih =>
    obtain ⟨j, x⟩ := q
    simp only [List.all_cons, Bool.and_eq_true] at h
    simp only [delK]
    split
    · exact ih h.2
    · simp only [List.all_cons, Bool.and_eq_true]; exact ⟨h.1, ih h.2⟩

/-- A write keeps the canonical form. -/
theorem canonK_putD {m : KMap α} {d : α} (h : canonK m d = true) (k : Nat) (v : α) : canonK (putD m d k v) d = true := by
  simp only [canonK, Bool.and_eq_true] at h ⊢
  unfold putD
  split
  · exact ⟨risingK_delK h.1 k, all_delK h.2 k⟩
  · rename_i hv; exact ⟨risingK_insK h.1 k v, all_insK h.2 (by simpa using hv)⟩

omit [DecidableEq α] in
theorem headAbove_filter {b : Nat} {m : KMap α} (h : risingK m = true) (hb : headAbove b m) (p : Nat × α → Bool) :
    headAbove b (m.filter p) := by
  induction m with
  | nil => trivial
  | cons q m ih =>
    obtain ⟨j, x⟩ := q
    simp only [headAbove] at hb
    have h' := risingK_cons.1 h
    simp only [List.filter_cons]
    split
    · exact hb
    · refine ih h'.2 ?_
      cases m with
      | nil => trivial
      | cons q m => obtain ⟨i, y⟩ := q; have := h'.1; simp only [headAbove] at this ⊢; omega

/-- Dropping entries keeps the canonical form. -/
theorem canonK_filter {m : KMap α} {d : α} (h : canonK m d = true) (p : Nat × α → Bool) :
    canonK (m.filter p) d = true := by
  simp only [canonK, Bool.and_eq_true] at h ⊢
  refine ⟨?_, ?_⟩
  · have h1 := h.1; clear h
    induction m with
    | nil => rfl
    | cons q m ih =>
      obtain ⟨j, x⟩ := q
      have h' := risingK_cons.1 h1
      simp only [List.filter_cons]
      split
      · exact risingK_cons.2 ⟨headAbove_filter h'.2 h'.1 p, ih h'.2⟩
      · exact ih h'.2
  · simp only [List.all_eq_true, List.mem_filter] at h ⊢
    exact fun x hx => h.2 x hx.1

end Default

/-- Lanes of a mask. -/
theorem mem_laneList {l : Nat} : l ∈ laneList ↔ l < 32 := by simp [laneList]

theorem mem_lanesOf {m : LaneMask} {l : Nat} : l ∈ lanesOf m ↔ l < 32 ∧ bitOf m l = true := by
  simp [lanesOf, mem_laneList]

end Sys2Proof.Machine
end

