-- ==== Sys2Proof/Laws/State.lean ====
section
/-! SUPPORT. What each update of the state and of a group leaves in every field, all true by computation. -/
namespace Sys2Proof.Machine

/-! ## Updates of the state -/

@[simp] theorem State.modGrp_cycle (s : State) (gid : Nat) (f : Group → Group) : (s.modGrp gid f).cycle = s.cycle := rfl
@[simp] theorem State.modGrp_mem (s : State) (gid : Nat) (f : Group → Group) : (s.modGrp gid f).mem = s.mem := rfl
@[simp] theorem State.modGrp_poison (s : State) (gid : Nat) (f : Group → Group) : (s.modGrp gid f).poison = s.poison := rfl
@[simp] theorem State.modGrp_cores (s : State) (gid : Nat) (f : Group → Group) : (s.modGrp gid f).cores = s.cores := rfl
@[simp] theorem State.modGrp_fused (s : State) (gid : Nat) (f : Group → Group) : (s.modGrp gid f).fused = s.fused := rfl
@[simp] theorem State.modGrp_wgs (s : State) (gid : Nat) (f : Group → Group) : (s.modGrp gid f).wgs = s.wgs := rfl
@[simp] theorem State.modGrp_regions (s : State) (gid : Nat) (f : Group → Group) : (s.modGrp gid f).regions = s.regions := rfl
@[simp] theorem State.modGrp_ctxs (s : State) (gid : Nat) (f : Group → Group) : (s.modGrp gid f).ctxs = s.ctxs := rfl
@[simp] theorem State.modGrp_objects (s : State) (gid : Nat) (f : Group → Group) : (s.modGrp gid f).objects = s.objects := rfl
@[simp] theorem State.modGrp_loads (s : State) (gid : Nat) (f : Group → Group) : (s.modGrp gid f).loads = s.loads := rfl
@[simp] theorem State.modGrp_progs (s : State) (gid : Nat) (f : Group → Group) : (s.modGrp gid f).progs = s.progs := rfl
@[simp] theorem State.modGrp_mgmt (s : State) (gid : Nat) (f : Group → Group) : (s.modGrp gid f).mgmt = s.mgmt := rfl
@[simp] theorem State.modGrp_svc (s : State) (gid : Nat) (f : Group → Group) : (s.modGrp gid f).svc = s.svc := rfl
@[simp] theorem State.modGrp_inject (s : State) (gid : Nat) (f : Group → Group) : (s.modGrp gid f).inject = s.inject := rfl
@[simp] theorem State.modGrp_first (s : State) (gid : Nat) (f : Group → Group) : (s.modGrp gid f).first = s.first := rfl
@[simp] theorem State.modGrp_serial (s : State) (gid : Nat) (f : Group → Group) : (s.modGrp gid f).serial = s.serial := rfl
@[simp] theorem State.modGrp_agenda (s : State) (gid : Nat) (f : Group → Group) : (s.modGrp gid f).agenda = s.agenda := rfl
@[simp] theorem State.modGrp_queue (s : State) (gid : Nat) (f : Group → Group) : (s.modGrp gid f).queue = s.queue := rfl
@[simp] theorem State.modGrp_cur (s : State) (gid : Nat) (f : Group → Group) : (s.modGrp gid f).cur = s.cur := rfl
@[simp] theorem State.modGrp_iset (s : State) (gid : Nat) (f : Group → Group) : (s.modGrp gid f).iset = s.iset := rfl
@[simp] theorem State.modGrp_ilane (s : State) (gid : Nat) (f : Group → Group) : (s.modGrp gid f).ilane = s.ilane := rfl
@[simp] theorem State.modGrp_eng (s : State) (gid : Nat) (f : Group → Group) : (s.modGrp gid f).eng = s.eng := rfl
@[simp] theorem State.modGrp_nextId (s : State) (gid : Nat) (f : Group → Group) : (s.modGrp gid f).nextId = s.nextId := rfl
@[simp] theorem State.modGrp_frames (s : State) (gid : Nat) (f : Group → Group) : (s.modGrp gid f).frames = s.frames := rfl

@[simp] theorem State.modG_cycle (s : State) (f : Group → Group) : (s.modG f).cycle = s.cycle := rfl
@[simp] theorem State.modG_mem (s : State) (f : Group → Group) : (s.modG f).mem = s.mem := rfl
@[simp] theorem State.modG_poison (s : State) (f : Group → Group) : (s.modG f).poison = s.poison := rfl
@[simp] theorem State.modG_cores (s : State) (f : Group → Group) : (s.modG f).cores = s.cores := rfl
@[simp] theorem State.modG_fused (s : State) (f : Group → Group) : (s.modG f).fused = s.fused := rfl
@[simp] theorem State.modG_wgs (s : State) (f : Group → Group) : (s.modG f).wgs = s.wgs := rfl
@[simp] theorem State.modG_regions (s : State) (f : Group → Group) : (s.modG f).regions = s.regions := rfl
@[simp] theorem State.modG_ctxs (s : State) (f : Group → Group) : (s.modG f).ctxs = s.ctxs := rfl
@[simp] theorem State.modG_objects (s : State) (f : Group → Group) : (s.modG f).objects = s.objects := rfl
@[simp] theorem State.modG_loads (s : State) (f : Group → Group) : (s.modG f).loads = s.loads := rfl
@[simp] theorem State.modG_progs (s : State) (f : Group → Group) : (s.modG f).progs = s.progs := rfl
@[simp] theorem State.modG_mgmt (s : State) (f : Group → Group) : (s.modG f).mgmt = s.mgmt := rfl
@[simp] theorem State.modG_svc (s : State) (f : Group → Group) : (s.modG f).svc = s.svc := rfl
@[simp] theorem State.modG_inject (s : State) (f : Group → Group) : (s.modG f).inject = s.inject := rfl
@[simp] theorem State.modG_first (s : State) (f : Group → Group) : (s.modG f).first = s.first := rfl
@[simp] theorem State.modG_serial (s : State) (f : Group → Group) : (s.modG f).serial = s.serial := rfl
@[simp] theorem State.modG_agenda (s : State) (f : Group → Group) : (s.modG f).agenda = s.agenda := rfl
@[simp] theorem State.modG_queue (s : State) (f : Group → Group) : (s.modG f).queue = s.queue := rfl
@[simp] theorem State.modG_cur (s : State) (f : Group → Group) : (s.modG f).cur = s.cur := rfl
@[simp] theorem State.modG_iset (s : State) (f : Group → Group) : (s.modG f).iset = s.iset := rfl
@[simp] theorem State.modG_ilane (s : State) (f : Group → Group) : (s.modG f).ilane = s.ilane := rfl
@[simp] theorem State.modG_eng (s : State) (f : Group → Group) : (s.modG f).eng = s.eng := rfl
@[simp] theorem State.modG_nextId (s : State) (f : Group → Group) : (s.modG f).nextId = s.nextId := rfl
@[simp] theorem State.modG_frames (s : State) (f : Group → Group) : (s.modG f).frames = s.frames := rfl

@[simp] theorem State.modWg_cycle (s : State) (wid : Nat) (f : Wg → Wg) : (s.modWg wid f).cycle = s.cycle := rfl
@[simp] theorem State.modWg_mem (s : State) (wid : Nat) (f : Wg → Wg) : (s.modWg wid f).mem = s.mem := rfl
@[simp] theorem State.modWg_poison (s : State) (wid : Nat) (f : Wg → Wg) : (s.modWg wid f).poison = s.poison := rfl
@[simp] theorem State.modWg_cores (s : State) (wid : Nat) (f : Wg → Wg) : (s.modWg wid f).cores = s.cores := rfl
@[simp] theorem State.modWg_fused (s : State) (wid : Nat) (f : Wg → Wg) : (s.modWg wid f).fused = s.fused := rfl
@[simp] theorem State.modWg_groups (s : State) (wid : Nat) (f : Wg → Wg) : (s.modWg wid f).groups = s.groups := rfl
@[simp] theorem State.modWg_regions (s : State) (wid : Nat) (f : Wg → Wg) : (s.modWg wid f).regions = s.regions := rfl
@[simp] theorem State.modWg_ctxs (s : State) (wid : Nat) (f : Wg → Wg) : (s.modWg wid f).ctxs = s.ctxs := rfl
@[simp] theorem State.modWg_objects (s : State) (wid : Nat) (f : Wg → Wg) : (s.modWg wid f).objects = s.objects := rfl
@[simp] theorem State.modWg_loads (s : State) (wid : Nat) (f : Wg → Wg) : (s.modWg wid f).loads = s.loads := rfl
@[simp] theorem State.modWg_progs (s : State) (wid : Nat) (f : Wg → Wg) : (s.modWg wid f).progs = s.progs := rfl
@[simp] theorem State.modWg_mgmt (s : State) (wid : Nat) (f : Wg → Wg) : (s.modWg wid f).mgmt = s.mgmt := rfl
@[simp] theorem State.modWg_svc (s : State) (wid : Nat) (f : Wg → Wg) : (s.modWg wid f).svc = s.svc := rfl
@[simp] theorem State.modWg_inject (s : State) (wid : Nat) (f : Wg → Wg) : (s.modWg wid f).inject = s.inject := rfl
@[simp] theorem State.modWg_first (s : State) (wid : Nat) (f : Wg → Wg) : (s.modWg wid f).first = s.first := rfl
@[simp] theorem State.modWg_serial (s : State) (wid : Nat) (f : Wg → Wg) : (s.modWg wid f).serial = s.serial := rfl
@[simp] theorem State.modWg_agenda (s : State) (wid : Nat) (f : Wg → Wg) : (s.modWg wid f).agenda = s.agenda := rfl
@[simp] theorem State.modWg_queue (s : State) (wid : Nat) (f : Wg → Wg) : (s.modWg wid f).queue = s.queue := rfl
@[simp] theorem State.modWg_cur (s : State) (wid : Nat) (f : Wg → Wg) : (s.modWg wid f).cur = s.cur := rfl
@[simp] theorem State.modWg_iset (s : State) (wid : Nat) (f : Wg → Wg) : (s.modWg wid f).iset = s.iset := rfl
@[simp] theorem State.modWg_ilane (s : State) (wid : Nat) (f : Wg → Wg) : (s.modWg wid f).ilane = s.ilane := rfl
@[simp] theorem State.modWg_eng (s : State) (wid : Nat) (f : Wg → Wg) : (s.modWg wid f).eng = s.eng := rfl
@[simp] theorem State.modWg_nextId (s : State) (wid : Nat) (f : Wg → Wg) : (s.modWg wid f).nextId = s.nextId := rfl
@[simp] theorem State.modWg_frames (s : State) (wid : Nat) (f : Wg → Wg) : (s.modWg wid f).frames = s.frames := rfl

@[simp] theorem State.modRegion_cycle (s : State) (rid : Nat) (f : Region → Region) : (s.modRegion rid f).cycle = s.cycle := rfl
@[simp] theorem State.modRegion_mem (s : State) (rid : Nat) (f : Region → Region) : (s.modRegion rid f).mem = s.mem := rfl
@[simp] theorem State.modRegion_poison (s : State) (rid : Nat) (f : Region → Region) : (s.modRegion rid f).poison = s.poison := rfl
@[simp] theorem State.modRegion_cores (s : State) (rid : Nat) (f : Region → Region) : (s.modRegion rid f).cores = s.cores := rfl
@[simp] theorem State.modRegion_fused (s : State) (rid : Nat) (f : Region → Region) : (s.modRegion rid f).fused = s.fused := rfl
@[simp] theorem State.modRegion_groups (s : State) (rid : Nat) (f : Region → Region) : (s.modRegion rid f).groups = s.groups := rfl
@[simp] theorem State.modRegion_wgs (s : State) (rid : Nat) (f : Region → Region) : (s.modRegion rid f).wgs = s.wgs := rfl
@[simp] theorem State.modRegion_ctxs (s : State) (rid : Nat) (f : Region → Region) : (s.modRegion rid f).ctxs = s.ctxs := rfl
@[simp] theorem State.modRegion_objects (s : State) (rid : Nat) (f : Region → Region) : (s.modRegion rid f).objects = s.objects := rfl
@[simp] theorem State.modRegion_loads (s : State) (rid : Nat) (f : Region → Region) : (s.modRegion rid f).loads = s.loads := rfl
@[simp] theorem State.modRegion_progs (s : State) (rid : Nat) (f : Region → Region) : (s.modRegion rid f).progs = s.progs := rfl
@[simp] theorem State.modRegion_mgmt (s : State) (rid : Nat) (f : Region → Region) : (s.modRegion rid f).mgmt = s.mgmt := rfl
@[simp] theorem State.modRegion_svc (s : State) (rid : Nat) (f : Region → Region) : (s.modRegion rid f).svc = s.svc := rfl
@[simp] theorem State.modRegion_inject (s : State) (rid : Nat) (f : Region → Region) : (s.modRegion rid f).inject = s.inject := rfl
@[simp] theorem State.modRegion_first (s : State) (rid : Nat) (f : Region → Region) : (s.modRegion rid f).first = s.first := rfl
@[simp] theorem State.modRegion_serial (s : State) (rid : Nat) (f : Region → Region) : (s.modRegion rid f).serial = s.serial := rfl
@[simp] theorem State.modRegion_agenda (s : State) (rid : Nat) (f : Region → Region) : (s.modRegion rid f).agenda = s.agenda := rfl
@[simp] theorem State.modRegion_queue (s : State) (rid : Nat) (f : Region → Region) : (s.modRegion rid f).queue = s.queue := rfl
@[simp] theorem State.modRegion_cur (s : State) (rid : Nat) (f : Region → Region) : (s.modRegion rid f).cur = s.cur := rfl
@[simp] theorem State.modRegion_iset (s : State) (rid : Nat) (f : Region → Region) : (s.modRegion rid f).iset = s.iset := rfl
@[simp] theorem State.modRegion_ilane (s : State) (rid : Nat) (f : Region → Region) : (s.modRegion rid f).ilane = s.ilane := rfl
@[simp] theorem State.modRegion_eng (s : State) (rid : Nat) (f : Region → Region) : (s.modRegion rid f).eng = s.eng := rfl
@[simp] theorem State.modRegion_nextId (s : State) (rid : Nat) (f : Region → Region) : (s.modRegion rid f).nextId = s.nextId := rfl
@[simp] theorem State.modRegion_frames (s : State) (rid : Nat) (f : Region → Region) : (s.modRegion rid f).frames = s.frames := rfl

@[simp] theorem State.modCtx_cycle (s : State) (cid : Nat) (f : Ctx → Ctx) : (s.modCtx cid f).cycle = s.cycle := rfl
@[simp] theorem State.modCtx_mem (s : State) (cid : Nat) (f : Ctx → Ctx) : (s.modCtx cid f).mem = s.mem := rfl
@[simp] theorem State.modCtx_poison (s : State) (cid : Nat) (f : Ctx → Ctx) : (s.modCtx cid f).poison = s.poison := rfl
@[simp] theorem State.modCtx_cores (s : State) (cid : Nat) (f : Ctx → Ctx) : (s.modCtx cid f).cores = s.cores := rfl
@[simp] theorem State.modCtx_fused (s : State) (cid : Nat) (f : Ctx → Ctx) : (s.modCtx cid f).fused = s.fused := rfl
@[simp] theorem State.modCtx_groups (s : State) (cid : Nat) (f : Ctx → Ctx) : (s.modCtx cid f).groups = s.groups := rfl
@[simp] theorem State.modCtx_wgs (s : State) (cid : Nat) (f : Ctx → Ctx) : (s.modCtx cid f).wgs = s.wgs := rfl
@[simp] theorem State.modCtx_regions (s : State) (cid : Nat) (f : Ctx → Ctx) : (s.modCtx cid f).regions = s.regions := rfl
@[simp] theorem State.modCtx_objects (s : State) (cid : Nat) (f : Ctx → Ctx) : (s.modCtx cid f).objects = s.objects := rfl
@[simp] theorem State.modCtx_loads (s : State) (cid : Nat) (f : Ctx → Ctx) : (s.modCtx cid f).loads = s.loads := rfl
@[simp] theorem State.modCtx_progs (s : State) (cid : Nat) (f : Ctx → Ctx) : (s.modCtx cid f).progs = s.progs := rfl
@[simp] theorem State.modCtx_mgmt (s : State) (cid : Nat) (f : Ctx → Ctx) : (s.modCtx cid f).mgmt = s.mgmt := rfl
@[simp] theorem State.modCtx_svc (s : State) (cid : Nat) (f : Ctx → Ctx) : (s.modCtx cid f).svc = s.svc := rfl
@[simp] theorem State.modCtx_inject (s : State) (cid : Nat) (f : Ctx → Ctx) : (s.modCtx cid f).inject = s.inject := rfl
@[simp] theorem State.modCtx_first (s : State) (cid : Nat) (f : Ctx → Ctx) : (s.modCtx cid f).first = s.first := rfl
@[simp] theorem State.modCtx_serial (s : State) (cid : Nat) (f : Ctx → Ctx) : (s.modCtx cid f).serial = s.serial := rfl
@[simp] theorem State.modCtx_agenda (s : State) (cid : Nat) (f : Ctx → Ctx) : (s.modCtx cid f).agenda = s.agenda := rfl
@[simp] theorem State.modCtx_queue (s : State) (cid : Nat) (f : Ctx → Ctx) : (s.modCtx cid f).queue = s.queue := rfl
@[simp] theorem State.modCtx_cur (s : State) (cid : Nat) (f : Ctx → Ctx) : (s.modCtx cid f).cur = s.cur := rfl
@[simp] theorem State.modCtx_iset (s : State) (cid : Nat) (f : Ctx → Ctx) : (s.modCtx cid f).iset = s.iset := rfl
@[simp] theorem State.modCtx_ilane (s : State) (cid : Nat) (f : Ctx → Ctx) : (s.modCtx cid f).ilane = s.ilane := rfl
@[simp] theorem State.modCtx_eng (s : State) (cid : Nat) (f : Ctx → Ctx) : (s.modCtx cid f).eng = s.eng := rfl
@[simp] theorem State.modCtx_nextId (s : State) (cid : Nat) (f : Ctx → Ctx) : (s.modCtx cid f).nextId = s.nextId := rfl
@[simp] theorem State.modCtx_frames (s : State) (cid : Nat) (f : Ctx → Ctx) : (s.modCtx cid f).frames = s.frames := rfl

@[simp] theorem State.modProg_cycle (s : State) (pid : Nat) (f : Prog → Prog) : (s.modProg pid f).cycle = s.cycle := rfl
@[simp] theorem State.modProg_mem (s : State) (pid : Nat) (f : Prog → Prog) : (s.modProg pid f).mem = s.mem := rfl
@[simp] theorem State.modProg_poison (s : State) (pid : Nat) (f : Prog → Prog) : (s.modProg pid f).poison = s.poison := rfl
@[simp] theorem State.modProg_cores (s : State) (pid : Nat) (f : Prog → Prog) : (s.modProg pid f).cores = s.cores := rfl
@[simp] theorem State.modProg_fused (s : State) (pid : Nat) (f : Prog → Prog) : (s.modProg pid f).fused = s.fused := rfl
@[simp] theorem State.modProg_groups (s : State) (pid : Nat) (f : Prog → Prog) : (s.modProg pid f).groups = s.groups := rfl
@[simp] theorem State.modProg_wgs (s : State) (pid : Nat) (f : Prog → Prog) : (s.modProg pid f).wgs = s.wgs := rfl
@[simp] theorem State.modProg_regions (s : State) (pid : Nat) (f : Prog → Prog) : (s.modProg pid f).regions = s.regions := rfl
@[simp] theorem State.modProg_ctxs (s : State) (pid : Nat) (f : Prog → Prog) : (s.modProg pid f).ctxs = s.ctxs := rfl
@[simp] theorem State.modProg_objects (s : State) (pid : Nat) (f : Prog → Prog) : (s.modProg pid f).objects = s.objects := rfl
@[simp] theorem State.modProg_loads (s : State) (pid : Nat) (f : Prog → Prog) : (s.modProg pid f).loads = s.loads := rfl
@[simp] theorem State.modProg_mgmt (s : State) (pid : Nat) (f : Prog → Prog) : (s.modProg pid f).mgmt = s.mgmt := rfl
@[simp] theorem State.modProg_svc (s : State) (pid : Nat) (f : Prog → Prog) : (s.modProg pid f).svc = s.svc := rfl
@[simp] theorem State.modProg_inject (s : State) (pid : Nat) (f : Prog → Prog) : (s.modProg pid f).inject = s.inject := rfl
@[simp] theorem State.modProg_first (s : State) (pid : Nat) (f : Prog → Prog) : (s.modProg pid f).first = s.first := rfl
@[simp] theorem State.modProg_serial (s : State) (pid : Nat) (f : Prog → Prog) : (s.modProg pid f).serial = s.serial := rfl
@[simp] theorem State.modProg_agenda (s : State) (pid : Nat) (f : Prog → Prog) : (s.modProg pid f).agenda = s.agenda := rfl
@[simp] theorem State.modProg_queue (s : State) (pid : Nat) (f : Prog → Prog) : (s.modProg pid f).queue = s.queue := rfl
@[simp] theorem State.modProg_cur (s : State) (pid : Nat) (f : Prog → Prog) : (s.modProg pid f).cur = s.cur := rfl
@[simp] theorem State.modProg_iset (s : State) (pid : Nat) (f : Prog → Prog) : (s.modProg pid f).iset = s.iset := rfl
@[simp] theorem State.modProg_ilane (s : State) (pid : Nat) (f : Prog → Prog) : (s.modProg pid f).ilane = s.ilane := rfl
@[simp] theorem State.modProg_eng (s : State) (pid : Nat) (f : Prog → Prog) : (s.modProg pid f).eng = s.eng := rfl
@[simp] theorem State.modProg_nextId (s : State) (pid : Nat) (f : Prog → Prog) : (s.modProg pid f).nextId = s.nextId := rfl
@[simp] theorem State.modProg_frames (s : State) (pid : Nat) (f : Prog → Prog) : (s.modProg pid f).frames = s.frames := rfl

@[simp] theorem State.modCore_cycle (s : State) (n : Nat) (f : Core → Core) : (s.modCore n f).cycle = s.cycle := rfl
@[simp] theorem State.modCore_mem (s : State) (n : Nat) (f : Core → Core) : (s.modCore n f).mem = s.mem := rfl
@[simp] theorem State.modCore_poison (s : State) (n : Nat) (f : Core → Core) : (s.modCore n f).poison = s.poison := rfl
@[simp] theorem State.modCore_fused (s : State) (n : Nat) (f : Core → Core) : (s.modCore n f).fused = s.fused := rfl
@[simp] theorem State.modCore_groups (s : State) (n : Nat) (f : Core → Core) : (s.modCore n f).groups = s.groups := rfl
@[simp] theorem State.modCore_wgs (s : State) (n : Nat) (f : Core → Core) : (s.modCore n f).wgs = s.wgs := rfl
@[simp] theorem State.modCore_regions (s : State) (n : Nat) (f : Core → Core) : (s.modCore n f).regions = s.regions := rfl
@[simp] theorem State.modCore_ctxs (s : State) (n : Nat) (f : Core → Core) : (s.modCore n f).ctxs = s.ctxs := rfl
@[simp] theorem State.modCore_objects (s : State) (n : Nat) (f : Core → Core) : (s.modCore n f).objects = s.objects := rfl
@[simp] theorem State.modCore_loads (s : State) (n : Nat) (f : Core → Core) : (s.modCore n f).loads = s.loads := rfl
@[simp] theorem State.modCore_progs (s : State) (n : Nat) (f : Core → Core) : (s.modCore n f).progs = s.progs := rfl
@[simp] theorem State.modCore_mgmt (s : State) (n : Nat) (f : Core → Core) : (s.modCore n f).mgmt = s.mgmt := rfl
@[simp] theorem State.modCore_svc (s : State) (n : Nat) (f : Core → Core) : (s.modCore n f).svc = s.svc := rfl
@[simp] theorem State.modCore_inject (s : State) (n : Nat) (f : Core → Core) : (s.modCore n f).inject = s.inject := rfl
@[simp] theorem State.modCore_first (s : State) (n : Nat) (f : Core → Core) : (s.modCore n f).first = s.first := rfl
@[simp] theorem State.modCore_serial (s : State) (n : Nat) (f : Core → Core) : (s.modCore n f).serial = s.serial := rfl
@[simp] theorem State.modCore_agenda (s : State) (n : Nat) (f : Core → Core) : (s.modCore n f).agenda = s.agenda := rfl
@[simp] theorem State.modCore_queue (s : State) (n : Nat) (f : Core → Core) : (s.modCore n f).queue = s.queue := rfl
@[simp] theorem State.modCore_cur (s : State) (n : Nat) (f : Core → Core) : (s.modCore n f).cur = s.cur := rfl
@[simp] theorem State.modCore_iset (s : State) (n : Nat) (f : Core → Core) : (s.modCore n f).iset = s.iset := rfl
@[simp] theorem State.modCore_ilane (s : State) (n : Nat) (f : Core → Core) : (s.modCore n f).ilane = s.ilane := rfl
@[simp] theorem State.modCore_eng (s : State) (n : Nat) (f : Core → Core) : (s.modCore n f).eng = s.eng := rfl
@[simp] theorem State.modCore_nextId (s : State) (n : Nat) (f : Core → Core) : (s.modCore n f).nextId = s.nextId := rfl
@[simp] theorem State.modCore_frames (s : State) (n : Nat) (f : Core → Core) : (s.modCore n f).frames = s.frames := rfl

@[simp] theorem State.putAt_cycle (s : State) (loc : Nat) (bs : List Byte) : (s.putAt loc bs).cycle = s.cycle := rfl
@[simp] theorem State.putAt_cores (s : State) (loc : Nat) (bs : List Byte) : (s.putAt loc bs).cores = s.cores := rfl
@[simp] theorem State.putAt_fused (s : State) (loc : Nat) (bs : List Byte) : (s.putAt loc bs).fused = s.fused := rfl
@[simp] theorem State.putAt_groups (s : State) (loc : Nat) (bs : List Byte) : (s.putAt loc bs).groups = s.groups := rfl
@[simp] theorem State.putAt_wgs (s : State) (loc : Nat) (bs : List Byte) : (s.putAt loc bs).wgs = s.wgs := rfl
@[simp] theorem State.putAt_regions (s : State) (loc : Nat) (bs : List Byte) : (s.putAt loc bs).regions = s.regions := rfl
@[simp] theorem State.putAt_ctxs (s : State) (loc : Nat) (bs : List Byte) : (s.putAt loc bs).ctxs = s.ctxs := rfl
@[simp] theorem State.putAt_objects (s : State) (loc : Nat) (bs : List Byte) : (s.putAt loc bs).objects = s.objects := rfl
@[simp] theorem State.putAt_loads (s : State) (loc : Nat) (bs : List Byte) : (s.putAt loc bs).loads = s.loads := rfl
@[simp] theorem State.putAt_progs (s : State) (loc : Nat) (bs : List Byte) : (s.putAt loc bs).progs = s.progs := rfl
@[simp] theorem State.putAt_mgmt (s : State) (loc : Nat) (bs : List Byte) : (s.putAt loc bs).mgmt = s.mgmt := rfl
@[simp] theorem State.putAt_svc (s : State) (loc : Nat) (bs : List Byte) : (s.putAt loc bs).svc = s.svc := rfl
@[simp] theorem State.putAt_inject (s : State) (loc : Nat) (bs : List Byte) : (s.putAt loc bs).inject = s.inject := rfl
@[simp] theorem State.putAt_first (s : State) (loc : Nat) (bs : List Byte) : (s.putAt loc bs).first = s.first := rfl
@[simp] theorem State.putAt_serial (s : State) (loc : Nat) (bs : List Byte) : (s.putAt loc bs).serial = s.serial := rfl
@[simp] theorem State.putAt_agenda (s : State) (loc : Nat) (bs : List Byte) : (s.putAt loc bs).agenda = s.agenda := rfl
@[simp] theorem State.putAt_queue (s : State) (loc : Nat) (bs : List Byte) : (s.putAt loc bs).queue = s.queue := rfl
@[simp] theorem State.putAt_cur (s : State) (loc : Nat) (bs : List Byte) : (s.putAt loc bs).cur = s.cur := rfl
@[simp] theorem State.putAt_iset (s : State) (loc : Nat) (bs : List Byte) : (s.putAt loc bs).iset = s.iset := rfl
@[simp] theorem State.putAt_ilane (s : State) (loc : Nat) (bs : List Byte) : (s.putAt loc bs).ilane = s.ilane := rfl
@[simp] theorem State.putAt_eng (s : State) (loc : Nat) (bs : List Byte) : (s.putAt loc bs).eng = s.eng := rfl
@[simp] theorem State.putAt_nextId (s : State) (loc : Nat) (bs : List Byte) : (s.putAt loc bs).nextId = s.nextId := rfl
@[simp] theorem State.putAt_frames (s : State) (loc : Nat) (bs : List Byte) : (s.putAt loc bs).frames = s.frames := rfl

@[simp] theorem State.addPend_cycle (s : State) (gid : Nat) (p : Pend) : (s.addPend gid p).cycle = s.cycle := rfl
@[simp] theorem State.addPend_mem (s : State) (gid : Nat) (p : Pend) : (s.addPend gid p).mem = s.mem := rfl
@[simp] theorem State.addPend_poison (s : State) (gid : Nat) (p : Pend) : (s.addPend gid p).poison = s.poison := rfl
@[simp] theorem State.addPend_cores (s : State) (gid : Nat) (p : Pend) : (s.addPend gid p).cores = s.cores := rfl
@[simp] theorem State.addPend_fused (s : State) (gid : Nat) (p : Pend) : (s.addPend gid p).fused = s.fused := rfl
@[simp] theorem State.addPend_wgs (s : State) (gid : Nat) (p : Pend) : (s.addPend gid p).wgs = s.wgs := rfl
@[simp] theorem State.addPend_regions (s : State) (gid : Nat) (p : Pend) : (s.addPend gid p).regions = s.regions := rfl
@[simp] theorem State.addPend_ctxs (s : State) (gid : Nat) (p : Pend) : (s.addPend gid p).ctxs = s.ctxs := rfl
@[simp] theorem State.addPend_objects (s : State) (gid : Nat) (p : Pend) : (s.addPend gid p).objects = s.objects := rfl
@[simp] theorem State.addPend_loads (s : State) (gid : Nat) (p : Pend) : (s.addPend gid p).loads = s.loads := rfl
@[simp] theorem State.addPend_progs (s : State) (gid : Nat) (p : Pend) : (s.addPend gid p).progs = s.progs := rfl
@[simp] theorem State.addPend_mgmt (s : State) (gid : Nat) (p : Pend) : (s.addPend gid p).mgmt = s.mgmt := rfl
@[simp] theorem State.addPend_svc (s : State) (gid : Nat) (p : Pend) : (s.addPend gid p).svc = s.svc := rfl
@[simp] theorem State.addPend_inject (s : State) (gid : Nat) (p : Pend) : (s.addPend gid p).inject = s.inject := rfl
@[simp] theorem State.addPend_first (s : State) (gid : Nat) (p : Pend) : (s.addPend gid p).first = s.first := rfl
@[simp] theorem State.addPend_serial (s : State) (gid : Nat) (p : Pend) : (s.addPend gid p).serial = s.serial := rfl
@[simp] theorem State.addPend_agenda (s : State) (gid : Nat) (p : Pend) : (s.addPend gid p).agenda = s.agenda := rfl
@[simp] theorem State.addPend_queue (s : State) (gid : Nat) (p : Pend) : (s.addPend gid p).queue = s.queue := rfl
@[simp] theorem State.addPend_cur (s : State) (gid : Nat) (p : Pend) : (s.addPend gid p).cur = s.cur := rfl
@[simp] theorem State.addPend_iset (s : State) (gid : Nat) (p : Pend) : (s.addPend gid p).iset = s.iset := rfl
@[simp] theorem State.addPend_ilane (s : State) (gid : Nat) (p : Pend) : (s.addPend gid p).ilane = s.ilane := rfl
@[simp] theorem State.addPend_eng (s : State) (gid : Nat) (p : Pend) : (s.addPend gid p).eng = s.eng := rfl
@[simp] theorem State.addPend_nextId (s : State) (gid : Nat) (p : Pend) : (s.addPend gid p).nextId = s.nextId := rfl
@[simp] theorem State.addPend_frames (s : State) (gid : Nat) (p : Pend) : (s.addPend gid p).frames = s.frames := rfl

@[simp] theorem State.prune_cycle (s : State) (gid : Nat) : (s.prune gid).cycle = s.cycle := rfl
@[simp] theorem State.prune_mem (s : State) (gid : Nat) : (s.prune gid).mem = s.mem := rfl
@[simp] theorem State.prune_poison (s : State) (gid : Nat) : (s.prune gid).poison = s.poison := rfl
@[simp] theorem State.prune_cores (s : State) (gid : Nat) : (s.prune gid).cores = s.cores := rfl
@[simp] theorem State.prune_fused (s : State) (gid : Nat) : (s.prune gid).fused = s.fused := rfl
@[simp] theorem State.prune_wgs (s : State) (gid : Nat) : (s.prune gid).wgs = s.wgs := rfl
@[simp] theorem State.prune_regions (s : State) (gid : Nat) : (s.prune gid).regions = s.regions := rfl
@[simp] theorem State.prune_ctxs (s : State) (gid : Nat) : (s.prune gid).ctxs = s.ctxs := rfl
@[simp] theorem State.prune_objects (s : State) (gid : Nat) : (s.prune gid).objects = s.objects := rfl
@[simp] theorem State.prune_loads (s : State) (gid : Nat) : (s.prune gid).loads = s.loads := rfl
@[simp] theorem State.prune_progs (s : State) (gid : Nat) : (s.prune gid).progs = s.progs := rfl
@[simp] theorem State.prune_mgmt (s : State) (gid : Nat) : (s.prune gid).mgmt = s.mgmt := rfl
@[simp] theorem State.prune_svc (s : State) (gid : Nat) : (s.prune gid).svc = s.svc := rfl
@[simp] theorem State.prune_inject (s : State) (gid : Nat) : (s.prune gid).inject = s.inject := rfl
@[simp] theorem State.prune_first (s : State) (gid : Nat) : (s.prune gid).first = s.first := rfl
@[simp] theorem State.prune_serial (s : State) (gid : Nat) : (s.prune gid).serial = s.serial := rfl
@[simp] theorem State.prune_agenda (s : State) (gid : Nat) : (s.prune gid).agenda = s.agenda := rfl
@[simp] theorem State.prune_queue (s : State) (gid : Nat) : (s.prune gid).queue = s.queue := rfl
@[simp] theorem State.prune_cur (s : State) (gid : Nat) : (s.prune gid).cur = s.cur := rfl
@[simp] theorem State.prune_iset (s : State) (gid : Nat) : (s.prune gid).iset = s.iset := rfl
@[simp] theorem State.prune_ilane (s : State) (gid : Nat) : (s.prune gid).ilane = s.ilane := rfl
@[simp] theorem State.prune_eng (s : State) (gid : Nat) : (s.prune gid).eng = s.eng := rfl
@[simp] theorem State.prune_nextId (s : State) (gid : Nat) : (s.prune gid).nextId = s.nextId := rfl
@[simp] theorem State.prune_frames (s : State) (gid : Nat) : (s.prune gid).frames = s.frames := rfl

@[simp] theorem State.modGrp_groups (s : State) (gid : Nat) (f : Group → Group) :
    (s.modGrp gid f).groups = modK s.groups gid f := rfl
@[simp] theorem State.modG_groups (s : State) (f : Group → Group) : (s.modG f).groups = modK s.groups s.cur f := rfl
@[simp] theorem State.modWg_wgs (s : State) (wid : Nat) (f : Wg → Wg) : (s.modWg wid f).wgs = modK s.wgs wid f := rfl
@[simp] theorem State.modRegion_regions (s : State) (rid : Nat) (f : Region → Region) :
    (s.modRegion rid f).regions = modK s.regions rid f := rfl
@[simp] theorem State.modCtx_ctxs (s : State) (cid : Nat) (f : Ctx → Ctx) :
    (s.modCtx cid f).ctxs = modK s.ctxs cid f := rfl
@[simp] theorem State.modProg_progs (s : State) (pid : Nat) (f : Prog → Prog) :
    (s.modProg pid f).progs = modK s.progs pid f := rfl
@[simp] theorem State.modCore_cores (s : State) (n : Nat) (f : Core → Core) :
    (s.modCore n f).cores = putD s.cores Core.fresh n (f (s.core n)) := rfl
@[simp] theorem State.putAt_mem (s : State) (loc : Nat) (bs : List Byte) :
    (s.putAt loc bs).mem = putBytes s.mem loc bs := rfl

/-! ## Updates of a group -/

@[simp] theorem Group.modTh_wid (g : Group) (m : LaneMask) (f : Thread → Thread) : (g.modTh m f).wid = g.wid := rfl
@[simp] theorem Group.modTh_grpid (g : Group) (m : LaneMask) (f : Thread → Thread) : (g.modTh m f).grpid = g.grpid := rfl
@[simp] theorem Group.modTh_q (g : Group) (m : LaneMask) (f : Thread → Thread) : (g.modTh m f).q = g.q := rfl
@[simp] theorem Group.modTh_vregs (g : Group) (m : LaneMask) (f : Thread → Thread) : (g.modTh m f).vregs = g.vregs := rfl
@[simp] theorem Group.modTh_sregs (g : Group) (m : LaneMask) (f : Thread → Thread) : (g.modTh m f).sregs = g.sregs := rfl
@[simp] theorem Group.modTh_preds (g : Group) (m : LaneMask) (f : Thread → Thread) : (g.modTh m f).preds = g.preds := rfl
@[simp] theorem Group.modTh_flags (g : Group) (m : LaneMask) (f : Thread → Thread) : (g.modTh m f).flags = g.flags := rfl
@[simp] theorem Group.modTh_role (g : Group) (m : LaneMask) (f : Thread → Thread) : (g.modTh m f).role = g.role := rfl
@[simp] theorem Group.modTh_prio (g : Group) (m : LaneMask) (f : Thread → Thread) : (g.modTh m f).prio = g.prio := rfl
@[simp] theorem Group.modTh_valloc (g : Group) (m : LaneMask) (f : Thread → Thread) : (g.modTh m f).valloc = g.valloc := rfl
@[simp] theorem Group.modTh_regbase (g : Group) (m : LaneMask) (f : Thread → Thread) : (g.modTh m f).regbase = g.regbase := rfl
@[simp] theorem Group.modTh_core (g : Group) (m : LaneMask) (f : Thread → Thread) : (g.modTh m f).core = g.core := rfl
@[simp] theorem Group.modTh_part (g : Group) (m : LaneMask) (f : Thread → Thread) : (g.modTh m f).part = g.part := rfl
@[simp] theorem Group.modTh_mest (g : Group) (m : LaneMask) (f : Thread → Thread) : (g.modTh m f).mest = g.mest := rfl
@[simp] theorem Group.modTh_rowprog (g : Group) (m : LaneMask) (f : Thread → Thread) : (g.modTh m f).rowprog = g.rowprog := rfl
@[simp] theorem Group.modTh_mchk (g : Group) (m : LaneMask) (f : Thread → Thread) : (g.modTh m f).mchk = g.mchk := rfl
@[simp] theorem Group.modTh_cursor (g : Group) (m : LaneMask) (f : Thread → Thread) : (g.modTh m f).cursor = g.cursor := rfl
@[simp] theorem Group.modTh_pending (g : Group) (m : LaneMask) (f : Thread → Thread) : (g.modTh m f).pending = g.pending := rfl
@[simp] theorem Group.modTh_landing (g : Group) (m : LaneMask) (f : Thread → Thread) : (g.modTh m f).landing = g.landing := rfl
@[simp] theorem Group.modTh_issuedAt (g : Group) (m : LaneMask) (f : Thread → Thread) : (g.modTh m f).issuedAt = g.issuedAt := rfl
@[simp] theorem Group.modTh_overlaid (g : Group) (m : LaneMask) (f : Thread → Thread) : (g.modTh m f).overlaid = g.overlaid := rfl
@[simp] theorem Group.modTh_mat (g : Group) (m : LaneMask) (f : Thread → Thread) : (g.modTh m f).mat = g.mat := rfl
@[simp] theorem Group.modTh_pal (g : Group) (m : LaneMask) (f : Thread → Thread) : (g.modTh m f).pal = g.pal := rfl
@[simp] theorem Group.modTh_lastIssue (g : Group) (m : LaneMask) (f : Thread → Thread) : (g.modTh m f).lastIssue = g.lastIssue := rfl
@[simp] theorem Group.modTh_dists (g : Group) (m : LaneMask) (f : Thread → Thread) : (g.modTh m f).dists = g.dists := rfl
@[simp] theorem Group.modTh_lastSlotB (g : Group) (m : LaneMask) (f : Thread → Thread) : (g.modTh m f).lastSlotB = g.lastSlotB := rfl
@[simp] theorem Group.modTh_lastSet (g : Group) (m : LaneMask) (f : Thread → Thread) : (g.modTh m f).lastSet = g.lastSet := rfl
@[simp] theorem Group.modTh_lastFlag (g : Group) (m : LaneMask) (f : Thread → Thread) : (g.modTh m f).lastFlag = g.lastFlag := rfl
@[simp] theorem Group.modTh_ageA (g : Group) (m : LaneMask) (f : Thread → Thread) : (g.modTh m f).ageA = g.ageA := rfl
@[simp] theorem Group.modTh_ageB (g : Group) (m : LaneMask) (f : Thread → Thread) : (g.modTh m f).ageB = g.ageB := rfl
@[simp] theorem Group.modTh_eligA (g : Group) (m : LaneMask) (f : Thread → Thread) : (g.modTh m f).eligA = g.eligA := rfl
@[simp] theorem Group.modTh_eligB (g : Group) (m : LaneMask) (f : Thread → Thread) : (g.modTh m f).eligB = g.eligB := rfl
@[simp] theorem Group.modTh_nCopy (g : Group) (m : LaneMask) (f : Thread → Thread) : (g.modTh m f).nCopy = g.nCopy := rfl
@[simp] theorem Group.modTh_nSeal (g : Group) (m : LaneMask) (f : Thread → Thread) : (g.modTh m f).nSeal = g.nSeal := rfl
@[simp] theorem Group.modTh_lastSeal (g : Group) (m : LaneMask) (f : Thread → Thread) : (g.modTh m f).lastSeal = g.lastSeal := rfl
@[simp] theorem Group.modTh_trialSram (g : Group) (m : LaneMask) (f : Thread → Thread) : (g.modTh m f).trialSram = g.trialSram := rfl
@[simp] theorem Group.modTh_fetched (g : Group) (m : LaneMask) (f : Thread → Thread) : (g.modTh m f).fetched = g.fetched := rfl

@[simp] theorem Group.modLane_wid (g : Group) (l : Nat) (f : Thread → Thread) : (g.modLane l f).wid = g.wid := rfl
@[simp] theorem Group.modLane_grpid (g : Group) (l : Nat) (f : Thread → Thread) : (g.modLane l f).grpid = g.grpid := rfl
@[simp] theorem Group.modLane_q (g : Group) (l : Nat) (f : Thread → Thread) : (g.modLane l f).q = g.q := rfl
@[simp] theorem Group.modLane_vregs (g : Group) (l : Nat) (f : Thread → Thread) : (g.modLane l f).vregs = g.vregs := rfl
@[simp] theorem Group.modLane_sregs (g : Group) (l : Nat) (f : Thread → Thread) : (g.modLane l f).sregs = g.sregs := rfl
@[simp] theorem Group.modLane_preds (g : Group) (l : Nat) (f : Thread → Thread) : (g.modLane l f).preds = g.preds := rfl
@[simp] theorem Group.modLane_flags (g : Group) (l : Nat) (f : Thread → Thread) : (g.modLane l f).flags = g.flags := rfl
@[simp] theorem Group.modLane_role (g : Group) (l : Nat) (f : Thread → Thread) : (g.modLane l f).role = g.role := rfl
@[simp] theorem Group.modLane_prio (g : Group) (l : Nat) (f : Thread → Thread) : (g.modLane l f).prio = g.prio := rfl
@[simp] theorem Group.modLane_valloc (g : Group) (l : Nat) (f : Thread → Thread) : (g.modLane l f).valloc = g.valloc := rfl
@[simp] theorem Group.modLane_regbase (g : Group) (l : Nat) (f : Thread → Thread) : (g.modLane l f).regbase = g.regbase := rfl
@[simp] theorem Group.modLane_core (g : Group) (l : Nat) (f : Thread → Thread) : (g.modLane l f).core = g.core := rfl
@[simp] theorem Group.modLane_part (g : Group) (l : Nat) (f : Thread → Thread) : (g.modLane l f).part = g.part := rfl
@[simp] theorem Group.modLane_mest (g : Group) (l : Nat) (f : Thread → Thread) : (g.modLane l f).mest = g.mest := rfl
@[simp] theorem Group.modLane_rowprog (g : Group) (l : Nat) (f : Thread → Thread) : (g.modLane l f).rowprog = g.rowprog := rfl
@[simp] theorem Group.modLane_mchk (g : Group) (l : Nat) (f : Thread → Thread) : (g.modLane l f).mchk = g.mchk := rfl
@[simp] theorem Group.modLane_cursor (g : Group) (l : Nat) (f : Thread → Thread) : (g.modLane l f).cursor = g.cursor := rfl
@[simp] theorem Group.modLane_pending (g : Group) (l : Nat) (f : Thread → Thread) : (g.modLane l f).pending = g.pending := rfl
@[simp] theorem Group.modLane_landing (g : Group) (l : Nat) (f : Thread → Thread) : (g.modLane l f).landing = g.landing := rfl
@[simp] theorem Group.modLane_issuedAt (g : Group) (l : Nat) (f : Thread → Thread) : (g.modLane l f).issuedAt = g.issuedAt := rfl
@[simp] theorem Group.modLane_overlaid (g : Group) (l : Nat) (f : Thread → Thread) : (g.modLane l f).overlaid = g.overlaid := rfl
@[simp] theorem Group.modLane_mat (g : Group) (l : Nat) (f : Thread → Thread) : (g.modLane l f).mat = g.mat := rfl
@[simp] theorem Group.modLane_pal (g : Group) (l : Nat) (f : Thread → Thread) : (g.modLane l f).pal = g.pal := rfl
@[simp] theorem Group.modLane_lastIssue (g : Group) (l : Nat) (f : Thread → Thread) : (g.modLane l f).lastIssue = g.lastIssue := rfl
@[simp] theorem Group.modLane_dists (g : Group) (l : Nat) (f : Thread → Thread) : (g.modLane l f).dists = g.dists := rfl
@[simp] theorem Group.modLane_lastSlotB (g : Group) (l : Nat) (f : Thread → Thread) : (g.modLane l f).lastSlotB = g.lastSlotB := rfl
@[simp] theorem Group.modLane_lastSet (g : Group) (l : Nat) (f : Thread → Thread) : (g.modLane l f).lastSet = g.lastSet := rfl
@[simp] theorem Group.modLane_lastFlag (g : Group) (l : Nat) (f : Thread → Thread) : (g.modLane l f).lastFlag = g.lastFlag := rfl
@[simp] theorem Group.modLane_ageA (g : Group) (l : Nat) (f : Thread → Thread) : (g.modLane l f).ageA = g.ageA := rfl
@[simp] theorem Group.modLane_ageB (g : Group) (l : Nat) (f : Thread → Thread) : (g.modLane l f).ageB = g.ageB := rfl
@[simp] theorem Group.modLane_eligA (g : Group) (l : Nat) (f : Thread → Thread) : (g.modLane l f).eligA = g.eligA := rfl
@[simp] theorem Group.modLane_eligB (g : Group) (l : Nat) (f : Thread → Thread) : (g.modLane l f).eligB = g.eligB := rfl
@[simp] theorem Group.modLane_nCopy (g : Group) (l : Nat) (f : Thread → Thread) : (g.modLane l f).nCopy = g.nCopy := rfl
@[simp] theorem Group.modLane_nSeal (g : Group) (l : Nat) (f : Thread → Thread) : (g.modLane l f).nSeal = g.nSeal := rfl
@[simp] theorem Group.modLane_lastSeal (g : Group) (l : Nat) (f : Thread → Thread) : (g.modLane l f).lastSeal = g.lastSeal := rfl
@[simp] theorem Group.modLane_trialSram (g : Group) (l : Nat) (f : Thread → Thread) : (g.modLane l f).trialSram = g.trialSram := rfl
@[simp] theorem Group.modLane_fetched (g : Group) (l : Nat) (f : Thread → Thread) : (g.modLane l f).fetched = g.fetched := rfl

@[simp] theorem Group.modPend_wid (g : Group) (id : Nat) (f : Pend → Pend) : (g.modPend id f).wid = g.wid := rfl
@[simp] theorem Group.modPend_grpid (g : Group) (id : Nat) (f : Pend → Pend) : (g.modPend id f).grpid = g.grpid := rfl
@[simp] theorem Group.modPend_threads (g : Group) (id : Nat) (f : Pend → Pend) : (g.modPend id f).threads = g.threads := rfl
@[simp] theorem Group.modPend_q (g : Group) (id : Nat) (f : Pend → Pend) : (g.modPend id f).q = g.q := rfl
@[simp] theorem Group.modPend_vregs (g : Group) (id : Nat) (f : Pend → Pend) : (g.modPend id f).vregs = g.vregs := rfl
@[simp] theorem Group.modPend_sregs (g : Group) (id : Nat) (f : Pend → Pend) : (g.modPend id f).sregs = g.sregs := rfl
@[simp] theorem Group.modPend_preds (g : Group) (id : Nat) (f : Pend → Pend) : (g.modPend id f).preds = g.preds := rfl
@[simp] theorem Group.modPend_flags (g : Group) (id : Nat) (f : Pend → Pend) : (g.modPend id f).flags = g.flags := rfl
@[simp] theorem Group.modPend_role (g : Group) (id : Nat) (f : Pend → Pend) : (g.modPend id f).role = g.role := rfl
@[simp] theorem Group.modPend_prio (g : Group) (id : Nat) (f : Pend → Pend) : (g.modPend id f).prio = g.prio := rfl
@[simp] theorem Group.modPend_valloc (g : Group) (id : Nat) (f : Pend → Pend) : (g.modPend id f).valloc = g.valloc := rfl
@[simp] theorem Group.modPend_regbase (g : Group) (id : Nat) (f : Pend → Pend) : (g.modPend id f).regbase = g.regbase := rfl
@[simp] theorem Group.modPend_core (g : Group) (id : Nat) (f : Pend → Pend) : (g.modPend id f).core = g.core := rfl
@[simp] theorem Group.modPend_part (g : Group) (id : Nat) (f : Pend → Pend) : (g.modPend id f).part = g.part := rfl
@[simp] theorem Group.modPend_mest (g : Group) (id : Nat) (f : Pend → Pend) : (g.modPend id f).mest = g.mest := rfl
@[simp] theorem Group.modPend_rowprog (g : Group) (id : Nat) (f : Pend → Pend) : (g.modPend id f).rowprog = g.rowprog := rfl
@[simp] theorem Group.modPend_mchk (g : Group) (id : Nat) (f : Pend → Pend) : (g.modPend id f).mchk = g.mchk := rfl
@[simp] theorem Group.modPend_cursor (g : Group) (id : Nat) (f : Pend → Pend) : (g.modPend id f).cursor = g.cursor := rfl
@[simp] theorem Group.modPend_landing (g : Group) (id : Nat) (f : Pend → Pend) : (g.modPend id f).landing = g.landing := rfl
@[simp] theorem Group.modPend_issuedAt (g : Group) (id : Nat) (f : Pend → Pend) : (g.modPend id f).issuedAt = g.issuedAt := rfl
@[simp] theorem Group.modPend_overlaid (g : Group) (id : Nat) (f : Pend → Pend) : (g.modPend id f).overlaid = g.overlaid := rfl
@[simp] theorem Group.modPend_mat (g : Group) (id : Nat) (f : Pend → Pend) : (g.modPend id f).mat = g.mat := rfl
@[simp] theorem Group.modPend_pal (g : Group) (id : Nat) (f : Pend → Pend) : (g.modPend id f).pal = g.pal := rfl
@[simp] theorem Group.modPend_lastIssue (g : Group) (id : Nat) (f : Pend → Pend) : (g.modPend id f).lastIssue = g.lastIssue := rfl
@[simp] theorem Group.modPend_dists (g : Group) (id : Nat) (f : Pend → Pend) : (g.modPend id f).dists = g.dists := rfl
@[simp] theorem Group.modPend_lastSlotB (g : Group) (id : Nat) (f : Pend → Pend) : (g.modPend id f).lastSlotB = g.lastSlotB := rfl
@[simp] theorem Group.modPend_lastSet (g : Group) (id : Nat) (f : Pend → Pend) : (g.modPend id f).lastSet = g.lastSet := rfl
@[simp] theorem Group.modPend_lastFlag (g : Group) (id : Nat) (f : Pend → Pend) : (g.modPend id f).lastFlag = g.lastFlag := rfl
@[simp] theorem Group.modPend_ageA (g : Group) (id : Nat) (f : Pend → Pend) : (g.modPend id f).ageA = g.ageA := rfl
@[simp] theorem Group.modPend_ageB (g : Group) (id : Nat) (f : Pend → Pend) : (g.modPend id f).ageB = g.ageB := rfl
@[simp] theorem Group.modPend_eligA (g : Group) (id : Nat) (f : Pend → Pend) : (g.modPend id f).eligA = g.eligA := rfl
@[simp] theorem Group.modPend_eligB (g : Group) (id : Nat) (f : Pend → Pend) : (g.modPend id f).eligB = g.eligB := rfl
@[simp] theorem Group.modPend_nCopy (g : Group) (id : Nat) (f : Pend → Pend) : (g.modPend id f).nCopy = g.nCopy := rfl
@[simp] theorem Group.modPend_nSeal (g : Group) (id : Nat) (f : Pend → Pend) : (g.modPend id f).nSeal = g.nSeal := rfl
@[simp] theorem Group.modPend_lastSeal (g : Group) (id : Nat) (f : Pend → Pend) : (g.modPend id f).lastSeal = g.lastSeal := rfl
@[simp] theorem Group.modPend_trialSram (g : Group) (id : Nat) (f : Pend → Pend) : (g.modPend id f).trialSram = g.trialSram := rfl
@[simp] theorem Group.modPend_fetched (g : Group) (id : Nat) (f : Pend → Pend) : (g.modPend id f).fetched = g.fetched := rfl

@[simp] theorem Group.dropPend_wid (g : Group) (id : Nat) : (g.dropPend id).wid = g.wid := rfl
@[simp] theorem Group.dropPend_grpid (g : Group) (id : Nat) : (g.dropPend id).grpid = g.grpid := rfl
@[simp] theorem Group.dropPend_threads (g : Group) (id : Nat) : (g.dropPend id).threads = g.threads := rfl
@[simp] theorem Group.dropPend_q (g : Group) (id : Nat) : (g.dropPend id).q = g.q := rfl
@[simp] theorem Group.dropPend_vregs (g : Group) (id : Nat) : (g.dropPend id).vregs = g.vregs := rfl
@[simp] theorem Group.dropPend_sregs (g : Group) (id : Nat) : (g.dropPend id).sregs = g.sregs := rfl
@[simp] theorem Group.dropPend_preds (g : Group) (id : Nat) : (g.dropPend id).preds = g.preds := rfl
@[simp] theorem Group.dropPend_flags (g : Group) (id : Nat) : (g.dropPend id).flags = g.flags := rfl
@[simp] theorem Group.dropPend_role (g : Group) (id : Nat) : (g.dropPend id).role = g.role := rfl
@[simp] theorem Group.dropPend_prio (g : Group) (id : Nat) : (g.dropPend id).prio = g.prio := rfl
@[simp] theorem Group.dropPend_valloc (g : Group) (id : Nat) : (g.dropPend id).valloc = g.valloc := rfl
@[simp] theorem Group.dropPend_regbase (g : Group) (id : Nat) : (g.dropPend id).regbase = g.regbase := rfl
@[simp] theorem Group.dropPend_core (g : Group) (id : Nat) : (g.dropPend id).core = g.core := rfl
@[simp] theorem Group.dropPend_part (g : Group) (id : Nat) : (g.dropPend id).part = g.part := rfl
@[simp] theorem Group.dropPend_mest (g : Group) (id : Nat) : (g.dropPend id).mest = g.mest := rfl
@[simp] theorem Group.dropPend_rowprog (g : Group) (id : Nat) : (g.dropPend id).rowprog = g.rowprog := rfl
@[simp] theorem Group.dropPend_mchk (g : Group) (id : Nat) : (g.dropPend id).mchk = g.mchk := rfl
@[simp] theorem Group.dropPend_cursor (g : Group) (id : Nat) : (g.dropPend id).cursor = g.cursor := rfl
@[simp] theorem Group.dropPend_landing (g : Group) (id : Nat) : (g.dropPend id).landing = g.landing := rfl
@[simp] theorem Group.dropPend_issuedAt (g : Group) (id : Nat) : (g.dropPend id).issuedAt = g.issuedAt := rfl
@[simp] theorem Group.dropPend_overlaid (g : Group) (id : Nat) : (g.dropPend id).overlaid = g.overlaid := rfl
@[simp] theorem Group.dropPend_mat (g : Group) (id : Nat) : (g.dropPend id).mat = g.mat := rfl
@[simp] theorem Group.dropPend_pal (g : Group) (id : Nat) : (g.dropPend id).pal = g.pal := rfl
@[simp] theorem Group.dropPend_lastIssue (g : Group) (id : Nat) : (g.dropPend id).lastIssue = g.lastIssue := rfl
@[simp] theorem Group.dropPend_dists (g : Group) (id : Nat) : (g.dropPend id).dists = g.dists := rfl
@[simp] theorem Group.dropPend_lastSlotB (g : Group) (id : Nat) : (g.dropPend id).lastSlotB = g.lastSlotB := rfl
@[simp] theorem Group.dropPend_lastSet (g : Group) (id : Nat) : (g.dropPend id).lastSet = g.lastSet := rfl
@[simp] theorem Group.dropPend_lastFlag (g : Group) (id : Nat) : (g.dropPend id).lastFlag = g.lastFlag := rfl
@[simp] theorem Group.dropPend_ageA (g : Group) (id : Nat) : (g.dropPend id).ageA = g.ageA := rfl
@[simp] theorem Group.dropPend_ageB (g : Group) (id : Nat) : (g.dropPend id).ageB = g.ageB := rfl
@[simp] theorem Group.dropPend_eligA (g : Group) (id : Nat) : (g.dropPend id).eligA = g.eligA := rfl
@[simp] theorem Group.dropPend_eligB (g : Group) (id : Nat) : (g.dropPend id).eligB = g.eligB := rfl
@[simp] theorem Group.dropPend_nCopy (g : Group) (id : Nat) : (g.dropPend id).nCopy = g.nCopy := rfl
@[simp] theorem Group.dropPend_nSeal (g : Group) (id : Nat) : (g.dropPend id).nSeal = g.nSeal := rfl
@[simp] theorem Group.dropPend_lastSeal (g : Group) (id : Nat) : (g.dropPend id).lastSeal = g.lastSeal := rfl
@[simp] theorem Group.dropPend_trialSram (g : Group) (id : Nat) : (g.dropPend id).trialSram = g.trialSram := rfl
@[simp] theorem Group.dropPend_fetched (g : Group) (id : Nat) : (g.dropPend id).fetched = g.fetched := rfl

@[simp] theorem Group.putV_wid (g : Group) (n l : Nat) (x : U32) : (g.putV n l x).wid = g.wid := rfl
@[simp] theorem Group.putV_grpid (g : Group) (n l : Nat) (x : U32) : (g.putV n l x).grpid = g.grpid := rfl
@[simp] theorem Group.putV_threads (g : Group) (n l : Nat) (x : U32) : (g.putV n l x).threads = g.threads := rfl
@[simp] theorem Group.putV_q (g : Group) (n l : Nat) (x : U32) : (g.putV n l x).q = g.q := rfl
@[simp] theorem Group.putV_sregs (g : Group) (n l : Nat) (x : U32) : (g.putV n l x).sregs = g.sregs := rfl
@[simp] theorem Group.putV_preds (g : Group) (n l : Nat) (x : U32) : (g.putV n l x).preds = g.preds := rfl
@[simp] theorem Group.putV_flags (g : Group) (n l : Nat) (x : U32) : (g.putV n l x).flags = g.flags := rfl
@[simp] theorem Group.putV_role (g : Group) (n l : Nat) (x : U32) : (g.putV n l x).role = g.role := rfl
@[simp] theorem Group.putV_prio (g : Group) (n l : Nat) (x : U32) : (g.putV n l x).prio = g.prio := rfl
@[simp] theorem Group.putV_valloc (g : Group) (n l : Nat) (x : U32) : (g.putV n l x).valloc = g.valloc := rfl
@[simp] theorem Group.putV_regbase (g : Group) (n l : Nat) (x : U32) : (g.putV n l x).regbase = g.regbase := rfl
@[simp] theorem Group.putV_core (g : Group) (n l : Nat) (x : U32) : (g.putV n l x).core = g.core := rfl
@[simp] theorem Group.putV_part (g : Group) (n l : Nat) (x : U32) : (g.putV n l x).part = g.part := rfl
@[simp] theorem Group.putV_mest (g : Group) (n l : Nat) (x : U32) : (g.putV n l x).mest = g.mest := rfl
@[simp] theorem Group.putV_rowprog (g : Group) (n l : Nat) (x : U32) : (g.putV n l x).rowprog = g.rowprog := rfl
@[simp] theorem Group.putV_mchk (g : Group) (n l : Nat) (x : U32) : (g.putV n l x).mchk = g.mchk := rfl
@[simp] theorem Group.putV_cursor (g : Group) (n l : Nat) (x : U32) : (g.putV n l x).cursor = g.cursor := rfl
@[simp] theorem Group.putV_pending (g : Group) (n l : Nat) (x : U32) : (g.putV n l x).pending = g.pending := rfl
@[simp] theorem Group.putV_landing (g : Group) (n l : Nat) (x : U32) : (g.putV n l x).landing = g.landing := rfl
@[simp] theorem Group.putV_issuedAt (g : Group) (n l : Nat) (x : U32) : (g.putV n l x).issuedAt = g.issuedAt := rfl
@[simp] theorem Group.putV_overlaid (g : Group) (n l : Nat) (x : U32) : (g.putV n l x).overlaid = g.overlaid := rfl
@[simp] theorem Group.putV_mat (g : Group) (n l : Nat) (x : U32) : (g.putV n l x).mat = g.mat := rfl
@[simp] theorem Group.putV_pal (g : Group) (n l : Nat) (x : U32) : (g.putV n l x).pal = g.pal := rfl
@[simp] theorem Group.putV_lastIssue (g : Group) (n l : Nat) (x : U32) : (g.putV n l x).lastIssue = g.lastIssue := rfl
@[simp] theorem Group.putV_dists (g : Group) (n l : Nat) (x : U32) : (g.putV n l x).dists = g.dists := rfl
@[simp] theorem Group.putV_lastSlotB (g : Group) (n l : Nat) (x : U32) : (g.putV n l x).lastSlotB = g.lastSlotB := rfl
@[simp] theorem Group.putV_lastSet (g : Group) (n l : Nat) (x : U32) : (g.putV n l x).lastSet = g.lastSet := rfl
@[simp] theorem Group.putV_lastFlag (g : Group) (n l : Nat) (x : U32) : (g.putV n l x).lastFlag = g.lastFlag := rfl
@[simp] theorem Group.putV_ageA (g : Group) (n l : Nat) (x : U32) : (g.putV n l x).ageA = g.ageA := rfl
@[simp] theorem Group.putV_ageB (g : Group) (n l : Nat) (x : U32) : (g.putV n l x).ageB = g.ageB := rfl
@[simp] theorem Group.putV_eligA (g : Group) (n l : Nat) (x : U32) : (g.putV n l x).eligA = g.eligA := rfl
@[simp] theorem Group.putV_eligB (g : Group) (n l : Nat) (x : U32) : (g.putV n l x).eligB = g.eligB := rfl
@[simp] theorem Group.putV_nCopy (g : Group) (n l : Nat) (x : U32) : (g.putV n l x).nCopy = g.nCopy := rfl
@[simp] theorem Group.putV_nSeal (g : Group) (n l : Nat) (x : U32) : (g.putV n l x).nSeal = g.nSeal := rfl
@[simp] theorem Group.putV_lastSeal (g : Group) (n l : Nat) (x : U32) : (g.putV n l x).lastSeal = g.lastSeal := rfl
@[simp] theorem Group.putV_trialSram (g : Group) (n l : Nat) (x : U32) : (g.putV n l x).trialSram = g.trialSram := rfl
@[simp] theorem Group.putV_fetched (g : Group) (n l : Nat) (x : U32) : (g.putV n l x).fetched = g.fetched := rfl

@[simp] theorem Group.putS_wid (g : Group) (n : Nat) (x : Word) : (g.putS n x).wid = g.wid := rfl
@[simp] theorem Group.putS_grpid (g : Group) (n : Nat) (x : Word) : (g.putS n x).grpid = g.grpid := rfl
@[simp] theorem Group.putS_threads (g : Group) (n : Nat) (x : Word) : (g.putS n x).threads = g.threads := rfl
@[simp] theorem Group.putS_q (g : Group) (n : Nat) (x : Word) : (g.putS n x).q = g.q := rfl
@[simp] theorem Group.putS_vregs (g : Group) (n : Nat) (x : Word) : (g.putS n x).vregs = g.vregs := rfl
@[simp] theorem Group.putS_preds (g : Group) (n : Nat) (x : Word) : (g.putS n x).preds = g.preds := rfl
@[simp] theorem Group.putS_flags (g : Group) (n : Nat) (x : Word) : (g.putS n x).flags = g.flags := rfl
@[simp] theorem Group.putS_role (g : Group) (n : Nat) (x : Word) : (g.putS n x).role = g.role := rfl
@[simp] theorem Group.putS_prio (g : Group) (n : Nat) (x : Word) : (g.putS n x).prio = g.prio := rfl
@[simp] theorem Group.putS_valloc (g : Group) (n : Nat) (x : Word) : (g.putS n x).valloc = g.valloc := rfl
@[simp] theorem Group.putS_regbase (g : Group) (n : Nat) (x : Word) : (g.putS n x).regbase = g.regbase := rfl
@[simp] theorem Group.putS_core (g : Group) (n : Nat) (x : Word) : (g.putS n x).core = g.core := rfl
@[simp] theorem Group.putS_part (g : Group) (n : Nat) (x : Word) : (g.putS n x).part = g.part := rfl
@[simp] theorem Group.putS_mest (g : Group) (n : Nat) (x : Word) : (g.putS n x).mest = g.mest := rfl
@[simp] theorem Group.putS_rowprog (g : Group) (n : Nat) (x : Word) : (g.putS n x).rowprog = g.rowprog := rfl
@[simp] theorem Group.putS_mchk (g : Group) (n : Nat) (x : Word) : (g.putS n x).mchk = g.mchk := rfl
@[simp] theorem Group.putS_cursor (g : Group) (n : Nat) (x : Word) : (g.putS n x).cursor = g.cursor := rfl
@[simp] theorem Group.putS_pending (g : Group) (n : Nat) (x : Word) : (g.putS n x).pending = g.pending := rfl
@[simp] theorem Group.putS_landing (g : Group) (n : Nat) (x : Word) : (g.putS n x).landing = g.landing := rfl
@[simp] theorem Group.putS_issuedAt (g : Group) (n : Nat) (x : Word) : (g.putS n x).issuedAt = g.issuedAt := rfl
@[simp] theorem Group.putS_overlaid (g : Group) (n : Nat) (x : Word) : (g.putS n x).overlaid = g.overlaid := rfl
@[simp] theorem Group.putS_mat (g : Group) (n : Nat) (x : Word) : (g.putS n x).mat = g.mat := rfl
@[simp] theorem Group.putS_pal (g : Group) (n : Nat) (x : Word) : (g.putS n x).pal = g.pal := rfl
@[simp] theorem Group.putS_lastIssue (g : Group) (n : Nat) (x : Word) : (g.putS n x).lastIssue = g.lastIssue := rfl
@[simp] theorem Group.putS_dists (g : Group) (n : Nat) (x : Word) : (g.putS n x).dists = g.dists := rfl
@[simp] theorem Group.putS_lastSlotB (g : Group) (n : Nat) (x : Word) : (g.putS n x).lastSlotB = g.lastSlotB := rfl
@[simp] theorem Group.putS_lastSet (g : Group) (n : Nat) (x : Word) : (g.putS n x).lastSet = g.lastSet := rfl
@[simp] theorem Group.putS_lastFlag (g : Group) (n : Nat) (x : Word) : (g.putS n x).lastFlag = g.lastFlag := rfl
@[simp] theorem Group.putS_ageA (g : Group) (n : Nat) (x : Word) : (g.putS n x).ageA = g.ageA := rfl
@[simp] theorem Group.putS_ageB (g : Group) (n : Nat) (x : Word) : (g.putS n x).ageB = g.ageB := rfl
@[simp] theorem Group.putS_eligA (g : Group) (n : Nat) (x : Word) : (g.putS n x).eligA = g.eligA := rfl
@[simp] theorem Group.putS_eligB (g : Group) (n : Nat) (x : Word) : (g.putS n x).eligB = g.eligB := rfl
@[simp] theorem Group.putS_nCopy (g : Group) (n : Nat) (x : Word) : (g.putS n x).nCopy = g.nCopy := rfl
@[simp] theorem Group.putS_nSeal (g : Group) (n : Nat) (x : Word) : (g.putS n x).nSeal = g.nSeal := rfl
@[simp] theorem Group.putS_lastSeal (g : Group) (n : Nat) (x : Word) : (g.putS n x).lastSeal = g.lastSeal := rfl
@[simp] theorem Group.putS_trialSram (g : Group) (n : Nat) (x : Word) : (g.putS n x).trialSram = g.trialSram := rfl
@[simp] theorem Group.putS_fetched (g : Group) (n : Nat) (x : Word) : (g.putS n x).fetched = g.fetched := rfl

@[simp] theorem Group.writeS_wid (g : Group) (n : Nat) (x : Word) (due : Due) : (g.writeS n x due).wid = g.wid := by
  unfold Group.writeS; split <;> rfl
@[simp] theorem Group.writeS_grpid (g : Group) (n : Nat) (x : Word) (due : Due) : (g.writeS n x due).grpid = g.grpid := by
  unfold Group.writeS; split <;> rfl
@[simp] theorem Group.writeS_threads (g : Group) (n : Nat) (x : Word) (due : Due) : (g.writeS n x due).threads = g.threads := by
  unfold Group.writeS; split <;> rfl
@[simp] theorem Group.writeS_q (g : Group) (n : Nat) (x : Word) (due : Due) : (g.writeS n x due).q = g.q := by
  unfold Group.writeS; split <;> rfl
@[simp] theorem Group.writeS_vregs (g : Group) (n : Nat) (x : Word) (due : Due) : (g.writeS n x due).vregs = g.vregs := by
  unfold Group.writeS; split <;> rfl
@[simp] theorem Group.writeS_preds (g : Group) (n : Nat) (x : Word) (due : Due) : (g.writeS n x due).preds = g.preds := by
  unfold Group.writeS; split <;> rfl
@[simp] theorem Group.writeS_flags (g : Group) (n : Nat) (x : Word) (due : Due) : (g.writeS n x due).flags = g.flags := by
  unfold Group.writeS; split <;> rfl
@[simp] theorem Group.writeS_role (g : Group) (n : Nat) (x : Word) (due : Due) : (g.writeS n x due).role = g.role := by
  unfold Group.writeS; split <;> rfl
@[simp] theorem Group.writeS_prio (g : Group) (n : Nat) (x : Word) (due : Due) : (g.writeS n x due).prio = g.prio := by
  unfold Group.writeS; split <;> rfl
@[simp] theorem Group.writeS_valloc (g : Group) (n : Nat) (x : Word) (due : Due) : (g.writeS n x due).valloc = g.valloc := by
  unfold Group.writeS; split <;> rfl
@[simp] theorem Group.writeS_regbase (g : Group) (n : Nat) (x : Word) (due : Due) : (g.writeS n x due).regbase = g.regbase := by
  unfold Group.writeS; split <;> rfl
@[simp] theorem Group.writeS_core (g : Group) (n : Nat) (x : Word) (due : Due) : (g.writeS n x due).core = g.core := by
  unfold Group.writeS; split <;> rfl
@[simp] theorem Group.writeS_part (g : Group) (n : Nat) (x : Word) (due : Due) : (g.writeS n x due).part = g.part := by
  unfold Group.writeS; split <;> rfl
@[simp] theorem Group.writeS_mest (g : Group) (n : Nat) (x : Word) (due : Due) : (g.writeS n x due).mest = g.mest := by
  unfold Group.writeS; split <;> rfl
@[simp] theorem Group.writeS_rowprog (g : Group) (n : Nat) (x : Word) (due : Due) : (g.writeS n x due).rowprog = g.rowprog := by
  unfold Group.writeS; split <;> rfl
@[simp] theorem Group.writeS_mchk (g : Group) (n : Nat) (x : Word) (due : Due) : (g.writeS n x due).mchk = g.mchk := by
  unfold Group.writeS; split <;> rfl
@[simp] theorem Group.writeS_cursor (g : Group) (n : Nat) (x : Word) (due : Due) : (g.writeS n x due).cursor = g.cursor := by
  unfold Group.writeS; split <;> rfl
@[simp] theorem Group.writeS_mat (g : Group) (n : Nat) (x : Word) (due : Due) : (g.writeS n x due).mat = g.mat := by
  unfold Group.writeS; split <;> rfl
@[simp] theorem Group.writeS_pal (g : Group) (n : Nat) (x : Word) (due : Due) : (g.writeS n x due).pal = g.pal := by
  unfold Group.writeS; split <;> rfl
@[simp] theorem Group.writeS_lastIssue (g : Group) (n : Nat) (x : Word) (due : Due) : (g.writeS n x due).lastIssue = g.lastIssue := by
  unfold Group.writeS; split <;> rfl
@[simp] theorem Group.writeS_dists (g : Group) (n : Nat) (x : Word) (due : Due) : (g.writeS n x due).dists = g.dists := by
  unfold Group.writeS; split <;> rfl
@[simp] theorem Group.writeS_lastSlotB (g : Group) (n : Nat) (x : Word) (due : Due) : (g.writeS n x due).lastSlotB = g.lastSlotB := by
  unfold Group.writeS; split <;> rfl
@[simp] theorem Group.writeS_lastSet (g : Group) (n : Nat) (x : Word) (due : Due) : (g.writeS n x due).lastSet = g.lastSet := by
  unfold Group.writeS; split <;> rfl
@[simp] theorem Group.writeS_lastFlag (g : Group) (n : Nat) (x : Word) (due : Due) : (g.writeS n x due).lastFlag = g.lastFlag := by
  unfold Group.writeS; split <;> rfl
@[simp] theorem Group.writeS_ageA (g : Group) (n : Nat) (x : Word) (due : Due) : (g.writeS n x due).ageA = g.ageA := by
  unfold Group.writeS; split <;> rfl
@[simp] theorem Group.writeS_ageB (g : Group) (n : Nat) (x : Word) (due : Due) : (g.writeS n x due).ageB = g.ageB := by
  unfold Group.writeS; split <;> rfl
@[simp] theorem Group.writeS_eligA (g : Group) (n : Nat) (x : Word) (due : Due) : (g.writeS n x due).eligA = g.eligA := by
  unfold Group.writeS; split <;> rfl
@[simp] theorem Group.writeS_eligB (g : Group) (n : Nat) (x : Word) (due : Due) : (g.writeS n x due).eligB = g.eligB := by
  unfold Group.writeS; split <;> rfl
@[simp] theorem Group.writeS_nCopy (g : Group) (n : Nat) (x : Word) (due : Due) : (g.writeS n x due).nCopy = g.nCopy := by
  unfold Group.writeS; split <;> rfl
@[simp] theorem Group.writeS_nSeal (g : Group) (n : Nat) (x : Word) (due : Due) : (g.writeS n x due).nSeal = g.nSeal := by
  unfold Group.writeS; split <;> rfl
@[simp] theorem Group.writeS_lastSeal (g : Group) (n : Nat) (x : Word) (due : Due) : (g.writeS n x due).lastSeal = g.lastSeal := by
  unfold Group.writeS; split <;> rfl
@[simp] theorem Group.writeS_trialSram (g : Group) (n : Nat) (x : Word) (due : Due) : (g.writeS n x due).trialSram = g.trialSram := by
  unfold Group.writeS; split <;> rfl
@[simp] theorem Group.writeS_fetched (g : Group) (n : Nat) (x : Word) (due : Due) : (g.writeS n x due).fetched = g.fetched := by
  unfold Group.writeS; split <;> rfl

end Sys2Proof.Machine
end

