-- ==== Sys2Proof/Laws/Memory.lean ====
section
/-! SUPPORT. The laws of physical memory: reading after writing, bytes and numbers, and that every memory operation
keeps the canonical form. -/
namespace Sys2Proof.Machine

/-! ## Bytes and numbers (R10) -/

@[simp] theorem bytesLE_length (n x : Nat) : (bytesLE n x).length = n := by
  induction n generalizing x with
  | zero => rfl
  | succ n ih => simp [bytesLE, ih]

theorem natLE_bytesLE (n x : Nat) : natLE (bytesLE n x) = x % 256 ^ n := by
  induction n generalizing x with
  | zero => simp [bytesLE, natLE, Nat.mod_one]
  | succ n ih =>
    have e : (256 : Nat) ^ (n + 1) = 256 * 256 ^ n := by rw [Nat.pow_succ, Nat.mul_comm]
    rw [bytesLE, natLE, ih, BitVec.toNat_ofNat, e, Nat.mod_mul]

theorem natLE_lt (bs : List Byte) : natLE bs < 256 ^ bs.length := by
  induction bs with
  | nil => simp [natLE]
  | cons b bs ih =>
    have hb : b.toNat < 256 := b.isLt
    simp only [natLE, List.length_cons, Nat.pow_succ]
    omega

/-! ## Writing bytes -/

theorem canonK_putBytes {m : KMap Byte} (h : canonK m memDefault = true) (loc : Nat) (bs : List Byte) :
    canonK (putBytes m loc bs) memDefault = true := by
  induction bs generalizing m loc with
  | nil => exact h
  | cons b bs ih => exact ih (canonK_putD h loc b) (loc + 1)

theorem getD_putBytes_out (m : KMap Byte) (loc : Nat) (bs : List Byte) {a : Nat}
    (ha : a < loc ∨ loc + bs.length ≤ a) : getD (putBytes m loc bs) memDefault a = getD m memDefault a := by
  induction bs generalizing m loc with
  | nil => rfl
  | cons b bs ih =>
    simp only [List.length_cons] at ha
    simp only [putBytes]
    rw [ih _ (loc + 1) (by omega), getD_putD_ne _ _ _ (by omega)]

theorem getD_putBytes_in (m : KMap Byte) (loc : Nat) (bs : List Byte) {i : Nat}
    (hi : i < bs.length) : getD (putBytes m loc bs) memDefault (loc + i) = bs[i] := by
  induction bs generalizing m loc i with
  | nil => simp at hi
  | cons b bs ih =>
    simp only [putBytes]
    cases i with
    | zero =>
      rw [getD_putBytes_out _ _ _ (by omega)]
      simpa using getD_putD_self m memDefault loc b
    | succ i =>
      simp only [List.length_cons] at hi
      have := ih (putD m memDefault loc b) (loc + 1) (i := i) (by omega)
      rw [show loc + (i + 1) = loc + 1 + i by omega, this]
      simp

/-- A byte outside the bytes written reads as before. -/
theorem byteAt_putAt_out (s : State) (loc : Nat) (bs : List Byte) {a : Nat} (ha : a < loc ∨ loc + bs.length ≤ a) :
    (s.putAt loc bs).byteAt a = s.byteAt a := getD_putBytes_out s.mem loc bs ha

/-- A byte written reads back. -/
theorem byteAt_putAt_in (s : State) (loc : Nat) (bs : List Byte) {i : Nat} (hi : i < bs.length) :
    (s.putAt loc bs).byteAt (loc + i) = bs[i] := getD_putBytes_in s.mem loc bs hi

/-- The bytes written read back as a whole. -/
theorem bytesAt_putAt (s : State) (loc : Nat) (bs : List Byte) :
    (s.putAt loc bs).bytesAt loc bs.length = bs := by
  apply List.ext_getElem
  · simp [State.bytesAt]
  · intro i h1 h2
    simp only [State.bytesAt, List.getElem_map, List.getElem_range]
    exact byteAt_putAt_in s loc bs h2

/-! ## The canonical form -/

/-- A state with the same memory. -/
theorem State.MemOk.of_eq {s t : State} (h : s.MemOk) (e : t.mem = s.mem) : t.MemOk := by
  unfold State.MemOk at h ⊢; rw [e]; exact h

theorem putAt_memOk {s : State} (h : s.MemOk) (loc : Nat) (bs : List Byte) : (s.putAt loc bs).MemOk :=
  canonK_putBytes h loc bs

theorem storeT_memOk {s : State} (h : s.MemOk) (t : Target) (bs : List Byte) : (s.storeT t bs).MemOk := by
  unfold State.storeT; split
  · exact putAt_memOk h _ _
  · exact h

end Sys2Proof.Machine
end

