-- ==== Sys2Proof/Laws/Accesses.lean ====
section
/-! SUPPORT. Accesses through a page whose entry is accessed and dirty leave the machine as it is: one access, bytes,
rows of a unit and a block of an engine. -/
namespace Sys2Proof.Machine

/-- The walk reads the same entries for every address of a page of 64 KiB. -/
theorem walk_page (s : State) (cid : Nat) {a p : Nat} (h : a / 65536 = p) : s.walk cid a = s.walk cid (65536 * p) := by
  have e4 : a / 2 ^ 16 = 65536 * p / 2 ^ 16 := by omega
  have e1 : a / 2 ^ 45 = 65536 * p / 2 ^ 45 := by omega
  have e2 : a / 2 ^ 36 = 65536 * p / 2 ^ 36 := by omega
  have e3 : a / 2 ^ 26 = 65536 * p / 2 ^ 26 := by omega
  simp only [State.walk, State.walkFrom, levelShift, e1, e2, e3, e4]

/-- A walk reads memory, the root of its context and the remapping of granules, nothing else. -/
theorem walk_congr {s t : State} (hm : t.mem = s.mem) (hp : t.poison = s.poison) (hc : t.ctxs = s.ctxs) (hs : t.svc = s.svc)
    (cid va : Nat) : t.walk cid va = s.walk cid va := by
  have ht : ∀ pa, t.target pa = s.target pa := fun pa => by unfold State.target State.remapped; rw [hs]
  have hl : ∀ loc n, t.loadT (.mem loc) n = s.loadT (.mem loc) n := fun loc n => by
    simp [State.loadT, State.poisoned, State.bytesAt, State.byteAt, hm, hp]
  have hw : ∀ (ls : List Nat) (table : Nat), t.walkFrom cid va ls table = s.walkFrom cid va ls table := by
    intro ls
    induction ls with
    | nil => intro _; rfl
    | cons l ls ih => intro table; simp only [State.walkFrom, ht, hl, ih]
  simp only [State.walk, State.ctx, hc, hw]

/-- A core that holds just the entry `e` of the page. -/
def State.holdsOnly (s : State) (core : Option Nat) (cid a : Nat) (e : TlbEnt) : Prop :=
  ∀ n, core = some n → (s.core n).tlb.find? (fun x => x.covers cid a) = some e
    ∧ s.modCore n (fun c => { c with tlb := tlbInstall c.tlb e }) = s

theorem quiet_access {s : State} {core : Option Nat} {cid a n : Nat} {e : TlbEnt} {k : XKind} {t : Target}
    (hcore : s.holdsOnly core cid a e) (hin : a < 2 ^ 54) (hw : s.walk cid a = .ok e) (ha : e.pte ||| 0x200#64 = e.pte)
    (hm : putBytes s.mem e.loc (bytesLE 8 e.pte.toNat) = s.mem) (hp : s.poison = []) (hr : s.svc.routes = true)
    (hpm : permit k e.pte = none) (hd : pteDirty e.pte = true) (hc : pteCache e.pte ≠ 3)
    (ht : s.target (e.pa a) = some t) (hdev : ∀ n, t ≠ .dev n)
    (hpeer : ∀ pa, t = .peer pa → s.peerAccess pa k = .ok t) : s.accessG core cid a n k = (s, .ok t) := by
  have hput : s.putAt e.loc (bytesLE 8 e.pte.toNat) = s := by
    unfold State.putAt; rw [hm, hp]; cases s; simp_all
  have htr : s.translate core cid a k = (s, .ok e) := by
    unfold State.translate
    cases core with
    | none => simp only [hw, ha, hput, hpm, hd]; simp
    | some c =>
      obtain ⟨hf, hi⟩ := hcore c rfl
      simp only [State.tlbFind, hf, hw, ha, hput, hi, hpm, hd]
      by_cases hx : Config.displaced s.serial a = true
      · simp [hx]
      · simp [hx, hpm, hd]
  unfold State.accessG
  simp only [inSpace, hin, htr]
  cases t <;> simp_all

/-- Bytes behind quiet accesses. -/
theorem quiet_loadBytes {s : State} {core : Option Nat} {cid : Nat} {t : Nat → Target} {v : Nat → Nat} (n a : Nat)
    (h : ∀ i, i < n → s.accessG core cid (a + i) 1 .read = (s, .ok (t (a + i))) ∧ s.loadT (t (a + i)) 1 = .ok (v (a + i))) :
    s.loadBytes core cid a n = (s, .ok ((List.range n).map (fun i => BitVec.ofNat 8 (v (a + i))))) := by
  induction n generalizing a with
  | zero => rfl
  | succ n ih =>
    have h0 := h 0 (by omega)
    rw [Nat.add_zero] at h0
    have := ih (a + 1) (fun i hi => by rw [Nat.add_assoc, Nat.add_comm 1 i]; exact h (i + 1) (by omega))
    rw [State.loadBytes, h0.1]
    simp only [h0.2, this, List.range_succ_eq_map, List.map_cons, List.map_map, Nat.add_zero]
    congr 3
    exact List.map_congr_left (fun i _ => by simp [Nat.add_assoc, Nat.add_comm 1 i])

/-- Bytes stored to a peer window change nothing here. -/
theorem quiet_storeBytes {s : State} {core : Option Nat} {cid : Nat} {t : Nat → Nat} (bs : List Byte) (a : Nat)
    (h : ∀ i, i < bs.length → s.accessG core cid (a + i) 1 .write = (s, .ok (.peer (t (a + i))))) :
    s.storeBytes core cid a bs = (s, .ok ()) := by
  induction bs generalizing a with
  | nil => rfl
  | cons b bs ih =>
    have h0 := h 0 (by simp)
    rw [Nat.add_zero] at h0
    rw [State.storeBytes, h0]
    exact ih (a + 1) (fun i hi => by
      rw [Nat.add_assoc, Nat.add_comm 1 i]; exact h (i + 1) (by simpa using hi))

theorem quiet_loadBlock {s : State} {cid a : Nat} {hd bs data : List Byte} {h : BlockHdr}
    (h1 : s.loadBytes none cid a 32 = (s, .ok hd)) (h2 : blockHdr hd = some h)
    (h3 : s.loadBytes none cid a h.total = (s, .ok bs)) (h4 : h.decode bs = some data) :
    s.loadBlock cid a = (s, .ok data h.total (crc32c data == h.crc)) := by
  unfold State.loadBlock
  simp only [h1, h2, h3, h4]

/-- Rows behind quiet accesses. -/
theorem quiet_loadRows {s : State} {gid base stride n : Nat} {row : Nat → Nat} (is acc : List Nat)
    (h : ∀ i ∈ is, s.loadRow gid (base + i * stride) n = (s, .ok (row i))) :
    s.loadRows gid base stride n (fun _ => false) is acc = (s, .ok (acc.reverse ++ is.map row)) := by
  induction is generalizing acc with
  | nil => simp [State.loadRows]
  | cons i is ih =>
    rw [State.loadRows, h i (List.mem_cons_self ..)]
    simpa using ih (row i :: acc) (fun j hj => h j (List.mem_cons_of_mem _ hj))

/-- A fetch of a word of which the core holds a copy that is what memory holds. -/
theorem quiet_fetch {s : State} {core cid a loc : Nat} {e : TlbEnt} {w : Word}
    (hcore : s.holdsOnly (some core) cid a e) (hw : s.walk cid a = .ok e) (ha : e.pte ||| 0x200#64 = e.pte)
    (hm : putBytes s.mem e.loc (bytesLE 8 e.pte.toNat) = s.mem) (hp : s.poison = [])
    (hpm : permit .fetch e.pte = none) (hr : s.revokedAt cid a = false) (ht : s.target (e.pa a) = some (.mem loc))
    (hl : wordN (natLE (s.bytesAt loc 8)) = w)
    (hi : (s.core core).icache.find? (fun x => x.ctx == cid && x.va == a && x.loc == loc) = some ⟨cid, a, loc, w⟩)
    (hs : s.modCore core (fun c =>
      { c with icache := ⟨cid, a, loc, w⟩ :: c.icache.filter (fun y => !(y.ctx == cid && y.va == a)) }) = s) :
    s.fetchWord core cid a = (s, .ok w) := by
  have hput : s.putAt e.loc (bytesLE 8 e.pte.toNat) = s := by
    unfold State.putAt; rw [hm, hp]; cases s; simp_all
  have htr : s.translate (some core) cid a .fetch = (s, .ok e) := by
    obtain ⟨hf, hk⟩ := hcore core rfl
    unfold State.translate
    simp only [State.tlbFind, hf, hw, ha, hput, hk, hpm]
    by_cases hx : Config.displaced s.serial a = true
    · simp [hx, XKind.writes]
    · simp [hx, hpm, XKind.writes]
  have hld : s.loadT (.mem loc) 8 = .ok (natLE (s.bytesAt loc 8)) := by simp [State.loadT, State.poisoned, hp]
  unfold State.fetchWord
  simp only [hr, htr, ht, hi, hld, hl, hs]
  simp

/-- Page `p` of a context, of 64 KiB in the interleaved range of HBM, is quiet: its entry is accessed and dirty, memory
has no error, and a core that looks it up holds it alone. -/
structure Quiet (s : State) (core : Option Nat) (cid p : Nat) (e : TlbEnt) : Prop where
  walk   : s.walk cid (65536 * p) = .ok e
  acc    : e.pte ||| 0x200#64 = e.pte
  same   : putBytes s.mem e.loc (bytesLE 8 e.pte.toNat) = s.mem
  clean  : s.poison = []
  routes : s.svc.routes = true
  reads  : permit .read e.pte = none
  dirty  : pteDirty e.pte = true
  cache  : pteCache e.pte ≠ 3
  size   : e.size = 65536
  va     : e.va = 65536 * p
  ctx    : e.ctx = cid
  low    : pteAddr e.pte + 65536 ≤ 2 ^ 39
  below  : p < 2 ^ 38
  tlb    : ∀ n, core = some n → (s.core n).tlb = [e] ∧ putD s.cores Core.fresh n (s.core n) = s.cores

/-- Where an address of the page stands in memory. -/
def quietLoc (s : State) (e : TlbEnt) (a : Nat) : Nat :=
  let pa := pteAddr e.pte + a % 65536
  s.remapped (bits pa 14 12 * 2 ^ 36 + bits pa 38 15 * 4096 + bits pa 11 0)

theorem Quiet.accessOf {s : State} {core : Option Nat} {cid p : Nat} {e : TlbEnt} (q : Quiet s core cid p e) {k : XKind}
    (hk : permit k e.pte = none) {a n : Nat} (h : a / 65536 = p) :
    s.accessG core cid a n k = (s, .ok (.mem (quietLoc s e a))) := by
  have hcov : e.covers cid a = true := by
    simp only [TlbEnt.covers, q.ctx, q.va, q.size, beq_self_eq_true, Bool.true_and, Bool.and_eq_true, decide_eq_true_eq]
    omega
  have hself : e.covers e.ctx e.va = true := by simp [TlbEnt.covers, q.size]
  refine quiet_access (e := e) ?_ ?_ (by rw [walk_page s cid h]; exact q.walk) q.acc q.same q.clean q.routes hk
    q.dirty q.cache ?_ (by simp) (by simp)
  · intro k hk
    obtain ⟨h1, h2⟩ := q.tlb k hk
    refine ⟨by simp [h1, hcov], ?_⟩
    have h3 : ({ s.core k with tlb := tlbInstall (s.core k).tlb e } : Core) = s.core k := by
      have h4 : tlbInstall (s.core k).tlb e = (s.core k).tlb := by
        rw [h1]; simp [tlbInstall, hself]
      rw [h4]
    unfold State.modCore
    simp only [h3, h2]
  · have := q.below; omega
  · have hsz := q.size
    have hlow := q.low
    rw [TlbEnt.pa, hsz]
    unfold State.target quietLoc
    rw [if_pos (by omega)]

theorem Quiet.access {s : State} {core : Option Nat} {cid p : Nat} {e : TlbEnt} (q : Quiet s core cid p e) {a n : Nat}
    (h : a / 65536 = p) : s.accessG core cid a n .read = (s, .ok (.mem (quietLoc s e a))) := q.accessOf q.reads h

/-- Elements of the page can be written. -/
theorem Quiet.checkElems {s : State} {cid p : Nat} {e : TlbEnt} (q : Quiet s none cid p e) (hk : permit .write e.pte = none)
    (as : List Nat) (h : ∀ a ∈ as, a / 65536 = p) (n : Nat) : s.checkElems cid as n = (s, n + as.length, .none) := by
  induction as generalizing n with
  | nil => rfl
  | cons a as ih =>
    rw [State.checkElems, q.accessOf hk (h a (List.mem_cons_self ..))]
    simp only [ih (fun b hb => h b (List.mem_cons_of_mem _ hb)), List.length_cons]
    congr 2; omega

/-- Bytes that memory holds already change nothing when they are stored again. -/
theorem Quiet.storeBytes {s : State} {cid p : Nat} {e : TlbEnt} (q : Quiet s none cid p e) (hk : permit .write e.pte = none)
    (bs : List Byte) (a : Nat) (h : ∀ i, i < bs.length → (a + i) / 65536 = p)
    (hs : ∀ i, i < bs.length → putBytes s.mem (quietLoc s e (a + i)) [nth bs 0 i] = s.mem) :
    s.storeBytes none cid a bs = (s, .ok ()) := by
  induction bs generalizing a with
  | nil => rfl
  | cons b bs ih =>
    have h0 : s.accessG none cid a 1 .write = (s, .ok (.mem (quietLoc s e a))) := q.accessOf hk (by simpa using h 0 (by simp))
    have h1 : s.storeT (.mem (quietLoc s e a)) [b] = s := by
      have := hs 0 (by simp)
      simp only [Nat.add_zero, nth, List.getElem?_cons_zero, Option.getD_some] at this
      have hp : s.poison.filter (fun x => !(decide (quietLoc s e a ≤ x) && decide (x < quietLoc s e a + [b].length)))
          = s.poison := by rw [q.clean]; rfl
      show ({ s with mem := _, poison := _ } : State) = s
      rw [this, hp]
    rw [State.storeBytes, h0]
    dsimp only
    rw [h1]
    exact ih (a + 1) (fun i hi => by rw [Nat.add_assoc, Nat.add_comm 1 i]; exact h (i + 1) (by simpa using hi))
      (fun i hi => by rw [Nat.add_assoc, Nat.add_comm 1 i]; simpa [nth] using hs (i + 1) (by simpa using hi))

theorem Quiet.loadT {s : State} {core : Option Nat} {cid p : Nat} {e : TlbEnt} (q : Quiet s core cid p e) (loc n : Nat) :
    s.loadT (.mem loc) n = .ok (natLE (s.bytesAt loc n)) := by
  simp [State.loadT, State.poisoned, q.clean]

/-- The bytes of the page. -/
def quietByte (s : State) (e : TlbEnt) (a : Nat) : Byte := BitVec.ofNat 8 (natLE (s.bytesAt (quietLoc s e a) 1))

theorem Quiet.loadBytes {s : State} {core : Option Nat} {cid p : Nat} {e : TlbEnt} (q : Quiet s core cid p e) {a n : Nat}
    (h : a / 65536 = p) (hn : a % 65536 + n ≤ 65536) :
    s.loadBytes core cid a n = (s, .ok ((List.range n).map (fun i => quietByte s e (a + i)))) :=
  quiet_loadBytes (t := fun a => .mem (quietLoc s e a)) (v := fun a => natLE (s.bytesAt (quietLoc s e a) 1)) n a
    (fun i hi => ⟨q.access (by omega), q.loadT _ _⟩)

/-! ## Plain accesses, shown by evaluation -/

/-- The places of the entries that a walk reads. -/
def State.walkCells (s : State) (cid va : Nat) : List Nat → Nat → List Nat
  | [], _ => []
  | lev :: rest, table =>
    let sh := levelShift lev
    match s.target (table + 8 * ((va / 2 ^ sh.1) % 2 ^ sh.2)) with
    | some (.mem loc) =>
      match s.loadT (.mem loc) 8 with
      | .error _ => [loc]
      | .ok x => if pteLeaf (wordN x) then [loc] else loc :: s.walkCells cid va rest (pteAddr (wordN x))
    | _ => []

/-- A walk is the same in another memory that holds the entries it reads. -/
theorem walkFrom_cells (s : State) (mem : KMap Byte) (cid va : Nat) (ls : List Nat) (table : Nat)
    (h : ∀ c ∈ s.walkCells cid va ls table, ∀ i, i < 8 → ({ s with mem := mem } : State).byteAt (c + i) = s.byteAt (c + i)) :
    ({ s with mem := mem } : State).walkFrom cid va ls table = s.walkFrom cid va ls table := by
  induction ls generalizing table with
  | nil => rfl
  | cons lev rest ih =>
    have ht : ∀ a, ({ s with mem := mem } : State).target a = s.target a := fun _ => rfl
    simp only [State.walkFrom, State.walkCells, ht] at h ⊢
    cases hx : s.target (table + 8 * ((va / 2 ^ (levelShift lev).1) % 2 ^ (levelShift lev).2)) with
    | none => rfl
    | some x =>
      cases x with
      | peer _ | dev _ => rfl
      | mem loc =>
        simp only [hx] at h ⊢
        have hl : ({ s with mem := mem } : State).loadT (.mem loc) 8 = s.loadT (.mem loc) 8 := by
          have hb : ({ s with mem := mem } : State).bytesAt loc 8 = s.bytesAt loc 8 := by
            refine List.map_congr_left (fun i hi => ?_)
            have hi' := List.mem_range.1 hi
            refine h loc ?_ i hi'
            cases s.loadT (.mem loc) 8 with
            | error _ => exact List.mem_singleton.2 rfl
            | ok y => dsimp only; split <;> simp
          simp only [State.loadT, State.poisoned, hb]; rfl
        rw [hl]
        cases hy : s.loadT (.mem loc) 8 with
        | error _ => rfl
        | ok y =>
          simp only [hy] at h ⊢
          split
          · rfl
          · split
            · rfl
            · next hn =>
              rw [if_neg hn] at h
              split
              · exact ih _ (fun c hc => h c (List.mem_cons_of_mem _ hc))
              · rfl

/-- The leaf of an address, and the place in memory that it leads to. -/
def State.leafOf (s : State) (cid a : Nat) : TlbEnt :=
  match s.walk cid a with
  | .ok e => e
  | .error _ => ⟨0, 0, 0, 0, 0⟩
def State.placeOf (s : State) (cid a : Nat) : Nat :=
  match s.target ((s.leafOf cid a).pa a) with
  | some (.mem loc) => loc
  | _ => 0

theorem walkCells_page (s : State) (cid : Nat) {a p : Nat} (h : a / 65536 = p) (table : Nat) :
    s.walkCells cid a [1, 2, 3, 4] table = s.walkCells cid (65536 * p) [1, 2, 3, 4] table := by
  have e4 : a / 2 ^ 16 = 65536 * p / 2 ^ 16 := by omega
  have e1 : a / 2 ^ 45 = 65536 * p / 2 ^ 45 := by omega
  have e2 : a / 2 ^ 36 = 65536 * p / 2 ^ 36 := by omega
  have e3 : a / 2 ^ 26 = 65536 * p / 2 ^ 26 := by omega
  simp only [State.walkCells, levelShift, e1, e2, e3, e4]

/-- A walk is the same in another memory that holds the entries it reads. -/
theorem walk_cells {s : State} {mem : KMap Byte} {cid va : Nat}
    (h : ∀ c ∈ s.walkCells cid va [1, 2, 3, 4] (s.ctx cid).root, ∀ i, i < 8 →
      ({ s with mem := mem } : State).byteAt (c + i) = s.byteAt (c + i)) :
    ({ s with mem := mem } : State).walk cid va = s.walk cid va :=
  walkFrom_cells s mem cid va _ _ h

/-- What the accesses of `State.Plain` ask, as far as it can be evaluated, of addresses in one page of 64 KiB: the walks hold
in any memory when their entries stand outside the bytes that are written. -/
def State.plainly (s : State) (core : Option Nat) (cid n : Nat) (k : XKind) (as : List Nat) : Bool :=
  let p := nth as 0 0 / 65536
  (match s.walk cid (65536 * p) with
    | .ok e =>
      e.pte ||| 0x300#64 == e.pte && permit k e.pte == none && pteCache e.pte != 3
      && (match core with
        | some c => (s.core c).tlb.all (fun x => x == e || as.all (fun a => !(x.covers cid a)))
        | none => true)
      && as.all (fun a => a / 65536 == p && a % n == 0 && decide (a < 2 ^ 54)
        && (match s.target (e.pa a) with
          | some (.mem loc) => !k.writes || (s.walkCells cid (65536 * p) [1, 2, 3, 4] (s.ctx cid).root).all (fun c =>
              decide (c + 8 ≤ loc) || decide (loc + n ≤ c))
          | _ => false))
    | .error _ => false)
  && s.poison.isEmpty && Memory.wf s.mem

theorem plain_of_plainly {s : State} {core : Option Nat} {cid n : Nat} {k : XKind} {as : List Nat}
    (h : s.plainly core cid n k as = true) : s.Plain core cid n k as (s.leafOf cid) (s.placeOf cid) := by
  unfold State.plainly at h
  generalize hp : nth as 0 0 / 65536 = p at h
  cases hw : s.walk cid (65536 * p) with
  | error c => simp [hw] at h
  | ok e =>
    simp only [hw, Bool.and_eq_true, List.all_eq_true, decide_eq_true_eq, beq_iff_eq, bne_iff_ne, ne_eq,
      List.isEmpty_iff] at h
    obtain ⟨⟨⟨⟨⟨⟨h1, h2⟩, h3⟩, h4⟩, h5⟩, h6⟩, h7⟩ := h
    have hl : ∀ a ∈ as, s.walk cid a = .ok e := fun a ha => by rw [walk_page s cid (h5 a ha).1.1.1, hw]
    have hf : ∀ a ∈ as, s.leafOf cid a = e := fun a ha => by simp [State.leafOf, hl a ha]
    have ht : ∀ a ∈ as, s.target (e.pa a) = some (.mem (s.placeOf cid a)) ∧ (k.writes = true →
        ∀ c ∈ s.walkCells cid a [1, 2, 3, 4] (s.ctx cid).root, c + 8 ≤ s.placeOf cid a ∨ s.placeOf cid a + n ≤ c) := by
      intro a ha
      have hx := (h5 a ha).2
      rw [walkCells_page s cid (h5 a ha).1.1.1]
      unfold State.placeOf
      rw [hf a ha]
      split at hx
      · next loc hloc =>
        simp only [hloc, Bool.or_eq_true, Bool.not_eq_true', List.all_eq_true, decide_eq_true_eq] at hx ⊢
        refine ⟨trivial, fun hk c hc => ?_⟩
        rcases hx with hn | hn
        · rw [hn] at hk; cases hk
        · exact hn c hc
      · cases hx
    refine ⟨fun a ha => ⟨(h5 a ha).1.1.2, (h5 a ha).1.2⟩, fun mem hmem a ha => ?_, fun a ha => by rw [hf a ha]; exact h1,
      fun a ha => by rw [hf a ha]; exact ⟨h2, h3⟩, fun a ha => by rw [hf a ha]; exact (ht a ha).1,
      fun a ha b hb _ => by rw [hf a ha, hf b hb], fun c hc x hx a ha hcov => ?_, h6, h7⟩
    · rw [hf a ha, ← hl a ha]
      refine walk_cells (fun c hc i hi => hmem _ (fun hk b hb hin => ?_))
      have hcb : c ∈ s.walkCells cid b [1, 2, 3, 4] (s.ctx cid).root := by
        rw [walkCells_page s cid (h5 b hb).1.1.1, ← walkCells_page s cid (h5 a ha).1.1.1]; exact hc
      have := (ht b hb).2 hk c hcb
      omega
    · subst hc
      simp only [List.all_eq_true, Bool.or_eq_true, Bool.not_eq_true', beq_iff_eq] at h4
      rw [hf a ha]
      rcases h4 x hx with hn | hn
      · exact hn
      · rw [hn a ha] at hcov; cases hcov

/-- Accesses of engines to a quiet page are plain. -/
theorem Quiet.plain {s : State} {cid p : Nat} {e : TlbEnt} (q : Quiet s none cid p e) {n : Nat} {k : XKind} {as : List Nat}
    (hk : permit k e.pte = none) (hm : e.pte ||| 0x300#64 = e.pte) (hc : s.MemOk)
    (ha : ∀ a ∈ as, a / 65536 = p ∧ a % n = 0 ∧ (k.writes = true →
      ∀ c ∈ s.walkCells cid (65536 * p) [1, 2, 3, 4] (s.ctx cid).root, c + 8 ≤ quietLoc s e a ∨ quietLoc s e a + n ≤ c)) :
    s.Plain none cid n k as (fun _ => e) (quietLoc s e) where
  inside a h := ⟨(ha a h).2.1, by have := q.below; have := (ha a h).1; omega⟩
  walks mem hmem a h := by
    have hw : s.walk cid a = .ok e := by rw [walk_page s cid (ha a h).1]; exact q.walk
    rw [← hw]
    refine walk_cells (fun c hc i hi => hmem _ (fun hk b hb hin => ?_))
    rw [walkCells_page s cid (ha a h).1] at hc
    have := (ha b hb).2.2 hk c hc
    omega
  marked a h := hm
  permits a h := ⟨hk, q.cache⟩
  places a h := by
    have hsz := q.size
    have hlow := q.low
    rw [TlbEnt.pa, hsz]
    unfold State.target quietLoc
    rw [if_pos (by omega)]
  one a h b hb _ := rfl
  holds c h := nomatch h
  clean := q.clean
  canon := hc

/-- The walk of an address reads no byte of the `n` from `loc`, by evaluation. -/
def State.steady (s : State) (cid a loc n : Nat) : Bool :=
  (match s.walk cid a with | .ok _ => true | .error _ => false)
  && (s.walkCells cid a [1, 2, 3, 4] (s.ctx cid).root).all (fun c => decide (c + 8 ≤ loc) || decide (loc + n ≤ c))

/-- Such a walk holds in any memory that differs there only. -/
theorem walk_of_steady {s : State} {cid a loc n : Nat} (h : s.steady cid a loc n = true) {mem : KMap Byte}
    (hm : ∀ x, ¬(loc ≤ x ∧ x < loc + n) → ({ s with mem := mem } : State).byteAt x = s.byteAt x) :
    ({ s with mem := mem } : State).walk cid a = .ok (s.leafOf cid a) := by
  simp only [State.steady, Bool.and_eq_true, List.all_eq_true, Bool.or_eq_true, decide_eq_true_eq] at h
  rw [walk_cells (fun c hc i hi => hm _ (by have := h.2 c hc; omega))]
  unfold State.leafOf
  cases hw : s.walk cid a with
  | ok e => rfl
  | error c => simp [hw] at h

/-- What `quiet_fetch` asks, by evaluation. -/
def State.fetchesQuietly (s : State) (core cid a : Nat) (w : Word) : Bool :=
  let e := s.leafOf cid a
  let loc := s.placeOf cid a
  let c := s.core core
  (match s.walk cid a with | .ok _ => true | .error _ => false)
  && c.tlb.find? (fun x => x.covers cid a) == some e && s.modCore core (fun c => { c with tlb := tlbInstall c.tlb e }) == s
  && e.pte ||| 0x200#64 == e.pte && putBytes s.mem e.loc (bytesLE 8 e.pte.toNat) == s.mem && s.poison.isEmpty
  && permit .fetch e.pte == none && s.revokedAt cid a == false && s.target (e.pa a) == some (.mem loc)
  && wordN (natLE (s.bytesAt loc 8)) == w
  && c.icache.find? (fun x => x.ctx == cid && x.va == a && x.loc == loc) == some ⟨cid, a, loc, w⟩
  && s.modCore core (fun c =>
      { c with icache := ⟨cid, a, loc, w⟩ :: c.icache.filter (fun y => !(y.ctx == cid && y.va == a)) }) == s

theorem quiet_fetch_of {s : State} {core cid a : Nat} {w : Word} (h : s.fetchesQuietly core cid a w = true) :
    s.fetchWord core cid a = (s, .ok w) := by
  simp only [State.fetchesQuietly, Bool.and_eq_true, beq_iff_eq, List.isEmpty_iff] at h
  obtain ⟨⟨⟨⟨⟨⟨⟨⟨⟨⟨⟨h1, h2⟩, h3⟩, h4⟩, h5⟩, h6⟩, h7⟩, h8⟩, h9⟩, h10⟩, h11⟩, h12⟩ := h
  refine quiet_fetch (e := s.leafOf cid a) (fun n hn => ?_) ?_ h4 h5 h6 h7 h8 h9 h10 h11 h12
  · cases hn; exact ⟨h2, h3⟩
  · unfold State.leafOf
    cases hx : s.walk cid a with
    | ok e => rfl
    | error c => simp [hx] at h1

/-- A header at the target of each of these lanes, by evaluation. -/
def State.headersAt (s : State) (kind : Option Nat) (trial : Bool) (m : LaneMask) (target : Nat → Word) : Bool :=
  let cid := s.cidOf s.cur
  s.plainly (some s.g.core) cid 8 .fetch ((lanesOf m).map (fun l => (target l).toNat))
  && (lanesOf m).all (fun l =>
    let a := (target l).toNat
    let w := wordN (natLE (s.bytesAt (s.placeOf cid a) 8))
    s.revokedAt cid a == false && (s.trialSeg cid a).isSome == trial && headerOk w
    && (match kind with | some k => hdrKind w == k | none => true)
    && (s.core s.g.core).icache.all (fun x => !(x.ctx == cid && x.va == a) || x.word == w))

theorem headersAt_of {s : State} {kind : Option Nat} {trial : Bool} {m : LaneMask} {target : Nat → Word}
    (h : s.headersAt kind trial m target = true) :
    s.HeadersAt kind trial m target (s.leafOf (s.cidOf s.cur)) (s.placeOf (s.cidOf s.cur)) := by
  simp only [State.headersAt, Bool.and_eq_true, List.all_eq_true, beq_iff_eq, Bool.or_eq_true, Bool.not_eq_true',
    Bool.and_eq_false_imp] at h
  have hl : ∀ l, bitOf m l = true → l ∈ lanesOf m := fun l hl => by
    simp only [lanesOf, laneList, List.mem_filter, List.mem_range]
    exact ⟨BitVec.lt_of_getLsbD hl, hl⟩
  refine ⟨plain_of_plainly h.1, fun l hb => ⟨(h.2 l (hl l hb)).1.1.1.1, (h.2 l (hl l hb)).1.1.1.2⟩, fun l hb => ?_⟩
  obtain ⟨⟨⟨_, h1⟩, h2⟩, h3⟩ := h.2 l (hl l hb)
  refine ⟨h1, fun k hk => ?_, fun x hx hc hv => ?_⟩
  · subst hk; simpa using h2
  · rcases h3 x hx with hn | hn
    · exact absurd hv (by simpa using hn hc)
    · exact hn

end Sys2Proof.Machine
end

