-- ==== Sys2Proof/Laws/Registers.lean ====
section
/-! SUPPORT. The laws of the register files: what a write leaves in every register, what the issuing group reads
after it, the advance of lanes inside their blocks, and what the shapes of fixed latency do. -/
namespace Sys2Proof.Machine

/-! ## One group -/

theorem grp_modGrp_self {s : State} {gid : Nat} (h : (findK s.groups gid).isSome = true) (f : Group → Group) :
    (s.modGrp gid f).grp gid = f (s.grp gid) := by
  obtain ⟨g, hg⟩ := Option.isSome_iff_exists.1 h
  simp [State.grp, State.modGrp, getD, findK_modK, hg]

theorem grp_modGrp_ne (s : State) {gid j : Nat} (h : gid ≠ j) (f : Group → Group) :
    (s.modGrp gid f).grp j = s.grp j := by
  simp [State.grp, State.modGrp, getD, findK_modK, h]

theorem isSome_modGrp (s : State) (gid : Nat) (f : Group → Group) (j : Nat) :
    (findK (s.modGrp gid f).groups j).isSome = (findK s.groups j).isSome :=
  isSome_findK_modK s.groups gid f j

theorem th_modTh (g : Group) (m : LaneMask) (f : Thread → Thread) {l : Nat} (h : l < g.threads.length) :
    (g.modTh m f).th l = if bitOf m l then f (g.th l) else g.th l := by
  simp [Group.th, Group.modTh, nth, h]

theorem th_of_ge (g : Group) {l : Nat} (h : g.threads.length ≤ l) : g.th l = Thread.absent := by
  simp [Group.th, nth, List.getElem?_eq_none h]

@[simp] theorem length_modTh (g : Group) (m : LaneMask) (f : Thread → Thread) :
    (g.modTh m f).threads.length = g.threads.length := by simp [Group.modTh]

/-! ## Raw registers -/

theorem rawV_putV (g : Group) (n l : Nat) (x : U32) (j k : Nat) (hl : l < 32) (hk : k < 32) :
    (g.putV n l x).rawV j k = if n = j ∧ l = k then x else g.rawV j k := by
  unfold Group.rawV Group.putV
  rw [getD_putD]
  by_cases h : n = j ∧ l = k
  · rw [if_pos h, if_pos (by omega)]
  · rw [if_neg h, if_neg (by omega)]

/-- Lanes of a vector register put one after another. -/
def putLanes (n : Nat) (f : Nat → U32) (g : Group) (ls : List Nat) : Group := ls.foldl (fun h l => h.putV n l (f l)) g

theorem putLanes_frame (n : Nat) (f : Nat → U32) (g : Group) (ls : List Nat) :
    putLanes n f g ls = { g with vregs := (putLanes n f g ls).vregs } := by
  induction ls generalizing g with
  | nil => rfl
  | cons l ls ih => exact ih (g.putV n l (f l))

theorem rawV_putLanes (n : Nat) (f : Nat → U32) (g : Group) (ls : List Nat) (h : ∀ l ∈ ls, l < 32) (j k : Nat)
    (hk : k < 32) : (putLanes n f g ls).rawV j k = if n = j ∧ k ∈ ls then f k else g.rawV j k := by
  induction ls generalizing g with
  | nil => simp [putLanes]
  | cons l ls ih =>
    have := ih (g.putV n l (f l)) (fun x hx => h x (List.mem_cons_of_mem _ hx))
    simp only [putLanes, List.foldl_cons] at this ⊢
    rw [this, rawV_putV _ _ _ _ _ _ (h l (List.mem_cons_self ..)) hk]
    by_cases hj : n = j
    · by_cases hm : k ∈ ls
      · simp [hj, hm]
      · by_cases hl : l = k
        · simp [hj, hl]
        · simp [hj, hm, hl, Ne.symm hl]
    · simp [hj]

/-! ## Writes that younger instructions have not overtaken (R53) -/

/-- No write of this instruction is discarded. -/
def FreshDue (g : Group) (due : Due) : Prop := ∀ k, g.deadIn due k = 0

theorem freshDue_fixed (g : Group) (c n : Nat) : FreshDue g (.fixed c n) := fun _ => rfl

/-- The record of the instruction is the newest of its number, and nothing younger has written yet. -/
theorem freshDue_on {g : Group} {id : Nat} {p : Pend} (h : g.newest? id = some p) (hd : p.dead = []) :
    FreshDue g (.on id) := fun k => by simp [Group.deadIn, Due.id?, h, Pend.deadIn, hd]

/-- What is discarded changes only in records of older instructions. -/
theorem find_killOlder (id : Nat) (k : RegKey) (m : LaneMask) (ps : List Pend) :
    (killOlder (some id) k m ps).reverse.find? (fun p => p.id == id) = ps.reverse.find? (fun p => p.id == id) := by
  unfold killOlder
  rw [← List.map_reverse]
  induction ps.reverse with
  | nil => rfl
  | cons q qs ih =>
    rw [List.map_cons, List.find?_cons, List.find?_cons]
    by_cases h : q.id = id
    · simp [h]
    · have h' : ((if (q.kind.late && decide (q.id < id)) = true then { q with dead := (k, m) :: q.dead } else q).id == id)
          = false := by split <;> simpa using h
      simp only [h', ih, show (q.id == id) = false by simpa using h]

theorem deadIn_land (g : Group) (k : RegKey) (m : LaneMask) (old : List Word) (due : Due) (j : RegKey) :
    (g.land k m old due).deadIn due j = g.deadIn due j := by
  cases due with
  | on id => simp [Group.deadIn, Due.id?, Group.land, Group.newest?, find_killOlder]
  | _ => rfl

theorem writeV_eq (g : Group) (n : Nat) (m : LaneMask) (f : Nat → U32) (due : Due) :
    g.writeV n m f due = { g with
      vregs := (putLanes n f g (lanesOf (m &&& ~~~(g.deadIn due (.v n))))).vregs,
      pending := killOlder due.id? (.v n) (m &&& ~~~(g.deadIn due (.v n))) g.pending,
      overlaid := (.v n, m &&& ~~~(g.deadIn due (.v n)), due.id?.getD g.issuedAt) :: g.overlaid,
      landing := ⟨.v n, m &&& ~~~(g.deadIn due (.v n)), laneList.map (fun l => (g.rawV n l).setWidth 64), due, false⟩
        :: g.landing } := by
  simp only [Group.writeV]
  have := putLanes_frame n f g (lanesOf (m &&& ~~~(g.deadIn due (.v n))))
  simp only [putLanes] at this ⊢
  rw [this]
  rfl

theorem freshDue_writeV {g : Group} {due : Due} (h : FreshDue g due) (n : Nat) (m : LaneMask) (f : Nat → U32) :
    FreshDue (g.writeV n m f due) due := fun k => by
  have e : (g.writeV n m f due).deadIn due k = g.deadIn due k := by
    rw [writeV_eq]
    exact deadIn_land g (.v n) (m &&& ~~~(g.deadIn due (.v n))) [] due k
  rw [e, h]

theorem and_not_zero (m : LaneMask) : m &&& ~~~(0 : LaneMask) = m := BitVec.and_allOnes

theorem rawV_writeV {g : Group} {due : Due} (h : FreshDue g due) (n : Nat) (m : LaneMask) (f : Nat → U32) (j k : Nat)
    (hk : k < 32) : (g.writeV n m f due).rawV j k = if n = j ∧ bitOf m k = true then f k else g.rawV j k := by
  have h1 : (g.writeV n m f due).rawV j k = (putLanes n f g (lanesOf m)).rawV j k := by
    rw [writeV_eq, h, and_not_zero]; rfl
  rw [h1, rawV_putLanes n f g _ (fun l hl => (mem_lanesOf.1 hl).1) j k hk]
  simp [mem_lanesOf, hk]

/-- A register other than the one written holds what it held, whatever is discarded. -/
theorem rawV_writeV_ne (g : Group) (n : Nat) (m : LaneMask) (f : Nat → U32) (due : Due) (j k : Nat) (hk : k < 32)
    (hj : ¬(n = j ∧ bitOf m k = true)) : (g.writeV n m f due).rawV j k = g.rawV j k := by
  have h1 : (g.writeV n m f due).rawV j k
      = (putLanes n f g (lanesOf (m &&& ~~~(g.deadIn due (.v n))))).rawV j k := by rw [writeV_eq]; rfl
  rw [h1, rawV_putLanes n f g _ (fun l hl => (mem_lanesOf.1 hl).1) j k hk, if_neg]
  rintro ⟨rfl, hm⟩
  refine hj ⟨rfl, ?_⟩
  have := (mem_lanesOf.1 hm).2
  simp only [bitOf, BitVec.getLsbD_and, Bool.and_eq_true] at this ⊢
  exact this.1

theorem rawS_putS (g : Group) (n : Nat) (x : Word) (j : Nat) :
    (g.putS n x).rawS j = if n = j then x else g.rawS j := by
  unfold Group.rawS Group.putS; rw [getD_putD]

theorem rawP_putP (g : Group) (n : Nat) (m : LaneMask) (j : Nat) :
    (g.putP n m).rawP j = if n = j ∧ n ≠ 0 then m else g.rawP j := by
  unfold Group.putP
  by_cases hn : n = 0
  · simp [hn]
  · rw [if_neg hn]
    unfold Group.rawP
    by_cases hj : j = 0
    · subst hj; simp [hn]
    · simp only [hj, if_false, getD_putD, hn, ne_eq, not_false_eq_true, and_true]

/-- Bits of a filtered mask. -/
theorem bitOf_foldl_or (ls : List Nat) (m0 : LaneMask) (k : Nat) (hk : k < 32) :
    bitOf (ls.foldl (fun m l => m ||| (1#32 <<< l)) m0) k = (bitOf m0 k || decide (k ∈ ls)) := by
  induction ls generalizing m0 with
  | nil => simp
  | cons l ls ih =>
    simp only [List.foldl_cons, ih]
    have h1 : bitOf (m0 ||| (1#32 <<< l)) k = (bitOf m0 k || decide (l = k)) := by
      simp only [bitOf, BitVec.getLsbD_or, BitVec.getLsbD_shiftLeft, hk, decide_true, Bool.true_and]
      congr 1
      by_cases h : k < l
      · simp [h, show l ≠ k by omega]
      · by_cases h2 : l = k
        · subst h2; simp
        · have : k - l ≠ 0 := by omega
          simp [h, h2, BitVec.getLsbD_one]; omega
    rw [h1]
    by_cases h : l = k
    · subst h; simp
    · simp [h, Ne.symm h]

theorem bitOf_maskOf (ls : List Nat) (k : Nat) (hk : k < 32) : bitOf (maskOf ls) k = decide (k ∈ ls) := by
  rw [maskOf, bitOf_foldl_or _ _ _ hk]; simp [bitOf]

theorem bitOf_ge (m : LaneMask) (k : Nat) (hk : 32 ≤ k) : bitOf m k = false := by
  simp [bitOf, BitVec.getLsbD_of_ge m k hk]

theorem bitOf_filterLanes (m : LaneMask) (p : Nat → Bool) (k : Nat) :
    bitOf (filterLanes m p) k = (bitOf m k && p k) := by
  by_cases hk : k < 32
  · rw [filterLanes, bitOf_maskOf _ _ hk]
    by_cases h : bitOf m k = true
    · by_cases hp : p k = true <;> simp [mem_lanesOf, hk, h, hp]
    · simp [mem_lanesOf, hk, h]
  · rw [bitOf_ge _ _ (by omega), bitOf_ge _ _ (by omega)]; rfl

/-! ## Reads through in-flight writes (R52) -/

/-- The newest write of a register, once it has landed, is what is read. -/
theorem readThrough_newest (landed : Landing → Bool) (pick : Nat → Bool) (k : RegKey) (l : Nat) (x : Landing)
    (xs : List Landing) (age : Nat) (cur : Word) (h : x.hits k l = true) (hl : landed x = true) :
    readThrough landed pick k l (x :: xs) age cur = cur := by simp [readThrough, h, hl]

/-- A write of another register or lane is passed over. -/
theorem readThrough_skip (landed : Landing → Bool) (pick : Nat → Bool) (k : RegKey) (l : Nat) (x : Landing)
    (xs : List Landing) (age : Nat) (cur : Word) (h : x.hits k l = false) :
    readThrough landed pick k l (x :: xs) age cur = readThrough landed pick k l xs age cur := by
  simp [readThrough, h]

/-! ## The advance of lanes inside their blocks (R63) -/

/-- The advance of lanes none of which leaves its block. -/
theorem advance_inside {s : State} {gid : Nat} {m : LaneMask} (hg : (findK s.groups gid).isSome = true)
    (h : ∀ l, l < 32 → bitOf m l = true → ((s.grp gid).th l).entering = none ∧
      ((s.grp gid).th l).pc + 8 ≠ ((s.grp gid).th l).hdr + wordN ((((s.grp gid).th l).len + 1) * 8)) :
    s.advance gid m = s.modGrp gid (fun g => g.modTh m (fun t => { t with pc := t.pc + 8 })) := by
  have hth : ∀ l (hl : l < (s.grp gid).threads.length), bitOf m l = true →
      (({ (s.grp gid).threads[l] with pc := (s.grp gid).threads[l].pc + 8 } : Thread).markEnd
        = { (s.grp gid).threads[l] with pc := (s.grp gid).threads[l].pc + 8 }) := by
    intro l hl hb
    have h32 : l < 32 := by
      by_cases h : l < 32
      · exact h
      · rw [bitOf_ge m l (by omega)] at hb; exact absurd hb (by simp)
    have := (h l h32 hb).2
    have e : (s.grp gid).th l = (s.grp gid).threads[l] := by simp [Group.th, nth, hl]
    rw [e] at this
    unfold Thread.markEnd Thread.atEnd
    split
    · next hc => exact absurd (beq_iff_eq.1 (Bool.and_eq_true_iff.1 hc).1) this
    · rfl
  have hm : (s.grp gid).modTh m (fun t => ({ t with pc := t.pc + 8 } : Thread).markEnd)
      = (s.grp gid).modTh m (fun t => { t with pc := t.pc + 8 }) := by
    simp only [Group.modTh]
    congr 1
    apply List.ext_getElem
    · simp
    · intro l h1 h2
      simp only [List.getElem_mapIdx, List.length_mapIdx] at h1 ⊢
      by_cases hb : bitOf m l = true
      · rw [if_pos hb, if_pos hb, hth l h1 hb]
      · rw [if_neg hb, if_neg hb]
  have hs : s.modGrp gid (fun g => g.modTh m (fun t => ({ t with pc := t.pc + 8 } : Thread).markEnd))
      = s.modGrp gid (fun g => g.modTh m (fun t => { t with pc := t.pc + 8 })) := by
    obtain ⟨g, hg'⟩ := Option.isSome_iff_exists.1 hg
    simp only [State.modGrp, modK, hg']
    have : s.grp gid = g := by simp [State.grp, getD, hg']
    rw [this] at hm
    rw [hm]
  unfold State.advance State.passWord
  rw [hs]
  simp only
  rw [if_neg]
  simp only [List.any_eq_true, not_exists, not_and, Bool.and_eq_true, mem_laneList]
  intro l hl hb hen
  rw [grp_modGrp_self hg] at hen
  by_cases hlen : l < (s.grp gid).threads.length
  · rw [th_modTh _ _ _ hlen, if_pos hb] at hen
    simp [(h l hl hb).1] at hen
  · rw [th_of_ge _ (by simp; omega)] at hen
    simp [Thread.absent] at hen

/-! ## The issue of a word (R70) -/

/-- A word that takes effect is its effect. -/
theorem issueWord_eq {s : State} {i : Instr} (h : s.Issues i) (eff : State → State) :
    issueWord i eff s = .next (eff s) := by
  obtain ⟨h1, h2, h3⟩ := h
  obtain ⟨g, hg⟩ := Option.isSome_iff_exists.1 h1
  have e : s.g = g := by simp [State.g, State.grp, getD, hg]
  rw [e] at h2
  simp [issueWord, hg, h2, h3]

/-! ## Shapes of fixed latency (R52, R67) -/

theorem modGrp_modGrp (s : State) (gid : Nat) (f h : Group → Group) :
    (s.modGrp gid f).modGrp gid h = s.modGrp gid (fun g => h (f g)) := by
  simp [State.modGrp, modK_modK]

/-- A change of registers and of what is in flight, and of nothing else. -/
def RegsOnly (F : Group → Group) : Prop :=
  ∀ g, F g = { g with vregs := (F g).vregs, sregs := (F g).sregs, preds := (F g).preds, pending := (F g).pending,
                      overlaid := (F g).overlaid, landing := (F g).landing }

/-- What a form of fixed latency leaves of its group. -/
def fixedGroup (s : State) (i : Instr) (c : Ctl) (L : Nat) (F : Group → Group) (g : Group) : Group :=
  if s.active c = 0 then g
  else match setFlag c with
    | none => F g
    | some _ =>
      let p : Pend := { id := s.nextId, pc := s.issuePc, instr := i, lanes := s.active c, done := s.active c,
                        flag := setFlag c, kind := .result, due := s.cycle + L, ops := Ops.none, recKey := 0, dead := [], entered := 0 }
      ({ F g with pending := (F g).pending ++ [p] } : Group).chargeFlag (setFlag c)

/-- The next identifier after a form of fixed latency. -/
def fixedNext (s : State) (c : Ctl) : Nat := if s.active c = 0 ∨ setFlag c = none then s.nextId else s.nextId + 1

theorem chargeFlag_frame (g : Group) (f : Option Nat) : g.chargeFlag f = { g with flags := (g.chargeFlag f).flags } := by
  cases f <;> rfl

theorem flagOf_chargeFlag (g : Group) (f : Option Nat) (n : Nat) :
    (g.chargeFlag f).flagOf n = g.flagOf n + (if f = some n then 1 else 0) := by
  cases f with
  | none => simp [Group.chargeFlag]
  | some k =>
    simp only [Group.chargeFlag, Group.flagOf, Option.some.injEq]
    rw [getD_putD]
    split
    · rename_i h; subst h; rfl
    · rfl

theorem fixedGroup_frame (s : State) (i : Instr) (c : Ctl) (L : Nat) {F : Group → Group} (hF : RegsOnly F) (g : Group) :
    fixedGroup s i c L F g = { g with
      vregs := (fixedGroup s i c L F g).vregs, sregs := (fixedGroup s i c L F g).sregs,
      preds := (fixedGroup s i c L F g).preds, flags := (fixedGroup s i c L F g).flags,
      pending := (fixedGroup s i c L F g).pending, overlaid := (fixedGroup s i c L F g).overlaid,
      landing := (fixedGroup s i c L F g).landing } := by
  unfold fixedGroup
  split
  · rfl
  · have h := hF g
    split
    · rw [h]
    · rw [chargeFlag_frame, h]

/-- The charge of a form of fixed latency, as part of one change of its group. -/
theorem chargeFixed_eq {s : State} (i : Instr) (c : Ctl) (m : LaneMask) (due : Nat) {F : Group → Group}
    (hg : (findK s.groups s.cur).isSome = true) (thr : ∀ g, (F g).threads = g.threads) :
    (s.modGrp s.cur F).chargeFixed i c m due =
      ({ s with nextId := if setFlag c = none then s.nextId else s.nextId + 1 } : State).modGrp s.cur (fun g =>
        match setFlag c with
        | none => F g
        | some _ =>
          ({ F g with pending := (F g).pending ++ [{
            id := s.nextId, pc := s.issuePc, instr := i, lanes := m, done := m, flag := setFlag c, kind := .result,
            due := due, ops := Ops.none, recKey := 0, dead := [], entered := 0 }] } : Group).chargeFlag (setFlag c)) := by
  have hpc : (s.modGrp s.cur F).issuePc = s.issuePc := by
    have h1 : (s.modGrp s.cur F).issuePc = (((s.modGrp s.cur F).grp s.cur).th s.ilane).pc := rfl
    have h2 : s.issuePc = ((s.grp s.cur).th s.ilane).pc := rfl
    rw [h1, h2, grp_modGrp_self hg]
    simp [Group.th, thr]
  unfold State.chargeFixed
  cases hs : setFlag c with
  | none => simp
  | some k =>
    simp only [hpc]
    simp only [State.addPend, State.modGrp, modK_modK, reduceCtorEq, if_false]

/-- A form of fixed latency inside its block, as one change of its group. -/
theorem fixedForm_eq {s : State} {i : Instr} {c : Ctl} {L : Nat} {F : LaneMask → Due → Group → Group}
    (hg : (findK s.groups s.cur).isSome = true) (hin : s.Inside) (hF : ∀ m due, RegsOnly (F m due)) :
    s.fixedForm i c L (fun t m due => t.modGrp s.cur (F m due)) =
      ({ s with nextId := fixedNext s c } : State).modGrp s.cur (fun g =>
        (fixedGroup s i c L (F (s.active c) (s.dueIn L)) g).modTh s.iset
          (fun t => { t with pc := t.pc + 8 })) := by
  have adv : ∀ (u : State) (H : Group → Group), (findK u.groups s.cur).isSome = true → u.grp s.cur = s.g →
      (∀ g, (H g).threads = g.threads) →
      (u.modGrp s.cur H).advance s.cur s.iset
        = u.modGrp s.cur (fun g => (H g).modTh s.iset (fun t => { t with pc := t.pc + 8 })) := by
    intro u H hu hgu hH
    rw [advance_inside, modGrp_modGrp]
    · rw [isSome_modGrp]; exact hu
    · intro l hl hb
      have e : ((u.modGrp s.cur H).grp s.cur).th l = s.g.th l := by
        rw [grp_modGrp_self hu, hgu]; simp [Group.th, hH]
      rw [e]; exact hin l hl hb
  have thr : ∀ g, (F (s.active c) (s.dueIn L) g).threads = g.threads := fun g => by
    have h := hF (s.active c) (s.dueIn L) g
    rw [h]
  unfold State.fixedForm
  by_cases h0 : s.active c = 0
  · simp only [h0, beq_self_eq_true, if_true]
    have e1 : fixedNext s c = s.nextId := by simp [fixedNext, h0]
    have e2 : ∀ H g, fixedGroup s i c L H g = g := fun H g => by simp [fixedGroup, h0]
    rw [e1]
    simp only [e2]
    exact advance_inside hg hin
  · have hb : (s.active c == 0) = false := by simpa using h0
    simp only [hb, Bool.false_eq_true, if_false]
    have e1 : fixedNext s c = (if setFlag c = none then s.nextId else s.nextId + 1) := by
      simp only [fixedNext, h0, false_or]
    have e2 : ∀ H g, fixedGroup s i c L H g = (match setFlag c with
        | none => H g
        | some _ =>
          ({ H g with pending := (H g).pending ++ [{
            id := s.nextId, pc := s.issuePc, instr := i, lanes := s.active c, done := s.active c, flag := setFlag c,
            kind := .result, due := s.cycle + L, ops := Ops.none, recKey := 0, dead := [], entered := 0 }] } : Group).chargeFlag (setFlag c)) :=
      fun H g => by unfold fixedGroup; rw [if_neg h0]
    rw [chargeFixed_eq i c _ _ hg thr, e1]
    simp only [e2]
    refine adv _ _ hg rfl ?_
    intro g
    split
    · exact thr g
    · rw [chargeFlag_frame]; exact thr g

/-! ## Register results -/

/-- One register result in a group. -/
def regWrite (d : Reg) (wide : Bool) (m : LaneMask) (sl : Nat) (f : Nat → Word) (due : Due) (g : Group) : Group :=
  match d with
  | .s n => g.writeS n.val (if wide then f sl else sext32 (f sl)) due
  | .v n =>
    let g := g.writeV n.val m (fun l => (f l).setWidth 32) due
    if wide then g.writeV (n.val + 1) m (fun l => (f l >>> 32).setWidth 32) due else g

theorem putReg_eq (s : State) (gid : Nat) (d : Reg) (wide : Bool) (m : LaneMask) (sl : Nat) (f : Nat → Word) (due : Due) :
    s.putReg gid d wide m sl f due = s.modGrp gid (regWrite d wide m sl f due) := by
  cases d <;> rfl

theorem regWrite_only (d : Reg) (wide : Bool) (m : LaneMask) (sl : Nat) (f : Nat → Word) (due : Due) :
    RegsOnly (regWrite d wide m sl f due) := by
  intro g
  cases d with
  | s n => simp only [regWrite, Group.writeS]; split <;> rfl
  | v n => cases wide <;> simp [regWrite, writeV_eq]

theorem rawKey_regWrite (d : Reg) (wide : Bool) (m : LaneMask) (sl : Nat) (f : Nat → Word) (due : Due) (g : Group)
    (hm : m ≠ 0) (k : RegKey) (l : Nat) (hl : l < 32) (ht : touches d wide m k l = false) :
    (regWrite d wide m sl f due g).rawKey k l = g.rawKey k l := by
  have hth : (regWrite d wide m sl f due g).threads = g.threads := by rw [regWrite_only]
  cases d with
  | s n =>
    cases k with
    | v j => simp only [regWrite, Group.rawKey, Group.rawV, Group.writeS_vregs]
    | s j =>
      have : ¬(n.val = j) := by
        simp only [touches, Bool.and_eq_false_iff, beq_eq_false_iff_ne, bne_eq_false_iff_eq] at ht
        rcases ht with h | h
        · exact fun e => h e.symm
        · exact absurd h hm
      simp only [regWrite, Group.writeS, Group.rawKey]
      split
      · show ((g.putS n.val _).rawS j) = g.rawS j
        rw [rawS_putS, if_neg this]
      · rfl
    | p j =>
      have h1 : (regWrite (.s n) wide m sl f due g).preds = g.preds := by simp [regWrite]
      have h2 : (regWrite (.s n) wide m sl f due g).rawP j = g.rawP j := by simp only [Group.rawP, h1]
      simp only [Group.rawKey]
      rw [h2]
    | win => simp [Group.rawKey, Group.th, hth]
  | v n =>
    cases k with
    | v j =>
      simp only [Group.rawKey]
      congr 1
      cases wide with
      | false =>
        simp only [regWrite, Bool.false_eq_true, if_false]
        rw [rawV_writeV_ne _ _ _ _ _ _ _ hl]
        rintro ⟨rfl, hb⟩
        simp [touches, hb] at ht
      | true =>
        simp only [regWrite, if_true]
        rw [rawV_writeV_ne _ _ _ _ _ _ _ hl, rawV_writeV_ne _ _ _ _ _ _ _ hl]
        · rintro ⟨rfl, hb⟩
          simp [touches, hb] at ht
        · rintro ⟨rfl, hb⟩
          simp [touches, hb] at ht
    | s j => cases wide <;> simp [regWrite, writeV_eq, Group.rawKey, Group.rawS]
    | p j => cases wide <;> simp [regWrite, writeV_eq, Group.rawKey, Group.rawP]
    | win => simp [Group.rawKey, Group.th, hth]

theorem rawKey_modTh_pc (g : Group) (m : LaneMask) (k : RegKey) (l : Nat) :
    (g.modTh m (fun t => { t with pc := t.pc + 8 })).rawKey k l = g.rawKey k l := by
  cases k with
  | win =>
    simp only [Group.rawKey]
    by_cases h : l < g.threads.length
    · rw [th_modTh _ _ _ h]; split <;> rfl
    · rw [th_of_ge _ (by simp; omega), th_of_ge _ (by omega)]
  | v n => rfl
  | s n => rfl
  | p n => rfl

theorem rawKey_charge (g : Group) (f : Option Nat) (k : RegKey) (l : Nat) :
    (g.chargeFlag f).rawKey k l = g.rawKey k l := by
  rw [chargeFlag_frame]
  cases k <;> rfl

theorem fixedGroup_rawKey (s : State) (i : Instr) (c : Ctl) (L : Nat) (F : Group → Group) (g : Group) (k : RegKey)
    (l : Nat) : (fixedGroup s i c L F g).rawKey k l = if s.active c = 0 then g.rawKey k l else (F g).rawKey k l := by
  unfold fixedGroup
  split
  · rfl
  · split
    · rfl
    · rw [rawKey_charge]; cases k <;> rfl

theorem fixedGroup_landing (s : State) (i : Instr) (c : Ctl) (L : Nat) (F : Group → Group) (g : Group) :
    (fixedGroup s i c L F g).landing = if s.active c = 0 then g.landing else (F g).landing := by
  unfold fixedGroup
  split
  · rfl
  · split
    · rfl
    · rw [chargeFlag_frame]

theorem fixedGroup_flagOf (s : State) (i : Instr) (c : Ctl) (L : Nat) {F : Group → Group} (hF : RegsOnly F) (g : Group)
    (n : Nat) : (fixedGroup s i c L F g).flagOf n
      = g.flagOf n + (if setFlag c = some n ∧ s.active c ≠ 0 then 1 else 0) := by
  have hf : (F g).flagOf n = g.flagOf n := by rw [hF g]; rfl
  unfold fixedGroup
  split
  · rename_i h; simp [h]
  · rename_i h
    split
    · rename_i hs; rw [if_neg (by rw [hs]; simp)]; exact hf
    · rename_i k hs
      rw [flagOf_chargeFlag]
      have : ({ F g with pending := (F g).pending ++ [{
            id := s.nextId, pc := s.issuePc, instr := i, lanes := s.active c, done := s.active c, flag := setFlag c,
            kind := .result, due := s.cycle + L, ops := Ops.none, recKey := 0, dead := [], entered := 0 }] } : Group).flagOf n = g.flagOf n := hf
      rw [this]
      have h' : s.active c ≠ 0 := h
      simp only [h', ne_eq, not_false_eq_true, and_true]

/-- The frame and the flags of a form of fixed latency. -/
theorem fixed_frame {s : State} {i : Instr} {c : Ctl} {L : Nat} {F : Group → Group}
    (hg : (findK s.groups s.cur).isSome = true) (hF : RegsOnly F) {t : State}
    (ht : t = ({ s with nextId := fixedNext s c } : State).modGrp s.cur (fun g =>
      (fixedGroup s i c L F g).modTh s.iset (fun t => { t with pc := t.pc + 8 }))) :
    t.g = (fixedGroup s i c L F s.g).modTh s.iset (fun t => { t with pc := t.pc + 8 })
      ∧ Frame s t ∧ Charged s t c := by
  have hg' : (findK ({ s with nextId := fixedNext s c } : State).groups s.cur).isSome = true := hg
  have htg : t.g = (fixedGroup s i c L F s.g).modTh s.iset (fun t => { t with pc := t.pc + 8 }) := by
    rw [ht]; exact grp_modGrp_self hg' _
  refine ⟨htg, ⟨by rw [ht]; rfl, ?_, ?_, ?_⟩, ?_⟩
  · intro gid hne
    rw [ht]
    simp [State.modGrp, findK_modK, Ne.symm hne]
  · rw [htg]
    simp only [Group.modTh]
    rw [fixedGroup_frame s i c L hF]
  · intro l hl
    have e : (fixedGroup s i c L F s.g).threads = s.g.threads := by rw [fixedGroup_frame s i c L hF]
    rw [htg, th_modTh _ _ _ (by rw [e]; exact hl)]
    simp [Group.th, e]
  · intro n
    rw [htg]
    exact fixedGroup_flagOf s i c L hF s.g n

/-! ## A later issue -/

theorem later_g {t : State} {cyc n : Nat} (h : (findK t.groups t.cur).isSome = true) :
    (t.later cyc n).g = { t.g with dists := n } := grp_modGrp_self h _

theorem later_readS (t : State) (cyc n k : Nat) : (t.later cyc n).readS k
    = readThrough (fun x => x.landed cyc (t.later cyc n).g.dists (t.later cyc n).g.pending)
        (fun age => Config.earlyRead t.serial (RegKey.s k).code 0 age) (.s k) 0 (t.later cyc n).g.landing 0
        ((t.later cyc n).g.rawKey (.s k) 0) := rfl

theorem later_readV (t : State) (cyc n k l : Nat) : (t.later cyc n).readV k l
    = (readThrough (fun x => x.landed cyc (t.later cyc n).g.dists (t.later cyc n).g.pending)
        (fun age => Config.earlyRead t.serial (RegKey.v k).code l age) (.v k) l (t.later cyc n).g.landing 0
        ((t.later cyc n).g.rawKey (.v k) l)).setWidth 32 := rfl

theorem later_own (t : State) (cyc n k l : Nat) : (t.later cyc n).ownRead t.cur (.p k) l
    = readThrough (fun x => x.landed cyc (t.later cyc n).g.dists (t.later cyc n).g.pending)
        (fun age => Config.earlyRead t.serial (RegKey.p k).code l age) (.p k) l (t.later cyc n).g.landing 0
        ((t.later cyc n).g.rawKey (.p k) l) := rfl

theorem landed_ripe {s : State} {L cyc n : Nat} {x : Landing} (hx : x.due = s.dueIn L) (h : s.ripe L cyc n)
    (p : List Pend) : x.landed cyc n p = true := by
  simp only [Landing.landed, hx, State.dueIn, State.ripe] at h ⊢
  rcases h with h | h <;> simp [h]

/-- A form of fixed latency with one register result gives it. -/
theorem givesReg_of {s : State} {i : Instr} {c : Ctl} {L : Nat} {d : Reg} {wide : Bool} {f : State → Nat → Word}
    (he : exec i s = issueWord i (fun s => s.fixedReg i c L d wide (f s)) s) : GivesReg s i c L d wide (f s) := by
  intro hi hin
  have hg := hi.1
  refine ⟨_, by rw [he, issueWord_eq hi], ?_⟩
  generalize ht : s.fixedReg i c L d wide (f s) = t
  simp only [State.fixedReg, putReg_eq] at ht
  rw [fixedForm_eq (F := fun m due => regWrite d wide m s.ilane (f s) due) hg hin (fun m due => regWrite_only d wide m s.ilane (f s) due)] at ht
  obtain ⟨htg, hfr, hch⟩ := fixed_frame hg (regWrite_only d wide _ s.ilane (f s) _) ht.symm
  refine ⟨hfr, hch, ?_, ?_⟩
  · intro cyc n hripe
    have hfresh : FreshDue s.g (s.dueIn L) := freshDue_fixed _ _ _
    have hL : t.g.landing = if s.active c = 0 then s.g.landing
        else (regWrite d wide (s.active c) s.ilane (f s) (s.dueIn L) s.g).landing := by
      rw [htg]; exact fixedGroup_landing ..
    have hR : ∀ k l, t.g.rawKey k l = if s.active c = 0 then s.g.rawKey k l
        else (regWrite d wide (s.active c) s.ilane (f s) (s.dueIn L) s.g).rawKey k l := by
      intro k l; rw [htg, rawKey_modTh_pc]; exact fixedGroup_rawKey ..
    have hlg := later_g (t := t) (cyc := cyc) (n := n) (by
      have hc : t.cur = s.cur := by rw [hfr.rest]
      rw [hc, ← ht, isSome_modGrp]; exact hg)
    have hland : ∀ x : Landing, x.due = s.dueIn L → ∀ p, x.landed cyc n p = true := fun x hx p => landed_ripe hx hripe p
    cases d with
    | s k =>
      intro hm
      have e : (t.later cyc n).readS k.val
          = readThrough (fun x => x.landed cyc n t.g.pending)
              (fun age => Config.earlyRead t.serial (RegKey.s k.val).code 0 age) (.s k.val) 0
              t.g.landing 0 (t.g.rawKey (.s k.val) 0) := by
        rw [later_readS, hlg]; rfl
      rw [e, hL, hR, if_neg hm, if_neg hm]
      simp only [regWrite, Group.writeS, hfresh _, if_true]
      rw [Group.land, readThrough_newest]
      · show (s.g.putS k.val _).rawS k.val = _
        rw [rawS_putS, if_pos rfl]
      · simp [Landing.hits]
      · exact hland _ rfl _
    | v k =>
      intro l hb
      have hm : s.active c ≠ 0 := by
        intro h0; rw [h0] at hb; simp [bitOf] at hb
      have hl : l < 32 := by
        by_cases h : l < 32
        · exact h
        · rw [bitOf_ge _ _ (by omega)] at hb; exact absurd hb (by simp)
      have e : ∀ j, (t.later cyc n).readV j l
          = (readThrough (fun x => x.landed cyc n t.g.pending)
              (fun age => Config.earlyRead t.serial (RegKey.v j).code l age) (.v j) l
              t.g.landing 0 (t.g.rawKey (.v j) l)).setWidth 32 := fun j => by rw [later_readV, hlg]; rfl
      have trunc : ∀ x : U32, (x.setWidth 64).setWidth 32 = x := fun x => by
        apply BitVec.eq_of_toNat_eq; simp
      have hf1 := freshDue_writeV hfresh k.val (s.active c) (fun l => (f s l).setWidth 32)
      constructor
      · rw [e, hL, hR, if_neg hm, if_neg hm]
        cases wide with
        | false =>
          simp only [regWrite, Bool.false_eq_true, if_false]
          have hR' : (s.g.writeV k.val (s.active c) (fun l => (f s l).setWidth 32) (s.dueIn L)).rawKey (.v k.val) l
              = ((f s l).setWidth 32).setWidth 64 := by
            simp only [Group.rawKey]; rw [rawV_writeV hfresh _ _ _ _ _ hl, if_pos ⟨rfl, hb⟩]
          rw [hR', writeV_eq, hfresh, and_not_zero]
          rw [readThrough_newest]
          · exact trunc _
          · simp [Landing.hits, hb]
          · exact hland _ rfl _
        | true =>
          simp only [regWrite, if_true]
          have hR' : ((s.g.writeV k.val (s.active c) (fun l => (f s l).setWidth 32) (s.dueIn L)).writeV
              (k.val + 1) (s.active c) (fun l => (f s l >>> 32).setWidth 32) (s.dueIn L)).rawKey (.v k.val) l
              = ((f s l).setWidth 32).setWidth 64 := by
            simp only [Group.rawKey]
            rw [rawV_writeV hf1 _ _ _ _ _ hl, if_neg (by omega), rawV_writeV hfresh _ _ _ _ _ hl, if_pos ⟨rfl, hb⟩]
          rw [hR', writeV_eq (s.g.writeV _ _ _ _), writeV_eq s.g, hfresh, and_not_zero]
          rw [readThrough_skip, readThrough_newest]
          · exact trunc _
          · simp [Landing.hits, hb]
          · exact hland _ rfl _
          · simp [Landing.hits]
      · rintro rfl
        rw [e, hL, hR, if_neg hm, if_neg hm]
        simp only [regWrite, if_true]
        have hR' : ((s.g.writeV k.val (s.active c) (fun l => (f s l).setWidth 32) (s.dueIn L)).writeV
            (k.val + 1) (s.active c) (fun l => (f s l >>> 32).setWidth 32) (s.dueIn L)).rawKey (.v (k.val + 1)) l
            = ((f s l >>> 32).setWidth 32).setWidth 64 := by
          simp only [Group.rawKey]
          rw [rawV_writeV hf1 _ _ _ _ _ hl, if_pos ⟨rfl, hb⟩]
        rw [hR', writeV_eq (s.g.writeV _ _ _ _), hf1, and_not_zero, readThrough_newest]
        · exact trunc _
        · simp [Landing.hits, hb]
        · exact hland _ rfl _
  · intro k l hl htouch
    rw [htg, rawKey_modTh_pc, fixedGroup_rawKey]
    split
    · rfl
    · rename_i hm
      exact rawKey_regWrite _ _ _ _ _ _ _ hm k l hl htouch

/-! ## Predicate results -/

theorem writeP_only (n : Nat) (m : LaneMask) (f : Nat → Bool) (due : Due) :
    RegsOnly (fun g => g.writeP n m f due) := by
  intro g
  by_cases h : n = 0
  · simp [Group.writeP, h]
  · simp [Group.writeP, Group.putP, Group.land, h]

theorem rawP_writeP {g : Group} {due : Due} (hd : FreshDue g due) (n : Nat) (m : LaneMask) (f : Nat → Bool) (j k : Nat) :
    bitOf ((g.writeP n m f due).rawP j) k =
      if n ≠ 0 ∧ n = j ∧ bitOf m k = true then f k else bitOf (g.rawP j) k := by
  by_cases hn : n = 0
  · simp [Group.writeP, hn]
  · have e : (g.writeP n m f due).rawP j = (g.putP n ((g.rawP n &&& ~~~m) ||| filterLanes m f)).rawP j := by
      simp only [Group.writeP, hn, if_false, hd _, and_not_zero]; rfl
    rw [e, rawP_putP]
    by_cases hj : n = j
    · subst hj
      simp only [hn, ne_eq, not_false_eq_true, and_self, if_true, true_and]
      have : bitOf ((g.rawP n &&& ~~~m) ||| filterLanes m f) k
          = ((bitOf (g.rawP n) k && !(bitOf m k) && decide (k < 32)) || (bitOf m k && f k)) := by
        rw [← bitOf_filterLanes]
        simp [bitOf]
        rw [Bool.and_assoc, Bool.and_comm (decide (k < 32))]
      rw [this]
      by_cases hb : bitOf m k = true
      · simp [hb]
      · have hb' : bitOf m k = false := by simpa using hb
        simp only [hb', Bool.false_and, Bool.or_false, Bool.not_false, Bool.and_true, Bool.false_eq_true, if_false]
        by_cases hk : k < 32
        · simp [hk]
        · rw [bitOf_ge _ _ (by omega)]; simp
    · rw [if_neg (fun h => hj h.1), if_neg (fun h => hj h.2.1)]

theorem rawKey_writeP_ne (g : Group) (n : Nat) (m : LaneMask) (f : Nat → Bool) (due : Due) {k : RegKey} (l : Nat)
    (hk : ∀ j, k ≠ .p j) : (g.writeP n m f due).rawKey k l = g.rawKey k l := by
  have h := writeP_only n m f due g
  simp only at h
  rw [h]
  by_cases hn : n = 0
  · simp [Group.writeP, hn]
  · cases k with
    | p j => exact absurd rfl (hk j)
    | v j => simp [Group.writeP, hn, Group.putP, Group.land, Group.rawKey, Group.rawV]
    | s j => simp [Group.writeP, hn, Group.putP, Group.land, Group.rawKey, Group.rawS]
    | win => simp [Group.rawKey, Group.th]

/-- A form of fixed latency with one predicate result gives it. -/
theorem givesPred_of {s : State} {i : Instr} {c : Ctl} {L n : Nat} {f : State → Nat → Bool}
    (he : exec i s = issueWord i (fun s => s.fixedPred i c L n (f s)) s) :
    GivesPred s i c L n (fun l => f s (if c.u then s.ilane else l)) := by
  intro hi hin
  have hg := hi.1
  have hfresh : FreshDue s.g (s.dueIn L) := freshDue_fixed _ _ _
  refine ⟨_, by rw [he, issueWord_eq hi], ?_⟩
  generalize ht : s.fixedPred i c L n (f s) = t
  have ht' : s.fixedForm i c L (fun t m due =>
      t.modGrp s.cur (fun g => g.writeP n m (fun l => f s (if c.u then s.ilane else l)) due)) = t := ht
  rw [fixedForm_eq (F := fun m due g => g.writeP n m (fun l => f s (if c.u then s.ilane else l)) due) hg hin
    (fun m due => writeP_only n m _ due)] at ht'
  obtain ⟨htg, hfr, hch⟩ := fixed_frame hg (writeP_only n _ _ _) ht'.symm
  have hR : ∀ k l, t.g.rawKey k l = if s.active c = 0 then s.g.rawKey k l
      else (s.g.writeP n (s.active c) (fun l => f s (if c.u then s.ilane else l)) (s.dueIn L)).rawKey k l := by
    intro k l; rw [htg, rawKey_modTh_pc]; exact fixedGroup_rawKey ..
  refine ⟨hfr, hch, ?_, ?_⟩
  · intro cyc d hripe l hb
    by_cases hn : n = 0
    · subst hn; simp [State.readP]
    · have hm : s.active c ≠ 0 := by
        intro h0; rw [h0] at hb; simp [bitOf] at hb
      have hL : t.g.landing = (s.g.writeP n (s.active c) (fun l => f s (if c.u then s.ilane else l))
          (s.dueIn L)).landing := by
        rw [htg]
        refine (fixedGroup_landing s i c L (fun g => g.writeP n (s.active c)
          (fun l => f s (if c.u then s.ilane else l)) (s.dueIn L)) s.g).trans ?_
        rw [if_neg hm]
      have hlg := later_g (t := t) (cyc := cyc) (n := d) (by
        have hc : t.cur = s.cur := by rw [hfr.rest]
        rw [hc, ← ht', isSome_modGrp]; exact hg)
      have e : (t.later cyc d).ownRead t.cur (.p n) l
          = readThrough (fun x => x.landed cyc d t.g.pending)
              (fun age => Config.earlyRead t.serial (RegKey.p n).code l age) (.p n) l
              t.g.landing 0 (t.g.rawKey (.p n) l) := by rw [later_own, hlg]; rfl
      have e2 : (t.later cyc d).readP n l = (n == 0 || (t.later cyc d).ownRead t.cur (.p n) l == 1) := rfl
      rw [e2, e, hL, hR, if_neg hm]
      have hraw : (s.g.writeP n (s.active c) (fun l => f s (if c.u then s.ilane else l)) (s.dueIn L)).rawKey
          (.p n) l = if f s (if c.u then s.ilane else l) then 1 else 0 := by
        simp only [Group.rawKey]
        have h := rawP_writeP hfresh n (s.active c) (fun l => f s (if c.u then s.ilane else l)) n l
        rw [if_pos ⟨hn, rfl, hb⟩] at h
        rw [h]
      rw [hraw]
      have hland : (s.g.writeP n (s.active c) (fun l => f s (if c.u then s.ilane else l)) (s.dueIn L)).landing
          = ⟨.p n, s.active c, laneList.map (fun l => s.g.rawKey (.p n) l), s.dueIn L, false⟩ :: s.g.landing := by
        simp only [Group.writeP, hn, if_false, hfresh _, and_not_zero, Group.land, Group.putP]
      rw [hland, readThrough_newest]
      · rw [if_neg hn]
        have hn' : (n == 0) = false := by simpa using hn
        rw [hn', Bool.false_or]
        show ((if f s (if c.u then s.ilane else l) then (1 : Word) else 0) == 1) = f s (if c.u then s.ilane else l)
        cases f s (if c.u then s.ilane else l) <;> decide
      · simp [Landing.hits, hb]
      · exact landed_ripe rfl hripe _
  · intro k l hl hk
    rw [hR]
    split
    · rfl
    · cases k with
      | p j =>
        simp only [Group.rawKey]
        have h := rawP_writeP hfresh n (s.active c) (fun l => f s (if c.u then s.ilane else l)) j l
        rw [if_neg (fun ⟨h1, h2, h3⟩ => hk ⟨h1, by rw [h2], h3⟩)] at h
        rw [h]
      | v j => exact rawKey_writeP_ne s.g n _ _ _ l (by simp)
      | s j => exact rawKey_writeP_ne s.g n _ _ _ l (by simp)
      | win => exact rawKey_writeP_ne s.g n _ _ _ l (by simp)

/-- A register result is known by the bits that it writes. -/
theorem givesReg_congr {s : State} {i : Instr} {c : Ctl} {L : Nat} {d : Reg} {wide : Bool} {f g : Nat → Word}
    (h : ∀ l, if wide then f l = g l else (f l).setWidth 32 = (g l).setWidth 32)
    (hg : GivesReg s i c L d wide f) : GivesReg s i c L d wide g := by
  intro hi hin
  obtain ⟨t, h1, h2, h3, h4, h5⟩ := hg hi hin
  refine ⟨t, h1, h2, h3, ?_, h5⟩
  intro cyc k hc
  have := h4 cyc k hc
  cases d with
  | s n =>
    intro hm
    have h6 := this hm
    have h7 := h s.ilane
    cases wide with
    | true => simp only [if_true] at h6 h7 ⊢; rw [h6, h7]
    | false =>
      simp only [Bool.false_eq_true, if_false] at h6 h7 ⊢
      rw [h6, sext32, sext32, h7]
  | v n =>
    intro l hb
    obtain ⟨h6, h8⟩ := this l hb
    have h7 := h l
    cases wide with
    | true =>
      simp only [if_true] at h7
      exact ⟨by rw [h6, h7], fun hw => by rw [h8 hw, h7]⟩
    | false =>
      simp only [Bool.false_eq_true, if_false] at h7
      exact ⟨by rw [h6, h7], fun hw => absurd hw (by simp)⟩

end Sys2Proof.Machine
end

