-- ==== Sys2Proof/Laws/Faults.lean ====
section
/-! SUPPORT. The laws of taking an exception and of the return from one: what each changes, and that registers, the
program counters and memory stand. -/
namespace Sys2Proof.Machine

/-! ## Holds -/

/-- Moving the holds of groups touches groups only, and of them only how long their threads have been held. -/
theorem shiftHolds_frame (s : State) (gids : List Nat) (d : Int) :
    s.shiftHolds gids d = { s with groups := (s.shiftHolds gids d).groups } := by
  induction gids generalizing s with
  | nil => rfl
  | cons g gs ih =>
    have h := ih (s.modGrp g (fun g => g.shiftHolds d))
    simpa only [State.shiftHolds, List.foldl_cons, State.modGrp] using h

theorem grp_shiftHold (s : State) (gid j : Nat) (d : Int) :
    (s.modGrp gid (fun g => g.shiftHolds d)).grp j = s.grp j
      ∨ (s.modGrp gid (fun g => g.shiftHolds d)).grp j = (s.grp j).shiftHolds d := by
  by_cases h : gid = j
  · subst h
    by_cases hs : (findK s.groups gid).isSome = true
    · exact .inr (grp_modGrp_self hs _)
    · left
      have hn : findK s.groups gid = none := by simpa using hs
      simp [State.grp, State.modGrp, modK, hn]
  · exact .inl (grp_modGrp_ne s h _)

/-- A property of groups that moving a hold keeps is kept by moving many. -/
theorem shiftHolds_keeps {α : Type} (P : Group → α) (hP : ∀ g d, P (g.shiftHolds d) = P g) (s : State)
    (gids : List Nat) (d : Int) (j : Nat) : P ((s.shiftHolds gids d).grp j) = P (s.grp j) := by
  induction gids generalizing s with
  | nil => rfl
  | cons g gs ih =>
    have h := ih (s.modGrp g (fun g => g.shiftHolds d))
    simp only [State.shiftHolds, List.foldl_cons] at h ⊢
    rw [h]
    rcases grp_shiftHold s g j d with e | e <;> rw [e]
    exact hP _ _

theorem rawKey_shiftHolds (g : Group) (d : Int) (k : RegKey) (l : Nat) : (g.shiftHolds d).rawKey k l = g.rawKey k l := by
  cases k with
  | v n => rfl
  | s n => rfl
  | p n => rfl
  | win =>
    simp only [Group.rawKey, Group.th, Group.shiftHolds, nth, List.getElem?_map]
    cases g.threads[l]? with
    | none => rfl
    | some t => simp only [Option.map_some, Option.getD_some]; split <;> rfl

theorem pc_shiftHolds (g : Group) (d : Int) (l : Nat) : ((g.shiftHolds d).th l).pc = (g.th l).pc := by
  simp only [Group.th, Group.shiftHolds, nth, List.getElem?_map]
  cases g.threads[l]? with
  | none => rfl
  | some t => simp only [Option.map_some, Option.getD_some]; split <;> rfl

theorem flagOf_shiftHolds (g : Group) (d : Int) (n : Nat) : (g.shiftHolds d).flagOf n = g.flagOf n := rfl

/-! ## Taking an exception (R245, R246) -/

/-- Stopping a workgroup touches groups and workgroups only. -/
theorem suspendWg_frame (s : State) (wid key : Nat) :
    suspendWg s wid key = { s with groups := (suspendWg s wid key).groups, wgs := (suspendWg s wid key).wgs } := by
  unfold suspendWg
  split
  · simp only [State.freezeHolds]
    rw [shiftHolds_frame]; rfl
  · rfl

/-- What an exception changes: a record of its context, its workgroup, and the holds of its groups. -/
theorem takeFault_frame (s : State) (gid : Nat) (i : FaultInfo) (sub : Subject) :
    s.takeFault gid i sub = { s with
      ctxs := (s.takeFault gid i sub).ctxs, wgs := (s.takeFault gid i sub).wgs,
      groups := (s.takeFault gid i sub).groups } := by
  unfold State.takeFault
  rw [suspendWg_frame]; rfl

/-- A property of groups that moving a hold keeps stands through an exception. -/
theorem takeFault_keeps {α : Type} (P : Group → α) (hP : ∀ g d, P (g.shiftHolds d) = P g) (s : State) (gid : Nat)
    (i : FaultInfo) (sub : Subject) (j : Nat) : P ((s.takeFault gid i sub).grp j) = P (s.grp j) := by
  unfold State.takeFault suspendWg
  simp only
  split
  · exact shiftHolds_keeps P hP _ _ _ _
  · rfl

theorem takeFault_rawKey (s : State) (gid : Nat) (i : FaultInfo) (sub : Subject) (j : Nat) (k : RegKey) (l : Nat) :
    ((s.takeFault gid i sub).grp j).rawKey k l = (s.grp j).rawKey k l :=
  takeFault_keeps (fun g => g.rawKey k l) (fun g d => rawKey_shiftHolds g d k l) s gid i sub j

theorem takeFault_pc (s : State) (gid : Nat) (i : FaultInfo) (sub : Subject) (j l : Nat) :
    (((s.takeFault gid i sub).grp j).th l).pc = ((s.grp j).th l).pc :=
  takeFault_keeps (fun g => (g.th l).pc) (fun g d => pc_shiftHolds g d l) s gid i sub j

theorem takeFault_flagOf (s : State) (gid : Nat) (i : FaultInfo) (sub : Subject) (j n : Nat) :
    ((s.takeFault gid i sub).grp j).flagOf n = (s.grp j).flagOf n :=
  takeFault_keeps (fun g => g.flagOf n) (fun g d => flagOf_shiftHolds g d n) s gid i sub j

@[simp] theorem takeFault_mem (s : State) (gid : Nat) (i : FaultInfo) (sub : Subject) :
    (s.takeFault gid i sub).mem = s.mem := by rw [takeFault_frame]
@[simp] theorem takeFault_cur (s : State) (gid : Nat) (i : FaultInfo) (sub : Subject) :
    (s.takeFault gid i sub).cur = s.cur := by rw [takeFault_frame]
@[simp] theorem takeFault_ilane (s : State) (gid : Nat) (i : FaultInfo) (sub : Subject) :
    (s.takeFault gid i sub).ilane = s.ilane := by rw [takeFault_frame]
@[simp] theorem takeFault_iset (s : State) (gid : Nat) (i : FaultInfo) (sub : Subject) :
    (s.takeFault gid i sub).iset = s.iset := by rw [takeFault_frame]
@[simp] theorem takeFault_regions (s : State) (gid : Nat) (i : FaultInfo) (sub : Subject) :
    (s.takeFault gid i sub).regions = s.regions := by rw [takeFault_frame]
@[simp] theorem takeFault_agenda (s : State) (gid : Nat) (i : FaultInfo) (sub : Subject) :
    (s.takeFault gid i sub).agenda = s.agenda := by rw [takeFault_frame]
@[simp] theorem takeFault_progs (s : State) (gid : Nat) (i : FaultInfo) (sub : Subject) :
    (s.takeFault gid i sub).progs = s.progs := by rw [takeFault_frame]
@[simp] theorem takeFault_mgmt (s : State) (gid : Nat) (i : FaultInfo) (sub : Subject) :
    (s.takeFault gid i sub).mgmt = s.mgmt := by rw [takeFault_frame]

/-- A stopped workgroup: where it stood, and one more unresolved record. -/
def stopWg (key : Nat) (w : Wg) : Wg :=
  { w with
    state := (match w.state with
      | .resident => .suspended true
      | .suspended b => .suspended b
      | .waiting => .suspended false
      | .halted => .suspended false),
    recs := w.recs ++ [key] }

theorem suspendWg_wgs (s : State) (wid key : Nat) : (suspendWg s wid key).wgs = modK s.wgs wid (stopWg key) := by
  unfold suspendWg
  simp only
  split
  · simp only [State.freezeHolds]
    rw [shiftHolds_frame]; rfl
  · rfl

/-- The workgroup of an exception is stopped, and no other. -/
theorem takeFault_wgs (s : State) (gid : Nat) (i : FaultInfo) (sub : Subject) :
    (s.takeFault gid i sub).wgs = modK s.wgs (s.grp gid).wid (stopWg (s.nextKey (s.cidOf gid))) := by
  unfold State.takeFault
  rw [suspendWg_wgs]; rfl

theorem stopWg_issues (key : Nat) (w : Wg) : (stopWg key w).issues = false := by
  cases h : w.state <;> simp [stopWg, Wg.issues, h] <;> decide

/-- The record of an exception, last in the order of posting. -/
theorem takeFault_ctx (s : State) (gid : Nat) (i : FaultInfo) (sub : Subject)
    (h : (findK s.ctxs (s.cidOf gid)).isSome = true) :
    findK (s.takeFault gid i sub).ctxs (s.cidOf gid) = some { s.ctx (s.cidOf gid) with
      recs := insK (s.ctx (s.cidOf gid)).recs (s.nextKey (s.cidOf gid)) (groupRecord s gid i sub),
      hold := (s.ctx (s.cidOf gid)).hold ++ [s.nextKey (s.cidOf gid)],
      nextRec := s.nextKey (s.cidOf gid) + 1 } := by
  obtain ⟨c, hc⟩ := Option.isSome_iff_exists.1 h
  have e : s.ctx (s.cidOf gid) = c := by simp [State.ctx, getD, hc]
  unfold State.takeFault
  rw [suspendWg_frame]
  show findK (holdRecord s (s.cidOf gid) (groupRecord s gid i sub)).ctxs (s.cidOf gid) = _
  simp only [holdRecord, State.modCtx, findK_modK, hc, if_true, Option.map_some, State.nextKey, e]

/-- No other context is touched. -/
theorem takeFault_ctx_ne (s : State) (gid : Nat) (i : FaultInfo) (sub : Subject) {cid : Nat} (h : s.cidOf gid ≠ cid) :
    findK (s.takeFault gid i sub).ctxs cid = findK s.ctxs cid := by
  unfold State.takeFault
  rw [suspendWg_frame]
  show findK (holdRecord s (s.cidOf gid) (groupRecord s gid i sub)).ctxs cid = _
  simp [holdRecord, State.modCtx, findK_modK, h]

/-! ## The return from one (R246, R247) -/

/-- A resolved record touches its context, its workgroup, and the holds of its groups. -/
theorem resolveFault_frame (s : State) (wid key : Nat) :
    s.resolveFault wid key = { s with
      ctxs := (s.resolveFault wid key).ctxs, wgs := (s.resolveFault wid key).wgs,
      groups := (s.resolveFault wid key).groups } := by
  unfold State.resolveFault
  simp only
  split
  · simp only [State.thawHolds]
    rw [shiftHolds_frame]; rfl
  · rfl

theorem resolveFault_keeps {α : Type} (P : Group → α) (hP : ∀ g d, P (g.shiftHolds d) = P g) (s : State)
    (wid key j : Nat) : P ((s.resolveFault wid key).grp j) = P (s.grp j) := by
  unfold State.resolveFault
  simp only
  split
  · exact shiftHolds_keeps P hP _ _ _ _
  · rfl

theorem resolveFault_rawKey (s : State) (wid key j : Nat) (k : RegKey) (l : Nat) :
    ((s.resolveFault wid key).grp j).rawKey k l = (s.grp j).rawKey k l :=
  resolveFault_keeps (fun g => g.rawKey k l) (fun g d => rawKey_shiftHolds g d k l) s wid key j

theorem resolveFault_pc (s : State) (wid key j l : Nat) :
    (((s.resolveFault wid key).grp j).th l).pc = ((s.grp j).th l).pc :=
  resolveFault_keeps (fun g => (g.th l).pc) (fun g d => pc_shiftHolds g d l) s wid key j

@[simp] theorem resolveFault_mem (s : State) (wid key : Nat) : (s.resolveFault wid key).mem = s.mem := by
  rw [resolveFault_frame]
@[simp] theorem resolveFault_ilane (s : State) (wid key : Nat) : (s.resolveFault wid key).ilane = s.ilane := by
  rw [resolveFault_frame]

/-- The workgroup of a resolved record: with the last one it issues again, or waits to re-enter. -/
theorem resolveFault_wg (s : State) (wid key : Nat) (h : (findK s.wgs wid).isSome = true) :
    findK (s.resolveFault wid key).wgs wid = some { s.wg wid with
      recs := (s.wg wid).recs.filter (fun k => !(k == key)), waitSince := s.cycle, passed := false,
      state := (match (s.wg wid).state, (s.wg wid).recs.filter (fun k => !(k == key)) with
        | .suspended true, [] => .resident
        | .suspended false, [] => .waiting
        | st, _ => st) } := by
  obtain ⟨w, hw⟩ := Option.isSome_iff_exists.1 h
  have e : s.wg wid = w := by simp [State.wg, getD, hw]
  unfold State.resolveFault
  simp only
  split
  · simp only [State.thawHolds]
    rw [shiftHolds_frame]
    simp only [State.modWg, State.dropRecord, State.modCtx, findK_modK, hw, if_true, Option.map_some, e] <;> rfl
  · simp only [State.modWg, State.dropRecord, State.modCtx, findK_modK, hw, if_true, Option.map_some, e] <;> rfl

/-- A resolved record is gone from its context. -/
theorem resolveFault_ctx (s : State) (wid key : Nat) (h : (findK s.ctxs (s.wg wid).ctx).isSome = true) :
    findK (s.resolveFault wid key).ctxs (s.wg wid).ctx = some { s.ctx (s.wg wid).ctx with
      recs := delK (s.ctx (s.wg wid).ctx).recs key,
      hold := (s.ctx (s.wg wid).ctx).hold.filter (fun k => !(k == key)) } := by
  obtain ⟨c, hc⟩ := Option.isSome_iff_exists.1 h
  have e : s.ctx (s.wg wid).ctx = c := by simp [State.ctx, getD, hc]
  unfold State.resolveFault
  simp only
  split
  · simp only [State.thawHolds]
    rw [shiftHolds_frame]
    simp only [State.modWg, State.dropRecord, State.modCtx, findK_modK, hc, if_true, Option.map_some, e]
  · simp only [State.modWg, State.dropRecord, State.modCtx, findK_modK, hc, if_true, Option.map_some, e]

end Sys2Proof.Machine
end

