-- ==== Sys2Proof/Laws/Frames.lean ====
section
/-! SUPPORT. The frame of every access to memory: an access changes translations and copies held by cores, memory, and
what of memory holds an uncorrectable error, and keeps the canonical form of memory. -/
namespace Sys2Proof.Machine

/-- What an access may change, and that memory keeps its form. -/
structure MemOnly (s t : State) : Prop where
  rest : t = { s with cores := t.cores, mem := t.mem, poison := t.poison }
  wf   : s.MemOk → t.MemOk

theorem MemOnly.refl (s : State) : MemOnly s s := ⟨rfl, id⟩

theorem MemOnly.trans {s t u : State} (h : MemOnly s t) (k : MemOnly t u) : MemOnly s u := by
  refine ⟨?_, fun x => k.wf (h.wf x)⟩
  rw [k.rest, h.rest]

theorem memOnly_putAt (s : State) (loc : Nat) (bs : List Byte) : MemOnly s (s.putAt loc bs) :=
  ⟨rfl, fun h => putAt_memOk h loc bs⟩

theorem memOnly_modCore (s : State) (n : Nat) (f : Core → Core) : MemOnly s (s.modCore n f) := ⟨rfl, id⟩

/-- Many steps that each change memory and cores only. -/
theorem memOnly_foldl {α : Type} (f : State → α → State) (hf : ∀ s a, MemOnly s (f s a)) (l : List α) (s : State) :
    MemOnly s (l.foldl f s) := by
  induction l generalizing s with
  | nil => exact .refl s
  | cons a l ih => exact (hf s a).trans (ih _)

theorem memOnly_storeT (s : State) (t : Target) (bs : List Byte) : MemOnly s (s.storeT t bs) := by
  unfold State.storeT
  split
  · exact memOnly_putAt ..
  all_goals exact .refl s

/-! ## Translation and accesses (R127 to R132) -/

theorem memOnly_logDirty (s : State) (e : TlbEnt) : MemOnly s (s.logDirty e) := by
  unfold State.logDirty
  refine memOnly_foldl _ (fun s r => ?_) _ _
  split
  · refine memOnly_foldl _ (fun s k => ?_) _ _
    simp only
    split
    · exact memOnly_putAt ..
    · exact .refl s
  · exact .refl s

theorem memOnly_markDirty (s : State) (e : TlbEnt) : MemOnly s (s.markDirty e).1 := by
  unfold State.markDirty
  simp only
  split
  · exact (memOnly_putAt ..).trans (memOnly_logDirty ..)
  · exact memOnly_putAt ..

theorem memOnly_translate (s : State) (core : Option Nat) (cid va : Nat) (k : XKind) :
    MemOnly s (s.translate core cid va k).1 := by
  have mark : ∀ (s : State) (e : TlbEnt) (n : Nat) (f : Core → Core), MemOnly s ((s.markDirty e).1.modCore n f) :=
    fun s e n f => (memOnly_markDirty s e).trans (memOnly_modCore ..)
  have put : ∀ (s : State) (loc : Nat) (bs : List Byte) (n : Nat) (f : Core → Core),
      MemOnly s ((s.putAt loc bs).modCore n f) := fun s loc bs n f => (memOnly_putAt ..).trans (memOnly_modCore ..)
  cases core with
  | none =>
    unfold State.translate
    simp only
    split
    · exact .refl s
    · split
      · exact memOnly_putAt ..
      · split
        · exact (memOnly_putAt ..).trans (memOnly_markDirty ..)
        · exact memOnly_putAt ..
  | some n =>
    unfold State.translate
    simp only
    repeat' split
    all_goals try dsimp only
    all_goals first
      | exact .refl s
      | exact mark s _ n _
      | exact put s _ _ n _
      | exact (put s _ _ n _).trans (mark _ _ n _)

theorem memOnly_accessG (s : State) (core : Option Nat) (cid ea n : Nat) (k : XKind) :
    MemOnly s (s.accessG core cid ea n k).1 := by
  unfold State.accessG
  split
  · exact .refl s
  · have h := memOnly_translate s core cid ea k
    split
    · rename_i e; rw [e] at h; exact h
    · rename_i e; rw [e] at h
      split
      · exact h
      · split
        · exact h
        · exact h
        · exact h
        · exact h

theorem memOnly_loadG (s : State) (core : Option Nat) (cid ea n : Nat) : MemOnly s (s.loadG core cid ea n).1 := by
  have h := memOnly_accessG s core cid ea n .read
  unfold State.loadG
  split <;> rename_i e <;> rw [e] at h <;> exact h

theorem memOnly_storeG (s : State) (core : Option Nat) (cid ea : Nat) (bs : List Byte) :
    MemOnly s (s.storeG core cid ea bs).1 := by
  have h := memOnly_accessG s core cid ea bs.length .write
  unfold State.storeG
  split <;> rename_i e <;> rw [e] at h
  · exact h
  · exact h.trans (memOnly_storeT ..)

theorem memOnly_loadBytes (s : State) (core : Option Nat) (cid ea n : Nat) : MemOnly s (s.loadBytes core cid ea n).1 := by
  induction n generalizing s ea with
  | zero => exact .refl s
  | succ n ih =>
    have h := memOnly_accessG s core cid ea 1 .read
    unfold State.loadBytes
    split
    · rename_i e; rw [e] at h; exact h
    · rename_i u t e; rw [e] at h
      split
      · exact h
      · have k := ih u (ea + 1)
        split <;> rename_i e2 <;> rw [e2] at k <;> exact h.trans k

theorem memOnly_storeBytes (s : State) (core : Option Nat) (cid ea : Nat) (bs : List Byte) :
    MemOnly s (s.storeBytes core cid ea bs).1 := by
  induction bs generalizing s ea with
  | nil => exact .refl s
  | cons b bs ih =>
    have h := memOnly_accessG s core cid ea 1 .write
    unfold State.storeBytes
    split
    · rename_i e; rw [e] at h; exact h
    · rename_i u t e; rw [e] at h
      exact (h.trans (memOnly_storeT ..)).trans (ih _ _)

theorem memOnly_fetchWord (s : State) (core cid va : Nat) : MemOnly s (s.fetchWord core cid va).1 := by
  unfold State.fetchWord
  split
  · exact .refl s
  · have h := memOnly_translate s (some core) cid va .fetch
    split
    · rename_i e; rw [e] at h; exact h
    · rename_i u t e; rw [e] at h
      split
      · simp only
        split
        · split
          · split
            · exact h
            · dsimp only at h ⊢; exact h.trans (memOnly_modCore u core _)
          · exact h
        · split
          · exact h
          · dsimp only at h ⊢; exact h.trans (memOnly_modCore u core _)
      · split <;> exact h
      · exact h
      · exact h

/-! ## Physical writes, and what cores hold -/

theorem memOnly_putPhys (s : State) (pa : Nat) (bs : List Byte) : MemOnly s (s.putPhys pa bs) := by
  induction bs generalizing s pa with
  | nil => exact .refl s
  | cons b bs ih =>
    unfold State.putPhys
    split
    · exact (memOnly_putAt ..).trans (ih _ _)
    · exact ih _ _

theorem memOnly_mapCores (s : State) (f : Core → Core) : MemOnly s (s.mapCores f) :=
  memOnly_foldl _ (fun s n => memOnly_modCore s n f) _ _

theorem memOnly_dropTlb (s : State) (cid : Nat) (r : Option (Nat × Nat)) : MemOnly s (s.dropTlb cid r) :=
  memOnly_mapCores ..

/-! ## Fields that an access leaves -/

namespace MemOnly
variable {s t : State} (h : MemOnly s t)
include h
theorem groups : t.groups = s.groups := by rw [h.rest]
theorem wgs : t.wgs = s.wgs := by rw [h.rest]
theorem regions : t.regions = s.regions := by rw [h.rest]
theorem ctxs : t.ctxs = s.ctxs := by rw [h.rest]
theorem progs : t.progs = s.progs := by rw [h.rest]
theorem objects : t.objects = s.objects := by rw [h.rest]
theorem mgmt : t.mgmt = s.mgmt := by rw [h.rest]
theorem svc : t.svc = s.svc := by rw [h.rest]
theorem agenda : t.agenda = s.agenda := by rw [h.rest]
theorem cycle : t.cycle = s.cycle := by rw [h.rest]
theorem serial : t.serial = s.serial := by rw [h.rest]
theorem cur : t.cur = s.cur := by rw [h.rest]
theorem iset : t.iset = s.iset := by rw [h.rest]
theorem ilane : t.ilane = s.ilane := by rw [h.rest]
theorem eng : t.eng = s.eng := by rw [h.rest]
theorem nextId : t.nextId = s.nextId := by rw [h.rest]
end MemOnly

end Sys2Proof.Machine
end

