-- ==== Sys2Proof/Laws/Kept.lean ====
section
/-! SUPPORT. What the shared operations of an issue keep: the canonical form of memory, and the lane at the issue port
a lane. -/
namespace Sys2Proof.Machine

/-- Memory keeps its form, and the lane at the issue port stays a lane. -/
structure Kept (s t : State) : Prop where
  wf   : s.MemOk → t.MemOk
  lane : s.ilane < 32 → t.ilane < 32

theorem Kept.refl (s : State) : Kept s s := ⟨id, id⟩
theorem Kept.trans {s t u : State} (h : Kept s t) (k : Kept t u) : Kept s u :=
  ⟨fun x => k.wf (h.wf x), fun x => k.lane (h.lane x)⟩

/-- What changes neither memory nor the lane at the issue port. -/
theorem Kept.same {s t : State} (m : t.mem = s.mem) (l : t.ilane = s.ilane) : Kept s t :=
  ⟨fun h => h.of_eq m, fun h => l ▸ h⟩

theorem MemOnly.kept {s t : State} (h : MemOnly s t) : Kept s t := ⟨h.wf, fun x => h.ilane ▸ x⟩

theorem kept_foldl {α : Type} (f : State → α → State) (hf : ∀ s a, Kept s (f s a)) (l : List α) (s : State) :
    Kept s (l.foldl f s) := by
  induction l generalizing s with
  | nil => exact .refl s
  | cons a l ih => exact (hf s a).trans (ih _)

/-! ## Records of fields -/

theorem kept_modGrp (s : State) (gid : Nat) (f : Group → Group) : Kept s (s.modGrp gid f) := .same rfl rfl
theorem kept_modWg (s : State) (wid : Nat) (f : Wg → Wg) : Kept s (s.modWg wid f) := .same rfl rfl
theorem kept_modRegion (s : State) (rid : Nat) (f : Region → Region) : Kept s (s.modRegion rid f) := .same rfl rfl
theorem kept_modCtx (s : State) (cid : Nat) (f : Ctx → Ctx) : Kept s (s.modCtx cid f) := .same rfl rfl
theorem kept_modProg (s : State) (pid : Nat) (f : Prog → Prog) : Kept s (s.modProg pid f) := .same rfl rfl

theorem kept_putReg (s : State) (gid : Nat) (d : Reg) (wide : Bool) (m : LaneMask) (sl : Nat) (f : Nat → Word) (due : Due) :
    Kept s (s.putReg gid d wide m sl f due) := by rw [putReg_eq]; exact kept_modGrp ..
theorem kept_putPred (s : State) (gid n : Nat) (m : LaneMask) (f : Nat → Bool) (due : Due) :
    Kept s (s.putPred gid n m f due) := .same rfl rfl

/-! ## Completion and outcomes -/

theorem kept_completePend (s : State) (gid id : Nat) : Kept s (s.completePend gid id) := by
  unfold State.completePend
  split
  · exact .refl s
  · exact .same rfl rfl

theorem kept_prune (s : State) (gid : Nat) : Kept s (s.prune gid) := .same rfl rfl

theorem kept_landAll (s : State) (gid : Nat) : Kept s (s.landAll gid) := kept_modGrp ..

theorem kept_completeAll (s : State) (gid : Nat) : Kept s (s.completeAll gid) :=
  kept_foldl _ (fun s id => kept_completePend s gid id) _ _

theorem kept_settleLane (s : State) (gid l : Nat) : Kept s (s.settleLane gid l) := by
  have h := kept_foldl _ (fun s id => kept_completePend s gid id)
    (((s.grp gid).pending.filter (fun p => p.kind == .result && bitOf p.lanes l)).map (fun p => p.id)) s
  unfold State.settleLane
  simp only
  exact ⟨h.wf, h.lane⟩

theorem kept_outcome (s : State) (gid l cause : Nat) (x : Word) : Kept s (s.outcome gid l cause x) := by
  unfold State.outcome
  split
  · exact .refl s
  · exact (kept_settleLane ..).trans (kept_modGrp ..)

theorem kept_takeFault (s : State) (gid : Nat) (i : FaultInfo) (sub : Subject) : Kept s (s.takeFault gid i sub) :=
  .same (takeFault_mem ..) (takeFault_ilane ..)

theorem kept_resolveFault (s : State) (wid key : Nat) : Kept s (s.resolveFault wid key) :=
  .same (resolveFault_mem ..) (resolveFault_ilane ..)

/-! ## Headers, the advance and transfers -/

theorem kept_fetchHeader (s : State) (gid : Nat) (a : Word) : Kept s (s.fetchHeader gid a).1 := by
  unfold State.fetchHeader
  split
  · exact .refl s
  · exact (memOnly_fetchWord ..).kept

theorem kept_fallInto (s : State) (gid l : Nat) (a : Word) : Kept s (s.fallInto gid l a).1 := by
  have h := kept_fetchHeader s gid a
  unfold State.fallInto
  simp only
  split
  · exact .refl s
  · split
    · exact .refl s
    · split <;> rename_i e <;> rw [e] at h
      · exact h
      · split
        · exact h
        · split
          · exact h
          · exact h.trans (kept_modGrp ..)

theorem kept_targetHeader (s : State) (gid l : Nat) (a : Word) (call : Bool) :
    Kept s (s.targetHeader gid l a call).1 := by
  have h := kept_fetchHeader s gid a
  unfold State.targetHeader
  split
  · exact .refl s
  · split
    · exact .refl s
    · split <;> rename_i e <;> rw [e] at h <;> exact h

theorem kept_transferInto (s : State) (gid l : Nat) (a : Word) (call : Bool) :
    Kept s (s.transferInto gid l a call).1 := by
  have h := kept_targetHeader s gid l a call
  unfold State.transferInto
  split <;> rename_i e <;> rw [e] at h
  · exact h
  · exact h.trans (kept_modGrp ..)

theorem kept_faultEntry (s : State) (gid : Nat) (fs : List (Nat × Nat × Word)) : Kept s (s.faultEntry gid fs) := by
  unfold State.faultEntry
  split
  · exact .refl s
  · exact kept_takeFault ..

theorem kept_enterLanes (ls : List Nat) (s : State) (gid : Nat) (fs : List (Nat × Nat × Word)) :
    Kept s (s.enterLanes gid ls fs).1 := by
  induction ls generalizing s fs with
  | nil => exact .refl s
  | cons l ls ih =>
    unfold State.enterLanes
    simp only
    split
    · exact ih ..
    · rename_i how _
      have h : Kept s (if how = 0 then s.fallInto gid l ((s.grp gid).th l).pc
          else s.transferInto gid l ((s.grp gid).th l).pc (how == 2)).1 := by
        split
        · exact kept_fallInto ..
        · exact kept_transferInto ..
      split <;> rename_i e <;> rw [e] at h
      · exact h.trans (ih ..)
      · split
        · exact h.trans (((kept_modGrp ..).trans (kept_outcome ..)).trans (ih ..))
        · exact h.trans (ih ..)

theorem kept_enterAll (s : State) (gid : Nat) : Kept s (s.enterAll gid) :=
  (((kept_modGrp ..).trans (kept_enterLanes ..)).trans (kept_modGrp ..)).trans (kept_faultEntry ..)

theorem kept_passWord (s : State) (gid : Nat) (m : LaneMask) : Kept s (s.passWord gid m) := kept_modGrp ..

theorem kept_advance (s : State) (gid : Nat) (m : LaneMask) : Kept s (s.advance gid m) := by
  unfold State.advance State.passWord
  simp only
  split
  · exact (kept_modGrp ..).trans (kept_enterAll ..)
  · exact kept_modGrp ..

theorem kept_afterReturn (s : State) (gid : Nat) (m : LaneMask) : Kept s (s.afterReturn gid m) := by
  unfold State.afterReturn
  simp only
  split
  · exact (kept_modGrp ..).trans (kept_enterAll ..)
  · exact kept_modGrp ..

theorem kept_outcomes (s : State) (gid : Nat) (m : LaneMask) (cause : Nat) : Kept s (s.outcomes gid m cause) :=
  (kept_foldl _ (fun s l => kept_outcome s gid l cause _) _ _).trans (kept_afterReturn ..)

theorem kept_transferFails (s : State) (gid l c : Nat) (a : Word) : Kept s (s.transferFails gid l c a).1 := by
  unfold State.transferFails
  simp only
  split
  · exact kept_outcome ..
  · exact .refl s

theorem kept_transferLanes (ls : List (Nat × Word)) (s : State) (gid : Nat) (call : Bool) (link : Option Nat)
    (fs : List (Nat × Nat × Word)) : Kept s (s.transferLanes gid call link ls fs).1 := by
  induction ls generalizing s fs with
  | nil => exact .refl s
  | cons x ls ih =>
    obtain ⟨l, a⟩ := x
    unfold State.transferLanes
    refine .trans (?_ : Kept s _) (ih ..)
    have h := kept_targetHeader s gid l a call
    split
    · exact kept_transferFails ..
    · split <;> rename_i e <;> rw [e] at h
      · split
        · exact h.trans (kept_modGrp ..)
        · exact h.trans (kept_transferFails ..)
      · exact h.trans (kept_modGrp ..)

theorem kept_faultTransfer (s : State) (gid : Nat) (pc w : Word) (fs : List (Nat × Nat × Word)) :
    Kept s (s.faultTransfer gid pc w fs) := by
  unfold State.faultTransfer
  split
  · exact .refl s
  · exact kept_takeFault ..

theorem kept_depart (s : State) (gid : Nat) (call : Bool) (link : Option Nat) (taken : List (Nat × Word))
    (others : LaneMask) : Kept s (s.depart gid call link taken others).1 :=
  ((kept_transferLanes ..).trans (kept_passWord ..)).trans (kept_modGrp ..)

theorem kept_transferAll (s : State) (gid : Nat) (pc w : Word) (call : Bool) (link : Option Nat)
    (taken : List (Nat × Word)) (others : LaneMask) : Kept s (s.transferAll gid pc w call link taken others) :=
  ((kept_depart ..).trans (kept_enterAll ..)).trans (kept_faultTransfer ..)

/-! ## The issue of a word (R70, R269, R270) -/

theorem lowLane_lt (m : LaneMask) : lowLane m < 32 := by
  unfold lowLane
  cases h : (lanesOf m).head? with
  | none => decide
  | some l => exact (mem_lanesOf.1 (List.mem_of_head? h)).1

theorem kept_keepLanes (s : State) (m : LaneMask) : Kept s (s.keepLanes m) := by
  refine ⟨id, fun h => ?_⟩
  show (if bitOf m s.ilane then s.ilane else lowLane m) < 32
  split
  · exact h
  · exact lowLane_lt m

theorem kept_cut (s : State) (m : LaneMask) (c : Nat) :
    Kept s (if m == 0 then s else (s.outcomes s.cur m c).keepLanes (s.iset &&& ~~~m)) := by
  split
  · exact .refl s
  · exact (kept_outcomes ..).trans (kept_keepLanes ..)

theorem kept_issueTrial (s : State) (i : Instr) (eff : State → State) (h : ∀ s, Kept s (eff s)) :
    Kept s (s.issueTrial i eff) := by
  have h0 : Kept s s.spendAllowance := .same rfl rfl
  refine h0.trans ?_
  unfold State.issueTrial
  generalize s.spendAllowance = u
  simp only
  split
  · unfold State.faultTrial
    split
    · exact kept_outcomes ..
    · exact .refl _
  · refine (kept_cut u (u.overWindow i) 7).trans ?_
    generalize (if (u.overWindow i == 0) = true then u
      else (u.outcomes u.cur (u.overWindow i) 7).keepLanes (u.iset &&& ~~~u.overWindow i)) = v
    generalize (filterLanes v.iset fun l =>
      trialForbidden i || (match i.ctl? with | some c => namesOwnFlag c (v.g.th l) | none => false)) = m
    refine (kept_cut v m 6).trans ?_
    generalize (if (m == 0) = true then v else (v.outcomes v.cur m 6).keepLanes (v.iset &&& ~~~m)) = w
    split
    · exact .refl w
    · exact h w

/-- A word keeps what its effect keeps. -/
theorem kept_issueWord {i : Instr} {eff : State → State} {s t : State} (h : ∀ s, Kept s (eff s))
    (e : issueWord i eff s = .next t) : Kept s t := by
  unfold issueWord at e
  split at e
  · exact nomatch e
  · injection e with e
    rw [← e]
    split
    · exact kept_issueTrial s i eff h
    · split
      · exact kept_takeFault ..
      · exact h s

/-! ## The shapes of an issue -/

theorem kept_addPend (s : State) (gid : Nat) (p : Pend) : Kept s (s.addPend gid p) := kept_modGrp ..

theorem kept_chargeFixed (s : State) (i : Instr) (c : Ctl) (m : LaneMask) (due : Nat) : Kept s (s.chargeFixed i c m due) := by
  unfold State.chargeFixed
  split
  · exact .refl s
  · exact .same rfl rfl

theorem kept_fixedForm (s : State) (i : Instr) (c : Ctl) (L : Nat) (write : State → LaneMask → Due → State)
    (h : ∀ t m due, Kept t (write t m due)) : Kept s (s.fixedForm i c L write) := by
  unfold State.fixedForm
  simp only
  split
  · exact kept_advance ..
  · exact ((h ..).trans (kept_chargeFixed ..)).trans (kept_advance ..)

theorem kept_fixedReg (s : State) (i : Instr) (c : Ctl) (L : Nat) (d : Reg) (wide : Bool) (f : Nat → Word) :
    Kept s (s.fixedReg i c L d wide f) := kept_fixedForm _ _ _ _ _ (fun _ _ _ => kept_putReg ..)

theorem kept_fixedPred (s : State) (i : Instr) (c : Ctl) (L n : Nat) (f : Nat → Bool) :
    Kept s (s.fixedPred i c L n f) := kept_fixedForm _ _ _ _ _ (fun _ _ _ => kept_putPred ..)

theorem kept_startPend (s : State) (i : Instr) (c : Ctl) (m : LaneMask) (kind : PendKind) (ops : Ops) :
    Kept s (s.startPend i c m kind ops) := .same rfl rfl

theorem kept_putBehind (s : State) (i : Instr) (c : Ctl) (m : LaneMask) (ops : Ops) : Kept s (s.putBehind i c m ops) :=
  (kept_startPend ..).trans (kept_advance ..)

theorem kept_runLanes (f : Nat → State → State × LaneFault) (h : ∀ l t, Kept t (f l t).1) (ls : List Nat) (s : State)
    (done : LaneMask) (fs : List (Nat × Nat × Word)) : Kept s (State.runLanes f ls s done fs).1 := by
  induction ls generalizing s done fs with
  | nil => exact .refl s
  | cons l ls ih =>
    have k := h l s
    unfold State.runLanes
    split <;> rename_i e <;> rw [e] at k <;> exact k.trans (ih ..)

theorem kept_returnLanes (s : State) (gid : Nat) (pc : Word) (ls : List (Nat × Nat)) :
    Kept s (s.returnLanes gid pc ls) := by
  induction ls generalizing s with
  | nil => exact .refl s
  | cons x ls ih => exact (kept_outcome ..).trans (ih _)

theorem kept_finishRun (s : State) (gid id : Nat) (i : Instr) (done : LaneMask) (fs : List (Nat × Nat × Word)) :
    Kept s (s.finishRun gid id i done fs) := by
  unfold State.finishRun
  simp only
  split
  · exact (kept_modGrp ..).trans (kept_returnLanes ..)
  · exact ((kept_modGrp ..).trans (kept_returnLanes ..)).trans (kept_takeFault ..)

theorem kept_lanesNow (s : State) (i : Instr) (c : Ctl) (m : LaneMask) (ops : Ops)
    (f : Nat → Nat → State → State × LaneFault) (h : ∀ id l t, Kept t (f id l t).1) : Kept s (s.lanesNow i c m ops f) :=
  ((((kept_startPend ..).trans (kept_runLanes _ (h _) ..)).trans (kept_finishRun ..)).trans (kept_afterReturn ..)).trans
    (kept_advance ..)

theorem kept_perLane (s : State) (i : Instr) (c : Ctl) (ops : Ops) (f : Nat → Nat → State → State × LaneFault) (bad : Bool)
    (h : ∀ id l t, Kept t (f id l t).1) : Kept s (s.perLane i c ops f bad) := by
  unfold State.perLane
  simp only
  split
  · exact kept_advance ..
  split
  · exact kept_putBehind ..
  · exact kept_lanesNow _ _ _ _ _ _ h

theorem kept_redoLanes (s : State) (gid : Nat) (p : Pend) (f : Nat → State → State × LaneFault)
    (h : ∀ l t, Kept t (f l t).1) : Kept s (s.redoLanes gid p f) :=
  ((kept_runLanes _ h ..).trans (kept_finishRun ..)).trans (kept_afterReturn ..)

theorem kept_onceForm (s : State) (i : Instr) (c : Ctl) (ops : Ops) (act : Nat → LaneMask → State → State)
    (bad : Bool) (h : ∀ id m t, Kept t (act id m t)) : Kept s (s.onceForm i c ops act bad) := by
  unfold State.onceForm
  simp only
  split
  · exact kept_advance ..
  split
  · exact kept_putBehind ..
  · exact ((kept_startPend ..).trans (h ..)).trans (kept_advance ..)

theorem kept_plainForm (s : State) (c : Ctl) (act : LaneMask → State → State) (h : ∀ m t, Kept t (act m t)) :
    Kept s (s.plainForm c act) := by
  unfold State.plainForm
  simp only
  split
  · exact kept_advance ..
  · exact (h ..).trans (kept_advance ..)

end Sys2Proof.Machine
end

