-- ==== Sys2Proof/Laws/KeptUnits.lean ====
section
/-! SUPPORT. What the units keep: the accesses of lanes, signing, trials, weirs, stamp waits and copies keep the
canonical form of memory, and the lane at the issue port a lane. -/
namespace Sys2Proof.Machine

theorem Kept.of_fst {α : Type} {s t : State} {x : State × α} {r : α} (h : Kept s x.1) (e : x = (t, r)) : Kept s t := by
  rw [e] at h
  exact h

/-! ## Accesses of lanes -/

theorem kept_putStoreAt (s : State) (wid : Nat) (loc : StoreLoc) (v : Byte) (due : Due) :
    Kept s (s.putStoreAt wid loc v due) := by
  unfold State.putStoreAt
  split
  · exact kept_modWg ..
  · exact kept_modGrp ..

theorem kept_putStoreByte (s : State) (gid : Nat) (loc : StoreLoc) (v : Byte) (due : Due) :
    Kept s (s.putStoreByte gid loc v due) := kept_putStoreAt ..

theorem kept_putStore (bs : List Byte) (s : State) (gid a : Nat) (due : Due) : Kept s (s.putStore gid a due bs) := by
  induction bs generalizing s a with
  | nil => exact .refl s
  | cons b bs ih =>
    unfold State.putStore
    split
    · exact (kept_putStoreByte ..).trans (ih ..)
    · exact .refl s

theorem kept_storeS (s : State) (gid a : Nat) (bs : List Byte) (due : Due) : Kept s (s.storeS gid a bs due).1 := by
  unfold State.storeS
  split
  · exact kept_putStore ..
  · exact .refl s

theorem kept_loadK (s : State) (gid a n : Nat) : Kept s (s.loadK gid a n).1 := by
  unfold State.loadK
  split
  · split
    · exact (memOnly_loadG ..).kept
    · exact .refl s
  · exact .refl s

theorem kept_laneLoad (s : State) (gid l : Nat) (sp : Space) (ea n : Nat) : Kept s (s.laneLoad gid l sp ea n).1 := by
  unfold State.laneLoad
  simp only
  split
  · split
    · split
      · exact .refl s
      · split <;> rename_i e <;> exact (memOnly_loadG ..).kept.of_fst e
    · split <;> exact .refl s
    · exact .refl s
  · split
    · exact .refl s
    · split
      · exact (memOnly_loadG ..).kept
      · exact .refl s
      · exact kept_loadK ..

theorem kept_laneStore (s : State) (gid l : Nat) (sp : Space) (ea : Nat) (bs : List Byte) (due : Due) :
    Kept s (s.laneStore gid l sp ea bs due).1 := by
  unfold State.laneStore
  simp only
  split
  · split
    · exact .refl s
    · exact kept_modGrp ..
  · split
    · exact .refl s
    · split
      · exact (memOnly_storeG ..).kept
      · exact kept_storeS ..
      · exact .refl s

theorem kept_ldLane (sp : Space) (z : Size) (d : Reg) (off : BitVec 11) (gid : Nat) (ops : Ops) (id l : Nat) (s : State) :
    Kept s (ldLane sp z d off gid ops id l s).1 := by
  unfold ldLane
  simp only
  split <;> rename_i e
  · exact (kept_laneLoad ..).of_fst e
  · dsimp only
    exact ((kept_laneLoad ..).of_fst e).trans (kept_putReg ..)

theorem kept_stLane (sp : Space) (z : Size) (off : BitVec 11) (gid : Nat) (ops : Ops) (id l : Nat) (s : State) :
    Kept s (stLane sp z off gid ops id l s).1 := by
  unfold stLane
  simp only
  split <;> rename_i e <;> exact (kept_laneStore ..).of_fst e

theorem kept_laneRmw (s : State) (gid : Nat) (sp : Space) (ea n : Nat) (op : AtomOp) (x y : Word) (due : Due) :
    Kept s (s.laneRmw gid sp ea n op x y due).1 := by
  unfold State.laneRmw
  split
  · exact .refl s
  · split
    · split
      · exact .refl s
      · split
        · exact kept_putStore ..
        · exact .refl s
    · split <;> rename_i e
      · exact (memOnly_accessG ..).kept.of_fst e
      · have h := (memOnly_accessG ..).kept.of_fst e
        split
        · exact h
        · split
          · exact h.trans (memOnly_storeT ..).kept
          · exact h

theorem kept_atomLane (sp : Space) (z : Size) (op : AtomOp) (d : Option Reg) (gid : Nat) (ops : Ops) (id l : Nat)
    (s : State) : Kept s (atomLane sp z op d gid ops id l s).1 := by
  unfold atomLane
  simp only
  split <;> rename_i e
  · exact (kept_laneRmw ..).of_fst e
  · split
    · dsimp only
      exact ((kept_laneRmw ..).of_fst e).trans (kept_putReg ..)
    · exact (kept_laneRmw ..).of_fst e

theorem kept_sprobeLane (d : VR) (f : PR) (gid : Nat) (ops : Ops) (id l : Nat) (s : State) :
    Kept s (sprobeLane d f gid ops id l s).1 := by
  unfold sprobeLane
  split
  · exact .refl s
  · dsimp only
    exact (kept_putReg ..).trans (kept_putPred ..)

/-! ## Signing -/

theorem kept_setConv (s : State) (wid k : Nat) (v : Conv) : Kept s (s.setConv wid k v) := .same rfl rfl

theorem kept_signLane (s : State) (gid k : Nat) (mask : LaneMask) (guard : Bool) (l : Nat) :
    Kept s (s.signLane gid k mask guard l).1 := by
  unfold State.signLane
  simp only
  repeat' split
  all_goals first
    | exact .refl s
    | exact kept_setConv ..

theorem kept_releaseLanes (s : State) (gid id : Nat) (m : LaneMask) : Kept s (s.releaseLanes gid id m) :=
  (kept_modGrp ..).trans (kept_advance ..)

theorem kept_signRelease (s : State) (gid k : Nat) : Kept s (s.signRelease gid k) := by
  unfold State.signRelease
  simp only
  refine (kept_setConv ..).trans (kept_foldl (fun (s : State) (p : Nat × LaneMask) => s.releaseLanes gid p.1 p.2) ?_ _ _)
  exact fun s p => kept_releaseLanes s gid p.1 p.2

theorem kept_callSigners (s : State) (wid k : Nat) : Kept s (s.callSigners wid k) := .same rfl rfl

theorem kept_callSigned (s : State) (wid k : Nat) (v : Conv) : Kept s ((s.setConv wid k v).callSigners wid k) :=
  (kept_setConv ..).trans (kept_callSigners ..)

theorem kept_abandonRound (s : State) (gid k code id : Nat) (extra : LaneMask) :
    Kept s (s.abandonRound gid k code id extra) := by
  unfold State.abandonRound
  extract_lets g v own m t key ids u first
  have h : Kept s t := by
    show Kept s (if own then _ else s)
    split
    · exact kept_callSigned ..
    · exact .refl s
  clear_value t
  split
  · exact h
  · exact (h.trans (kept_modGrp ..)).trans (kept_takeFault ..)

theorem kept_signLanes (ls : List Nat) (s : State) (gid k id : Nat) (mask guards : LaneMask) :
    Kept s (s.signLanes gid k id mask guards ls) := by
  induction ls generalizing s with
  | nil => exact .refl s
  | cons l ls ih =>
    unfold State.signLanes
    split <;> rename_i e <;> have h := (kept_signLane ..).of_fst e
    · exact h.trans (ih _)
    · exact h.trans (kept_abandonRound ..)
    · dsimp only
      refine Kept.trans ?_ (ih _)
      repeat' split
      all_goals first
        | exact h
        | exact h.trans (kept_releaseLanes ..)
        | exact h.trans (kept_signRelease ..)
        | exact (h.trans (kept_releaseLanes ..)).trans (kept_signRelease ..)

theorem kept_signAgain (s : State) (gid : Nat) (p : Pend) : Kept s (s.signAgain gid p) := by
  unfold State.signAgain
  split
  · exact (kept_modGrp ..).trans (kept_signLanes ..)
  · exact .refl s

theorem kept_wakeSigners (s : State) (wid k : Nat) : Kept s (s.wakeSigners wid k) := by
  unfold State.wakeSigners
  refine kept_foldl _ (fun s gid => kept_foldl _ (fun s p => ?_) _ _) _ _
  split
  · split
    · exact kept_signLanes ..
    · exact .refl s
  · exact .refl s

/-! ## Trials -/

theorem kept_tryCheck (s : State) (gid : Nat) (win e : Word) : Kept s (s.tryCheck gid win e).1 := by
  unfold State.tryCheck
  simp only
  split
  · exact .refl s
  · split
    · exact .refl s
    · split
      · exact .refl s
      · split
        · exact .refl s
        · split <;> rename_i e <;> exact (memOnly_fetchWord ..).kept.of_fst e

theorem kept_tryLanes (ls : List Nat) (s : State) (gid id out flag : Nat) (ops : Ops) (ret : LaneMask)
    (fs : List (Nat × Nat × Word)) : Kept s (s.tryLanes gid id out flag ops ls ret fs).1 := by
  induction ls generalizing s ret fs with
  | nil => exact .refl s
  | cons l ls ih =>
    unfold State.tryLanes
    simp only
    split <;> rename_i e <;> have h := (kept_tryCheck ..).of_fst e
    · exact h.trans (ih ..)
    · exact (h.trans (kept_modGrp ..)).trans (ih ..)
    · exact (h.trans (kept_modGrp ..)).trans (ih ..)

theorem kept_tryRun (s : State) (gid id : Nat) (i : Instr) (out flag : Nat) (ops : Ops) (pc : Word) (todo : LaneMask) :
    Kept s (s.tryRun gid id i out flag ops pc todo) := by
  unfold State.tryRun
  simp only
  have h : Kept s ((s.tryLanes gid id out flag ops (lanesOf todo) 0 []).1.advance gid
    (s.tryLanes gid id out flag ops (lanesOf todo) 0 []).2.1) := (kept_tryLanes ..).trans (kept_advance ..)
  split
  · exact h.trans (kept_modGrp ..)
  · exact (h.trans (kept_modGrp ..)).trans (kept_takeFault ..)

theorem kept_tryAgain (s : State) (gid : Nat) (p : Pend) : Kept s (s.tryAgain gid p) := by
  unfold State.tryAgain
  split
  · exact kept_tryRun ..
  · exact .refl s

theorem kept_swcLane (d : VR) (gid : Nat) (ops : Ops) (id l : Nat) (s : State) : Kept s (swcLane d gid ops id l s).1 := by
  unfold swcLane
  extract_lets table ea
  clear_value table
  split
  · exact .refl s
  · generalize 2 ^ 54 = x
    split
    · exact .refl s
    · split <;> rename_i e <;> have h := (memOnly_accessG ..).kept.of_fst e
      · exact h
      · split
        · exact h
        · dsimp only
          refine Kept.trans ?_ (kept_putReg ..)
          split
          · exact h.trans (memOnly_putAt ..).kept
          · exact h

/-! ## Weirs and stamp waits -/

theorem kept_putWeir (s : State) (wid a : Nat) (x : Weir) : Kept s (s.putWeir wid a x) := .same rfl rfl
theorem kept_wakeWeir (s : State) (wid a : Nat) : Kept s (s.wakeWeir wid a) := .same rfl rfl

theorem kept_weirArrive (s : State) (wid a n e : Nat) (error : Option (Nat × Nat)) :
    Kept s (s.weirArrive wid a n e error).1 := by
  unfold State.weirArrive
  simp only
  split
  · exact .refl s
  · dsimp only
    split
    · exact (kept_putWeir ..).trans (kept_wakeWeir ..)
    · exact kept_putWeir ..

theorem kept_finishOnce (s : State) (gid id : Nat) (i : Instr) (m : LaneMask) (f : LaneFault) :
    Kept s (s.finishOnce gid id i m f) := by
  unfold State.finishOnce
  split <;> exact kept_finishRun ..

theorem kept_weirResult (s : State) (gid id : Nat) (m : LaneMask) (d : Reg) (pn : PR) (pv : Bool) (x : Weir) :
    Kept s (s.weirResult gid id m d pn pv x) := (kept_putReg ..).trans (kept_putPred ..)

theorem kept_weirWait (s : State) (gid id : Nat) (m : LaneMask) (a : Nat) (par : Bool) (d : Reg) (pe : PR) :
    Kept s (s.weirWait gid id m a par d pe) := by
  unfold State.weirWait
  simp only
  split
  · exact (kept_weirResult ..).trans (kept_modGrp ..)
  · exact kept_modGrp ..

theorem kept_weirAct (s : State) (gid id : Nat) (i : Instr) (ops : Ops) (m : LaneMask) :
    Kept s (s.weirAct gid id i ops m) := by
  unfold State.weirAct
  simp only
  split
  · split
    · exact kept_finishOnce ..
    · split
      · exact kept_finishOnce ..
      · exact (kept_putWeir ..).trans (kept_finishOnce ..)
  · split
    · exact kept_finishOnce ..
    · split <;> rename_i e <;> exact ((kept_weirArrive ..).of_fst e).trans (kept_finishOnce ..)
  · split
    · exact kept_finishOnce ..
    · split <;> rename_i e <;> have h := (kept_weirArrive ..).of_fst e
      · exact h.trans (kept_finishOnce ..)
      · exact h.trans (kept_weirWait ..)
  · split
    · exact kept_finishOnce ..
    · exact kept_weirWait ..
  · split
    · exact kept_finishOnce ..
    · exact kept_weirWait ..
  · split
    · exact kept_finishOnce ..
    · exact (kept_weirResult ..).trans (kept_finishOnce ..)
  · exact .refl s

theorem kept_weirForm (s : State) (i : Instr) (c : Ctl) (a : SR) (b : Option SR) : Kept s (s.weirForm i c a b) :=
  kept_onceForm s i c _ (fun id m t => t.weirAct s.cur id i _ m) _ (fun id m t => kept_weirAct t s.cur id i _ m)

theorem kept_stampLane (s : State) (gid : Nat) (ops : Ops) (l : Nat) : Kept s (s.stampLane gid ops l).1 := by
  unfold State.stampLane
  simp only
  split
  · exact .refl s
  · split <;> rename_i e <;> exact (memOnly_loadG ..).kept.of_fst e

theorem kept_stampLanes (ls : List Nat) (s : State) (gid id : Nat) (u : Bool) (d : Reg) (ops : Ops) (done : LaneMask)
    (fs : List (Nat × Nat × Word)) : Kept s (s.stampLanes gid id u d ops ls done fs).1 := by
  induction ls generalizing s done fs with
  | nil => exact .refl s
  | cons l ls ih =>
    unfold State.stampLanes
    split <;> rename_i e <;> have h := (kept_stampLane ..).of_fst e
    · exact h.trans (ih ..)
    · exact h.trans (ih ..)
    · exact (h.trans (kept_putReg ..)).trans (ih ..)

theorem kept_stampPoll (s : State) (gid id : Nat) (i : Instr) (c : Ctl) (d : Reg) (ops : Ops) (todo : LaneMask) :
    Kept s (s.stampPoll gid id i c d ops todo) := by
  unfold State.stampPoll
  simp only
  split
  · exact (kept_stampLanes ..).trans (kept_modGrp ..)
  · exact (kept_stampLanes ..).trans (kept_finishRun ..)

theorem kept_stampAgain (s : State) (gid : Nat) (p : Pend) : Kept s (s.stampAgain gid p) := by
  unfold State.stampAgain
  split
  · exact kept_stampPoll ..
  · exact .refl s

/-! ## Copies, seals and their stamps -/

theorem kept_copyReady (s : State) (wid : Nat) : Kept s (s.copyReady wid) := by
  unfold State.copyReady
  split
  · exact .same rfl rfl
  · exact .refl s

theorem kept_bcopyAct (s : State) (gid id : Nat) (i : Instr) (ops : Ops) (m : LaneMask) :
    Kept s (s.bcopyAct gid id i ops m) := by
  unfold State.bcopyAct
  split
  · simp only
    split
    · exact kept_finishOnce ..
    · exact kept_finishOnce ..
    · exact (((kept_modWg ..).trans (kept_modGrp ..)).trans (kept_copyReady ..)).trans (kept_finishOnce ..)
  · exact .refl s

theorem kept_copyRead (s : State) (wid core : Nat) (inS : Bool) (a : Nat) : Kept s (s.copyRead wid core inS a).1 := by
  unfold State.copyRead
  split
  · split <;> exact .refl s
  · split <;> rename_i e <;> have h := (memOnly_accessG ..).kept.of_fst e
    · exact h
    · split <;> exact h

theorem kept_copyCheck (s : State) (wid core : Nat) (inS : Bool) (a : Nat) : Kept s (s.copyCheck wid core inS a).1 := by
  unfold State.copyCheck
  split
  · exact .refl s
  · split <;> rename_i e <;> have h := (memOnly_accessG ..).kept.of_fst e
    · exact h
    · split <;> exact h

theorem kept_copyWrite (s : State) (wid core : Nat) (inS : Bool) (a : Nat) (v : Byte) : Kept s (s.copyWrite wid core inS a v) := by
  unfold State.copyWrite
  split
  · split
    · exact kept_putStoreAt ..
    · exact .refl s
  · split <;> rename_i e <;> have h := (memOnly_accessG ..).kept.of_fst e
    · exact h.trans (memOnly_storeT ..).kept
    · exact h

theorem kept_copyReads (n : Nat) (s : State) (wid core : Nat) (inS : Bool) (a : Nat) (acc : List (Option Byte)) (e : Nat) :
    Kept s (s.copyReads wid core inS a n acc e).1 := by
  induction n generalizing s a acc e with
  | zero => exact .refl s
  | succ n ih =>
    unfold State.copyReads
    split <;> rename_i e <;> have h := (kept_copyRead ..).of_fst e
    · exact h.trans (ih ..)
    · exact h.trans (ih ..)
    · exact h

theorem kept_copyChecks (n : Nat) (s : State) (wid core : Nat) (inS : Bool) (a : Nat) :
    Kept s (s.copyChecks wid core inS a n).1 := by
  induction n generalizing s a with
  | zero => exact .refl s
  | succ n ih =>
    unfold State.copyChecks
    split
    · rename_i e
      exact (kept_copyCheck ..).of_fst e
    · rename_i e
      exact ((kept_copyCheck ..).of_fst e).trans (ih ..)

theorem kept_copyWrites (bs : List (Option Byte)) (s : State) (wid core : Nat) (inS : Bool) (a e : Nat) :
    Kept s (s.copyWrites wid core inS a bs e).1 := by
  induction bs generalizing s a e with
  | nil => exact .refl s
  | cons b bs ih =>
    cases b with
    | none => exact ih ..
    | some v =>
      unfold State.copyWrites
      split <;> rename_i e <;> have h := (kept_copyCheck ..).of_fst e
      · exact (h.trans (kept_copyWrite ..)).trans (ih ..)
      · exact h.trans (ih ..)
      · exact h.trans (ih ..)

theorem kept_closeAll (s : State) (wid : Nat) : Kept s (s.closeAll wid) := kept_modWg ..

theorem kept_bsealAct (s : State) (gid id : Nat) (i : Instr) (ops : Ops) (m : LaneMask) :
    Kept s (s.bsealAct gid id i ops m) := by
  unfold State.bsealAct
  simp only
  split
  · exact kept_finishOnce ..
  · split
    · exact kept_finishOnce ..
    · split
      · exact kept_finishOnce ..
      · exact (((kept_modWg ..).trans (kept_modGrp ..)).trans (kept_closeAll ..)).trans (kept_finishOnce ..)

end Sys2Proof.Machine
end

