-- ==== Sys2Proof/Laws/KeptEngines.lean ====
section
/-! SUPPORT. What the matrix unit, the palette unit and the rill engines keep: the canonical form of memory, and the lane
at the issue port a lane. -/
namespace Sys2Proof.Machine

/-! ## The matrix unit -/

theorem kept_modCore (s : State) (n : Nat) (f : Core → Core) : Kept s (s.modCore n f) := (memOnly_modCore ..).kept

theorem memOnly_loadRow (s : State) (gid a n : Nat) : MemOnly s (s.loadRow gid a n).1 := by
  have h := memOnly_loadBytes s (some (s.grp gid).core) (s.cidOf gid) a n
  unfold State.loadRow
  split <;> rename_i e <;> rw [e] at h <;> exact h

theorem memOnly_loadRows (is : List Nat) (s : State) (gid base stride n : Nat) (skip : Nat → Bool) (acc : List Nat) :
    MemOnly s (s.loadRows gid base stride n skip is acc).1 := by
  induction is generalizing s acc with
  | nil => exact .refl s
  | cons i is ih =>
    have h := memOnly_loadRow s gid (base + i * stride) n
    unfold State.loadRows
    split
    · exact ih ..
    · split <;> rename_i e <;> rw [e] at h
      · exact h
      · exact h.trans (ih ..)

theorem kept_matFault (s : State) (gid : Nat) (m : MatCmd) (code : Nat) (addr : Word) :
    Kept s (s.matFault gid m code addr) := (kept_modGrp ..).trans (kept_takeFault ..)

theorem kept_matDone (s : State) (gid pend : Nat) : Kept s (s.matDone gid pend) :=
  (kept_modGrp ..).trans (kept_completePend ..)

theorem kept_debitEnergy (s : State) (rid n : Nat) : Kept s (s.debitEnergy rid n) := kept_modRegion ..
theorem kept_raiseIrq (s : State) (irq health : Word) : Kept s (s.raiseIrq irq health) := .same rfl rfl

theorem kept_addChunk (s : State) (gid : Nat) (m : MatCmd) (x : ChunkIn) (cs : List CellOut) (m' : MatCmd) :
    Kept s (s.addChunk gid m x cs m') := by
  unfold State.addChunk
  extract_lets wid q u v n w
  have h : Kept s w := ((kept_modWg ..).trans (kept_debitEnergy ..)).trans (kept_modGrp ..)
  split
  · exact h
  · exact (h.trans (kept_modGrp ..)).trans (kept_matDone ..)

theorem kept_startMat (s : State) (gid id : Nat) (m : MatCmd) : Kept s (s.startMat gid id m) := kept_modGrp ..

theorem kept_mmaAct (s : State) (gid id : Nat) (i : Instr) (ops : Ops) (m : LaneMask) :
    Kept s (s.mmaAct gid id i ops m) := by
  unfold State.mmaAct
  split
  · simp only
    split
    · exact kept_finishOnce ..
    · split
      · exact kept_finishOnce ..
      · split
        · exact kept_finishOnce ..
        · exact (((kept_setConv ..).trans (kept_startMat ..)).trans (kept_modGrp ..)).trans (kept_callSigners ..)
  · exact .refl s

theorem kept_tileAct (s : State) (gid id : Nat) (i : Instr) (ops : Ops) (m : LaneMask) :
    Kept s (s.tileAct gid id i ops m) := by
  unfold State.tileAct
  split
  · exact .refl s
  · split
    · exact kept_finishOnce ..
    · exact kept_startMat ..

theorem memOnly_writeFault (n : Nat) (s : State) (gid a : Nat) : MemOnly s (s.writeFault gid a n).1 := by
  induction n generalizing s a with
  | zero => exact .refl s
  | succ n ih =>
    have h := memOnly_accessG s (some (s.grp gid).core) (s.cidOf gid) a 1 .write
    unfold State.writeFault
    split <;> rename_i e <;> rw [e] at h
    · exact h
    · exact h.trans (ih ..)

theorem memOnly_rowsFault (is : List Nat) (s : State) (gid base stride : Nat) :
    MemOnly s (s.rowsFault gid base stride is).1 := by
  induction is generalizing s with
  | nil => exact .refl s
  | cons i is ih =>
    have h := memOnly_writeFault 64 s gid (base + i * stride)
    unfold State.rowsFault
    split <;> rename_i e <;> rw [e] at h
    · exact h
    · exact h.trans (ih ..)

theorem memOnly_storeRows (is : List Nat) (s : State) (gid base stride : Nat) (tile : KMap U32) :
    MemOnly s (s.storeRows gid base stride tile is) := by
  induction is generalizing s with
  | nil => exact .refl s
  | cons i is ih => exact (memOnly_storeBytes ..).trans (ih _)

theorem kept_tileRows (s : State) (gid : Nat) (m : MatCmd) : Kept s (s.tileRows gid m) := by
  unfold State.tileRows
  simp only
  split
  · exact kept_modGrp ..
  · exact (kept_modGrp ..).trans (kept_matDone ..)

theorem kept_zeroTile (s : State) (gid : Nat) (m : MatCmd) : Kept s (s.zeroTile gid m) :=
  (kept_modWg ..).trans (kept_matDone ..)

/-! ## The palette unit -/

theorem kept_palToken (s : State) (gid : Nat) (m : PalCmd) (c : Cursor) : Kept s (s.palToken gid m c).1 := by
  unfold State.palToken
  simp only
  split
  · exact .refl s
  · split
    · exact .refl s
    · exact .refl s
    · split <;> exact .refl s
    · split <;> exact .refl s
    · exact .refl s
    · split
      · exact .refl s
      · exact kept_putStore ..

theorem kept_palDone (s : State) (gid : Nat) (m : PalCmd) (c : Cursor) : Kept s (s.palDone gid m c) :=
  ((kept_debitEnergy ..).trans (kept_modGrp ..)).trans (kept_completePend ..)

theorem kept_palTokens (n : Nat) (s : State) (gid : Nat) (m : PalCmd) : Kept s (s.palTokens gid m n) := by
  induction n generalizing s with
  | zero => exact .refl s
  | succ n ih =>
    unfold State.palTokens
    simp only
    split
    · exact kept_palDone ..
    · split <;> rename_i e <;> have h := (kept_palToken ..).of_fst e
      · split
        · exact (h.trans (kept_modGrp ..)).trans (kept_palDone ..)
        · exact (h.trans (kept_modGrp ..)).trans (ih _)
      · exact (h.trans (kept_palDone ..)).trans (kept_takeFault ..)

theorem kept_pmvAct (s : State) (gid id : Nat) (i : Instr) (ops : Ops) (m : LaneMask) :
    Kept s (s.pmvAct gid id i ops m) := by
  unfold State.pmvAct
  split
  · simp only
    repeat' split
    all_goals first
      | exact kept_finishOnce ..
      | exact kept_modGrp ..
  · exact .refl s

/-! ## Rill engines -/

theorem kept_startProg (s : State) (pid : Nat) : Kept s (s.startProg pid) := by
  unfold State.startProg
  simp only
  split <;> exact .same rfl rfl

theorem kept_raiseRecord (s : State) (cid : Nat) (r : FaultRec) : Kept s (s.raiseRecord cid r) := .same rfl rfl

theorem kept_engineRecord (s : State) (pid code : Nat) (addr : Word) (detail : Nat) (word : Word) :
    Kept s (s.engineRecord pid code addr detail word) := kept_raiseRecord ..

theorem kept_engineError (s : State) (pid code addr : Nat) (word : Word) : Kept s (s.engineError pid code addr word) :=
  (kept_engineRecord ..).trans (kept_modProg ..)

theorem kept_enginePage (s : State) (pid va : Nat) (word : Word) : Kept s (s.enginePage pid va word) := by
  unfold State.enginePage
  simp only
  split
  · exact kept_modProg ..
  · exact (kept_engineRecord ..).trans (kept_modProg ..)

theorem kept_engineHeld (s : State) (pid code va : Nat) (word : Word) : Kept s (s.engineHeld pid code va word) := by
  unfold State.engineHeld
  simp only
  split
  · exact kept_modProg ..
  · exact (kept_engineRecord ..).trans (kept_modProg ..)

theorem kept_engineWait (s : State) (pid : Nat) : Kept s (s.engineWait pid) := kept_modProg ..
theorem kept_engineNext (s : State) (pid idx : Nat) : Kept s (s.engineNext pid idx) := kept_modProg ..
theorem kept_engineDone (s : State) (pid : Nat) : Kept s (s.engineDone pid) := kept_modProg ..

theorem kept_ownerGone (s : State) (wid : Nat) : Kept s (s.ownerGone wid) := by
  unfold State.ownerGone
  refine kept_foldl _ (fun s q => ?_) _ _
  split
  · exact kept_engineError ..
  · exact .refl s

theorem kept_turnTo (s : State) (pid : Nat) (i : Instr) : Kept s (s.turnTo pid i).1 := by
  unfold State.turnTo
  split
  · exact kept_engineNext ..
  · exact .refl s

theorem kept_fetchCmd (s : State) (pid : Nat) : Kept s (s.fetchCmd pid).1 := by
  unfold State.fetchCmd
  extract_lets p a failed
  have hf : ∀ t c, Kept t (failed t c).1 := fun t c => by
    unfold failed
    split
    · exact kept_engineNext ..
    · split
      · exact kept_enginePage ..
      · exact kept_engineError ..
  split
  · exact kept_turnTo ..
  · split <;> rename_i e <;> have h := (memOnly_accessG ..).kept.of_fst e
    · exact h.trans (hf ..)
    · split
      · exact h.trans (hf ..)
      · exact (h.trans (kept_modProg ..)).trans (kept_turnTo ..)

theorem kept_launchProg (s : State) (gid : Nat) (list : Word) (stack : Nat) :
    Kept s (s.launchProg gid list stack).1 := by
  unfold State.launchProg
  extract_lets wid w old busy full drop u pid p
  split
  · exact .refl s
  · split
    · exact .refl s
    · split
      · exact .refl s
      · have h : Kept s u := by
          unfold u
          generalize drop = d
          cases d with
          | some k => exact .same rfl rfl
          | none => exact .refl s
        refine (h.trans ?_).trans (kept_startProg ..)
        exact .same rfl rfl

theorem kept_rlaunchAct (s : State) (gid id : Nat) (i : Instr) (ops : Ops) (m : LaneMask) :
    Kept s (s.rlaunchAct gid id i ops m) := by
  unfold State.rlaunchAct
  split
  · simp only
    split
    · exact kept_finishOnce ..
    · split
      · exact kept_finishOnce ..
      · split <;> rename_i e <;> have h := (memOnly_translate ..).kept.of_fst e
        · exact h.trans (kept_finishOnce ..)
        · split
          · exact h.trans (kept_finishOnce ..)
          · exact h.trans (kept_finishOnce ..)
          · exact ((h.trans (kept_launchProg ..)).trans (kept_putReg ..)).trans (kept_finishOnce ..)
  · exact .refl s

theorem kept_rstopStatus (s : State) (q : Option (Nat × Prog)) : Kept s (s.rstopStatus q).1 := by
  unfold State.rstopStatus
  repeat' split
  all_goals first
    | exact .refl s
    | exact kept_modProg ..

theorem kept_rresumeStatus (s : State) (q : Option (Nat × Prog)) : Kept s (s.rresumeStatus q).1 := by
  unfold State.rresumeStatus
  repeat' split
  all_goals first
    | exact .refl s
    | exact (kept_modProg ..).trans (kept_startProg ..)

/-! ## Rill commands -/

theorem kept_engineArrive (s : State) (pid : Nat) (i : Instr) (w n : Nat) (error : Option (Nat × Nat)) :
    Kept s (s.engineArrive pid i w n error).1 := by
  unfold State.engineArrive
  split <;> rename_i e <;> have h := (kept_weirArrive ..).of_fst e
  · exact h.trans (kept_engineError ..)
  · exact h

theorem kept_slotArrive (s : State) (pid : Nat) (i : Instr) (x : Xfer) (r : Ring) (error : Option (Nat × Nat)) :
    Kept s (s.slotArrive pid i x r error).1 := by
  unfold State.slotArrive
  simp only
  split <;> rename_i e <;> have h := (kept_engineArrive ..).of_fst e
  · exact h
  · exact h.trans (kept_modProg ..)

theorem memOnly_readElems (as : List Nat) (s : State) (cid size : Nat) (acc : List Nat) :
    MemOnly s (s.readElems cid size as acc).1 := by
  induction as generalizing s acc with
  | nil => exact .refl s
  | cons a as ih =>
    have h := memOnly_accessG s none cid a 1 .read
    unfold State.readElems
    split <;> rename_i e <;> rw [e] at h
    · exact h
    · split
      · exact h
      · exact h.trans (ih ..)

theorem memOnly_checkElems (as : List Nat) (s : State) (cid k : Nat) : MemOnly s (s.checkElems cid as k).1 := by
  induction as generalizing s k with
  | nil => exact .refl s
  | cons a as ih =>
    have h := memOnly_accessG s none cid a 1 .write
    unfold State.checkElems
    split <;> rename_i e <;> rw [e] at h
    · exact h
    · exact h.trans (ih ..)

theorem memOnly_writeElems (xs : List (Nat × Nat)) (s : State) (cid size : Nat) :
    MemOnly s (s.writeElems cid size xs) := by
  induction xs generalizing s with
  | nil => exact .refl s
  | cons x xs ih =>
    obtain ⟨a, v⟩ := x
    have h := memOnly_accessG s none cid a 1 .write
    unfold State.writeElems
    split <;> rename_i e <;> rw [e] at h
    · exact h.trans (ih _)
    · exact (h.trans (memOnly_storeT ..)).trans (ih _)

theorem kept_chunkDone (s : State) (pid : Nat) (i : Instr) (x : Xfer) (r : Ring) (el k : Nat)
    (cond : Option (Nat × Nat)) : Kept s (s.chunkDone pid i x r el k cond) := by
  unfold State.chunkDone
  simp only
  split
  · split <;> rename_i e <;> have h := (kept_slotArrive ..).of_fst e
    · exact (kept_modProg ..).trans h
    · split
      · exact ((kept_modProg ..).trans h).trans (kept_engineNext ..)
      · exact (kept_modProg ..).trans h
  · exact kept_modProg ..

theorem kept_oweSlot (s : State) (pid : Nat) (i : Instr) (x : Xfer) (r : Ring) (el code det : Nat) :
    Kept s (s.oweSlot pid i x r el code det) := by
  unfold State.oweSlot
  extract_lets per e pass
  have hp : Kept s (match s.slotArrive pid i x r (some (code, det % 2 ^ 32)) with
      | (t, true) => (t, true)
      | (t, false) => pass (t, false)).1 := by
    split <;> rename_i e <;> have h := (kept_slotArrive ..).of_fst e
    · exact h
    · unfold pass
      split
      · exact kept_modProg ..
      · exact h
  split <;> rename_i e <;> have h := hp.of_fst e
  · exact h
  · split
    · exact h.trans (kept_engineNext ..)
    · exact h.trans (kept_modProg ..)

theorem kept_ringLost (s : State) (pid ring : Nat) (word : Word) : Kept s (s.ringLost pid ring word) := by
  unfold State.ringLost
  split
  · exact kept_engineNext ..
  · exact kept_engineError ..

theorem kept_abandonChunk (s : State) (pid : Nat) (x : Xfer) (el k code : Nat) (cond : Option (Nat × Nat)) :
    Kept s (s.abandonChunk pid x el k code cond) := kept_modProg ..

theorem kept_xferChunk (s : State) (pid : Nat) (i : Instr) (x : Xfer) (addr : Nat → Nat)
    (conv : Nat → Nat × Option Nat) : Kept s (s.xferChunk pid i x addr conv) := by
  unfold State.xferChunk
  simp only
  split
  · exact kept_engineWait ..
  · split
    · exact kept_ringLost ..
    · split
      · exact kept_engineWait ..
      · split
        · exact kept_oweSlot ..
        · split
          · split
            · rename_i e
              exact ((memOnly_readElems ..).kept.of_fst e).trans (kept_enginePage ..)
            · rename_i e
              have h := (memOnly_readElems ..).kept.of_fst e
              split
              · exact (h.trans (kept_modWg ..)).trans (kept_abandonChunk ..)
              · exact (h.trans (kept_modWg ..)).trans (kept_chunkDone ..)
          · split
            · rename_i e
              exact ((memOnly_checkElems ..).kept.of_fst e).trans (kept_enginePage ..)
            · rename_i e
              have h := (memOnly_checkElems ..).kept.of_fst e
              split
              · exact (h.trans (memOnly_writeElems ..).kept).trans (kept_abandonChunk ..)
              · exact (h.trans (memOnly_writeElems ..).kept).trans (kept_chunkDone ..)

theorem MemOnly.of_fst {α : Type} {s t : State} {x : State × α} {r : α} (h : MemOnly s x.1) (e : x = (t, r)) :
    MemOnly s t := by
  rw [e] at h
  exact h

theorem memOnly_loadBlock (s : State) (cid a : Nat) : MemOnly s (s.loadBlock cid a).1 := by
  unfold State.loadBlock
  simp only
  split <;> rename_i e <;> have h := (memOnly_loadBytes ..).of_fst e
  · exact h
  · split
    · exact h
    · split <;> rename_i e2 <;> have k := (memOnly_loadBytes ..).of_fst e2
      · exact h.trans k
      · split <;> exact h.trans k

theorem kept_decodeChunk (s : State) (pid : Nat) (i : Instr) (g src blocks ibase : Nat) :
    Kept s (s.decodeChunk pid i g src blocks ibase) := by
  unfold State.decodeChunk
  simp only
  split
  · exact kept_engineWait ..
  · split
    · exact kept_ringLost ..
    · split
      · exact kept_engineWait ..
      · split
        · exact kept_oweSlot ..
        · split <;> rename_i e <;> have h := (memOnly_loadBlock ..).kept.of_fst e
          · exact h.trans (kept_enginePage ..)
          · exact h.trans (kept_oweSlot ..)
          · split
            · exact h.trans (kept_modProg ..)
            · generalize List.take _ _ = bs
              split
              · split <;> rename_i e2 <;> have k := (kept_slotArrive ..).of_fst e2
                · exact ((h.trans (kept_modWg ..)).trans (kept_modProg ..)).trans k
                · split
                  · exact (((h.trans (kept_modWg ..)).trans (kept_modProg ..)).trans k).trans (kept_engineNext ..)
                  · exact ((h.trans (kept_modWg ..)).trans (kept_modProg ..)).trans k
              · exact (h.trans (kept_modWg ..)).trans (kept_modProg ..)

theorem kept_reducePart (s : State) (pid cid buf total : Nat) (word : Word) (f : List Byte → List Byte)
    (stamp : State → Nat → State) (h : ∀ s c, Kept s (stamp s c)) : Kept s (s.reducePart pid cid buf total word f stamp) := by
  unfold State.reducePart
  extract_lets off n at_
  split <;> rename_i e <;> have k := (memOnly_loadBytes ..).kept.of_fst e
  · split
    · exact k.trans (kept_enginePage ..)
    · exact k.trans (h ..)
  · split <;> rename_i e2 <;> have k2 := k.trans ((memOnly_checkElems ..).kept.of_fst e2)
    · exact k2.trans (kept_enginePage ..)
    · extract_lets u
      have k3 : Kept s u := k2.trans (memOnly_storeBytes ..).kept
      split
      · exact k3.trans (h ..)
      · split
        · exact k3.trans (h ..)
        · exact k3.trans (kept_modProg ..)

end Sys2Proof.Machine
end

