-- ==== Sys2Proof/Laws/KeptWorld.lean ====
section
/-! SUPPORT. What control, groups, regions, the distributor, fault records, HALT, RESUME, the loader and the port keep:
the canonical form of memory, and the lane at the issue port a lane. -/
namespace Sys2Proof.Machine

/-- Where an event answers a next state. -/
theorem Kept.of_next {s t u : State} (h : Kept s u)
    (e : (Host.Outcome.next u : Host.Outcome State Fault Refusal) = .next t) : Kept s t := by
  injection e with e
  exact e ▸ h

/-! ## Transfers, EXIT, ROLE -/

theorem kept_loseRounds (s : State) (gid : Nat) (m : LaneMask) : Kept s (s.loseRounds gid m) := by
  unfold State.loseRounds
  refine kept_foldl _ (fun s k => ?_) _ _
  dsimp only
  split
  · exact kept_abandonRound ..
  · exact .refl s

theorem kept_stopForm (s : State) (i : Instr) (c : Ctl) (code : Nat) (imm : BitVec 20) :
    Kept s (s.stopForm i c code imm) := by
  unfold State.stopForm
  simp only
  split
  · exact kept_advance ..
  · exact (kept_advance ..).trans (kept_takeFault ..)

theorem kept_roleFault (s : State) (gid : Nat) (ids : List Nat) (m : LaneMask) (n : Nat) :
    Kept s (s.roleFault gid ids m n) := (kept_modGrp ..).trans (kept_takeFault ..)

theorem kept_roleArrive (s : State) (gid id n : Nat) (m : LaneMask) : Kept s (s.roleArrive gid id n m) := by
  unfold State.roleArrive
  simp only
  split
  · exact (kept_modGrp ..).trans (kept_roleFault ..)
  · split
    · exact (kept_modGrp ..).trans (kept_roleFault ..)
    · exact kept_modGrp ..

theorem kept_roleAgain (s : State) (gid : Nat) (p : Pend) : Kept s (s.roleAgain gid p) := by
  unfold State.roleAgain
  split
  · exact kept_roleArrive ..
  · exact .refl s

/-! ## Lanes performed again -/

theorem kept_divLane (c : Ctl) (w : Width) (d : Reg) (gid : Nat) (ops : Ops)
    (f : (w : Nat) → BitVec w → BitVec w → BitVec w) (id l : Nat) (s : State) :
    Kept s (divLane c w d gid ops f id l s).1 := by
  unfold divLane
  simp only
  split
  · exact .refl s
  · dsimp only
    exact kept_putReg ..

theorem kept_movriLane (d : VR) (gid : Nat) (ops : Ops) (id l : Nat) (s : State) :
    Kept s (movriLane d gid ops id l s).1 := by
  unfold movriLane
  simp only
  split
  · exact .refl s
  · exact kept_modGrp ..

theorem kept_movwiLane (gid : Nat) (ops : Ops) (id l : Nat) (s : State) : Kept s (movwiLane gid ops id l s).1 := by
  unfold movwiLane
  simp only
  split
  · exact .refl s
  · exact kept_modGrp ..

theorem kept_vmxpAct (d : VR) (gid : Nat) (ops : Ops) (id l : Nat) (s : State) : Kept s (vmxpAct d gid ops id l s).1 := by
  unfold vmxpAct
  split
  · exact kept_modGrp ..
  · exact .refl s

theorem kept_checkedAct (i : Instr) (d : Reg) (gid : Nat) (ops : Ops) (id l : Nat) (s : State) :
    Kept s (checkedAct i d gid ops id l s).1 := kept_putReg ..

/-! ## Objects of a context -/

theorem kept_clearGranule (s : State) (loc : Nat) : Kept s (s.clearGranule loc) := by
  unfold State.clearGranule
  generalize loc + 4096 = e
  exact ⟨fun h => canonK_filter h _, id⟩

theorem kept_putAt (s : State) (loc : Nat) (bs : List Byte) : Kept s (s.putAt loc bs) := (memOnly_putAt ..).kept

theorem kept_takeFrame (s : State) : Kept s s.takeFrame.2 := by
  unfold State.takeFrame
  simp only
  refine Kept.trans (t := { s with frames := s.frames + 1 }) (.same rfl rfl) (kept_foldl _ (fun s k => ?_) _ _)
  split
  · exact kept_clearGranule ..
  · exact .refl s

theorem kept_mapFrom (ls : List Nat) (s : State) (va : Nat) (leaf : Word) (table : Nat) :
    Kept s (s.mapFrom va leaf ls table) := by
  induction ls generalizing s table with
  | nil => exact .refl s
  | cons lev ls ih =>
    unfold State.mapFrom
    simp only
    split
    · split
      · exact kept_putAt ..
      · split
        · exact ih ..
        · exact ((kept_takeFrame s).trans (kept_putAt ..)).trans (ih ..)
    · exact .refl s

theorem kept_mapPage (s : State) (cid va pa perm : Nat) : Kept s (s.mapPage cid va pa perm) := kept_mapFrom ..

theorem kept_modLeaf (s : State) (cid va : Nat) (f : Word → Word) : Kept s (s.modLeaf cid va f) := by
  unfold State.modLeaf
  split
  · exact kept_putAt ..
  · exact .refl s

theorem kept_dropTlb (s : State) (cid : Nat) (r : Option (Nat × Nat)) : Kept s (s.dropTlb cid r) :=
  (memOnly_dropTlb ..).kept
theorem kept_dropCopies (s : State) (cid : Nat) (r : Option (Nat × Nat)) : Kept s (s.dropCopies cid r) :=
  (kept_foldl _ (fun s n => kept_modCore s n _) _ _ : Kept s (s.mapCores _)).trans (.same rfl rfl)

theorem kept_changePages (s : State) (cid : Nat) (segs : List Seg) (f : Word → Word) :
    Kept s (s.changePages cid segs f) := by
  unfold State.changePages
  refine kept_foldl _ (fun s g => ?_) _ _
  dsimp only
  exact ((kept_foldl _ (fun s va => kept_modLeaf s cid va f) _ _).trans (kept_dropTlb ..)).trans (kept_dropCopies ..)

theorem kept_removeObject (s : State) (handle : Nat) : Kept s (s.removeObject handle) := by
  unfold State.removeObject
  split
  · exact .refl s
  · exact (kept_changePages ..).trans (.same rfl rfl)

theorem kept_revokeObject (s : State) (handle : Nat) : Kept s (s.revokeObject handle) := by
  unfold State.revokeObject
  split
  · exact .refl s
  · rename_i o _
    extract_lets pages same t
    have h : Kept s t := kept_foldl (fun (s : State) (q : Nat × CodeObj) =>
      s.changePages q.2.ctx q.2.segs (fun e => e &&& ~~~(8#64))) (fun s q => kept_changePages s q.2.ctx q.2.segs _) same s
    exact h.trans (.same rfl rfl)

theorem kept_reap (s : State) : Kept s s.reap := by
  unfold State.reap
  refine kept_foldl _ (fun s h => ?_) _ _
  split
  · exact .refl s
  · exact kept_removeObject ..

/-! ## Groups and workgroups -/

theorem kept_freeArea (s : State) (cid : Nat) (area : Option Nat) : Kept s (s.freeArea cid area) := by
  unfold State.freeArea
  split
  · exact .refl s
  · exact kept_modCtx ..

theorem kept_debitDue (s : State) (wid : Nat) : Kept s (s.debitDue wid) := (kept_modWg ..).trans (kept_modRegion ..)

theorem kept_debitRegion (s : State) (rid : Nat) : Kept s (s.debitRegion rid) :=
  kept_foldl _ (fun s wid => kept_debitDue s wid) _ _

theorem kept_retireWg (s : State) (wid : Nat) : Kept s (s.retireWg wid) := by
  unfold State.retireWg
  split
  · exact .refl s
  · rename_i w _
    extract_lets s1 s2 s3 s4
    have h : Kept s s3 := (((kept_debitDue ..).trans (kept_ownerGone ..)).trans (kept_freeArea ..)).trans
      (kept_foldl (fun (s : State) (gid : Nat) => { s with groups := delK s.groups gid }) (fun s gid => .same rfl rfl) _ _)
    exact (h.trans (.same rfl rfl : Kept s3 s4)).trans (kept_modRegion ..)

theorem kept_retireFinished (s : State) (wid : Nat) : Kept s (s.retireFinished wid) := by
  unfold State.retireFinished
  split
  · exact (kept_retireWg ..).trans (kept_reap _)
  · exact .refl s

theorem kept_execGroupRetire {gid : Nat} {s t : State} (h : execGroupRetire gid s = .next t) : Kept s t := by
  unfold execGroupRetire at h
  refine Kept.of_next ?_ h
  split
  · exact (((kept_modWg ..).trans (kept_closeAll ..)).trans (kept_copyReady ..)).trans (kept_retireFinished ..)
  · exact .refl s

theorem kept_shiftHolds (s : State) (gids : List Nat) (d : Int) : Kept s (s.shiftHolds gids d) :=
  kept_foldl _ (fun s gid => kept_modGrp s gid (fun g => g.shiftHolds d)) _ _
theorem kept_freezeHolds (s : State) (wid : Nat) : Kept s (s.freezeHolds wid) := kept_shiftHolds ..
theorem kept_thawHolds (s : State) (wid : Nat) : Kept s (s.thawHolds wid) := kept_shiftHolds ..

/-! ## Regions -/

theorem kept_regionRecord (s : State) (rid code va : Nat) (sub : Subject) : Kept s (s.regionRecord rid code va sub) :=
  kept_raiseRecord ..

theorem kept_deviceStore (s : State) (rid va : Nat) (bs : List Byte) (done : Bool) :
    Kept s (s.deviceStore rid va bs done).1 := by
  unfold State.deviceStore
  split <;> rename_i e <;> have h := (memOnly_storeG ..).kept.of_fst e
  · exact h
  · exact (h.trans (kept_regionRecord ..)).trans (kept_modRegion ..)

theorem kept_addRegion (s : State) (cid : Nat) (va : Word) (bs : List Byte) (par : Option (Nat × Region)) :
    Kept s (s.addRegion cid va bs par) := by
  unfold State.addRegion
  extract_lets rid r t u
  refine Kept.trans ?_ (kept_deviceStore ..)
  refine (Kept.same rfl rfl : Kept s t).trans ?_
  unfold u
  clear_value r t
  cases par with
  | none => exact .refl _
  | some p => exact kept_modRegion ..

theorem kept_offerRegion (s : State) (cid : Nat) (va : Word) (bs : List Byte) (par : Option (Nat × Region)) :
    Kept s (s.offerRegion cid va bs par).1 := by
  unfold State.offerRegion
  split
  · exact kept_addRegion ..
  · split
    · exact kept_deviceStore ..
    · exact (memOnly_storeG ..).kept

theorem kept_spawnAct (s : State) (gid id : Nat) (i : Instr) (ops : Ops) (m : LaneMask) :
    Kept s (s.spawnAct gid id i ops m) := by
  unfold State.spawnAct
  split
  · extract_lets a cid rid answer t
    have ha : ∀ r : State × Nat, Kept r.1 (answer r) := fun r => (kept_putReg ..).trans (kept_finishOnce ..)
    have hd : Kept s t := kept_debitRegion ..
    clear_value answer
    split
    · exact hd.trans (kept_finishOnce ..)
    · split
      · exact hd.trans (ha (t, 1))
      · split
        · exact hd.trans (ha (t, 2))
        · split <;> rename_i e <;> have h := hd.trans ((memOnly_accessG ..).kept.of_fst e)
          · exact h.trans (kept_finishOnce ..)
          · split
            · exact h.trans (kept_finishOnce ..)
            · exact (h.trans (kept_offerRegion ..)).trans (ha _)
  · exact .refl s

theorem kept_launchRoot (s : State) (va : Word) : Kept s (s.launchRoot va).1 := by
  unfold State.launchRoot
  split
  · exact .refl s
  · split
    · exact .refl s
    · split <;> rename_i e <;> have h := (memOnly_accessG ..).kept.of_fst e
      · exact h
      · split
        · exact h
        · exact h.trans (kept_offerRegion ..)

theorem kept_checkAfter (s : State) (rid : Nat) : Kept s (s.checkAfter rid) := by
  unfold State.checkAfter
  simp only
  split <;> rename_i e <;> have h := (memOnly_loadG ..).kept.of_fst e
  · split
    · exact h.trans (kept_modRegion ..)
    · exact h
  · exact (h.trans (kept_regionRecord ..)).trans (kept_modRegion ..)

theorem kept_closeRegion (s : State) (rid : Nat) : Kept s (s.closeRegion rid) := by
  unfold State.closeRegion
  dsimp only
  refine Kept.trans ?_ (kept_reap _)
  generalize hp : (s.region rid).parent = p
  cases p with
  | none =>
    dsimp only
    split <;> exact .same rfl rfl
  | some p =>
    dsimp only
    split <;> exact .same rfl rfl

theorem kept_completeRegion (s : State) (rid : Nat) : Kept s (s.completeRegion rid) := by
  unfold State.completeRegion
  simp only
  have h : Kept s (State.modRegion (s.deviceStore rid ((s.region rid).rcbaddr.toNat + 0xF0)
      [if (s.region rid).abandoned = true then 3 else 2] false).1 rid fun r => { r with finished := true }) :=
    (kept_deviceStore ..).trans (kept_modRegion ..)
  split
  · exact h.trans (kept_closeRegion ..)
  · split <;> rename_i e <;> have k := (kept_deviceStore ..).of_fst e
    · exact (h.trans k).trans (kept_closeRegion ..)
    · exact h.trans k

/-! ## Issued instructions performed again, and settled -/

theorem kept_fcmpAct (c : Ctl) (cond : FCond) (pd : PR) (todo : LaneMask) (gid : Nat) (ops : Ops) (id l : Nat) (s : State) :
    Kept s (fcmpAct c cond pd todo gid ops id l s).1 := kept_putPred ..

theorem kept_invAct (s : State) (gid id : Nat) (i : Instr) (ops : Ops) (m : LaneMask) : Kept s (s.invAct gid id i ops m) := by
  unfold State.invAct
  refine Kept.trans ?_ (kept_finishRun ..)
  split
  · exact kept_dropCopies ..
  · exact kept_dropTlb ..
  · exact .refl s

theorem kept_rresumeAct (s : State) (gid id : Nat) (i : Instr) (ops : Ops) (m : LaneMask) :
    Kept s (s.rresumeAct gid id i ops m) := by
  unfold State.rresumeAct
  split
  · exact ((kept_rresumeStatus ..).trans (kept_putReg ..)).trans (kept_finishOnce ..)
  · exact .refl s

theorem kept_redo (s : State) (gid : Nat) (p : Pend) : Kept s (s.redo gid p) := by
  unfold State.redo
  simp only
  split
  · exact kept_redoLanes _ _ _ _ (fun _ _ => kept_divLane ..)
  · exact kept_redoLanes _ _ _ _ (fun _ _ => kept_divLane ..)
  · exact kept_redoLanes _ _ _ _ (fun _ _ => kept_fcmpAct ..)
  · exact kept_redoLanes _ _ _ _ (fun _ _ => kept_vmxpAct ..)
  · exact kept_redoLanes _ _ _ _ (fun _ _ => kept_movriLane ..)
  · exact kept_redoLanes _ _ _ _ (fun _ _ => kept_movwiLane ..)
  · exact kept_redoLanes _ _ _ _ (fun _ _ => kept_ldLane ..)
  · exact kept_redoLanes _ _ _ _ (fun _ _ => kept_stLane ..)
  · exact kept_redoLanes _ _ _ _ (fun _ _ => kept_atomLane ..)
  · exact kept_redoLanes _ _ _ _ (fun _ _ => kept_atomLane ..)
  · exact kept_redoLanes _ _ _ _ (fun _ _ => kept_sprobeLane ..)
  · exact kept_redoLanes _ _ _ _ (fun _ _ => kept_swcLane ..)
  · exact kept_redoLanes _ _ _ _ (fun _ t => .refl t)
  · exact kept_tryAgain ..
  · exact kept_weirAct ..
  · exact kept_weirAct ..
  · exact kept_weirAct ..
  · exact kept_weirAct ..
  · exact kept_weirAct ..
  · exact kept_weirAct ..
  · exact kept_stampAgain ..
  · exact kept_bcopyAct ..
  · exact kept_bsealAct ..
  · exact kept_mmaAct ..
  · exact kept_tileAct ..
  · exact kept_tileAct ..
  · exact kept_tileAct ..
  · exact kept_pmvAct ..
  · exact kept_invAct ..
  · exact kept_invAct ..
  · exact kept_finishRun ..
  · exact kept_rlaunchAct ..
  · exact kept_rresumeAct ..
  · exact kept_spawnAct ..
  · split
    · exact kept_redoLanes _ _ _ _ (fun _ _ => kept_checkedAct ..)
    · exact .refl s

theorem kept_perform (s : State) (gid id : Nat) : Kept s (s.perform gid id) := by
  unfold State.perform
  split
  · split
    · exact kept_redo ..
    · exact .refl s
  · exact .refl s

theorem kept_settleOnce (s : State) (gid : Nat) : Kept s (s.settleOnce gid) :=
  (kept_completeAll ..).trans (kept_foldl _ (fun s id => kept_perform s gid id) _ _)

theorem kept_settleRounds (n : Nat) (s : State) (gid : Nat) : Kept s (s.settleRounds gid n) := by
  induction n generalizing s with
  | zero => exact .refl s
  | succ n ih => exact (kept_settleOnce ..).trans (ih _)

theorem kept_settle (s : State) (gid : Nat) : Kept s (s.settle gid) :=
  ((kept_settleRounds ..).trans (kept_completeAll ..)).trans (kept_landAll ..)

/-! ## The distributor -/

theorem kept_placeNew (s : State) (rid home : Nat) : Kept s (s.placeNew rid home) := by
  unfold State.placeNew
  extract_lets r n wid spread a w t u
  refine Kept.trans ?_ (kept_modRegion ..)
  refine (Kept.same rfl rfl : Kept s t).trans ?_
  unfold u
  refine kept_foldl _ (fun s g => ?_) _ _
  exact .same rfl rfl

theorem kept_placeOld (s : State) (wid home : Nat) : Kept s (s.placeOld wid home) := by
  unfold State.placeOld
  extract_lets w t u
  refine Kept.trans ?_ (kept_thawHolds ..)
  have h : Kept s u := (kept_freeArea ..).trans (kept_foldl _ (fun s gid => kept_modGrp s gid _) _ _)
  exact (h.trans (.same rfl rfl : Kept u { u with nextId := u.nextId + 1 })).trans (kept_modWg ..)

theorem kept_placeCand (s : State) (c : Cand) (home : Nat) : Kept s (s.placeCand c home) := by
  unfold State.placeCand
  extract_lets t
  have h : Kept s t := by
    unfold t
    split
    · exact kept_placeOld ..
    · exact (kept_placeNew ..).trans (kept_modRegion ..)
  exact h.trans (.same rfl rfl)

theorem kept_passOver (xs : List Cand) (s : State) (c : Cand) : Kept s (s.passOver c xs) := by
  induction xs generalizing s with
  | nil => exact .refl s
  | cons x xs ih =>
    unfold State.passOver
    split
    · exact .refl s
    · refine Kept.trans ?_ (ih _)
      split
      · exact kept_modWg ..
      · exact kept_modRegion ..

theorem kept_setSwitch (s : State) (cores : List Nat) (x : Switch) : Kept s (s.setSwitch cores x) :=
  kept_foldl _ (fun s k => kept_modCore s k _) _ _

theorem kept_beforeLeaving (s : State) (wid : Nat) : Kept s (s.beforeLeaving wid) := by
  unfold State.beforeLeaving
  refine kept_foldl _ (fun s gid => ?_) _ _
  extract_lets t u
  have h : Kept s u := by
    refine (kept_settle s gid).trans ?_
    unfold u
    split
    · exact kept_modGrp ..
    · exact .refl _
  split
  · rename_i e
    exact h.trans (kept_execGroupRetire e)
  · exact h

theorem kept_stopProgs (s : State) (wid : Nat) : Kept s (s.stopProgs wid) := .same rfl rfl

theorem kept_settleWg (s : State) (wid : Nat) : Kept s (s.settleWg wid) := by
  unfold State.settleWg
  extract_lets w t gone u
  refine Kept.trans ?_ (kept_modWg ..)
  exact (kept_foldl _ (fun s gid => kept_settle s gid) _ _).trans
    (kept_foldl (fun (s : State) (gid : Nat) => { s with groups := delK s.groups gid }) (fun s gid => .same rfl rfl) _ _)

theorem kept_spillWg {s t : State} {wid : Nat} (h : s.spillWg wid = some t) : Kept s t := by
  unfold State.spillWg at h
  simp only at h
  split at h
  · exact nomatch h
  · injection h with h
    rw [← h]
    exact ((memOnly_putPhys ..).kept.trans (kept_modCtx ..)).trans (kept_modWg ..)

theorem kept_leaveCore (s : State) (wid : Nat) : Kept s (s.leaveCore wid) := by
  unfold State.leaveCore
  split
  · exact .refl s
  · rename_i w _
    extract_lets t u n
    have h : Kept s t := by
      unfold t
      split
      · exact kept_freezeHolds ..
      · exact .refl s
    have k : Kept t u := by
      unfold u
      split
      · exact (kept_settleWg ..).trans (kept_stopProgs ..)
      · exact kept_settleWg ..
    exact ((h.trans k).trans (.same rfl rfl : Kept u { u with nextId := n + 1 })).trans (kept_modWg ..)

theorem kept_spillAll (l : List Nat) (s : State) (left : List Nat) : Kept s (s.spillAll l left).1 := by
  induction l generalizing s left with
  | nil => exact .refl s
  | cons wid rest ih =>
    unfold State.spillAll
    split
    · rename_i e
      exact (kept_spillWg e).trans (ih ..)
    · exact ih ..

theorem kept_spillDone {core : Nat} {s t : State} (h : execSpillDone core s = .next t) : Kept s t := by
  unfold execSpillDone at h
  refine Kept.of_next ?_ h
  split
  · exact (kept_spillAll ..).trans (kept_setSwitch ..)
  · exact .refl s

theorem kept_swapOut (s : State) (cores : List Nat) : Kept s (s.swapOut cores) := by
  unfold State.swapOut
  extract_lets out s1 s2
  have h1 : Kept s s1 := kept_foldl _ (fun s wid => (kept_beforeLeaving s wid).trans (kept_leaveCore ..)) _ _
  exact (h1.trans (.same rfl rfl : Kept s1 s2)).trans (kept_setSwitch ..)

theorem kept_bankSwap {core : Nat} {s t : State} (h : execBankSwap core s = .next t) : Kept s t := by
  unfold execBankSwap at h
  refine Kept.of_next ?_ h
  split
  · split
    · exact kept_swapOut ..
    · split
      · exact .same rfl rfl
      · dsimp only
        split
        · exact ((kept_swapOut ..).trans (kept_passOver ..)).trans (kept_placeCand ..)
        · exact kept_swapOut ..
  · exact .refl s

theorem kept_setFused (s : State) (cluster : Nat) (on : Bool) : Kept s (s.setFused cluster on) := .same rfl rfl

/-! ## Fault records -/

theorem kept_saveSuspended (s : State) (wid : Nat) : Kept s (s.saveSuspended wid) := by
  unfold State.saveSuspended
  split
  · exact .refl s
  · split
    · dsimp only
      split
      · rename_i e
        exact ((kept_settleWg ..).trans (kept_spillWg e)).trans (kept_leaveCore ..)
      · exact kept_settleWg ..
    · exact .refl s

theorem kept_postFailed (s : State) : Kept s s.postFailed := kept_raiseIrq ..

theorem kept_posted (s : State) (cid key : Nat) (r : FaultRec) (n va : Nat) : Kept s (s.posted cid key r n va) := by
  unfold State.posted
  simp only
  split
  · exact (kept_modCtx ..).trans (kept_raiseIrq ..)
  · exact kept_modCtx ..

theorem kept_postRecord (s : State) (cid key : Nat) (r : FaultRec) : Kept s (s.postRecord cid key r) := by
  unfold State.postRecord
  split
  · exact kept_postFailed s
  · split <;> rename_i e <;> have h := (memOnly_loadBytes ..).kept.of_fst e
    · exact h.trans (kept_postFailed _)
    · split
      · exact h.trans (kept_postFailed _)
      · dsimp only
        split
        · exact h
        · refine h.trans ?_
          rename_i u _ _ q _ _
          clear h e
          generalize q.base + 64 * (((_ : Nat) - 1) % q.size) = va
          split
          · rename_i e1 e2
            exact (((memOnly_accessG ..).kept.of_fst e1).trans
              ((memOnly_storeT ..).trans (memOnly_storeG ..)).kept).trans (kept_posted ..)
          · rename_i e1 _
            exact ((memOnly_accessG ..).kept.of_fst e1).trans (kept_postFailed _)

theorem kept_saveHeld (s : State) (cid : Nat) : Kept s (s.saveHeld cid) := by
  unfold State.saveHeld
  refine kept_foldl _ (fun s q => ?_) _ _
  split
  · exact kept_saveSuspended ..
  · exact .refl s

theorem kept_postHeads (s : State) (cid : Nat) : Kept s (s.postHeads cid) :=
  kept_foldl _ (fun s (q : Nat × FaultRec) => kept_postRecord s cid q.1 q.2) _ _

/-! ## Resolutions -/

theorem kept_heldAgain (s : State) (gid id : Nat) : Kept s (s.heldAgain gid id) := by
  unfold State.heldAgain
  split
  · split
    · exact kept_signAgain ..
    · exact kept_roleAgain ..
  · exact .refl s

theorem kept_dropRecord (s : State) (cid key : Nat) : Kept s (s.dropRecord cid key) := kept_modCtx ..

theorem kept_settleRec (s : State) (cid wid key : Nat) : Kept s (s.settleRec cid wid key) := by
  unfold State.settleRec
  split
  · exact kept_resolveFault ..
  · exact kept_dropRecord ..

theorem kept_forget (s : State) (rid : Nat) : Kept s (s.forget rid) := by
  unfold State.forget
  simp only
  split
  · exact .same rfl rfl
  · exact .refl s

theorem kept_heldWrite (s : State) (rid key : Nat) (again : Bool) : Kept s (s.heldWrite rid key again) := by
  unfold State.heldWrite
  split
  · exact .refl s
  · rename_i h _
    extract_lets t r
    have k : Kept s r.1 := by
      refine (kept_modRegion s rid _ : Kept s t).trans ?_
      unfold r
      split
      · exact kept_deviceStore ..
      · exact .refl t
    split
    · split
      · exact k.trans (kept_closeRegion ..)
      · exact k.trans (kept_forget ..)
    · exact k

theorem kept_restart (s : State) (pid : Nat) : Kept s (s.restart pid) := by
  unfold State.restart
  split
  · exact kept_modProg ..
  · exact kept_modProg ..
  · exact kept_startProg ..

theorem kept_retryRec (s : State) (cid key : Nat) (r : FaultRec) : Kept s (s.retryRec cid key r) := by
  unfold State.retryRec
  split
  · exact kept_settleRec ..
  · exact kept_settleRec ..
  · exact kept_settleRec ..
  · refine Kept.trans ?_ (kept_settleRec ..)
    split
    · exact kept_redo ..
    · exact .refl s
  · exact (kept_foldl _ (fun s (p : Pend) => kept_heldAgain s _ p.id) _ _).trans (kept_settleRec ..)
  · exact (kept_modGrp ..).trans (kept_settleRec ..)
  · dsimp only
    refine (kept_dropRecord s cid key).trans ?_
    split
    · exact .refl _
    · split
      · exact (kept_restart ..).trans (kept_modProg ..)
      · exact kept_modProg ..
  · exact kept_dropRecord ..
  · exact (kept_dropRecord ..).trans (kept_modWg ..)
  · exact ((kept_dropRecord ..).trans (kept_modRegion ..)).trans (kept_checkAfter ..)
  · exact (kept_dropRecord ..).trans (kept_heldWrite ..)

theorem kept_skipPend (s : State) (gid : Nat) (p : Pend) (lanes : LaneMask) : Kept s (s.skipPend gid p lanes) := by
  unfold State.skipPend
  split
  · extract_lets m t u
    have h : Kept s u := (kept_modGrp ..).trans (kept_advance ..)
    split
    · exact h.trans (kept_tryAgain ..)
    · exact h
  · extract_lets q t
    have h : Kept s t := kept_modGrp ..
    split
    · exact h
    · exact h.trans (kept_redo ..)

theorem kept_skipHeld (s : State) (gid id : Nat) : Kept s (s.skipHeld gid id) := by
  unfold State.skipHeld
  split
  · exact kept_releaseLanes ..
  · exact .refl s

theorem kept_abandonRegion (s : State) (rid : Nat) : Kept s (s.abandonRegion rid) := by
  unfold State.abandonRegion
  extract_lets rs t ws
  have h : Kept s t := kept_foldl _ (fun s r => kept_modRegion s r _) _ _
  exact (h.trans (kept_foldl _ (fun s w => kept_retireWg s w) _ _)).trans (kept_reap _)

theorem kept_skipRec (s : State) (cid key : Nat) (r : FaultRec) : Kept s (s.skipRec cid key r) := by
  unfold State.skipRec
  split
  · exact (kept_advance ..).trans (kept_settleRec ..)
  · exact kept_settleRec ..
  · exact kept_settleRec ..
  · refine Kept.trans ?_ (kept_settleRec ..)
    split
    · exact kept_skipPend ..
    · exact .refl s
  · exact (kept_foldl _ (fun s (p : Pend) => kept_skipHeld s _ p.id) _ _).trans (kept_settleRec ..)
  · refine Kept.trans ?_ (kept_settleRec ..)
    split
    · exact kept_matDone ..
    · exact .refl s
  · dsimp only
    refine (kept_dropRecord s cid key).trans ?_
    split
    · exact .refl _
    · split
      · exact (kept_restart ..).trans (kept_modProg ..)
      · split
        · exact kept_modProg ..
        · exact kept_modProg ..
  · exact (kept_dropRecord ..).trans (kept_modWg ..)
  · exact (kept_dropRecord ..).trans (kept_modWg ..)
  · exact (kept_dropRecord ..).trans (kept_abandonRegion ..)
  · exact (kept_dropRecord ..).trans (kept_heldWrite ..)

theorem kept_dropAbout (s : State) (cid key : Nat) (r : FaultRec) : Kept s (s.dropAbout cid key r) := by
  unfold State.dropAbout
  simp only
  split
  · exact (kept_dropRecord ..).trans (kept_heldWrite ..)
  · exact kept_dropRecord ..

theorem kept_abandonRec (s : State) (cid key : Nat) (r : FaultRec) (whole : Bool) :
    Kept s (s.abandonRec cid key r whole) := by
  unfold State.abandonRec
  simp only
  split
  · exact (kept_dropAbout ..).trans (kept_abandonRegion ..)
  · exact ((kept_dropAbout ..).trans (kept_retireWg ..)).trans (kept_reap _)

/-! ## Commands and HALT -/

theorem kept_answer (s : State) (status index : Nat) (result : Word) : Kept s (s.answer status index result) := by
  unfold State.answer
  generalize wordN (status + index * 2 ^ 32) = w
  exact .same rfl rfl

theorem kept_command (s : State) (f : State → State) (h : ∀ s, Kept s (f s)) : Kept s (s.command f) := by
  unfold State.command
  split
  · exact h s
  · exact .same rfl rfl

theorem kept_ctxCommand (s : State) (f : Nat → State → State) (h : ∀ cid s, Kept s (f cid s)) :
    Kept s (s.ctxCommand f) := by
  refine kept_command _ _ (fun s => ?_)
  dsimp only
  split
  · exact h ..
  · exact kept_answer ..

theorem kept_after {s : State} {r : Host.Outcome State Fault Refusal} (h : ∀ {t}, r = .next t → Kept s t) :
    Kept s (s.after r) := by
  unfold State.after
  split
  · exact h rfl
  · exact .refl s

theorem kept_endSwitch (s : State) (cid core : Nat) : Kept s (s.endSwitch cid core) := by
  unfold State.endSwitch
  split
  · extract_lets home t u
    have h1 : Kept s t := by
      unfold t
      split
      · rename_i e
        exact kept_after (fun h => kept_bankSwap h)
      · exact .refl s
    have h2 : Kept t u := kept_after (fun h => kept_spillDone h)
    exact (h1.trans h2).trans (.same rfl rfl)
  · exact .refl s

theorem kept_endSwitches (s : State) (cid : Nat) : Kept s (s.endSwitches cid) :=
  kept_foldl _ (fun s (q : Nat × Core) => kept_endSwitch s cid q.1) _ _

theorem kept_haltWg (s : State) (wid : Nat) : Kept s (s.haltWg wid) := by
  unfold State.haltWg
  split
  · exact .refl s
  · split
    · extract_lets t u
      have h : Kept s t := (kept_beforeLeaving ..).trans (kept_debitDue ..)
      have k : Kept t u := by
        unfold u
        split
        · exact kept_freezeHolds ..
        · exact .refl t
      exact ((h.trans k).trans (kept_settleWg ..)).trans (kept_modWg ..)
    · exact (kept_debitDue ..).trans (kept_settleWg ..)

theorem kept_haltProgs (s : State) (cid : Nat) : Kept s (s.haltProgs cid) := .same rfl rfl

theorem kept_postAll (n : Nat) (s : State) (cid : Nat) : Kept s (s.postAll cid n) := by
  induction n generalizing s with
  | zero => exact .refl s
  | succ n ih => exact (kept_postHeads ..).trans (ih _)

theorem kept_actOn (s : State) (cid key : Nat) : Kept s (s.actOn cid key) := by
  unfold State.actOn
  split
  · exact kept_retryRec ..
  · exact kept_skipRec ..
  · exact kept_abandonRec ..
  · exact .refl s
  · exact kept_abandonRec ..
  · exact .refl s

theorem kept_completeAbandoned (s : State) (cid : Nat) : Kept s (s.completeAbandoned cid) := by
  unfold State.completeAbandoned
  refine kept_foldl _ (fun s q => ?_) _ _
  split
  · exact kept_completeRegion ..
  · exact .refl s

theorem kept_withdraw (s : State) (cid key : Nat) : Kept s (s.withdraw cid key) := by
  unfold State.withdraw
  split
  · exact .refl s
  · split
    · exact kept_settleRec ..
    · exact kept_settleRec ..
    · exact (kept_modGrp ..).trans (kept_settleRec ..)
    · exact (kept_modGrp ..).trans (kept_settleRec ..)
    · exact (kept_modGrp ..).trans (kept_settleRec ..)
    · exact (kept_dropRecord ..).trans (kept_modProg ..)
    · exact kept_dropRecord ..
    · exact (kept_dropRecord ..).trans (kept_modWg ..)
    · exact (kept_dropRecord ..).trans (kept_modRegion ..)
    · exact (kept_modGrp ..).trans (kept_settleRec ..)
    · exact .refl s

theorem kept_haltCtx (s : State) (cid : Nat) : Kept s (s.haltCtx cid) := by
  unfold State.haltCtx
  extract_lets s1 s2 s3 s4 s5 s6
  have h1 : Kept s s1 := kept_foldl _ (fun s k => kept_actOn s cid k) _ _
  have h2 : Kept s1 s2 := (kept_completeAbandoned ..).trans (kept_endSwitches ..)
  have h3 : Kept s2 s3 := kept_foldl _ (fun s wid => kept_haltWg s wid) _ _
  have h4 : Kept s3 s4 := kept_haltProgs ..
  have h5 : Kept s4 s5 := kept_postAll ..
  have h6 : Kept s5 s6 := kept_foldl _ (fun s k => kept_withdraw s cid k) _ _
  exact (((((h1.trans h2).trans h3).trans h4).trans h5).trans h6).trans (kept_modCtx ..)

theorem kept_dropCtx (s : State) (cid : Nat) : Kept s (s.dropCtx cid) := by
  unfold State.dropCtx
  extract_lets gids t
  have h : Kept s t := (kept_dropTlb ..).trans (kept_dropCopies ..)
  exact h.trans (.same rfl rfl)

/-! ## RESUME -/

theorem kept_watchRec (s : State) (cid wid gid code va : Nat) (sub : Subject) :
    Kept s (s.watchRec cid wid gid code va sub).1 := .same rfl rfl

theorem kept_nameRecs (s : State) (cid wid gid : Nat) (names : List (Nat × Nat × Nat)) :
    Kept s (s.nameRecs cid wid gid names) := by
  unfold State.nameRecs
  refine kept_foldl _ (fun s n => ?_) _ _
  split
  · exact .refl s
  · exact (kept_watchRec ..).trans (kept_modGrp ..)

theorem kept_takeGroups (n : Nat) (s : State) (cid wid : Nat) (bs : List Byte) :
    Kept s (s.takeGroups cid wid n bs) := by
  induction n generalizing s bs with
  | zero => exact .refl s
  | succ n ih =>
    unfold State.takeGroups
    extract_lets gid r g t u
    have h : Kept s (u.modWg wid (fun w => { w with gids := w.gids ++ [gid] })) := .same rfl rfl
    exact (h.trans (kept_nameRecs ..)).trans (ih ..)

theorem kept_takeWg (s : State) (cid : Nat) (bs : List Byte) : Kept s (s.takeWg cid bs) := by
  unfold State.takeWg
  extract_lets wid rid r sp n a w t u here
  exact ((.same rfl rfl : Kept s t).trans (kept_takeGroups ..)).trans (kept_modWg ..)

theorem kept_takeWgs (n : Nat) (s : State) (cid : Nat) (bs : List Byte) : Kept s (s.takeWgs cid n bs) := by
  induction n generalizing s bs with
  | zero => exact .refl s
  | succ n ih =>
    unfold State.takeWgs
    split
    · exact .refl s
    · exact (kept_takeWg ..).trans (ih ..)

theorem kept_firstRec (s : State) (wid key : Nat) : Kept s (s.firstRec wid key) := kept_modWg ..

theorem kept_takeHead (s : State) (cid : Nat) (bs : List Byte) : Kept s (s.takeHead cid bs) := by
  unfold State.takeHead
  simp only
  split
  · exact .refl s
  · split
    · exact kept_firstRec ..
    · exact (kept_watchRec ..).trans (kept_firstRec ..)

theorem kept_takeHeads (n : Nat) (s : State) (cid : Nat) (bs : List Byte) : Kept s (s.takeHeads cid n bs) := by
  induction n generalizing s bs with
  | zero => exact .refl s
  | succ n ih =>
    unfold State.takeHeads
    split
    · exact .refl s
    · exact (kept_takeHead ..).trans (ih ..)

theorem kept_takeMat (s : State) (cid wid : Nat) (bs : List Byte) : Kept s (s.takeMat cid wid bs) := by
  unfold State.takeMat
  extract_lets gid mchk rows kind t
  have h : Kept s t := kept_modGrp ..
  split
  · exact h
  · split
    · exact h
    · extract_lets m m2 m3 u r
      have k : Kept t u := kept_modGrp ..
      split
      · exact h.trans k
      · exact ((h.trans k).trans (kept_watchRec u cid wid gid _ _ _)).trans (kept_modGrp ..)

theorem kept_takeMats (n : Nat) (s : State) (cid : Nat) (bs : List Byte) : Kept s (s.takeMats cid n bs) := by
  induction n generalizing s bs with
  | zero => exact .refl s
  | succ n ih =>
    unfold State.takeMats
    split
    · exact .refl s
    · extract_lets wid tiles ngr tile t rest u
      have h : Kept s t := kept_modWg ..
      exact (h.trans (kept_foldl _ (fun s b => kept_takeMat s cid wid b) _ _)).trans (ih ..)

theorem kept_takeProg (s : State) (cid : Nat) (bs : List Byte) : Kept s (s.takeProg cid bs) := .same rfl rfl

theorem kept_takeCopy (s : State) (cid : Nat) (bs : List Byte) : Kept s (s.takeCopy cid bs) :=
  (kept_foldl _ (fun s gid => kept_modGrp s gid _) _ _).trans (kept_modWg ..)

theorem kept_takeCopies (n : Nat) (s : State) (cid : Nat) (bs : List Byte) : Kept s (s.takeCopies cid n bs) := by
  induction n generalizing s bs with
  | zero => exact .refl s
  | succ n ih => exact (kept_takeCopy ..).trans (ih ..)

theorem kept_takeSection3 (s : State) (cid : Nat) (bs : List Byte) : Kept s (s.takeSection3 cid bs) :=
  (kept_foldl _ (fun s b => kept_takeProg s cid b) _ _).trans (kept_takeCopies ..)

theorem kept_takeRegion (s : State) (cid : Nat) (bs : List Byte) : Kept s (s.takeRegion cid bs) := .same rfl rfl

theorem kept_takeObject (s : State) (cid : Nat) (bs : List Byte) : Kept s (s.takeObject cid bs) := by
  unfold State.takeObject
  split
  · exact .refl s
  · exact .same rfl rfl

theorem kept_tieHeld (s : State) (cid key va : Nat) (sub : Subject) (e : Option Entry) :
    Kept s (s.tieHeld cid key va sub e) := by
  unfold State.tieHeld
  split
  · exact kept_modRegion ..
  · exact kept_modRegion ..
  · exact kept_modWg ..
  · exact kept_modWg ..
  · exact kept_modWg ..
  · exact kept_modWg ..
  · exact kept_modProg ..
  · exact .refl s

theorem kept_takeHeld (s : State) (cid dom : Nat) (es : List Entry) (k : Nat) (bs : List Byte) :
    Kept s (s.takeHeld cid dom es k bs) :=
  (kept_modCtx ..).trans (kept_tieHeld ..)

theorem kept_takeDomains (n : Nat) (s : State) (cid : Nat) (es : List Entry) (bs : List Byte) :
    Kept s (s.takeDomains cid es n bs) := by
  induction n generalizing s bs with
  | zero => exact .refl s
  | succ n ih =>
    exact ((kept_modCtx ..).trans (kept_foldl _ (fun s (q : Nat × List Byte) => kept_takeHeld s cid _ es q.1 q.2) _ _)).trans
      (ih ..)

/-! ## The entries after section 7 -/

theorem kept_takeCopyEntry (s : State) (cid : Nat) (e : Entry) : Kept s (s.takeCopyEntry cid e) := by
  unfold State.takeCopyEntry
  extract_lets wid ns nb ng w cs done cs2 bs gs t
  exact (kept_foldl _ (fun s r => kept_modGrp s _ _) _ _ : Kept s t).trans (kept_modWg ..)

theorem kept_takeEntries (s : State) (cid : Nat) (es : List Entry) : Kept s (s.takeEntries cid es) := by
  refine kept_foldl _ (fun s e => ?_) _ _
  split
  · exact kept_modGrp ..
  · exact kept_modGrp ..
  · exact kept_takeCopyEntry ..
  · exact kept_modProg ..
  · exact .refl s

theorem kept_watchPosted (s : State) (cid : Nat) (e : Entry) : Kept s (s.watchPosted cid e) := by
  unfold State.watchPosted
  split
  · exact .refl s
  · exact (kept_modCtx ..).trans (kept_tieHeld ..)

theorem kept_watchAll (s : State) (cid : Nat) (es : List Entry) : Kept s (s.watchAll cid es) := by
  refine kept_foldl _ (fun s e => ?_) _ _
  split
  · exact kept_watchPosted ..
  · exact .refl s

theorem kept_sortUnits (s : State) (cid : Nat) : Kept s (s.sortUnits cid) := .same rfl rfl

theorem kept_restore (s : State) (bs : List Byte) (cid root : Nat) (dlog : Word) :
    Kept s (s.restore bs cid root dlog) := by
  unfold State.restore
  extract_lets es a s1 s2 s3 log s4 s5 s6 s7 s8
  have h1 : Kept s s1 := .same rfl rfl
  have h2 : Kept s1 s2 := kept_foldl _ (fun s b => kept_takeObject s cid b) _ _
  have h3 : Kept s2 s3 := kept_foldl _ (fun s b => kept_takeRegion s cid b) _ _
  have h4 : Kept s3 s4 := by
    unfold s4
    split
    · exact kept_modRegion ..
    · exact .refl s3
  have h5 : Kept s4 s5 := kept_takeWgs ..
  have h6 : Kept s5 s6 := (kept_takeMats ..).trans (kept_sortUnits ..)
  have h7 : Kept s6 s7 := (kept_takeSection3 ..).trans (kept_takeHeads ..)
  have h8 : Kept s7 s8 := kept_takeEntries ..
  exact (((((((h1.trans h2).trans h3).trans h4).trans h5).trans h6).trans h7).trans h8).trans
    ((kept_takeDomains ..).trans (kept_watchAll ..))

/-! ## The loader and the port -/

theorem kept_putPhys (s : State) (pa : Nat) (bs : List Byte) : Kept s (s.putPhys pa bs) := (memOnly_putPhys ..).kept

theorem kept_loadPage (s : State) (cid base : Nat) (g : LSeg) (k : Nat) : Kept s (s.loadPage cid base g k) :=
  ((kept_takeFrame s).trans (kept_putPhys ..)).trans (kept_mapPage ..)

theorem kept_loadSeg (s : State) (cid base : Nat) (g : LSeg) : Kept s (s.loadSeg cid base g) :=
  (kept_foldl _ (fun s k => kept_loadPage s cid base g k) _ _).trans (kept_dropCopies ..)

theorem kept_endLoad (s : State) (l : Loading) (status index : Nat) : Kept s (s.endLoad l status index) := by
  unfold State.endLoad
  extract_lets t
  have h : Kept s t := .same rfl rfl
  split
  · exact h.trans (kept_answer ..)
  · exact h

theorem kept_setLoad (s : State) (l : Loading) : Kept s (s.setLoad l) := .same rfl rfl

theorem kept_multicast (s : State) (l : Loading) : Kept s (s.multicast l) := by
  unfold State.multicast
  split
  · exact .same rfl rfl
  · exact .refl s

theorem kept_mapLoad (s : State) (l : Loading) : Kept s (s.mapLoad l) := by
  unfold State.mapLoad
  split
  · exact kept_endLoad ..
  · split
    · exact kept_endLoad ..
    · exact ((kept_foldl (fun (s : State) (g : LSeg) => s.loadSeg l.ctx l.base g) (fun s g => kept_loadSeg s l.ctx l.base g)
        _ s).trans (kept_multicast ..)).trans (kept_setLoad ..)

theorem kept_finishLoad (s : State) (l : Loading) : Kept s (s.finishLoad l) := by
  unfold State.finishLoad
  extract_lets o t u
  have h : Kept s u := (kept_modCtx ..).trans (kept_changePages ..)
  exact (h.trans (.same rfl rfl : Kept u { u with objects := insK u.objects l.handle o })).trans (kept_endLoad ..)

theorem kept_loaderTurn (s : State) : Kept s s.loaderTurn := by
  unfold State.loaderTurn
  split
  · exact .refl s
  · split
    · exact .same rfl rfl
    · split
      · exact kept_endLoad ..
      · split
        · exact kept_endLoad ..
        · exact kept_setLoad ..
      · exact kept_mapLoad ..
      · exact kept_finishLoad ..

theorem kept_beginLoad {s t : State} {cid : Nat} {bs : List Byte} {b : Nat} {pod host : Bool}
    (h : s.beginLoad cid bs b pod host = .ok t) : Kept s t := by
  unfold State.beginLoad at h
  split at h
  · exact nomatch h
  · injection h with h
    exact h ▸ .same rfl rfl

theorem kept_credit (s : State) (rid : Nat) (energy time : Int) : Kept s (s.credit rid energy time) := kept_modRegion ..

theorem kept_setDrain (s : State) (kind num : Nat) (drain : Bool) : Kept s (s.setDrain kind num drain) := by
  unfold State.setDrain
  simp only
  repeat' split
  all_goals first
    | exact .refl s
    | exact kept_modCore ..
    | exact .same rfl rfl

theorem kept_moveGranule (s : State) (old new : Nat) : Kept s (s.moveGranule old new) := by
  unfold State.moveGranule
  extract_lets bs bad t
  have h : Kept s t := (kept_clearGranule s old).trans (kept_putAt (s.clearGranule old) new bs)
  clear_value t bad
  exact h.trans (.same rfl rfl)

theorem kept_startOp (s : State) (busy : Bool) (i : Instr) : Kept s (s.startOp busy i) := by
  unfold State.startOp
  repeat' split
  all_goals exact .same rfl rfl

theorem kept_modLink (s : State) (n : Nat) (f : PeerLink → PeerLink) : Kept s (s.modLink n f) := .same rfl rfl

theorem kept_fenceCore (s : State) (core : Nat) : Kept s (s.fenceCore core) :=
  (kept_modCore ..).trans (kept_raiseIrq ..)

end Sys2Proof.Machine
end

