-- ==== Sys2Proof/Laws/Later.lean ====
section
/-! SUPPORT. The laws of the shapes of variable latency: the record that an issue leaves, the end of a run without a
fault, and what a form that acts once for its issue set gives. -/
namespace Sys2Proof.Machine

/-- The record of an issue of variable latency (R257). -/
def issueRecord (s : State) (i : Instr) (c : Ctl) (m : LaneMask) (kind : PendKind) (ops : Ops) : Pend :=
  { id := s.nextId, pc := s.issuePc, instr := i, lanes := m, done := 0, flag := setFlag c, kind := kind, due := 0,
    ops := ops, recKey := 0, dead := [], entered := 0 }

/-- An issue is recorded and its flag charged; nothing else changes. -/
theorem startPend_eq (s : State) (i : Instr) (c : Ctl) (m : LaneMask) (kind : PendKind) (ops : Ops) :
    s.startPend i c m kind ops = ({ s with nextId := s.nextId + 1 } : State).modGrp s.cur (fun g =>
      ({ g with pending := g.pending ++ [issueRecord s i c m kind ops] } : Group).chargeFlag (setFlag c)) := rfl

/-- The issuing group with the issue recorded and its flag charged. -/
def beganGroup (s : State) (i : Instr) (c : Ctl) (ops : Ops) (g : Group) : Group :=
  ({ g with pending := g.pending ++ [issueRecord s i c (s.active c) .result ops] } : Group).chargeFlag (setFlag c)

/-- What a form that acts once for its issue set leaves of its group, with `F` for its result. -/
def laterGroup (s : State) (i : Instr) (c : Ctl) (ops : Ops) (F : Group → Group) (g : Group) : Group :=
  if s.active c = 0 then g else F (beganGroup s i c ops g)

theorem beganGroup_rawKey (s : State) (i : Instr) (c : Ctl) (ops : Ops) (g : Group) (k : RegKey) (l : Nat) :
    (beganGroup s i c ops g).rawKey k l = g.rawKey k l := by
  rw [beganGroup, rawKey_charge]; cases k <;> rfl

theorem beganGroup_pending (s : State) (i : Instr) (c : Ctl) (ops : Ops) (g : Group) :
    (beganGroup s i c ops g).pending = g.pending ++ [issueRecord s i c (s.active c) .result ops] := by
  rw [beganGroup, chargeFlag_frame]

/-- Nothing younger has written yet, so nothing that the new instruction writes is discarded. -/
theorem beganGroup_fresh (s : State) (i : Instr) (c : Ctl) (ops : Ops) (g : Group) :
    FreshDue (beganGroup s i c ops g) (.on s.nextId) :=
  freshDue_on (p := issueRecord s i c (s.active c) .result ops)
    (by simp [Group.newest?, beganGroup_pending, issueRecord]) rfl

/-- The next identifier after a form of variable latency. -/
def laterNext (s : State) (c : Ctl) : Nat := if s.active c = 0 then s.nextId else s.nextId + 1

theorem laterGroup_frame (s : State) (i : Instr) (c : Ctl) (ops : Ops) {F : Group → Group} (hF : RegsOnly F)
    (g : Group) : laterGroup s i c ops F g = { g with
      vregs := (laterGroup s i c ops F g).vregs, sregs := (laterGroup s i c ops F g).sregs,
      preds := (laterGroup s i c ops F g).preds, flags := (laterGroup s i c ops F g).flags,
      pending := (laterGroup s i c ops F g).pending, overlaid := (laterGroup s i c ops F g).overlaid,
      landing := (laterGroup s i c ops F g).landing } := by
  unfold laterGroup
  split
  · rfl
  · rw [hF, beganGroup, chargeFlag_frame]

/-- A form that acts once for its issue set, inside its block, as one change of its group. -/
theorem onceForm_eq {s : State} {i : Instr} {c : Ctl} {ops : Ops} {F : Nat → LaneMask → Group → Group}
    (hg : (findK s.groups s.cur).isSome = true) (hw : s.mustWait i (s.active c) = false) (hin : s.Inside)
    (hF : ∀ id m, RegsOnly (F id m)) :
    s.onceForm i c ops (fun id m t => t.modGrp s.cur (F id m)) =
      ({ s with nextId := laterNext s c } : State).modGrp s.cur (fun g =>
        (laterGroup s i c ops (F s.nextId (s.active c)) g).modTh s.iset (fun t => { t with pc := t.pc + 8 })) := by
  unfold State.onceForm
  by_cases h0 : s.active c = 0
  · simp only [h0, beq_self_eq_true, if_true, laterNext, laterGroup]
    exact advance_inside hg hin
  · have hb : (s.active c == 0) = false := by simpa using h0
    simp only [hb, hw, Bool.false_and, Bool.false_eq_true, if_false, laterNext, h0, laterGroup, beganGroup]
    rw [startPend_eq, modGrp_modGrp, advance_inside, modGrp_modGrp]
    · rw [isSome_modGrp]; exact hg
    · intro l hl hbit
      have hg' : (findK ({ s with nextId := s.nextId + 1 } : State).groups s.cur).isSome = true := hg
      have e : ((({ s with nextId := s.nextId + 1 } : State).modGrp s.cur (fun g => F s.nextId (s.active c)
          (({ g with pending := g.pending ++ [issueRecord s i c (s.active c) .result ops] } : Group).chargeFlag
            (setFlag c)))).grp s.cur).th l = s.g.th l := by
        rw [grp_modGrp_self hg', hF, chargeFlag_frame]; rfl
      rw [e]; exact hin l hl hbit

theorem laterGroup_flagOf (s : State) (i : Instr) (c : Ctl) (ops : Ops) {F : Group → Group} (hF : RegsOnly F) (g : Group)
    (n : Nat) : (laterGroup s i c ops F g).flagOf n = g.flagOf n + (if setFlag c = some n ∧ s.active c ≠ 0 then 1 else 0) := by
  unfold laterGroup
  split
  · rename_i h; simp [h]
  · rename_i h
    have e : ∀ g : Group, (F g).flagOf n = g.flagOf n := fun g => by rw [hF]; rfl
    rw [e, beganGroup, flagOf_chargeFlag]
    simp only [Group.flagOf, h, ne_eq, not_false_eq_true, and_true]

/-- The writes of instruction `id` leave its own record as it stands. -/
def KeepsNewest (id : Nat) (F : Group → Group) : Prop :=
  ∀ (g : Group) (p : Pend), p ∈ g.pending → p.id = id → p ∈ (F g).pending

theorem mem_killOlder {id : Nat} {p : Pend} (k : RegKey) (m : LaneMask) {ps : List Pend} (h : p ∈ ps) (hp : p.id = id) :
    p ∈ killOlder (some id) k m ps :=
  List.mem_map.2 ⟨p, h, by simp [hp]⟩

theorem regWrite_recorded (d : Reg) (wide : Bool) (m : LaneMask) (sl : Nat) (f : Nat → Word) (id : Nat) :
    KeepsNewest id (regWrite d wide m sl f (.on id)) := by
  intro g p hp hid
  have hV : ∀ (g : Group) n m f, p ∈ g.pending → p ∈ (g.writeV n m f (.on id)).pending := fun g n m f h => by
    rw [writeV_eq]; exact mem_killOlder _ _ h hid
  cases d with
  | s n =>
    simp only [regWrite, Group.writeS]
    split
    · exact mem_killOlder _ _ hp hid
    · exact hp
  | v n =>
    cases wide with
    | false => exact hV _ _ _ _ hp
    | true => exact hV _ _ _ _ (hV _ _ _ _ hp)

/-- The frame, the flags and the record of a form that acts once for its issue set. -/
theorem later_frame {s : State} {i : Instr} {c : Ctl} {ops : Ops} {F : Group → Group}
    (hg : (findK s.groups s.cur).isSome = true) (hr : KeepsNewest s.nextId F) (hF : RegsOnly F) {t : State}
    (ht : t = ({ s with nextId := laterNext s c } : State).modGrp s.cur (fun g =>
      (laterGroup s i c ops F g).modTh s.iset (fun t => { t with pc := t.pc + 8 }))) :
    t.g = (laterGroup s i c ops F s.g).modTh s.iset (fun t => { t with pc := t.pc + 8 })
      ∧ Frame s t ∧ Charged s t c ∧ Recorded s t i c .result := by
  have hg' : (findK ({ s with nextId := laterNext s c } : State).groups s.cur).isSome = true := hg
  have htg : t.g = (laterGroup s i c ops F s.g).modTh s.iset (fun t => { t with pc := t.pc + 8 }) := by
    rw [ht]; exact grp_modGrp_self hg' _
  have hfr := laterGroup_frame s i c ops hF s.g
  refine ⟨htg, ⟨by rw [ht]; rfl, ?_, ?_, ?_⟩, ?_, ?_⟩
  · intro gid hne
    rw [ht]
    simp [State.modGrp, findK_modK, Ne.symm hne]
  · rw [htg]
    simp only [Group.modTh]
    rw [hfr]
  · intro l hl
    have e : (laterGroup s i c ops F s.g).threads = s.g.threads := by rw [hfr]
    rw [htg, th_modTh _ _ _ (by rw [e]; exact hl)]
    simp [Group.th, e]
  · intro n
    rw [htg]
    exact laterGroup_flagOf s i c ops hF s.g n
  · intro h0
    refine ⟨issueRecord s i c (s.active c) .result ops, ?_, rfl, rfl, rfl, rfl, rfl, rfl⟩
    rw [htg]
    simp only [Group.modTh, laterGroup, h0, if_false]
    refine hr _ _ ?_ rfl
    rw [beganGroup_pending]
    simp

theorem laterGroup_rawKey (s : State) (i : Instr) (c : Ctl) (ops : Ops) (F : Group → Group) (g : Group) (k : RegKey)
    (l : Nat) : (laterGroup s i c ops F g).rawKey k l
      = if s.active c = 0 then g.rawKey k l else (F (beganGroup s i c ops g)).rawKey k l := by
  unfold laterGroup; split <;> rfl

/-- A form that acts once for its issue set, with one register result, gives it. -/
theorem givesLater_of {s : State} {i : Instr} {c : Ctl} {ops : Ops} {d : Reg} {wide : Bool} {sl : Nat}
    {f : Nat → Word} {eff : State → State} (hc : i.ctl? = some c) (he : exec i s = issueWord i eff s)
    (hf : eff s = s.onceForm i c ops (fun id m t => t.putReg s.cur d wide m sl f (.on id))) :
    GivesLater s i c d wide sl f := by
  intro hi hin
  refine ⟨_, by rw [he, issueWord_eq hi, hf], ?_⟩
  generalize ht : s.onceForm i c ops (fun id m t => t.putReg s.cur d wide m sl f (.on id)) = t
  simp only [putReg_eq] at ht
  rw [onceForm_eq (F := fun id m => regWrite d wide m sl f (.on id)) hi.1 (hi.2.2.2.2 c hc) hin
    (fun id m => regWrite_only d wide m sl f (.on id))] at ht
  obtain ⟨htg, hfr, hch, hrec⟩ := later_frame hi.1 (regWrite_recorded d wide (s.active c) sl f s.nextId)
    (regWrite_only d wide (s.active c) sl f (.on s.nextId)) ht.symm
  have hG := beganGroup_fresh s i c ops s.g
  have hR : ∀ k l, t.g.rawKey k l = if s.active c = 0 then s.g.rawKey k l
      else (regWrite d wide (s.active c) sl f (.on s.nextId) (beganGroup s i c ops s.g)).rawKey k l := by
    intro k l
    rw [htg, rawKey_modTh_pc, laterGroup_rawKey]
  refine ⟨hfr, hch, hrec, ?_, ?_⟩
  · cases d with
    | s n =>
      intro hm
      have h := hR (.s n.val) 0
      rw [if_neg hm] at h
      have h' : t.g.rawS n.val
          = (regWrite (.s n) wide (s.active c) sl f (.on s.nextId) (beganGroup s i c ops s.g)).rawS n.val := h
      rw [h']
      simp only [regWrite, Group.writeS, hG _, if_true]
      show ((beganGroup s i c ops s.g).putS n.val _).rawS n.val = _
      rw [rawS_putS, if_pos rfl]
    | v n =>
      intro l hb
      have hm : s.active c ≠ 0 := by
        intro h0; rw [h0] at hb; simp [bitOf] at hb
      have hl : l < 32 := by
        by_cases h : l < 32
        · exact h
        · rw [bitOf_ge _ _ (by omega)] at hb; exact absurd hb (by simp)
      have inj : ∀ {x y : U32}, x.setWidth 64 = y.setWidth 64 → x = y := fun {x y} h => by
        apply BitVec.eq_of_toNat_eq
        have := congrArg BitVec.toNat h
        have hx := x.isLt
        have hy := y.isLt
        simp only [BitVec.toNat_setWidth] at this
        omega
      have hv : ∀ j, t.g.rawV j l
          = (regWrite (.v n) wide (s.active c) sl f (.on s.nextId) (beganGroup s i c ops s.g)).rawV j l := fun j => by
        have h := hR (.v j) l
        rw [if_neg hm] at h
        exact inj h
      have hG' := freshDue_writeV hG n.val (s.active c) (fun l => (f l).setWidth 32)
      constructor
      · rw [hv]
        cases wide with
        | false =>
          simp only [regWrite, Bool.false_eq_true, if_false]
          rw [rawV_writeV hG _ _ _ _ _ hl, if_pos ⟨rfl, hb⟩]
        | true =>
          simp only [regWrite, if_true]
          rw [rawV_writeV hG' _ _ _ _ _ hl, if_neg (by omega), rawV_writeV hG _ _ _ _ _ hl, if_pos ⟨rfl, hb⟩]
      · rintro rfl
        rw [hv]
        simp only [regWrite, if_true]
        rw [rawV_writeV hG' _ _ _ _ _ hl, if_pos ⟨rfl, hb⟩]
  · intro k l hl htouch
    rw [hR k l]
    split
    · rfl
    · rename_i hm
      rw [rawKey_regWrite _ _ _ _ _ _ _ hm k l hl htouch, beganGroup_rawKey]

/-! ## The end of a run -/

/-- Lanes that act without a fault are all done. -/
theorem runLanes_quiet (f : Nat → State → State × LaneFault) (F : Nat → State → State)
    (ls : List Nat) (s : State) (done : LaneMask) (hf : ∀ l ∈ ls, ∀ t, f l t = (F l t, none)) :
    State.runLanes f ls s done [] = (ls.foldl (fun t l => F l t) s, ls.foldl (fun m l => m ||| laneBit l) done, []) := by
  induction ls generalizing s done with
  | nil => rfl
  | cons l ls ih =>
    simp only [State.runLanes, hf l (List.mem_cons_self ..), List.foldl_cons]
    exact ih _ _ (fun k hk => hf k (List.mem_cons_of_mem _ hk))

/-- A run without a fault marks its lanes done and changes nothing else. -/
theorem finishRun_quiet (s : State) (gid id : Nat) (i : Instr) (done : LaneMask) :
    s.finishRun gid id i done [] = s.modGrp gid (fun g => g.modPend id (fun p =>
      { p with done := p.done ||| done, kind := .result, recKey := 0 })) := by
  have h : done ||| maskOf [] = done := by simp [maskOf]
  simp [State.finishRun, State.confined, worst, h, State.returnLanes]

/-- An instruction that acted once and met no fault: its lanes are done. -/
theorem finishOnce_quiet (s : State) (gid id : Nat) (i : Instr) (m : LaneMask) :
    s.finishOnce gid id i m none = s.modGrp gid (fun g => g.modPend id (fun p =>
      { p with done := p.done ||| m, kind := .result, recKey := 0 })) :=
  finishRun_quiet s gid id i m

end Sys2Proof.Machine
end

