-- ==== Sys2Proof/Laws/PerInstr.lean ====
section
/-! SUPPORT. What holds of every instruction as syntax, one lemma per constructor: a well-formed word names a flag that there
is, or none (R51). -/
namespace Sys2Proof.Laws.SetField
open Sys2Proof Sys2Proof.Machine
set_option Elab.async false
set_option linter.unusedSimpArgs false

/-- The set field of a well-formed word is 0 to 11, or 15 for none. -/
def Statement (i : Instr) : Prop := wellFormed i = true → ∀ c, i.ctl? = some c → c.setOk = true

/-- What carries no control fields. -/
theorem of_none {i : Instr} (h : i.ctl? = none) : Statement i := fun _ c hc => by rw [h] at hc; cases hc
/-- A word whose shape asks for a set field that is allowed. -/
theorem of_shape {i : Instr} {c : Ctl} (h : i.ctl? = some c) (hw : wellFormed i = true → c.setOk = true) : Statement i :=
  fun w c' hc => by rw [h] at hc; cases hc; exact hw w
theorem named {c : Ctl} (h : c.setNamed = true) : c.setOk = true := by simp [Ctl.setOk]; simp [Ctl.setNamed] at h; exact .inl h
theorem addi (c : Ctl) (d a : Reg) (imm : BitVec 12) : Statement (.addi c d a imm) := of_shape rfl (by simp_all [wellFormed, wfBin, wfUn, wfF1, wfF2, Ctl.u0, Ctl.u1, named])
theorem addpchi (c : Ctl) (d : Reg) (imm : BitVec 20) : Statement (.addpchi c d imm) := of_shape rfl (by simp_all [wellFormed, wfBin, wfUn, wfF1, wfF2, Ctl.u0, Ctl.u1, named])
theorem and (c : Ctl) (w : Width) (d a b : Reg) : Statement (.and c w d a b) := of_shape rfl (by simp_all [wellFormed, wfBin, wfUn, wfF1, wfF2, Ctl.u0, Ctl.u1, named])
theorem andn (c : Ctl) (w : Width) (d a b : Reg) : Statement (.andn c w d a b) := of_shape rfl (by simp_all [wellFormed, wfBin, wfUn, wfF1, wfF2, Ctl.u0, Ctl.u1, named])
theorem atom (c : Ctl) (sp : Space) (z : Size) (op : AtomOp) (o : Ord) (sc : Scope) (d a b : Reg) : Statement (.atom c sp z op o sc d a b) := of_shape rfl (by simp_all [wellFormed, wfBin, wfUn, wfF1, wfF2, Ctl.u0, Ctl.u1, named])
theorem bcopy (c : Ctl) (srcS dstS : Bool) (d a b : SR) : Statement (.bcopy c srcS dstS d a b) := of_shape rfl (by simp_all [wellFormed, wfBin, wfUn, wfF1, wfF2, Ctl.u0, Ctl.u1, named])
theorem bfi (c : Ctl) (d a b x : Reg) : Statement (.bfi c d a b x) := of_shape rfl (by simp_all [wellFormed, wfBin, wfUn, wfF1, wfF2, Ctl.u0, Ctl.u1, named])
theorem bfx (c : Ctl) (d a b : Reg) : Statement (.bfx c d a b) := of_shape rfl (by simp_all [wellFormed, wfBin, wfUn, wfF1, wfF2, Ctl.u0, Ctl.u1, named])
theorem bperm (c : Ctl) (d a b x : Reg) : Statement (.bperm c d a b x) := of_shape rfl (by simp_all [wellFormed, wfBin, wfUn, wfF1, wfF2, Ctl.u0, Ctl.u1, named])
theorem br (c : Ctl) (off : BitVec 24) : Statement (.br c off) := of_shape rfl (by simp_all [wellFormed, wfBin, wfUn, wfF1, wfF2, Ctl.u0, Ctl.u1, named])
theorem brc (c : Ctl) (m : BrcMode) (neg : Bool) (n : PR) (off : BitVec 24) : Statement (.brc c m neg n off) := of_shape rfl (by simp_all [wellFormed, wfBin, wfUn, wfF1, wfF2, Ctl.u0, Ctl.u1, named])
theorem call (c : Ctl) (l : VR) (off : BitVec 24) : Statement (.call c l off) := of_shape rfl (by simp_all [wellFormed, wfBin, wfUn, wfF1, wfF2, Ctl.u0, Ctl.u1, named])
theorem calli (c : Ctl) (l : VR) (a : Reg) : Statement (.calli c l a) := of_shape rfl (by simp_all [wellFormed, wfBin, wfUn, wfF1, wfF2, Ctl.u0, Ctl.u1, named])
theorem brev (c : Ctl) (w : Width) (d a : Reg) : Statement (.brev c w d a) := of_shape rfl (by simp_all [wellFormed, wfBin, wfUn, wfF1, wfF2, Ctl.u0, Ctl.u1, named])
theorem clz (c : Ctl) (w : Width) (d a : Reg) : Statement (.clz c w d a) := of_shape rfl (by simp_all [wellFormed, wfBin, wfUn, wfF1, wfF2, Ctl.u0, Ctl.u1, named])
theorem ctz (c : Ctl) (w : Width) (d a : Reg) : Statement (.ctz c w d a) := of_shape rfl (by simp_all [wellFormed, wfBin, wfUn, wfF1, wfF2, Ctl.u0, Ctl.u1, named])
theorem brk (c : Ctl) (imm : BitVec 20) : Statement (.brk c imm) := of_shape rfl (by simp_all [wellFormed, wfBin, wfUn, wfF1, wfF2, Ctl.u0, Ctl.u1, named])
theorem bseal (c : Ctl) (a b : SR) : Statement (.bseal c a b) := of_shape rfl (by simp_all [wellFormed, wfBin, wfUn, wfF1, wfF2, Ctl.u0, Ctl.u1, named])
theorem bwait (c : Ctl) (a : SR) : Statement (.bwait c a) := of_shape rfl (by simp_all [wellFormed, wfBin, wfUn, wfF1, wfF2, Ctl.u0, Ctl.u1, named])
theorem bwaitRelease (gid pend : Nat) : Statement (.bwaitRelease gid pend) := of_none rfl
theorem cflush (c : Ctl) (inv : Bool) (sc : Scope) (a : Reg) (off : BitVec 11) : Statement (.cflush c inv sc a off) := of_shape rfl (by simp_all [wellFormed, wfBin, wfUn, wfF1, wfF2, Ctl.u0, Ctl.u1, named])
theorem exit (c : Ctl) : Statement (.exit c) := of_shape rfl (by simp_all [wellFormed, wfBin, wfUn, wfF1, wfF2, Ctl.u0, Ctl.u1, named])
theorem fmin (c : Ctl) (d a b : Reg) : Statement (.fmin c d a b) := of_shape rfl (by simp_all [wellFormed, wfBin, wfUn, wfF1, wfF2, Ctl.u0, Ctl.u1, named])
theorem fmax (c : Ctl) (d a b : Reg) : Statement (.fmax c d a b) := of_shape rfl (by simp_all [wellFormed, wfBin, wfUn, wfF1, wfF2, Ctl.u0, Ctl.u1, named])
theorem fabs (c : Ctl) (d a : Reg) : Statement (.fabs c d a) := of_shape rfl (by simp_all [wellFormed, wfBin, wfUn, wfF1, wfF2, Ctl.u0, Ctl.u1, named])
theorem fneg (c : Ctl) (d a : Reg) : Statement (.fneg c d a) := of_shape rfl (by simp_all [wellFormed, wfBin, wfUn, wfF1, wfF2, Ctl.u0, Ctl.u1, named])
theorem fadd (c : Ctl) (r : Rnd) (d a b : Reg) : Statement (.fadd c r d a b) := of_shape rfl (by simp_all [wellFormed, wfBin, wfUn, wfF1, wfF2, Ctl.u0, Ctl.u1, named])
theorem fsub (c : Ctl) (r : Rnd) (d a b : Reg) : Statement (.fsub c r d a b) := of_shape rfl (by simp_all [wellFormed, wfBin, wfUn, wfF1, wfF2, Ctl.u0, Ctl.u1, named])
theorem fmul (c : Ctl) (r : Rnd) (d a b : Reg) : Statement (.fmul c r d a b) := of_shape rfl (by simp_all [wellFormed, wfBin, wfUn, wfF1, wfF2, Ctl.u0, Ctl.u1, named])
theorem ffma (c : Ctl) (r : Rnd) (d a b : Reg) : Statement (.ffma c r d a b) := of_shape rfl (by simp_all [wellFormed, wfBin, wfUn, wfF1, wfF2, Ctl.u0, Ctl.u1, named])
theorem fdiv (c : Ctl) (r : Rnd) (d a b : Reg) : Statement (.fdiv c r d a b) := of_shape rfl (by simp_all [wellFormed, wfBin, wfUn, wfF1, wfF2, Ctl.u0, Ctl.u1, named])
theorem fsqrt (c : Ctl) (r : Rnd) (d a : Reg) : Statement (.fsqrt c r d a) := of_shape rfl (by simp_all [wellFormed, wfBin, wfUn, wfF1, wfF2, Ctl.u0, Ctl.u1, named])
theorem frcp (c : Ctl) (r : Rnd) (d a : Reg) : Statement (.frcp c r d a) := of_shape rfl (by simp_all [wellFormed, wfBin, wfUn, wfF1, wfF2, Ctl.u0, Ctl.u1, named])
theorem frsq (c : Ctl) (r : Rnd) (d a : Reg) : Statement (.frsq c r d a) := of_shape rfl (by simp_all [wellFormed, wfBin, wfUn, wfF1, wfF2, Ctl.u0, Ctl.u1, named])
theorem fexp2 (c : Ctl) (r : Rnd) (d a : Reg) : Statement (.fexp2 c r d a) := of_shape rfl (by simp_all [wellFormed, wfBin, wfUn, wfF1, wfF2, Ctl.u0, Ctl.u1, named])
theorem flog2 (c : Ctl) (r : Rnd) (d a : Reg) : Statement (.flog2 c r d a) := of_shape rfl (by simp_all [wellFormed, wfBin, wfUn, wfF1, wfF2, Ctl.u0, Ctl.u1, named])
theorem fsin (c : Ctl) (r : Rnd) (d a : Reg) : Statement (.fsin c r d a) := of_shape rfl (by simp_all [wellFormed, wfBin, wfUn, wfF1, wfF2, Ctl.u0, Ctl.u1, named])
theorem fcos (c : Ctl) (r : Rnd) (d a : Reg) : Statement (.fcos c r d a) := of_shape rfl (by simp_all [wellFormed, wfBin, wfUn, wfF1, wfF2, Ctl.u0, Ctl.u1, named])
theorem fclass (c : Ctl) (d a : Reg) : Statement (.fclass c d a) := of_shape rfl (by simp_all [wellFormed, wfBin, wfUn, wfF1, wfF2, Ctl.u0, Ctl.u1, named])
theorem frnd (c : Ctl) (r : Rnd) (d a : Reg) : Statement (.frnd c r d a) := of_shape rfl (by simp_all [wellFormed, wfBin, wfUn, wfF1, wfF2, Ctl.u0, Ctl.u1, named])
theorem fcmp (c : Ctl) (cond : FCond) (pd : PR) (a b : Reg) : Statement (.fcmp c cond pd a b) := of_shape rfl (by simp_all [wellFormed, wfBin, wfUn, wfF1, wfF2, Ctl.u0, Ctl.u1, named])
theorem fcvt (c : Ctl) (fout fin : Fmt) (kout kin : BitVec 2) (r : Rnd) (d a : Reg) : Statement (.fcvt c fout fin kout kin r d a) := of_shape rfl (by simp_all [wellFormed, wfBin, wfUn, wfF1, wfF2, Ctl.u0, Ctl.u1, named])
theorem icvtf (c : Ctl) (uns : Bool) (r : Rnd) (d a : Reg) : Statement (.icvtf c uns r d a) := of_shape rfl (by simp_all [wellFormed, wfBin, wfUn, wfF1, wfF2, Ctl.u0, Ctl.u1, named])
theorem fcvti (c : Ctl) (uns : Bool) (r : Rnd) (d a : Reg) : Statement (.fcvti c uns r d a) := of_shape rfl (by simp_all [wellFormed, wfBin, wfUn, wfF1, wfF2, Ctl.u0, Ctl.u1, named])
theorem fdot4 (c : Ctl) (f : DotFmt) (r : Rnd) (d a b : Reg) : Statement (.fdot4 c f r d a b) := of_shape rfl (by simp_all [wellFormed, wfBin, wfUn, wfF1, wfF2, Ctl.u0, Ctl.u1, named])
theorem fence (c : Ctl) (o : Ord) (sc : Scope) : Statement (.fence c o sc) := of_shape rfl (by simp_all [wellFormed, wfBin, wfUn, wfF1, wfF2, Ctl.u0, Ctl.u1, named])
theorem iadd (c : Ctl) (w : Width) (d a b : Reg) : Statement (.iadd c w d a b) := of_shape rfl (by simp_all [wellFormed, wfBin, wfUn, wfF1, wfF2, Ctl.u0, Ctl.u1, named])
theorem iaddc (c : Ctl) (w : Width) (d a b : Reg) (n : PR) : Statement (.iaddc c w d a b n) := of_shape rfl (by simp_all [wellFormed, wfBin, wfUn, wfF1, wfF2, Ctl.u0, Ctl.u1, named])
theorem isub (c : Ctl) (w : Width) (d a b : Reg) : Statement (.isub c w d a b) := of_shape rfl (by simp_all [wellFormed, wfBin, wfUn, wfF1, wfF2, Ctl.u0, Ctl.u1, named])
theorem isubb (c : Ctl) (w : Width) (d a b : Reg) (n : PR) : Statement (.isubb c w d a b n) := of_shape rfl (by simp_all [wellFormed, wfBin, wfUn, wfF1, wfF2, Ctl.u0, Ctl.u1, named])
theorem imul (c : Ctl) (w : Width) (d a b : Reg) : Statement (.imul c w d a b) := of_shape rfl (by simp_all [wellFormed, wfBin, wfUn, wfF1, wfF2, Ctl.u0, Ctl.u1, named])
theorem imulhi (c : Ctl) (w : Width) (uns : Bool) (d a b : Reg) : Statement (.imulhi c w uns d a b) := of_shape rfl (by simp_all [wellFormed, wfBin, wfUn, wfF1, wfF2, Ctl.u0, Ctl.u1, named])
theorem imad (c : Ctl) (d a b x : Reg) : Statement (.imad c d a b x) := of_shape rfl (by simp_all [wellFormed, wfBin, wfUn, wfF1, wfF2, Ctl.u0, Ctl.u1, named])
theorem imin (c : Ctl) (w : Width) (uns : Bool) (d a b : Reg) : Statement (.imin c w uns d a b) := of_shape rfl (by simp_all [wellFormed, wfBin, wfUn, wfF1, wfF2, Ctl.u0, Ctl.u1, named])
theorem imax (c : Ctl) (w : Width) (uns : Bool) (d a b : Reg) : Statement (.imax c w uns d a b) := of_shape rfl (by simp_all [wellFormed, wfBin, wfUn, wfF1, wfF2, Ctl.u0, Ctl.u1, named])
theorem iabs (c : Ctl) (w : Width) (d a : Reg) : Statement (.iabs c w d a) := of_shape rfl (by simp_all [wellFormed, wfBin, wfUn, wfF1, wfF2, Ctl.u0, Ctl.u1, named])
theorem ineg (c : Ctl) (w : Width) (d a : Reg) : Statement (.ineg c w d a) := of_shape rfl (by simp_all [wellFormed, wfBin, wfUn, wfF1, wfF2, Ctl.u0, Ctl.u1, named])
theorem icinv (c : Ctl) (r : InvRange) : Statement (.icinv c r) := of_shape rfl (by simp_all [wellFormed, wfBin, wfUn, wfF1, wfF2, Ctl.u0, Ctl.u1, named])
theorem icmp (c : Ctl) (w : Width) (uns : Bool) (cond : ICond) (pd : PR) (a b : Reg) : Statement (.icmp c w uns cond pd a b) := of_shape rfl (by simp_all [wellFormed, wfBin, wfUn, wfF1, wfF2, Ctl.u0, Ctl.u1, named])
theorem isel (c : Ctl) (w : Width) (inv : Bool) (n : PR) (d a b : Reg) : Statement (.isel c w inv n d a b) := of_shape rfl (by simp_all [wellFormed, wfBin, wfUn, wfF1, wfF2, Ctl.u0, Ctl.u1, named])
theorem idiv (c : Ctl) (w : Width) (uns : Bool) (d a b : Reg) : Statement (.idiv c w uns d a b) := of_shape rfl (by simp_all [wellFormed, wfBin, wfUn, wfF1, wfF2, Ctl.u0, Ctl.u1, named])
theorem irem (c : Ctl) (w : Width) (uns : Bool) (d a b : Reg) : Statement (.irem c w uns d a b) := of_shape rfl (by simp_all [wellFormed, wfBin, wfUn, wfF1, wfF2, Ctl.u0, Ctl.u1, named])
theorem ld (c : Ctl) (sp : Space) (z : Size) (o : Ord) (sc : Scope) (d a : Reg) (off : BitVec 11) : Statement (.ld c sp z o sc d a off) := of_shape rfl (by simp_all [wellFormed, wfBin, wfUn, wfF1, wfF2, Ctl.u0, Ctl.u1, named])
theorem mchk (c : Ctl) (d : SR) : Statement (.mchk c d) := of_shape rfl (by simp_all [wellFormed, wfBin, wfUn, wfF1, wfF2, Ctl.u0, Ctl.u1, named])
theorem mfsr (c : Ctl) (d : Reg) (r : SReg) : Statement (.mfsr c d r) := of_shape rfl (by simp_all [wellFormed, wfBin, wfUn, wfF1, wfF2, Ctl.u0, Ctl.u1, named])
theorem mtsr (c : Ctl) (a : Reg) : Statement (.mtsr c a) := of_shape rfl (by simp_all [wellFormed, wfBin, wfUn, wfF1, wfF2, Ctl.u0, Ctl.u1, named])
theorem mlda (c : Ctl) (t : Fin 16) (a : SR) : Statement (.mlda c t a) := of_shape rfl (by simp_all [wellFormed, wfBin, wfUn, wfF1, wfF2, Ctl.u0, Ctl.u1, named])
theorem msta (c : Ctl) (t : Fin 16) (a : SR) : Statement (.msta c t a) := of_shape rfl (by simp_all [wellFormed, wfBin, wfUn, wfF1, wfF2, Ctl.u0, Ctl.u1, named])
theorem mzero (c : Ctl) (t : Fin 16) : Statement (.mzero c t) := of_shape rfl (by simp_all [wellFormed, wfBin, wfUn, wfF1, wfF2, Ctl.u0, Ctl.u1, named])
theorem mma (c : Ctl) (f : MmaFmt) (t : Fin 16) (k : Fin 8) (a b : SR) (na nb : BitVec 2) : Statement (.mma c f t k a b na nb) := of_shape rfl (by simp_all [wellFormed, wfBin, wfUn, wfF1, wfF2, Ctl.u0, Ctl.u1, named])
theorem mov (c : Ctl) (w : Width) (d a : Reg) : Statement (.mov c w d a) := of_shape rfl (by simp_all [wellFormed, wfBin, wfUn, wfF1, wfF2, Ctl.u0, Ctl.u1, named])
theorem movi (c : Ctl) (d : Reg) (imm : BitVec 20) : Statement (.movi c d imm) := of_shape rfl (by simp_all [wellFormed, wfBin, wfUn, wfF1, wfF2, Ctl.u0, Ctl.u1, named])
theorem movhi (c : Ctl) (d : Reg) (imm : BitVec 20) : Statement (.movhi c d imm) := of_shape rfl (by simp_all [wellFormed, wfBin, wfUn, wfF1, wfF2, Ctl.u0, Ctl.u1, named])
theorem movri (c : Ctl) (d : VR) (i : Reg) : Statement (.movri c d i) := of_shape rfl (by simp_all [wellFormed, wfBin, wfUn, wfF1, wfF2, Ctl.u0, Ctl.u1, named])
theorem movwi (c : Ctl) (i : Reg) (b : VR) : Statement (.movwi c i b) := of_shape rfl (by simp_all [wellFormed, wfBin, wfUn, wfF1, wfF2, Ctl.u0, Ctl.u1, named])
theorem nop (c : Ctl) : Statement (.nop c) := of_shape rfl (by simp_all [wellFormed, wfBin, wfUn, wfF1, wfF2, Ctl.u0, Ctl.u1, named])
theorem or (c : Ctl) (w : Width) (d a b : Reg) : Statement (.or c w d a b) := of_shape rfl (by simp_all [wellFormed, wfBin, wfUn, wfF1, wfF2, Ctl.u0, Ctl.u1, named])
theorem not (c : Ctl) (w : Width) (d a : Reg) : Statement (.not c w d a) := of_shape rfl (by simp_all [wellFormed, wfBin, wfUn, wfF1, wfF2, Ctl.u0, Ctl.u1, named])
theorem popc (c : Ctl) (w : Width) (d a : Reg) : Statement (.popc c w d a) := of_shape rfl (by simp_all [wellFormed, wfBin, wfUn, wfF1, wfF2, Ctl.u0, Ctl.u1, named])
theorem rotl (c : Ctl) (w : Width) (d a b : Reg) : Statement (.rotl c w d a b) := of_shape rfl (by simp_all [wellFormed, wfBin, wfUn, wfF1, wfF2, Ctl.u0, Ctl.u1, named])
theorem pset (c : Ctl) (f : PFn) (pd pa pb : PR) : Statement (.pset c f pd pa pb) := of_shape rfl (by simp_all [wellFormed, wfBin, wfUn, wfF1, wfF2, Ctl.u0, Ctl.u1, named])
theorem pmov (c : Ctl) (d : VR) : Statement (.pmov c d) := of_shape rfl (by simp_all [wellFormed, wfBin, wfUn, wfF1, wfF2, Ctl.u0, Ctl.u1, named])
theorem pmovPut (c : Ctl) (a : Reg) (mask : Byte) : Statement (.pmovPut c a mask) := of_shape rfl (by simp_all [wellFormed, wfBin, wfUn, wfF1, wfF2, Ctl.u0, Ctl.u1, named])
theorem pmv (c : Ctl) (cont : Bool) (t x y : SR) : Statement (.pmv c cont t x y) := of_shape rfl (by simp_all [wellFormed, wfBin, wfUn, wfF1, wfF2, Ctl.u0, Ctl.u1, named])
theorem pstat (c : Ctl) (d : SR) (w : BitVec 2) : Statement (.pstat c d w) := of_shape rfl (by simp_all [wellFormed, wfBin, wfUn, wfF1, wfF2, Ctl.u0, Ctl.u1, named])
theorem pref (c : Ctl) (l2 : Bool) (a : Reg) (off : BitVec 11) : Statement (.pref c l2 a off) := of_shape rfl (by simp_all [wellFormed, wfBin, wfUn, wfF1, wfF2, Ctl.u0, Ctl.u1, named])
theorem red (c : Ctl) (sp : Space) (z : Size) (op : AtomOp) (o : Ord) (sc : Scope) (a b : Reg) : Statement (.red c sp z op o sc a b) := of_shape rfl (by simp_all [wellFormed, wfBin, wfUn, wfF1, wfF2, Ctl.u0, Ctl.u1, named])
theorem ret (c : Ctl) (a : Reg) : Statement (.ret c a) := of_shape rfl (by simp_all [wellFormed, wfBin, wfUn, wfF1, wfF2, Ctl.u0, Ctl.u1, named])
theorem rlaunch (c : Ctl) (d a : SR) : Statement (.rlaunch c d a) := of_shape rfl (by simp_all [wellFormed, wfBin, wfUn, wfF1, wfF2, Ctl.u0, Ctl.u1, named])
theorem role (c : Ctl) (n : BitVec 2) : Statement (.role c n) := of_shape rfl (by simp_all [wellFormed, wfBin, wfUn, wfF1, wfF2, Ctl.u0, Ctl.u1, named])
theorem roleTakesEffect (gid : Nat) : Statement (.roleTakesEffect gid) := of_none rfl
theorem rstop (c : Ctl) (d a : SR) : Statement (.rstop c d a) := of_shape rfl (by simp_all [wellFormed, wfBin, wfUn, wfF1, wfF2, Ctl.u0, Ctl.u1, named])
theorem rstopResume (c : Ctl) (d a : SR) : Statement (.rstopResume c d a) := of_shape rfl (by simp_all [wellFormed, wfBin, wfUn, wfF1, wfF2, Ctl.u0, Ctl.u1, named])
theorem rstat (c : Ctl) (d a : SR) (w : BitVec 3) : Statement (.rstat c d a w) := of_shape rfl (by simp_all [wellFormed, wfBin, wfUn, wfF1, wfF2, Ctl.u0, Ctl.u1, named])
theorem shl (c : Ctl) (w : Width) (d a b : Reg) : Statement (.shl c w d a b) := of_shape rfl (by simp_all [wellFormed, wfBin, wfUn, wfF1, wfF2, Ctl.u0, Ctl.u1, named])
theorem shr (c : Ctl) (w : Width) (d a b : Reg) : Statement (.shr c w d a b) := of_shape rfl (by simp_all [wellFormed, wfBin, wfUn, wfF1, wfF2, Ctl.u0, Ctl.u1, named])
theorem sar (c : Ctl) (w : Width) (d a b : Reg) : Statement (.sar c w d a b) := of_shape rfl (by simp_all [wellFormed, wfBin, wfUn, wfF1, wfF2, Ctl.u0, Ctl.u1, named])
theorem shfl (c : Ctl) (m : ShflMode) (d a : VR) (b : Reg) : Statement (.shfl c m d a b) := of_shape rfl (by simp_all [wellFormed, wfBin, wfUn, wfF1, wfF2, Ctl.u0, Ctl.u1, named])
theorem sign (c : Ctl) (k : Fin 8) (a : SR) : Statement (.sign c k a) := of_shape rfl (by simp_all [wellFormed, wfBin, wfUn, wfF1, wfF2, Ctl.u0, Ctl.u1, named])
theorem spawn (c : Ctl) (d a : SR) : Statement (.spawn c d a) := of_shape rfl (by simp_all [wellFormed, wfBin, wfUn, wfF1, wfF2, Ctl.u0, Ctl.u1, named])
theorem sprobe (c : Ctl) (d : VR) (f : PR) (a : Reg) (b : SR) : Statement (.sprobe c d f a b) := of_shape rfl (by simp_all [wellFormed, wfBin, wfUn, wfF1, wfF2, Ctl.u0, Ctl.u1, named])
theorem st (c : Ctl) (sp : Space) (z : Size) (o : Ord) (sc : Scope) (d a : Reg) (off : BitVec 11) : Statement (.st c sp z o sc d a off) := of_shape rfl (by simp_all [wellFormed, wfBin, wfUn, wfF1, wfF2, Ctl.u0, Ctl.u1, named])
theorem swf (c : Ctl) (d : VR) (a : Reg) : Statement (.swf c d a) := of_shape rfl (by simp_all [wellFormed, wfBin, wfUn, wfF1, wfF2, Ctl.u0, Ctl.u1, named])
theorem swc (c : Ctl) (d a : VR) (b : SR) : Statement (.swc c d a b) := of_shape rfl (by simp_all [wellFormed, wfBin, wfUn, wfF1, wfF2, Ctl.u0, Ctl.u1, named])
theorem tlbinv (c : Ctl) (r : InvRange) : Statement (.tlbinv c r) := of_shape rfl (by simp_all [wellFormed, wfBin, wfUn, wfF1, wfF2, Ctl.u0, Ctl.u1, named])
theorem trap (c : Ctl) (imm : BitVec 20) : Statement (.trap c imm) := of_shape rfl (by simp_all [wellFormed, wfBin, wfUn, wfF1, wfF2, Ctl.u0, Ctl.u1, named])
theorem tryT (c : Ctl) (d a : VR) (b : SR) : Statement (.tryT c d a b) := of_shape rfl (by simp_all [wellFormed, wfBin, wfUn, wfF1, wfF2, Ctl.u0, Ctl.u1, named])
theorem tret (c : Ctl) (a : Reg) : Statement (.tret c a) := of_shape rfl (by simp_all [wellFormed, wfBin, wfUn, wfF1, wfF2, Ctl.u0, Ctl.u1, named])
theorem allowanceSpent (gid : Nat) : Statement (.allowanceSpent gid) := of_none rfl
theorem vmxp (c : Ctl) (d : VR) (a b x : Reg) : Statement (.vmxp c d a b x) := of_shape rfl (by simp_all [wellFormed, wfBin, wfUn, wfF1, wfF2, Ctl.u0, Ctl.u1, named])
theorem vote (c : Ctl) (op : VoteOp) (neg : Bool) (n : PR) : Statement (.vote c op neg n) := of_shape rfl (by simp_all [wellFormed, wfBin, wfUn, wfF1, wfF2, Ctl.u0, Ctl.u1, named])
theorem vred (c : Ctl) (op : VRedOp) (d : Reg) (a : VR) : Statement (.vred c op d a) := of_shape rfl (by simp_all [wellFormed, wfBin, wfUn, wfF1, wfF2, Ctl.u0, Ctl.u1, named])
theorem waitstamp (c : Ctl) (o : Ord) (sc : Scope) (d a : Reg) (b : SR) : Statement (.waitstamp c o sc d a b) := of_shape rfl (by simp_all [wellFormed, wfBin, wfUn, wfF1, wfF2, Ctl.u0, Ctl.u1, named])
theorem waitstampReturn (gid pend : Nat) : Statement (.waitstampReturn gid pend) := of_none rfl
theorem winit (c : Ctl) (o : Ord) (a : SR) (b : Option SR) : Statement (.winit c o a b) := of_shape rfl (by simp_all [wellFormed, wfBin, wfUn, wfF1, wfF2, Ctl.u0, Ctl.u1, named])
theorem warrive (c : Ctl) (o : Ord) (a : SR) (b : Option SR) : Statement (.warrive c o a b) := of_shape rfl (by simp_all [wellFormed, wfBin, wfUn, wfF1, wfF2, Ctl.u0, Ctl.u1, named])
theorem wsync (c : Ctl) (o : Ord) (d : Reg) (pe : PR) (a : SR) (b : Option SR) : Statement (.wsync c o d pe a b) := of_shape rfl (by simp_all [wellFormed, wfBin, wfUn, wfF1, wfF2, Ctl.u0, Ctl.u1, named])
theorem wwait (c : Ctl) (o : Ord) (d : Reg) (pe : PR) (a : SR) (b : Option SR) : Statement (.wwait c o d pe a b) := of_shape rfl (by simp_all [wellFormed, wfBin, wfUn, wfF1, wfF2, Ctl.u0, Ctl.u1, named])
theorem wwaitseq (c : Ctl) (o : Ord) (d : Reg) (pe : PR) (a : SR) (b : Option SR) : Statement (.wwaitseq c o d pe a b) := of_shape rfl (by simp_all [wellFormed, wfBin, wfUn, wfF1, wfF2, Ctl.u0, Ctl.u1, named])
theorem weirWaitReturn (gid pend : Nat) : Statement (.weirWaitReturn gid pend) := of_none rfl
theorem wtest (c : Ctl) (o : Ord) (d : Reg) (pt : PR) (a : SR) (b : Option SR) : Statement (.wtest c o d pt a b) := of_shape rfl (by simp_all [wellFormed, wfBin, wfUn, wfF1, wfF2, Ctl.u0, Ctl.u1, named])
theorem xor (c : Ctl) (w : Width) (d a b : Reg) : Statement (.xor c w d a b) := of_shape rfl (by simp_all [wellFormed, wfBin, wfUn, wfF1, wfF2, Ctl.u0, Ctl.u1, named])
theorem yield (c : Ctl) : Statement (.yield c) := of_shape rfl (by simp_all [wellFormed, wfBin, wfUn, wfF1, wfF2, Ctl.u0, Ctl.u1, named])
theorem holdExpiry (gid : Nat) (j : Word) : Statement (.holdExpiry gid j) := of_none rfl
theorem instructionComplete (gid pend : Nat) : Statement (.instructionComplete gid pend) := of_none rfl
theorem groupRetire (gid : Nat) : Statement (.groupRetire gid) := of_none rfl
theorem regionComplete (rid : Nat) : Statement (.regionComplete rid) := of_none rfl
theorem startsAfterCheck (rid : Nat) : Statement (.startsAfterCheck rid) := of_none rfl
theorem workgroupPlace (rid wgid : Nat) (core : Nat) : Statement (.workgroupPlace rid wgid core) := of_none rfl
theorem distributorReserve (ctx rid wgid : Nat) : Statement (.distributorReserve ctx rid wgid) := of_none rfl
theorem starvationFirst (gid : Nat) (slotB : Bool) : Statement (.starvationFirst gid slotB) := of_none rfl
theorem coreTimeDebit (wid : Nat) : Statement (.coreTimeDebit wid) := of_none rfl
theorem switchRequest (core rid wgid : Nat) : Statement (.switchRequest core rid wgid) := of_none rfl
theorem bankSwap (core : Nat) : Statement (.bankSwap core) := of_none rfl
theorem spillDone (core : Nat) : Statement (.spillDone core) := of_none rfl
theorem clusterFusionChange (cluster : Nat) (fused : Bool) : Statement (.clusterFusionChange cluster fused) := of_none rfl
theorem faultRecordPost (ctx : Nat) : Statement (.faultRecordPost ctx) := of_none rfl
theorem retry (ctx key : Nat) : Statement (.retry ctx key) := of_none rfl
theorem skip (ctx key : Nat) : Statement (.skip ctx key) := of_none rfl
theorem abandonWg (ctx key : Nat) : Statement (.abandonWg ctx key) := of_none rfl
theorem abandonRegion (ctx key : Nat) : Statement (.abandonRegion ctx key) := of_none rfl
theorem mmaChunk (gid : Nat) : Statement (.mmaChunk gid) := of_none rfl
theorem tileChunk (gid : Nat) : Statement (.tileChunk gid) := of_none rfl
theorem pmvChunk (gid : Nat) : Statement (.pmvChunk gid) := of_none rfl
theorem copyStart (wid : Nat) : Statement (.copyStart wid) := of_none rfl
theorem copyTransfer (wid : Nat) : Statement (.copyTransfer wid) := of_none rfl
theorem batchStampWrite (wid : Nat) : Statement (.batchStampWrite wid) := of_none rfl
theorem rillDequeue (stack : Nat) : Statement (.rillDequeue stack) := of_none rfl
theorem engineStop (pid : Nat) (held : Bool) : Statement (.engineStop pid held) := of_none rfl
theorem engineResume (pid : Nat) : Statement (.engineResume pid) := of_none rfl
theorem stream (f : Affine) : Statement (.stream f) := of_none rfl
theorem rillDrain (f : Affine) : Statement (.rillDrain f) := of_none rfl
theorem decode (ring : BitVec 22) (src : BitVec 54) (blocks ibase : BitVec 32) : Statement (.decode ring src blocks ibase) := of_none rfl
theorem palette (ring : BitVec 22) (src : BitVec 54) (count : BitVec 32) : Statement (.palette ring src count) := of_none rfl
theorem arrive (n : BitVec 16) (weir : BitVec 22) : Statement (.arrive n weir) := of_none rfl
theorem waitw (p : Bool) (weir : BitVec 22) : Statement (.waitw p weir) := of_none rfl
theorem waits (addr : BitVec 54) (val : Word) : Statement (.waits addr val) := of_none rfl
theorem loop (level : BitVec 2) (target count : BitVec 32) : Statement (.loop level target count) := of_none rfl
theorem jump (target : BitVec 32) : Statement (.jump target) := of_none rfl
theorem stamp (addr : BitVec 54) (val : Word) : Statement (.stamp addr val) := of_none rfl
theorem reduce (fn : RedFn) (fmt : Fmt) (group : Byte) (chunk : BitVec 32) (buf : BitVec 54) (bytes : BitVec 32) (desc : BitVec 54) : Statement (.reduce fn fmt group chunk buf bytes desc) := of_none rfl
theorem rillFence  : Statement (.rillFence) := of_none rfl
theorem rillEnd (a : Bool) (n : BitVec 16) (weir : BitVec 22) : Statement (.rillEnd a n weir) := of_none rfl
theorem rillBadCommand (raw : BitVec 256) : Statement (.rillBadCommand raw) := of_none rfl
theorem rootLaunch (va : Word) : Statement (.rootLaunch va) := of_none rfl
theorem ctxCreate  : Statement (.ctxCreate) := of_none rfl
theorem ctxDestroy  : Statement (.ctxDestroy) := of_none rfl
theorem halt  : Statement (.halt) := of_none rfl
theorem resume  : Statement (.resume) := of_none rfl
theorem discard  : Statement (.discard) := of_none rfl
theorem load  : Statement (.load) := of_none rfl
theorem unload  : Statement (.unload) := of_none rfl
theorem tlbInval  : Statement (.tlbInval) := of_none rfl
theorem domain  : Statement (.domain) := of_none rfl
theorem credit  : Statement (.credit) := of_none rfl
theorem drain  : Statement (.drain) := of_none rfl
theorem drainDone  : Statement (.drainDone) := of_none rfl
theorem fwSlot  : Statement (.fwSlot) := of_none rfl
theorem retire  : Statement (.retire) := of_none rfl
theorem group  : Statement (.group) := of_none rfl
theorem badCommand (code : Byte) : Statement (.badCommand code) := of_none rfl
theorem irqClear (v : Word) : Statement (.irqClear v) := of_none rfl
theorem registerWrite (off : Nat) (v : Word) : Statement (.registerWrite off v) := of_none rfl
theorem flitReceive (link : Nat) (seq : Nat) (flit : List Byte) : Statement (.flitReceive link seq flit) := of_none rfl
theorem peerRequest (src : Nat) (addr : Nat) (write : Option Word) : Statement (.peerRequest src addr write) := of_none rfl
theorem linkFailure (link : Nat) : Statement (.linkFailure link) := of_none rfl
theorem nativeImageReceived (ctx : Nat) (container : List Byte) (original : List Byte) (base : Nat) (own : Bool) : Statement (.nativeImageReceived ctx container original base own) := of_none rfl
theorem hostMemAccess (pa : Nat) (write : Option (List Byte)) : Statement (.hostMemAccess pa write) := of_none rfl
theorem ucieModuleFail (n : Nat) : Statement (.ucieModuleFail n) := of_none rfl
theorem currentCapTrip (die : Nat) : Statement (.currentCapTrip die) := of_none rfl
theorem deviceReset  : Statement (.deviceReset) := of_none rfl
theorem reservedOpcode (w : Word) : Statement (.reservedOpcode w) := of_none rfl
theorem currentCapTripClear (die : Nat) : Statement (.currentCapTripClear die) := of_none rfl
theorem policyStep (ctx rid : Nat) (energy time : Int) (clock : Nat) (retired : Option DevUnit) : Statement (.policyStep ctx rid energy time clock retired) := of_none rfl
theorem coreFailure (core : Nat) (part : Option Nat) : Statement (.coreFailure core part) := of_none rfl
theorem memoryError (pa : Nat) : Statement (.memoryError pa) := of_none rfl

end Sys2Proof.Laws.SetField
end

