-- ==== Sys2Proof/Laws/Turns.lean ====
section
/-! SUPPORT. What a step can be: nothing moves, or a turn is taken; what an issue turn and an engine turn come to. -/
namespace Sys2Proof.Machine

theorem kept_faultWord (s : State) (w : Word) (code : Nat) : Kept s (s.faultWord w code) := kept_takeFault ..

theorem kept_prepare (s : State) (gid : Nat) : Kept s (s.prepare gid) := by
  unfold State.prepare
  split
  · exact kept_enterAll ..
  · exact .refl s

theorem kept_idle (s : State) : Kept s s.idle := .same rfl rfl

theorem kept_runOut (s : State) (gid : Nat) (m : LaneMask) : Kept s (s.runOut gid m) :=
  (kept_foldl _ (fun s l => kept_outcome s gid l 5 _) _ _).trans (kept_afterReturn ..)

theorem kept_fetchFault (s : State) (code : Nat) : Kept s (s.fetchFault code) := by
  unfold State.fetchFault
  split
  · split
    · exact kept_outcomes ..
    · exact kept_faultWord ..
  · exact kept_faultWord ..

/-- The chosen lane is a lane (R17). -/
theorem chosen_lt {s : State} {gid l : Nat} (h : s.chosen gid = some l) : l < 32 := by
  have m := List.mem_of_find?_eq_some h
  obtain ⟨k, _, e⟩ := List.mem_map.1 m
  omega

@[simp] theorem atPort_mem (s : State) (gid l : Nat) (set : LaneMask) (i : Option Instr) (stall : Nat) :
    (s.atPort gid l set i stall).mem = s.mem := rfl
@[simp] theorem atPort_ilane (s : State) (gid l : Nat) (set : LaneMask) (i : Option Instr) (stall : Nat) :
    (s.atPort gid l set i stall).ilane = l := rfl
@[simp] theorem atPort_iset (s : State) (gid l : Nat) (set : LaneMask) (i : Option Instr) (stall : Nat) :
    (s.atPort gid l set i stall).iset = set := rfl
@[simp] theorem atPort_cur (s : State) (gid l : Nat) (set : LaneMask) (i : Option Instr) (stall : Nat) :
    (s.atPort gid l set i stall).cur = gid := rfl
@[simp] theorem atPort_agenda (s : State) (gid l : Nat) (set : LaneMask) (i : Option Instr) (stall : Nat) :
    (s.atPort gid l set i stall).agenda = s.agenda := rfl

theorem kept_atPort {s t : State} (k : Kept s t) (gid : Nat) {l : Nat} (h : l < 32) (set : LaneMask) (i : Option Instr)
    (stall : Nat) : Kept s (t.atPort gid l set i stall) := ⟨fun x => (k.wf x).of_eq rfl, fun _ => h⟩

/-- An outcome is a next state that keeps these, or the meaning of an instruction in a state that keeps them. -/
def Comes (s : State) (o : Host.Outcome State Fault Refusal) : Prop :=
  (∃ t, o = .next t ∧ Kept s t) ∨ ∃ i u, o = exec i u ∧ Kept s u

theorem Comes.trans {s t : State} {o : Host.Outcome State Fault Refusal} (h : Kept s t) (c : Comes t o) : Comes s o := by
  obtain ⟨u, e, k⟩ | ⟨i, u, e, k⟩ := c
  · exact .inl ⟨u, e, h.trans k⟩
  · exact .inr ⟨i, u, e, h.trans k⟩

theorem kept_stall (s : State) (gid : Nat) (pc w : Word) : Kept s (s.stall gid pc w) :=
  ((kept_modGrp ..).trans (kept_idle _))

theorem kept_issueFetch (s : State) (gid : Nat) (pc : Word) : Kept s (s.issueFetch gid pc).1 := by
  have k := (memOnly_fetchWord s (s.grp gid).core (s.cidOf gid) pc.toNat).kept
  unfold State.issueFetch
  dsimp only
  split
  · split
    · exact .refl s
    · exact k
  · exact k

/-- An issue is what the port does, unless a hold of the group ends first. -/
theorem issueAt_comes {s p : State} {go : State → Host.Outcome State Fault Refusal} (h : Comes s (go p)) (gid stall : Nat) :
    Comes s (s.issueAt p gid stall go) := by
  unfold State.issueAt
  split
  · exact h
  · exact .inr ⟨_, _, rfl, .same rfl rfl⟩

theorem issueFrom_comes (s : State) (gid l : Nat) (h : l < 32) (set : LaneMask) (stall : Nat) :
    Comes s (s.issueFrom gid l set stall) := by
  have port := fun {t : State} (k : Kept s t) i => kept_atPort k gid h set i stall
  have k0 := Kept.refl s
  unfold State.issueFrom
  dsimp only
  split
  · refine issueAt_comes ?_ ..
    exact .inr ⟨_, _, rfl, port k0 _⟩
  · split
    · refine issueAt_comes ?_ ..
      refine .inl ⟨_, rfl, (port k0 none).trans ?_⟩
      split
      · exact kept_runOut ..
      · exact kept_fetchFault ..
    · split <;> rename_i e
      · refine .trans ((kept_issueFetch ..).of_fst e) (issueAt_comes ?_ ..)
        exact .inl ⟨_, rfl, (kept_atPort (.refl _) gid h ..).trans (kept_fetchFault ..)⟩
      · refine .trans ((kept_issueFetch ..).of_fst e) ?_
        split
        · refine issueAt_comes ?_ ..
          exact .inr ⟨_, _, rfl, kept_atPort (.refl _) gid h ..⟩
        · split
          · exact .inl ⟨_, rfl, kept_stall ..⟩
          · refine issueAt_comes ?_ ..
            exact .inr ⟨_, _, rfl, kept_atPort (.refl _) gid h ..⟩

theorem issueTurn_comes (s : State) (gid stall : Nat) : Comes s (s.issueTurn gid stall) := by
  unfold State.issueTurn
  split
  · exact .inl ⟨_, rfl, kept_idle s⟩
  · extract_lets t
    have k : Kept s t := (.same rfl rfl : Kept s { s with serial := s.serial + 1 }).trans (kept_prepare ..)
    split
    · exact .inl ⟨_, rfl, k.trans (.same rfl rfl)⟩
    · split
      · exact .inl ⟨_, rfl, k.trans (.same rfl rfl)⟩
      · rename_i l e
        exact .trans k (issueFrom_comes t gid l (chosen_lt e) ..)

theorem engineTurn_comes (s : State) (pid : Nat) : Comes s (s.engineTurn pid) := by
  unfold State.engineTurn
  extract_lets t
  have k : Kept s t := .same rfl rfl
  split <;> rename_i e <;> have h := (kept_fetchCmd ..).of_fst e
  · exact .inr ⟨_, _, rfl, k.trans h⟩
  · exact .inl ⟨_, rfl, k.trans h⟩

theorem take_comes (s : State) (t : Turn) : Comes s (s.take t) := by
  unfold State.take
  extract_lets n
  have k : Kept s n := .same rfl rfl
  cases t with
  | issue gid stall => exact issueTurn_comes ..
  | slot core part b =>
    dsimp only
    split
    · exact issueTurn_comes ..
    · exact .inl ⟨_, rfl, kept_idle s⟩
  | engine pid => exact engineTurn_comes ..
  | perform gid id => exact .inl ⟨_, rfl, k.trans (kept_perform ..)⟩
  | signers wid c => exact .inl ⟨_, rfl, k.trans (kept_wakeSigners ..)⟩
  | retire wid => exact .inl ⟨_, rfl, k.trans (kept_retireFinished ..)⟩
  | loader => exact .inl ⟨_, rfl, k.trans (kept_loaderTurn ..)⟩
  | run i => exact .inr ⟨_, _, rfl, k⟩

/-- A step is a next state that keeps the form of memory and the lane, or the meaning of one instruction in a state that
does. -/
theorem step_comes (s : State) : Comes s (step s) := by
  unfold step State.move
  split
  · rename_i t rest _
    exact .trans (.same rfl rfl : Kept s { s with agenda := rest }) (take_comes ..)
  · split
    · exact take_comes ..
    · extract_lets es t
      have k : Kept s t := .same rfl rfl
      split
      · exact .inr ⟨_, _, rfl, k.trans (.same rfl rfl)⟩
      · rename_i u us _ _
        exact .trans (k.trans (.same rfl rfl : Kept t { t with queue := us })) (take_comes ..)
      · exact .inl ⟨_, rfl, (k.trans (.same rfl rfl : Kept t { t with queue := [] })).trans (kept_idle _)⟩

end Sys2Proof.Machine
end

