-- ==== Sys2Proof/Tests/Slice0.lean ====
section
/-! SUPPORT. The tests of this row: encodings written out from the spec, ill-formed instructions that are refused, effects
of single steps by hand, and for every statement with hypotheses a state that meets them. -/
open Sys2Proof Sys2Proof.Machine
namespace Sys2Proof.Tests
set_option maxRecDepth 100000
set_option Elab.async false

/-! ## States of the tests -/

/-- No wait, no distance, no set flag, always. -/
def c0 : Ctl := { u := false, dist := 0, wait := 0, set := 15, neg := false, pred := 0 }
def c1 : Ctl := { c0 with u := true }
/-- With a set flag. -/
def cf (n : BitVec 4) : Ctl := { c0 with set := n }
def cuf (n : BitVec 4) : Ctl := { c1 with set := n }
/-- With a distance. -/
def cd (n : BitVec 3) : Ctl := { c0 with dist := n }
/-- Under a predicate that no lane of `P` holds. -/
def cn : Ctl := { c0 with pred := 1 }

/-- Group 4 at the issue port: 32 threads of workgroup 3, region 2, context 1, at the first word of a block of two. -/
def P : State := { State.reset.withFetchWord 64 0 with cur := 4, iset := 0xFFFFFFFF, ilane := 0, agenda := [] }
/-- `P` with scalars and vector registers (key 32 n + l is lane l of vn). -/
def PS (sr : List (Nat × Word)) (vr : List (Nat × U32) := []) : State :=
  P.modGrp 4 (fun g => { g with sregs := sr, vregs := vr })

/-- The words take effect at the port, inside the block, in a workgroup that is there. -/
def AllIssue (s : State) (l : List Instr) : Prop := s.Inside ∧ s.Owned s.cur ∧ ∀ i ∈ l, s.Issues i

theorem okThat {σ ε α : Type} {x : σ × Except ε α} {p : σ → α → Bool}
    (h : (match x with | (q, .ok w) => p q w | _ => false) = true) : ∃ q w, x = (q, .ok w) ∧ p q w = true := by
  obtain ⟨q, e | w⟩ := x
  · simp at h
  · exact ⟨q, w, rfl, h⟩

theorem pairThat {σ α : Type} {x : σ × α} {p : α → Bool} (h : p x.2 = true) : ∃ q v, x = (q, v) ∧ p v = true :=
  ⟨x.1, x.2, rfl, h⟩

theorem someThat {α : Type} {o : Option α} {p : α → Bool}
    (h : (match o with | some x => p x | none => false) = true) : ∃ x, o = some x ∧ p x = true := by
  cases o with
  | none => simp at h
  | some x => exact ⟨x, rfl, h⟩

/-- A lane of a mask is below 32. -/
theorem lanesAll {m : LaneMask} {p : Nat → Prop} (h : ∀ l, l < 32 → bitOf m l = true → p l) :
    ∀ l, bitOf m l = true → p l :=
  fun l hl => h l (BitVec.lt_of_getLsbD hl) hl

/-- The state a word leads to. -/
def after (i : Instr) (s : State) : State := match exec i s with
  | .next t => t
  | _ => s

/-- `P` with lane 31 at the port, `bs` at address 0x2000, and a trial segment of 64 KiB. -/
def PT (bs : List Byte) (sr : List (Nat × Word)) (vr : List (Nat × U32) := []) : State :=
  ({ (PS sr vr) with
    iset := 0x80000000, ilane := 31
    objects := [(1, { ctx := 1, hash := [], base := 0, revoked := false, pages := [], flags := 0, kernels := [],
                      segs := [{ kind := segTrial, va := 0, memsize := 65536, filesize := 65536 }] })]
    }).putPhys (fetchPage + 8192) bs

theorem okMem {σ ε : Type} {x : σ × Except ε Target} {p : σ → Nat → Bool}
    (h : (match x with | (q, .ok (.mem m)) => p q m | _ => false) = true) :
    ∃ q m, x = (q, .ok (.mem m)) ∧ p q m = true := by
  obtain ⟨q, e | t⟩ := x
  · simp at h
  · cases t with
    | mem m => exact ⟨q, m, rfl, h⟩
    | peer _ | dev _ => simp at h

theorem okIs {σ ε α : Type} [DecidableEq α] {x : σ × Except ε α} {v : α}
    (h : (match x.2 with | .ok w => decide (w = v) | .error _ => false) = true) : x.2 = .ok v := by
  obtain ⟨q, e | w⟩ := x
  · simp at h
  · simpa using h

/-- `P` with lane 31 at the port, `s1` and more scalars, and `bs` at address 0x200. -/
def PM (bs : List Byte) (sr : List (Nat × Word)) (vr : List (Nat × U32) := []) : State :=
  ({ (PS sr vr) with iset := 0x80000000, ilane := 31 }).putPhys (fetchPage + 0x200) bs

/-- `P` with bytes in the scratchpad. -/
def PW (puts : List (Nat × List Byte)) (sr : List (Nat × Word)) : State :=
  (PS sr).modWg 3 (fun w => puts.foldl (fun w p => w.putPads p.1 p.2) w)
/-- A weir that expects `e`, holds `n` and stands in phase `ph`. -/
def weirAt (e n : Nat) (ph : Bool) : List Byte :=
  bytesLE 16 (e + n * 2 ^ 16 + 2 ^ 32 + (if ph then 2 ^ 40 else 0))
/-- A ring at 0x40 of one slot of 16 bytes at 0x80, with its weirs. -/
def ringAt : List (Nat × List Byte) :=
  [(0x40, bytesLE 16 (0x80 + 16 * 2 ^ 32 + 1 * 2 ^ 64)), (0x50, weirAt 1 0 false), (0x60, weirAt 1 0 false)]

/-! ## Decoding: the words of the spec's own examples (02, 19 to 22), with what they stand for -/

/-- Every word decodes to its instruction, and is its encoding. -/
def decodes (l : List (Word × Instr)) : Bool :=
  l.all (fun p => (match decodeWord p.1 with
    | .ok i => decide (i = p.2)
    | .error _ => false) && decide (encodeWord p.2 = some p.1) && wellFormed p.2)

theorem test_decode_integer : decodes [
    (0x328002F0A2A10FF8, .addi { c1 with wait := 2 } (.s 2) (.s 1) 0xFF8),
    (0x320000F008080040, .addi c0 (.v 8) (.v 8) 64),
    (0x338000F0A40FFFFF, .addpchi c1 (.s 4) 0xFFFFF), (0x330000F00A000003, .addpchi c0 (.v 10) 3),
    (0x1F0000F00406A902, .and c0 .b64 (.v 4) (.v 6) (.s 9)), (0x208000F0A5A5A600, .andn c1 .nat (.s 5) (.s 5) (.s 6)),
    (0x2D0000F0040104AA, .bfi c0 (.v 4) (.v 1) (.v 4) (.s 10)), (0x2C0000F00302A900, .bfx c0 (.v 3) (.v 2) (.s 9)),
    (0x2E0000F0060102AB, .bperm c0 (.v 6) (.v 1) (.v 2) (.s 11)), (0x2B0000F004AC0002, .brev c0 .b64 (.v 4) (.s 12)),
    (0x294000F002070000, .clz (cd 4) .nat (.v 2) (.v 7)), (0x2A8000F0A3A80001, .ctz c1 .b32 (.s 3) (.s 8)),
    (0x1B0000F003040000, .iabs c0 .nat (.v 3) (.v 4)), (0x104000F00706AA00, .iadd (cd 4) .nat (.v 7) (.v 6) (.s 10)),
    (0x110000F00202040C, .iaddc c0 .nat (.v 2) (.v 2) (.v 4) 3), (0x1D0000F004020334, .icmp c0 .nat true .ge 4 (.v 2) (.v 3)),
    (0x1DC000F001A1A208, .icmp { c1 with dist := 4 } .nat false .lt 1 (.s 1) (.s 2)),
    (0x1740000003010200, .idiv { cf 0 with dist := 4 } .nat false (.v 3) (.v 1) (.v 2)),
    (0x160000F004A1A501, .imad c0 (.v 4) (.s 1) (.s 5) (.v 1)), (0x1A0000F003040504, .imax c0 .nat true (.v 3) (.v 4) (.v 5)),
    (0x198000F0C5ADAB00, .imin c1 .nat false (.s 37) (.s 13) (.s 11)),
    (0x148002F0AAA8A900, .imul { c1 with wait := 2 } .nat (.s 10) (.s 8) (.s 9)),
    (0x150000F006020304, .imulhi c0 .nat true (.v 6) (.v 2) (.v 3)), (0x1C0000F006080002, .ineg c0 .b64 (.v 6) (.v 8)),
    (0x18800010A5A6A704, .irem (cuf 1) .nat true (.s 5) (.s 6) (.s 7)),
    (0x1E0000F009020330, .isel c0 .nat true 4 (.v 9) (.v 2) (.v 3)), (0x128000F0A3A4A501, .isub c1 .b32 (.s 3) (.s 4) (.s 5)),
    (0x130000F00303050C, .isubb c0 .nat (.v 3) (.v 3) (.v 5) 3), (0x238000F0A5A60001, .not c1 .b32 (.s 5) (.s 6)),
    (0x210000F003030400, .or c0 .nat (.v 3) (.v 3) (.v 4)), (0x280000F002070000, .popc c0 .nat (.v 2) (.v 7)),
    (0x270000F00406A802, .rotl c0 .b64 (.v 4) (.v 6) (.s 8)), (0x260000F00406A802, .sar c0 .b64 (.v 4) (.v 6) (.s 8)),
    (0x240000F00601A300, .shl c0 .nat (.v 6) (.v 1) (.s 3)), (0x258000F0BCB4A700, .shr c1 .nat (.s 28) (.s 20) (.s 7)),
    (0x228000F0A5A5A601, .xor c1 .b32 (.s 5) (.s 5) (.s 6))] = true := by decide +kernel

theorem test_decode_float : decodes [
    (0x3E0000F004050000, .fabs c0 (.v 4) (.v 5)), (0x386000F00A0A0C00, .fadd (cd 6) .rne (.v 10) (.v 10) (.v 12)),
    (0x4A0000F007020000, .fclass c0 (.v 7) (.v 2)), (0x400000F002030402, .fcmp c0 .lt 2 (.v 3) (.v 4)),
    (0x408000F001A3A406, .fcmp c1 .un 1 (.s 3) (.s 4)), (0x4B0000F006023040, .fcvt c0 .e4m3 .fp32 2 0 .rne (.v 6) (.v 2)),
    (0x4B0000F008090208, .fcvt c0 .fp32 .bf16 0 1 .rne (.v 8) (.v 9)),
    (0x4D0000F005030005, .fcvti c0 true .rtz (.v 5) (.v 3)), (0x4100002005030402, .fdiv (cf 2) .rup (.v 5) (.v 3) (.v 4)),
    (0x4E0000F00A0C0D09, .fdot4 c0 .lns6 .rtz (.v 10) (.v 12) (.v 13)), (0x3D0000F00202AD00, .fmax c0 (.v 2) (.v 2) (.s 13)),
    (0x3A8000F0A6A6A703, .fmul c1 .rdn (.s 6) (.s 6) (.s 7)), (0x3F8000F0A9A90000, .fneg c1 (.s 9) (.s 9)),
    (0x490000F003020003, .frnd c0 .rdn (.v 3) (.v 2)), (0x4700003006020000, .fsin (cf 3) .rne (.v 6) (.v 2)),
    (0x4C0000F003040004, .icvtf c0 true .rne (.v 3) (.v 4)), (0xA26000F0140A0BA5, .vmxp (cd 6) 20 (.v 10) (.v 11) (.s 5)),
    -- opcodes of the map without an example of their own: 0x39 FSUB, 0x3B FFMA, 0x3C FMIN, 0x42 to 0x48
    (0x390000F00A0A0C00, .fsub c0 .rne (.v 10) (.v 10) (.v 12)), (0x3B0000F00A0A0C01, .ffma c0 .rtz (.v 10) (.v 10) (.v 12)),
    (0x3C0000F00202AD00, .fmin c0 (.v 2) (.v 2) (.s 13)), (0x4200003006020000, .fsqrt (cf 3) .rne (.v 6) (.v 2)),
    (0x4300003006020000, .frcp (cf 3) .rne (.v 6) (.v 2)), (0x4400003006020000, .frsq (cf 3) .rne (.v 6) (.v 2)),
    (0x4500003006020000, .fexp2 (cf 3) .rne (.v 6) (.v 2)), (0x4600003006020000, .flog2 (cf 3) .rne (.v 6) (.v 2)),
    (0x4800003006020000, .fcos (cf 3) .rne (.v 6) (.v 2))] = true := by decide +kernel

theorem test_decode_moves_and_control : decodes [
    (0x508000F0A3A70000, .mov c1 .nat (.s 3) (.s 7)), (0x500000F006B40002, .mov c0 .b64 (.v 6) (.s 20)),
    (0x318000F0AD03F400, .movhi c1 (.s 13) 0x3F400), (0x310000F0020BF800, .movhi c0 (.v 2) 0xBF800),
    (0x308000F0AC0FFFFF, .movi c1 (.s 12) 0xFFFFF), (0x300000F004000064, .movi c0 (.v 4) 100),
    (0x5100002009030000, .movri (cf 2) 9 (.v 3)), (0x5200002000030A00, .movwi (cf 2) (.v 3) 10),
    (0x568000F0A1000001, .mfsr c1 (.s 1) .grpid), (0x560000F00C000010, .mfsr c0 (.v 12) .cycle),
    (0x57C004F0A9000021, .mtsr { c1 with dist := 4, wait := 4 } (.s 9)), (0x570000F016000021, .mtsr c0 (.v 22)),
    (0x580000F003010200, .pset c0 .and 3 1 2), (0x580000F005000005, .pset c0 .clr 5 0 0), (0x590000F009000000, .pmov c0 9),
    (0x590000F000090C01, .pmovPut c0 (.v 9) 0x0C), (0x530000200504A103, .shfl (cf 2) .xor 5 4 (.s 1)),
    (0x5400003004000026, .vote (cf 3) (.all 4) true 1), (0x54000030AC000008, .vote (cf 3) (.ballot (.s 12)) false 2),
    (0x55000040BE0A0008, .vred (cf 4) .fadd (.s 30) 10),
    (0x012000F700000000, .br { cd 2 with pred := 7 } 0), (0x020000F043000005, .brc c0 .any false 3 5),
    (0x030000F008FFFFF4, .call c0 8 0xFFFFF4), (0x040001F000A70000, .calli { c0 with wait := 1 } 0 (.s 7)),
    (0x050000F200080000, .ret { c0 with pred := 2 } (.v 8)), (0x062000FA00000000, .exit { cd 2 with neg := true, pred := 2 }),
    (0x077000F000000000, .nop (cd 7)), (0x080000F000000000, .yield c0), (0x090000F000000012, .brk c0 0x12),
    (0x0A0000F000000040, .trap c0 0x40), (0x0B0000F000000002, .role c0 2), (0x0C800020A9B40000, .spawn (cuf 2) 9 20),
    (0x9D400810180AA400, .tryT { cf 1 with dist := 4, wait := 8 } 24 10 4), (0x9E4000F000030000, .tret (cd 4) (.v 3))]
    = true := by decide +kernel

theorem test_decode_memory : decodes [
    (0x6100003005020003, .ld (cf 3) .g .b16 .rlx .grp (.v 5) (.v 2) 3),
    (0x6200000003A83010, .ld (cf 0) .g .b32 .acq .dev (.v 3) (.s 8) 16),
    (0x6B0000200C060000, .ld (cf 2) .k .b64 .rlx .grp (.v 12) (.v 6) 0),
    (0x67800010B4AC8FFF, .ld (cuf 1) .s .b64 .sc .wg (.s 20) (.s 12) 0x7FF),
    (0x6D0000F005020003, .st c0 .g .b16 .rlx .grp (.v 5) (.v 2) 3), (0x6E8000F0A1AB5000, .st c1 .g .b32 .rel .dev (.s 1) (.s 11) 0),
    (0x6F0000F004A89FFE, .st c0 .g .b64 .sc .sys (.v 4) (.s 8) 0x7FE),
    (0x726000F003020000, .st (cd 6) .s .b32 .rlx .grp (.v 3) (.v 2) 0),
    (0x7400002005AA0650, .atom (cf 2) .g .b32 .add .rel .dev (.v 5) (.s 10) (.v 6)),
    (0x77800010B4ACB66F, .atom (cuf 1) .s .b64 .cas .ar .wg (.s 20) (.s 12) (.s 22)),
    (0x780000F000AA0610, .red c0 .g .b32 .add .rlx .dev (.s 10) (.v 6)),
    (0x7B8000F000ACAE4C, .red c1 .s .b64 .or .rel .wg (.s 12) (.s 14)),
    (0x7C0000F000005000, .fence c0 .rel .dev), (0x7C00004000009800, .fence (cf 4) .sc .sys),
    (0x7E8000F001A41002, .cflush c1 true .dev (.s 4) 2), (0x7D0000F001020000, .pref c0 true (.v 2) 0),
    (0xA380002000A4A500, .icinv (cuf 2) (.range 4 5)), (0xA38000F000000001, .icinv c1 .all),
    (0xA480002000A4A500, .tlbinv (cuf 2) (.range 4 5)), (0xA10000300904B402, .sprobe (cf 3) 9 2 (.v 4) 20),
    (0x9F4000200E0C0000, .swf { cf 2 with dist := 4 } 14 (.v 12)), (0xA0000010120EA700, .swc (cf 1) 18 14 7)]
    = true := by decide +kernel

theorem test_decode_sync_and_units : decodes [
    (0x808000F0B4B5B600, .bcopy c1 false false 20 21 22), (0x808000F0B4B5B602, .bcopy c1 false true 20 21 22),
    (0x8100003000BEBF00, .bseal (cf 3) 30 31), (0x820000F000BE0000, .bwait c0 30),
    (0x83800010B4B5B630, .waitstamp (cuf 1) .acq .dev (.s 20) (.s 21) 22), (0x840000F000AAAB00, .winit c0 .rlx 10 (some 11)),
    (0x850000F000AAAC40, .warrive c0 .rel 10 (some 12)), (0x850000F000BB0000, .warrive c0 .rlx 27 none),
    (0x8600001014B1AC60, .wsync (cf 1) .ar (.v 20) 0 17 (some 12)),
    (0x8760001014AAAF20, .wwait { cf 1 with dist := 6 } .acq (.v 20) 0 10 (some 15)),
    (0x8800021014A5B222, .wwaitseq { cf 1 with wait := 2 } .acq (.v 20) 2 5 (some 18)),
    (0x8900002016AAAF23, .wtest (cf 2) .acq (.v 22) 3 10 (some 15)), (0x900000F000A80000, .sign c0 0 8),
    (0x9100006000B4B64C, .mma (cf 6) .lns6 0 2 20 22 1 2), (0x9500005002AAAC20, .mma (cf 5) .bf16 2 1 10 12 0 0),
    (0x9700004003AA0000, .mlda (cf 4) 3 10), (0x9800005003AC0000, .msta (cf 5) 3 12), (0x990000F000000000, .mzero c0 0),
    (0x9A000050AC000000, .mchk (cf 5) 12), (0x9B00002EC4C6C701, .pmv { cf 2 with neg := true, pred := 6 } true 36 38 39),
    (0x9C000020C8000001, .pstat (cf 2) 40 1), (0x8A800040BEB20000, .rlaunch (cuf 4) 30 18),
    (0x8B800030A5B20000, .rstop (cuf 3) 5 18), (0x8B800030A5B20001, .rstopResume (cuf 3) 5 18),
    (0x8C800030A6B20001, .rstat (cuf 3) 6 18 1)] = true := by decide +kernel

/-! ### The machine's statements -/

/-- A device whose next step is the issue of `w`, with a group whose flags are clear or not. -/
def PTurn (w : Nat) : State := State.reset.withFetchWord 64 w
def PStall (w : Nat) : State :=
  (PTurn w).modGrp 4 (fun g => { g with flags := [(2, 1)] })

/-- The bytes at the program counter are read, and are `w`. -/
def readsWord (s : State) (w : Word) (p : State → Bool) : Bool :=
  let t := { s with agenda := [], serial := s.serial + 1 }
  (match t.chosen 4 with
    | some l => t.exhausted 4 (t.issueSet 4 l) == 0 && t.astray 4 (t.issueSet 4 l) == 0
        && (match t.issueFetch 4 ((s.grp 4).th l).pc with
          | (u, .ok x) => decide (x = w) && p u
          | _ => false)
    | none => false)
  && (findK s.groups 4).isSome && s.mayIssue 4 && (List.range 32).all (fun k => ((s.grp 4).th k).entering.isNone)

/-- The word at the port of `PTurn`, which no hold of the group precedes, or which one does. -/
def portOf (u : State) (i : Option Instr) : State := u.atPort 4 0 (u.issueSet 4 0) i 0

/-- A word that runs, one that waits for flag 2, one that is no instruction, and one before which a hold ends. -/
theorem witness_StepRunsDecoded_word :
    (PTurn 0x320000F008080040).agenda = [.issue 4 0]
    ∧ readsWord (PTurn 0x320000F008080040) 0x320000F008080040 (fun u => let i := Instr.addi c0 (.v 8) (.v 8) 64
        (PTurn 0).g.fetched.isNone && !((portOf u i).stalls i) && (u.dueHold 4 (portOf u i).cycle).isNone) = true
    ∧ readsWord ((PTurn 0x320000F008080040).modGrp 4 (fun g => g.modLane 31 (fun t => { t with held := .rc (-300), rc := some 64 })))
        0x320000F008080040 (fun u => let i := Instr.addi c0 (.v 8) (.v 8) 64
        !((portOf u i).stalls i) && (u.dueHold 4 (portOf u i).cycle).isSome) = true
    ∧ readsWord (PStall 0x070004F000000000) 0x070004F000000000 (fun u =>
        let i := Instr.nop { c0 with wait := 4 }
        (portOf u i).stalls i) = true
    ∧ readsWord (PTurn 0xFF00000000000000) 0xFF00000000000000 (fun _ => match decodeWord 0xFF00000000000000 with
        | .error _ => true
        | .ok _ => false) = true := by decide +kernel

/-- An engine's turn, an event's turn, and a device that is not ready. -/
theorem witness_StepRunsDecoded_turns :
    (let s := State.reset.withFetchWord 256 0x0C;
      s.agenda = [.engine 5] ∧ (match ((({ s with agenda := [], eng := 5, serial := s.serial + 1, cycle := s.cycle + 1 } : State).modProg 5 Prog.onTurn).fetchCmd 5) with
        | (_, .perform i) => decide (i = .rillFence)
        | _ => false) = true)
    ∧ ({ State.reset with agenda := [.run (.policyStep 0 0 0 0 4 none)] } : State).AgendaOk
    ∧ State.reset.agenda = [] ∧ State.reset.mgmt.ready = false := by
  refine ⟨by decide +kernel, ?_, rfl, rfl⟩
  intro t ht i hi
  obtain rfl : t = .run (.policyStep 0 0 0 0 4 none) := by simpa [State.reset] using ht
  cases hi
  rfl

/-- With no turn due: a hold is spent, which does not wait; and nothing of the kind, with turns to take. -/
def PSpent (c : Nat) : State :=
  { (P.modGrp 4 (fun g => g.modTh 0x80000000 (fun t => { t with held := .rc 0, rc := some 0x100 }))) with cycle := c }
def marked (s : State) : State := { s with groups := s.groups.map (s.markGroup s.eligibles) }
theorem witness_StepRunsDecoded_free :
    ((PSpent 255).agenda = [] ∧ (PSpent 255).mgmt.ready = true ∧ (marked (PSpent 255)).urgent ≠ [])
    ∧ (PSpent 0).agenda = [] ∧ (PSpent 0).mgmt.ready = true ∧ (marked (PSpent 0)).urgent = []
      ∧ inOrder (PSpent 0).queue ((marked (PSpent 0)).turns (PSpent 0).eligibles) ≠ [] := by decide +kernel

/-- What the invariants ask of a state, and a well-formed instruction of each encoding. -/
theorem witness_invariants : State.reset.AgendaOk ∧ State.reset.MemOk ∧ State.reset.ilane < 32
    ∧ (∃ t, step State.reset = .next t) :=
  ⟨fun _ h => absurd h (by simp [State.reset]), rfl, by decide, ⟨_, rfl⟩⟩
theorem witness_DecodeEncode :
    (wellFormed (.addi c0 (.v 8) (.v 8) 64) = true ∧ encodeWord (.addi c0 (.v 8) (.v 8) 64) = some 0x320000F008080040)
    ∧ (wellFormed (.jump 7) = true ∧ encodeCmd (.jump 7) = some 0x70000000000000009)
    ∧ (∃ i, decodeWord 0x070000F000000000 = .ok i) ∧ (Instr.nop c0).ctl?.isSome = true
    ∧ (∃ q, decodeCmd q ≠ .rillBadCommand q) :=
  ⟨by decide +kernel, by decide +kernel, ⟨.nop c0, by rfl⟩, rfl, ⟨9, by decide +kernel⟩⟩

/-! ## Decoding: rill commands, written out from their tables (R175 to R184) -/

/-- A command of four quadwords. -/
def quads (q0 q1 q2 q3 : Nat) : BitVec 256 := BitVec.ofNat 256 (q0 + q1 * 2 ^ 64 + q2 * 2 ^ 128 + q3 * 2 ^ 192)
def decodesCmd (l : List (BitVec 256 × Instr)) : Bool :=
  l.all (fun p => decide (decodeCmd p.1 = p.2) && decide (encodeCmd p.2 = some p.1) && wellFormed p.2)

theorem test_decode_rill : decodesCmd [
    -- fp32 to e4m3, three dimensions, scaled by e8 0x80, reports NaN; ring 0x1000, shift 2
    (quads 0x0080100080163001 0x4000 0x0000000200030004 0x2000040,
      .stream { fmtin := .fp32, fmtout := .e4m3, ndim := 2, scl := true, rep := 1, e8 := 0x80, ring := 0x1000, sh := 2,
                base := 0x4000, c0 := 4, c1 := 3, c2 := 2, c3 := 0, st1 := 64, st2 := 16, st3 := 0 }),
    (quads 0x0000100000001104 0x4000 5 0,
      .rillDrain { fmtin := .fp16, fmtout := .fp16, ndim := 0, scl := false, rep := 0, e8 := 0, ring := 0x1000, sh := 0,
                   base := 0x4000, c0 := 5, c1 := 0, c2 := 0, c3 := 0, st1 := 0, st2 := 0, st3 := 0 }),
    (quads 0x0000104000000002 0x4040 0x0000000700000003 0, .decode 0x1040 0x4040 3 7),
    (quads 0x0000104000000003 0x4002 6 0, .palette 0x1040 0x4002 6),
    (quads 0x0000105000020005 0 0 0, .arrive 2 0x1050), (quads 0x0000106000000106 0 0 0, .waitw true 0x1060),
    (quads 0x07 0x9000 12 0, .waits 0x9000 12), (quads 0x208 0x0000000500000001 0 0, .loop 2 1 5),
    (quads 0x09 7 0 0, .jump 7), (quads 0x0A 0x9008 0xFFFFFFFFFFFFFFFF 0, .stamp 0x9008 0xFFFFFFFFFFFFFFFF),
    (quads 0x000000090003010B 0x8040 128 0x7000, .reduce .max .fp32 3 9 0x8040 128 0x7000) , (quads 0x0C 0 0 0, .rillFence),
    (quads 0x000010700004010D 0 0 0, .rillEnd true 4 0x1070), (quads 0x0D 0 0 0, .rillEnd false 0 0)] = true := by
  decide +kernel

/-- Unlisted opcodes, unused bits, counts of zero, misaligned addresses, formats that R176 and R177 refuse. -/
theorem test_decode_rill_bad : [quads 0 0 0 0, quads 0x0E 0 0 0, quads 0xFF 0 0 0, quads 0x10C 0 0 0, quads 0x0C 1 0 0,
    quads 0x0000105000000005 0 0 0, quads 0x0000105800020005 0 0 0, quads 0x07 0x9001 0 0, quads 0x0A 0x9004 0 0,
    quads 0x0000104000000003 0x4001 6 0, quads 0x0000104000000003 0x4002 0 0, quads 0x0000104000000002 0x4040 0 0,
    quads 0x0000104000000002 0x4041 1 0, quads 0x208 0x0000000000000001 0 0, quads 0x000000090003030B 0x8040 128 0x7000,
    quads 0x000000090003110B 0x8040 128 0x7000, quads 0x000000090003010B 0x8040 100 0x7000, quads 0x000010700004000D 0 0 0,
    quads 0x0000100000001184 0x4000 5 0, quads 0x0000100000041104 0x4000 5 0,
    quads 0x0000100000001104 0x4001 5 0].all (fun q => decide (decodeCmd q = .rillBadCommand q)) = true := by
  decide +kernel

/-- Command codes of R304 and register offsets of R303. -/
theorem test_decode_port : (List.range 16).map (fun k => decodeHostCmd (BitVec.ofNat 8 k))
      = [.badCommand 0, .ctxCreate, .ctxDestroy, .halt, .resume, .discard, .load, .unload, .tlbInval, .domain, .credit, .drain,
         .fwSlot, .retire, .group, .badCommand 15]
    ∧ decodeRegWrite 0x010 7 = .rootLaunch 7 ∧ decodeRegWrite 0x020 0x103 = .halt ∧ decodeRegWrite 0x058 3 = .irqClear 3
    ∧ decodeRegWrite 0x008 1 = .registerWrite 0x008 1 := by decide +kernel

/-! ## Encodings that are refused -/

/-- Opcodes outside the map, and nonzero bits that a form does not use. -/
theorem test_decode_refused : ([0x000000F000000000, 0x0D0000F000000000, 0xFF0000F000000000, 0x070000F000000001,
    0x070000E000000000, 0x0780000000000000, 0x060000F000000100, 0x320000F0A0080040] : List Word).all (fun w =>
      match decodeWord w with | .error _ => true | .ok _ => false) = true := by decide +kernel

/-- One ill-formed instruction for each check; each is refused, and its words decode to nothing. -/
def illFormed : List Instr := [
  .nop { c0 with set := 12 }, .nop c1, .spawn (cf 1) 4 2, .idiv c0 .nat true (.v 1) (.v 2) (.v 3),
  .addi c1 (.v 1) (.s 1) 0, .addi c0 (.s 1) (.v 1) 0, .addi c1 (.s 1) (.v 1) 0, .addpchi c0 (.v 3) 0,
  .iadd c0 .b32 (.v 1) (.v 2) (.v 3), .iadd c1 .b64 (.s 1) (.s 2) (.s 3), .iadd c0 .b64 (.v 1) (.v 2) (.v 4),
  .iadd c0 .b64 (.v 2) (.v 3) (.v 4), .brev c0 .b64 (.v 4) (.v 5), .clz c0 .b64 (.v 1) (.v 5), .mov c0 .b64 (.v 3) (.v 4),
  .icmp c0 .b64 false .eq 1 (.v 2) (.v 3), .bfi c1 (.s 1) (.s 2) (.s 3) (.v 4), .fadd c1 .rne (.s 1) (.v 1) (.s 2),
  .fdiv c0 .rne (.v 1) (.v 2) (.v 3), .fcmp c1 .eq 1 (.v 1) (.s 2), .fcvt c0 .i8 .fp32 0 0 .rne (.v 1) (.v 2),
  .fcvt c0 .fp32 .i32 0 0 .rne (.v 1) (.v 2), .fcvt c0 .fp32 .fp16 1 0 .rne (.v 1) (.v 2),
  .fcvt c0 .fp32 .fp16 0 2 .rne (.v 1) (.v 2), .fcvt c0 .lns6 .fp32 0 0 .rtz (.v 1) (.v 2), .vmxp c0 3 (.v 1) (.v 2) (.v 3),
  .mfsr c0 (.v 3) .cycle, .mtsr c0 (.v 3), .pset c0 .set 1 1 0, .pmovPut c0 (.v 1) 1, .movri c0 1 (.v 2), .shfl c0 .idx 1 2 (.v 3),
  .call c0 3 0, .calli c0 2 (.v 3), .ret c0 (.v 3), .ld (cf 1) .k .b32 .acq .grp (.v 1) (.v 2) 0,
  .ld (cf 1) .g .b64 .rlx .grp (.v 1) (.v 2) 0, .ld c0 .g .b32 .rlx .grp (.v 1) (.v 2) 0, .st c0 .k .b32 .rlx .grp (.v 1) (.v 2) 0,
  .st c0 .g .b32 .acq .grp (.v 1) (.v 2) 0, .atom (cf 1) .k .b32 .add .rlx .dev (.v 1) (.v 2) (.v 3),
  .atom (cf 1) .g .b16 .add .rlx .dev (.v 1) (.v 2) (.v 3), .atom (cf 1) .g .b32 .cas .rlx .dev (.v 1) (.v 2) (.v 3),
  .atom (cf 1) .g .b64 .cas .rlx .dev (.v 2) (.v 2) (.v 6), .atom (cuf 1) .g .b64 .cas .rlx .dev (.s 2) (.s 2) (.s 95),
  .red c0 .g .b32 .xchg .rlx .dev (.v 1) (.v 2), .red c0 .g .b32 .add .acq .dev (.v 1) (.v 2), .fence c0 .rlx .dev,
  .bcopy c0 false false 1 2 3, .bseal c1 1 2, .bwait c1 1, .waitstamp c0 .acq .dev (.s 2) (.s 3) 4,
  .waitstamp (cf 1) .rel .dev (.v 2) (.v 3) 4, .winit c0 .acq 1 none, .warrive c0 .sc 1 none, .wsync (cf 1) .sc (.v 1) 0 1 none,
  .wwait (cf 1) .rel (.v 1) 0 1 none, .rlaunch (cf 1) 1 2, .rstop (cuf 12) 1 2, .rstat c1 1 2 0, .sign c1 0 1,
  .mma (cf 1) .i8 0 0 2 4 1 0, .mma (cf 1) .lns6 0 0 3 4 0 0, .mlda (cf 1) 0 3, .mchk c0 1, .pmv c0 true 3 1 2, .pstat c0 1 0,
  .tryT (cf 1) 3 2 1, .swf (cf 1) 3 (.v 1), .swc (cf 1) 2 3 1, .sprobe c0 1 2 (.v 1) 2, .icinv c0 .all, .tlbinv c0 .all]
theorem test_illFormed_words : illFormed.all (fun i => !(wellFormed i) && (match encodeWord i with
    | some w => (match decodeWord w with | .ok j => j != i | .error _ => true)
    | none => true)) = true := by decide +kernel

/-- The same for commands. -/
def someAffine : Affine :=
  { fmtin := .fp32, fmtout := .e4m3, ndim := 1, scl := true, rep := 0, e8 := 0, ring := 0, sh := 2, base := 0x4000, c0 := 4,
    c1 := 3, c2 := 0, c3 := 0, st1 := 64, st2 := 0, st3 := 0 }
theorem test_illFormed_commands : wellFormed (.stream someAffine) = true
    ∧ ([.stream { someAffine with fmtout := .fp16 }, .stream { someAffine with sh := 32 }, .stream { someAffine with base := 0x4002 },
      .stream { someAffine with c0 := 0 }, .stream { someAffine with c1 := 0 }, .stream { someAffine with c2 := 1 },
      .stream { someAffine with sh := 0, st1 := 2 }, .rillDrain { someAffine with st2 := 4 }, .decode 0 32 1 0, .decode 0 64 0 0,
      .palette 0 1 1, .palette 0 2 0, .arrive 0 0x10, .arrive 1 8, .waitw false 8, .waits 4 0, .stamp 4 0, .loop 0 0 0,
      .reduce .sum .fp16 0 0 0 64 0, .reduce .sum .fp32 0 0 32 64 0, .reduce .sum .fp32 0 0 0 0 0, .rillEnd true 1 8,
      .rillEnd false 1 0] : List Instr).all (fun i => !(wellFormed i) && (match encodeCmd i with
        | some q => decide (decodeCmd q = .rillBadCommand q)
        | none => true)) = true := by decide +kernel

/-! ## Witnesses: states and operands that meet the hypotheses of the statements -/

theorem witness_IntegerArithmetic : AllIssue P (
    [.iadd c0 .nat (.v 159) (.v 0) (.s 0), .iadd c1 .b32 (.s 0) (.s 127) (.s 1), .isub c0 .b64 (.v 158) (.v 2) (.v 4),
     .ineg c0 .nat (.v 1) (.v 1), .imul c0 .b64 (.v 4) (.v 6) (.s 9), .imad c1 (.s 4) (.s 5) (.s 6) (.s 7),
     .mov c1 .nat (.s 1) (.s 2), .addi c0 (.v 1) (.v 1) 0x800, .movi c0 (.v 1) 0x80000, .movhi c1 (.s 1) 0xFFFFF,
     .addpchi c0 (.v 2) 0x80000, .imulhi c0 .nat false (.v 1) (.v 2) (.v 3), .imulhi c1 .nat true (.s 1) (.s 2) (.s 3),
     .imin c0 .nat false (.v 1) (.v 2) (.v 3), .imin c0 .nat true (.v 1) (.v 2) (.v 3),
     .imax c0 .nat false (.v 1) (.v 2) (.v 3), .imax c1 .nat true (.s 1) (.s 2) (.s 3), .iabs c0 .nat (.v 1) (.v 2),
     .iabs c0 .b64 (.v 2) (.v 4)]) := by
  unfold AllIssue State.Issues State.Inside State.Owned; decide +kernel

theorem witness_BitwiseAndShifts : AllIssue P
    [.and c0 .b64 (.v 4) (.v 6) (.s 9), .andn c1 .nat (.s 5) (.s 5) (.s 6), .or c0 .nat (.v 3) (.v 3) (.v 4),
     .xor c1 .b32 (.s 5) (.s 5) (.s 6), .not c1 .b32 (.s 5) (.s 6), .shl c0 .nat (.v 6) (.v 1) (.s 3),
     .shr c1 .nat (.s 28) (.s 20) (.s 7), .sar c0 .b64 (.v 4) (.v 6) (.s 8), .rotl c0 .b64 (.v 4) (.v 6) (.s 8)] := by
  unfold AllIssue State.Issues State.Inside State.Owned; decide +kernel

theorem witness_BitForms : AllIssue P
    [.clz c0 .nat (.v 2) (.v 7), .clz c0 .b64 (.v 159) (.v 158), .ctz c1 .b32 (.s 3) (.s 8), .popc c0 .nat (.v 2) (.v 7),
     .brev c0 .b64 (.v 4) (.s 12), .bfx c0 (.v 3) (.v 2) (.s 9), .bfx c1 (.s 3) (.s 2) (.s 9),
     .bfi c0 (.v 4) (.v 1) (.v 4) (.s 10), .bperm c0 (.v 6) (.v 1) (.v 2) (.s 11)] := by
  unfold AllIssue State.Issues State.Inside State.Owned; decide +kernel

theorem witness_CompareAndSelect : AllIssue P
    [.icmp c0 .nat true .ge 4 (.v 2) (.v 3), .icmp c1 .nat false .lt 1 (.s 1) (.s 2), .icmp c0 .b64 false .eq 0 (.v 2) (.v 4),
     .isel c0 .nat true 4 (.v 9) (.v 2) (.v 3)] := by
  unfold AllIssue State.Issues State.Inside State.Owned; decide +kernel

theorem witness_CarryChains : AllIssue P
    [.iaddc c0 .nat (.v 2) (.v 2) (.v 4) 3, .iaddc c1 .b32 (.s 2) (.s 2) (.s 4) 0, .isubb c0 .nat (.v 3) (.v 3) (.v 5) 7] := by
  unfold AllIssue State.Issues State.Inside State.Owned; decide +kernel

/-- No zero divisor: `s1` holds the most negative 32-bit number's negative neighbour, -1; and a zero divisor in lanes of
`v2`, which reads zero. -/
theorem witness_Division :
    (let s := PS [(1, 0xFFFFFFFFFFFFFFFF#64)]
     (∀ l, l < 32 → bitOf (s.active (cf 0)) l = true → opnd s (cf 0) .nat (.s 1) l ≠ 0)
     ∧ opnd s (cuf 8) .nat (.s 1) s.ilane ≠ 0
     ∧ AllIssue s [.idiv (cf 0) .nat false (.v 3) (.v 2) (.s 1), .idiv (cf 0) .b64 true (.v 4) (.v 2) (.s 1),
       .irem (cuf 8) .nat true (.s 5) (.s 6) (.s 1), .irem (cf 0) .nat false (.v 3) (.v 2) (.s 1)])
    ∧ (let i := Instr.idiv (cf 0) .nat false (.v 3) (.v 1) (.v 2)
      AllIssue P [i] ∧ (∀ l, l < 32 → P.g.inTrial l = false)
        ∧ filterLanes (P.active (cf 0)) (fun l => opnd P (cf 0) .nat (.v 2) l == 0) ≠ 0) := by
  unfold AllIssue State.Issues State.Inside State.Owned; decide +kernel
theorem witness_Division_uniform : AllIssue P [.irem (cuf 0) .nat true (.s 3) (.s 1) (.s 2)]
    ∧ opnd P (cuf 0) .nat (.s 2) P.ilane = 0 ∧ P.active (cuf 0) ≠ 0 := by
  unfold AllIssue State.Issues State.Inside State.Owned; decide +kernel

theorem witness_FloatRoundedOnce : P.inject.shadow1 = 0 ∧ AllIssue P
    [.fadd c0 .rne (.v 10) (.v 10) (.v 12), .fsub c1 .rtz (.s 1) (.s 2) (.s 3), .fmul c1 .rdn (.s 6) (.s 6) (.s 7),
     .ffma c0 .rup (.v 10) (.v 10) (.v 12), .vmxp c0 20 (.v 10) (.v 11) (.s 5), .fdot4 c0 .lns6 .rtz (.v 10) (.v 12) (.v 13),
     .fdot4 c0 .e4m3 .rne (.v 10) (.v 12) (.v 13), .fdot4 c0 .e5m2 .rne (.v 10) (.v 12) (.v 13)] := by
  unfold AllIssue State.Issues State.Inside State.Owned; decide +kernel

theorem witness_FloatVariableLatency : P.inject.shadow1 = 0 ∧ AllIssue P
    [.fdiv (cf 2) .rup (.v 5) (.v 3) (.v 4), .fsqrt (cf 8) .rne (.v 6) (.v 2), .frcp (cf 3) .rne (.v 6) (.v 2),
     .frsq (cf 3) .rne (.v 6) (.v 2), .fexp2 (cf 3) .rne (.v 6) (.v 2), .flog2 (cf 3) .rne (.v 6) (.v 2),
     .fsin (cuf 3) .rne (.s 6) (.s 2), .fcos (cf 0) .rne (.v 6) (.v 2)] := by
  unfold AllIssue State.Issues State.Inside State.Owned; decide +kernel

theorem witness_FloatSelections : AllIssue P
    [.fabs c0 (.v 4) (.v 5), .fneg c1 (.s 9) (.s 9), .fmin c0 (.v 2) (.v 2) (.s 13), .fmax c0 (.v 2) (.v 2) (.s 13),
     .fclass c0 (.v 7) (.v 2), .frnd c0 .rdn (.v 3) (.v 2), .icvtf c0 true .rne (.v 3) (.v 4), .fcvti c0 true .rtz (.v 5) (.v 3),
     .fcvt c0 .e4m3 .fp32 2 0 .rne (.v 6) (.v 2), .fcvt c0 .fp32 .bf16 0 1 .rne (.v 8) (.v 9), .fcmp c0 .lt 2 (.v 3) (.v 4),
     .fcmp c1 .un 1 (.s 3) (.s 4)] := by
  unfold AllIssue State.Issues State.Inside State.Owned; decide +kernel

/-- The greatest finite code of FP32 is a value that meets the bound, with equality. -/
theorem witness_RoundingIsRight : ffFp32 ∈ binaryFormats
    ∧ |(FV.fin false 16777215 104).num| ≤ (ffFp32.decode ffFp32.maxCode).num := by
  refine ⟨by decide +kernel, ?_⟩
  rw [show ffFp32.decode ffFp32.maxCode = .fin false 16777215 104 by decide]
  norm_num [FV.num, abs_of_nonneg]

/-- 2^24 + 1 lies between two codes; the even one is taken. -/
theorem witness_RoundingIsRight_tie :
    ffFp32.encode .rne false (.fin false 16777217 0) = 0x4B800000 ∧ (ffFp32.decode 0x4B800001).finite = true
    ∧ (ffFp32.decode 0x4B800001).num ≠ (ffFp32.decode 0x4B800000).num
    ∧ |(ffFp32.decode 0x4B800001).num - (FV.fin false 16777217 0).num|
      = |(ffFp32.decode 0x4B800000).num - (FV.fin false 16777217 0).num| := by
  refine ⟨by decide +kernel, by decide +kernel, ?_⟩
  rw [show ffFp32.decode 0x4B800001 = .fin false 8388609 1 by decide, show ffFp32.decode 0x4B800000 = .fin false 8388608 1 by decide]
  norm_num [FV.num]

theorem witness_ExactOperations : (1 : Nat) ≠ 0 := by decide +kernel

theorem witness_IntegerConversion : ((8 = 8 ∨ 8 = 32) ∧ (32 = 8 ∨ 32 = 32)) ∧ (63 < 64 ∧ 63 ≠ 0x20) := by decide +kernel

theorem witness_SpecialRegisterReads : AllIssue P
    [.mfsr c1 (.s 1) .grpid, .mfsr c0 (.v 158) .cycle, .mfsr c0 (.v 0) .laneid, .mfsr c1 (.s 1) .allow,
     .mfsr c1 (.s 1) .trialwin, .mfsr c0 (.v 2) .ebal, .mfsr c0 (.v 159) .roleid] := by
  unfold AllIssue State.Issues State.Inside State.Owned; decide +kernel

theorem witness_PlainForms : AllIssue P [.mtsr c1 (.s 9), .mtsr c0 (.v 22), .nop c0, .nop cn, .yield c0, .yield cn] := by
  unfold AllIssue State.Issues State.Inside State.Owned; decide +kernel

/-- The index is the last register of the allotment. -/
theorem witness_IndexedMoves : let s := PS [(1, 159)]
    (∀ l, bitOf (s.active c0) l = true → (s.src false (.s 1) l).toNat < s.g.valloc)
    ∧ AllIssue s [.movri (cf 2) 9 (.s 1), .movwi (cf 2) (.s 1) 10] := by
  refine ⟨fun l _ => ?_, ?_⟩
  · exact (by decide : ((PS [(1, 159)]).src false (.s 1) 0).toNat < (PS [(1, 159)]).g.valloc)
  · unfold AllIssue State.Issues State.Inside State.Owned; decide +kernel

theorem witness_PredicateForms : AllIssue P
    [.pset c0 .and 3 1 2, .pset c0 .clr 7 0 0, .pset c0 .set 0 0 0, .pmov c0 159, .pmovPut c0 (.v 9) 0xFE] := by
  unfold AllIssue State.Issues State.Inside State.Owned; decide +kernel

theorem witness_ShuffleAndVote : AllIssue P
    [.shfl (cf 2) .xor 5 4 (.s 1), .shfl (cf 2) .up 5 4 (.v 1), .vote (cf 3) (.all 4) true 1,
     .vote (cf 3) (.ballot (.s 12)) false 2, .vote (cf 3) (.any 0) true 1, .vote (cf 3) (.eq 7) true 1] := by
  unfold AllIssue State.Issues State.Inside State.Owned; decide +kernel

/-- The tree of the second clause exists for every node and every idle value. -/
theorem witness_Reductions : AllIssue P
    [.vred (cf 4) .iadd (.s 30) 10, .vred (cf 4) .umax (.v 30) 10, .vred (cf 4) .fadd (.s 30) 10, .vred (cf 4) .fmin (.s 30) 10]
    ∧ VRedOp.iadd ∉ [VRedOp.fadd, .fmin, .fmax] ∧ (VRedOp.fmax, 0x7FC00000#32) ∈ [(VRedOp.fadd, 0x80000000#32),
      (.fmin, 0x7FC00000#32), (.fmax, 0x7FC00000#32)]
    ∧ ∀ (node : U32 → U32 → U32) (slot : Nat → U32), ∃ tree : Nat → Nat → U32, (∀ l, tree 0 l = slot l)
      ∧ ∀ k l, tree (k + 1) l = node (tree k (2 * l)) (tree k (2 * l + 1)) := by
  refine ⟨by unfold AllIssue State.Issues State.Inside State.Owned; decide, by decide +kernel, by decide +kernel, fun node slot => ?_⟩
  exact ⟨fun k => Nat.rec slot (fun _ f l => node (f (2 * l)) (f (2 * l + 1))) k, fun _ => rfl, fun _ _ => rfl⟩

/-- A block of kind 11 at 0x100: a header there, and the words that lead to it. -/
def PB : State :=
  { ((PS [(1, 0x100)]).putPhys (fetchPage + 0x100) (bytesLE 8 fetchHdrWord.toNat)) with iset := 0x80000000, ilane := 31 }

theorem witness_TransferEntersBlock :
    ((findK PB.groups 4).isSome = true ∧ 31 < (PB.grp 4).threads.length ∧ ((PB.grp 4).th 31).trial = none
      ∧ PB.revokedAt (PB.cidOf 4) 0x100 = false ∧ PB.trialSeg (PB.cidOf 4) 0x100 = none
      ∧ ∃ q w, PB.fetchWord (PB.grp 4).core (PB.cidOf 4) 0x100 = (q, .ok w) ∧ (headerOk w && hdrKind w == 3) = true)
    ∧ (∃ q w, PB.fetchWord (PB.grp 4).core (PB.cidOf 4) 0x108 = (q, .ok w) ∧ (!headerOk w) = true)
    ∧ (2 ^ 54 ≤ (0x40000000000000#64).toNat ∧ (0x104#64).toNat % 8 ≠ 0) :=
  ⟨⟨by decide +kernel, by decide +kernel, by decide +kernel, by decide +kernel, by decide +kernel, okThat (p := fun _ w => headerOk w && hdrKind w == 3) (by decide +kernel)⟩,
    okThat (p := fun _ w => !headerOk w) (by decide +kernel), by decide +kernel⟩

theorem witness_Transferring :
    AllIssue PB [.br c0 0x20, .brc c0 .lane true 3 0x20, .brc c0 .any true 3 0x20, .brc c0 .all true 3 0x20, .ret c0 (.s 1),
      .call c0 158 0x20, .calli c0 6 (.s 1)]
    ∧ (∀ l, l < 32 → (PB.g.th l).entering = none)
    ∧ (∀ l, bitOf (PB.active c0) l = true → PB.g.inTrial l = false ∧ l < PB.g.threads.length ∧ (PB.g.th l).kind ≠ 1)
    ∧ (∃ leaf loc, PB.HeadersAt none false (PB.active c0) (fun l => (PB.g.th l).hdr + (0x20#24).signExtend 64 * 8) leaf loc)
    ∧ ∃ leaf loc, PB.HeadersAt (some 3) false (PB.active c0) (fun l => PB.src true (.s 1) l) leaf loc := by
  refine ⟨?_, by decide +kernel, lanesAll (by decide +kernel), ⟨_, _, headersAt_of (by decide +kernel)⟩,
    ⟨_, _, headersAt_of (by decide +kernel)⟩⟩
  unfold AllIssue State.Issues State.Inside State.Owned; decide +kernel

/-- `PB` whose core holds the translation and the copy of the header. -/
def PBq : State := PB.modCore 0 (fun c => { c with
  tlb := [PB.leafOf 1 0x100], icache := [⟨1, 0x100, PB.placeOf 1 0x100, fetchHdrWord⟩] })

/-- Where lane 31 of `PBq` stands after it has left for its target and before it enters. -/
def PBd (call : Bool) (link : Option Nat) : State :=
  let g := PBq.modGrp 4 (fun g => g.takeTransfer 31 0x100#64 call link)
  let g := (g.passWord 4 (PBq.iset &&& ~~~0x80000000)).modGrp 4 (fun g =>
    g.modTh (maskOf [31]) (fun t => if t.trial.isNone then t.markEnd else t))
  g.modGrp 4 (fun g => { g with threads := g.threads.map Thread.fallOut })

theorem lands_of {call : Bool} {link : Option Nat} {target : Nat → Word} (hm : (lanesOf (PBq.active c0)).map
      (fun l => (l, target l)) = [(31, 0x100#64)]) (hk : PBq.iset &&& ~~~(PBq.active c0) = PBq.iset &&& ~~~0x80000000)
    (ha : ∀ l, bitOf (PBq.active c0) l = true → l = 31)
    (h0 : PBq.fetchesQuietly 0 1 0x100 fetchHdrWord = true) (hg : PBq.segmentOk 4 31 0x100#64 = true)
    (h1 : (PBd call link).fetchesQuietly 0 1 0x100 fetchHdrWord = true)
    (hd : (PBd call link).segmentOk 4 31 0x100#64 = true)
    (hc : ((PBd call link).grp 4).core = 0 ∧ (PBd call link).cidOf 4 = 1)
    (he : (List.range 31).all (fun l => (((PBd call link).grp 4).th l).entering.isNone) = true
      ∧ (((PBd call link).grp 4).th 31).entering = some (if call then 2 else 1) ∧ (((PBd call link).grp 4).th 31).pc = 0x100#64)
    (hn : ((((PBd call link).modGrp 4 (fun g => g.enterBlock 31 0x100#64 fetchHdrWord ((PBd call link).holdClock 4))).grp 4).th
      31).entering = none) (hq : (PBq.g.th 31).kind ≠ 1) :
    PBq.lands call link (PBq.active c0) target := by
  have hf : PBq.fetchWord (PBq.grp 4).core (PBq.cidOf 4) 0x100 = (PBq, .ok fetchHdrWord) := quiet_fetch_of h0
  have ht : PBq.targetHeader 4 31 0x100#64 call = (PBq, .ok fetchHdrWord) := by
    unfold State.targetHeader State.fetchHeader
    rw [hg]
    simp only [show (0x100#64).toNat = 0x100 from rfl, show inSpace 0x100 = true from rfl, hf]
    cases call <;> rfl
  have hD : PBq.depart PBq.cur call link [(31, 0x100#64)] (PBq.iset &&& ~~~0x80000000) =
      (((PBq.modGrp 4 (fun g => g.takeTransfer 31 0x100#64 call link)).passWord 4 (PBq.iset &&& ~~~0x80000000)).modGrp 4 (fun g =>
        g.modTh (maskOf [31]) (fun t => if t.trial.isNone then t.markEnd else t)), []) := by
    have hk1 : ((PBq.grp 4).th 31).kind ≠ 1 := hq
    show PBq.depart 4 call link _ _ = _
    simp only [State.depart, State.transferLanes, ht, beq_iff_eq, hk1, Bool.and_eq_true, and_false, if_false]
    rfl
  have hE : (PBd call link).enterLanes 4 laneList [] =
      ((PBd call link).modGrp 4 (fun g => g.enterBlock 31 0x100#64 fetchHdrWord ((PBd call link).holdClock 4)), []) := by
    have hs : ∀ (ls : List Nat), (∀ l ∈ ls, (((PBd call link).grp 4).th l).entering = none) → ∀ more,
        (PBd call link).enterLanes 4 (ls ++ more) [] = (PBd call link).enterLanes 4 more [] := by
      intro ls
      induction ls with
      | nil => intro _ more; rfl
      | cons l ls ih =>
        intro h more
        rw [List.cons_append, State.enterLanes]
        simp only [h l (List.mem_cons_self ..)]
        exact ih (fun k hk => h k (List.mem_cons_of_mem _ hk)) more
    have hl : laneList = List.range 31 ++ [31] := by decide
    have ht2 : (PBd call link).targetHeader 4 31 0x100#64 call = (PBd call link, .ok fetchHdrWord) := by
      have hf2 := quiet_fetch_of h1
      unfold State.targetHeader State.fetchHeader
      rw [hd, hc.1, hc.2]
      simp only [show (0x100#64).toNat = 0x100 from rfl, show inSpace 0x100 = true from rfl, hf2]
      cases call <;> rfl
    rw [hl, hs _ (fun l hl => by simpa using List.all_eq_true.1 he.1 l hl), State.enterLanes]
    simp only [he.2.1, he.2.2]
    cases call <;> simp [State.transferInto, ht2, State.enterLanes]
  have hb : ((PBq.depart PBq.cur call link [(31, 0x100#64)] (PBq.iset &&& ~~~0x80000000)).1.enterEach PBq.cur)
      = (PBd call link).enterLanes 4 laneList [] := by rw [hD]; rfl
  simp only [State.lands, hm, hk, hb]
  rw [hD, hE]
  exact ⟨rfl, rfl, fun l hl => by rw [ha l hl]; exact hn⟩

theorem witness_Transferring_lands :
    PBq.lands false none (PBq.active c0) (fun l => (PBq.g.th l).hdr + (0x20#24).signExtend 64 * 8)
    ∧ PBq.lands true (some 158) (PBq.active c0) (fun l => PBq.src true (.s 1) l) := by
  constructor <;> refine lands_of ?_ ?_ (lanesAll ?_) ?_ ?_ ?_ ?_ ?_ ?_ ?_ ?_ <;> decide +kernel

theorem witness_NoActiveThread : AllIssue P [.iadd cn .nat (.v 1) (.v 2) (.v 3), .exit cn, .st cn .g .b32 .rlx .wg (.v 1) (.s 2) 0]
    ∧ (Instr.exit cn).ctl? = some cn ∧ P.active cn = 0 ∧ risingK P.groups = true := by
  unfold AllIssue State.Issues State.Inside State.Owned; decide +kernel

theorem witness_Exit : AllIssue P [.exit c0, .exit cn]
    ∧ ∀ k, k < 8 → (P.conv P.g.wid k).state = .collecting → (P.conv P.g.wid k).owner = P.g.grpid →
      (P.conv P.g.wid k).declared &&& P.active c0 = 0 := by
  unfold AllIssue State.Issues State.Inside State.Owned; decide +kernel

theorem witness_BreakpointAndTrap : AllIssue P [.brk c0 0xFFFFF, .trap c0 0, .brk cn 1, .trap cn 2] := by
  unfold AllIssue State.Issues State.Inside State.Owned; decide +kernel

/-- A word with a reserved field, a privileged word outside system code, and a register past the allotment. -/
theorem witness_WordFaults :
    (P.hasGroup P.cur = true ∧ P.Owned P.cur ∧ P.g.inTrial P.ilane = false)
    ∧ (eventOnly (.iadd c0 .b32 (.v 1) (.v 2) (.v 3)) = false ∧ P.wordFault (.iadd c0 .b32 (.v 1) (.v 2) (.v 3)) = some Code.illegal)
    ∧ ({ P with objects := [] }).wordFault (.icinv c1 .all) = some Code.privileged
    ∧ (P.modGrp 4 (fun g => { g with valloc := 32 })).wordFault (.iadd c0 .nat (.v 32) (.v 2) (.v 3)) = some Code.regRange := by
  unfold State.Owned; decide +kernel
/-- Zeros stand at 0x110. -/
theorem witness_WordFaults_zeros : ((PB.grp 4).th 31).trial = none ∧ PB.revokedAt (PB.cidOf 4) 0x110 = false
    ∧ PB.trialSeg (PB.cidOf 4) 0x110 = none
    ∧ ∃ q w, PB.fetchWord (PB.grp 4).core (PB.cidOf 4) 0x110 = (q, .ok w) ∧ (w == 0) = true :=
  ⟨by decide +kernel, by decide +kernel, by decide +kernel, okThat (p := fun _ w => w == 0) (by decide +kernel)⟩

theorem witness_RoleWaits : AllIssue P [.role c0 0] ∧ (0#2).toNat ≤ (P.regOf P.cur).rcb.roles.length
    ∧ ∀ l, l < 32 → (P.g.th l).held = .no := by
  unfold AllIssue State.Issues State.Inside State.Owned; decide +kernel

/-! ### Trials -/

/-- v10 of lane 31 holds 0x2000, s4 the allowance, and trialwin a window of 64 bytes and 8 registers. -/
def TT (allow : Word) : State :=
  (PT (bytesLE 8 0xF802000000000000) [(4, allow)] [(351, 0x2000)]).modGrp 4
    (fun g => g.modTh 0x80000000 (fun t => { t with trialwin := 0x1840000000000000#64 }))
def tryWord : Instr := .tryT (cf 1) 24 10 4
/-- The lane in its candidate. -/
def TI (allow : Word) : State := after tryWord (TT allow)

theorem witness_Trials_plain : let s := TT 5
    (∃ leaf loc, s.HeadersAt (some 2) true (s.active (cf 1)) (s.src true (.v 10)) leaf loc)
    ∧ ∀ l, bitOf (s.active (cf 1)) l = true → windowOk (s.ownRead s.cur .win l) = true :=
  ⟨⟨_, _, headersAt_of (by decide +kernel)⟩, lanesAll (by decide +kernel)⟩

theorem witness_Trials :
    (let s := TT 5
      let ops : Ops := { a := s.srcs true (.v 10), b := s.srcs true (.s 4), c := laneList.map (s.ownRead s.cur .win) }
      AllIssue s [tryWord] ∧ (∀ p ∈ s.g.pending, p.id ≠ s.nextId)
      ∧ (((s.startPend tryWord (cf 1) (s.active (cf 1)) .inTrial ops).advance s.cur (s.iset &&& ~~~(s.active (cf 1)))).tryLanes
          s.cur s.nextId 24 1 ops (lanesOf (s.active (cf 1))) 0 []).2 = (0, [])
      ∧ (∀ l, l < 32 → bitOf (s.active (cf 1)) l = true → l < s.g.threads.length))
    ∧ (let s := TI 5
      let i := Instr.tret c0 (.v 2)
      s.hasGroup s.cur = true ∧ s.wordFault i = none ∧ s.g.inTrial s.ilane = true ∧ bitOf s.iset s.ilane = true ∧ s.Inside
      ∧ ∀ l, l < 32 → bitOf s.iset l = true → l < s.g.threads.length ∧ ∃ tr, (s.g.th l).trial = some tr
        ∧ (decide (vtop i ≤ 8 * tr.vlim) && decide (0 < (s.g.th l).allow) && !namesOwnFlag c0 (s.g.th l)
            && decide (tr.ret ≠ tr.homeHdr + wordN ((tr.homeLen + 1) * 8))
            && s.g.pending.all (fun p => p.id != tr.pend || p.dead.isEmpty)) = true)
    ∧ (let s := TI 0
      let m := filterLanes s.iset (fun l => (s.grp 4).inTrial l && ((s.grp 4).th l).allow == 0)
      s.hasGroup 4 = true ∧ m = 0x80000000
      ∧ ∀ l, l < 32 → bitOf m l = true → ((s.grp 4).th l).entering = none
        ∧ ∃ tr, ((s.grp 4).th l).trial = some tr ∧ (decide (tr.ret ≠ tr.homeHdr + wordN ((tr.homeLen + 1) * 8))
          && (s.grp 4).pending.all (fun p => p.id != tr.pend || p.dead.isEmpty)) = true)
    ∧ (let s := TI 0
      bitOf s.iset 31 = true ∧ (s.grp 4).inTrial 31 = true ∧ ((s.grp 4).th 31).allow = 0
        ∧ s.dueHold 4 (s.atPort 4 31 s.iset none 0).cycle = none) := by
  refine ⟨by unfold AllIssue State.Issues State.Inside State.Owned; decide,
    ⟨by decide +kernel, by decide +kernel, by decide +kernel, by decide +kernel, by unfold State.Inside; decide, fun l hl h => ⟨?_, someThat ?_⟩⟩,
    ⟨by decide +kernel, by decide +kernel, fun l hl h => ⟨?_, someThat ?_⟩⟩, by decide +kernel⟩ <;> revert l <;> decide +kernel

/-! ### Memory -/

/-- Bytes at 0x200. -/
def PA : State := PM [1, 2, 3, 4, 5, 6, 7, 8] [(1, 0x1F8)]

theorem witness_LoadsAndAccesses_conditions :
    ((PA.grp 4).th 31).trial = none ∧ 0 < 8 ∧ (bytesLE 8 0).length = 8 ∧ 0x204 % 8 ≠ 0 ∧ 0x200 % 8 = 0
      ∧ (2 ^ 54 ≤ 2 ^ 54 ∧ 2 ^ 54 % 8 = 0) ∧ PA.storeVisible 4 (4096 + 128 * 160 - 4) 8 = false
      ∧ PA.storeVisible 4 (2 ^ 22) 8 = false ∧ 4088 + 8 ≤ PA.spBytes (PA.wgOf 4) := by decide +kernel
theorem witness_LoadsAndAccesses_reads :
    ∃ q m, PA.accessG (some (PA.grp 4).core) (PA.cidOf 4) 0x200 8 .read = (q, .ok (.mem m)) ∧ (!q.poisoned m 8) = true :=
  okMem (p := fun (q : State) m => !q.poisoned m 8) (by decide +kernel)
def PAbad : State := { PA with poison := (match PA.target (fetchPage + 0x207) with | some (.mem m) => [m] | _ => []) }
theorem witness_LoadsAndAccesses_poison :
    ∃ q m, PAbad.accessG (some (PAbad.grp 4).core) (PAbad.cidOf 4) 0x200 8 .read = (q, .ok (.mem m)) ∧ q.poisoned m 8 = true :=
  okMem (p := fun (q : State) m => q.poisoned m 8) (by decide +kernel)
theorem witness_LoadsAndAccesses :
    (let i := Instr.ld (cf 1) .g .b64 .sc .dev (.v 158) (.s 1) 1
      let ops : Ops := { a := PA.bases (.s 1), b := [], c := [] }
      let lanes := actLanes (cf 1) (PA.active (cf 1)) PA.ilane
      let q := State.turnOf (ldLane .g .b64 (.v 158) 1 PA.cur ops PA.nextId) lanes (PA.begun i (cf 1) ops)
      AllIssue PA [i] ∧ ∀ l ∈ lanes,
        ((q l).laneLoad PA.cur l .g (effAddr (nth (PA.bases (.s 1)) 0 l) 1 8).toNat 8).2 = .ok 0x0807060504030201)
    ∧ (let s := PM [] [(1, 0)]
      let i := Instr.ld (cuf 8) .s .b8 .rlx .wg (.s 2) (.s 1) 255
      let ops : Ops := { a := s.bases (.s 1), b := [], c := [] }
      let lanes := actLanes (cuf 8) (s.active (cuf 8)) s.ilane
      let q := State.turnOf (ldLane .s .b8 (.s 2) 255 s.cur ops s.nextId) lanes (s.begun i (cuf 8) ops)
      AllIssue s [i] ∧ ∀ l ∈ lanes,
        ((q l).laneLoad s.cur l .s (effAddr (nth (s.bases (.s 1)) 0 l) 255 1).toNat 1).2 = .ok 0) := by
  refine ⟨⟨?_, ?_⟩, ⟨?_, ?_⟩⟩
  · unfold AllIssue State.Issues State.Inside State.Owned; decide +kernel
  · exact fun l hl => okIs (by revert l; decide)
  · unfold AllIssue State.Issues State.Inside State.Owned; decide +kernel
  · exact fun l hl => okIs (by revert l; decide)

/-- `PA` with a constant block of 64 bytes at 0x200. -/
def PK : State := { PA with objects := PA.objects.map (fun o => (o.1, { o.2 with
  segs := o.2.segs ++ [{ kind := segConst, va := 0x200, memsize := 64, filesize := 64 }] })) }

theorem witness_LoadsAndAccesses_plain :
    (∀ x ∈ [(Space.g, Reg.s 1, 1#11, 0), (.k, .s 9, 7#11, 0x200), (.s, .s 1, 0x7FF#11, 0)],
      let i := Instr.ld (cf 1) x.1 .b64 .rlx .grp (.v 158) x.2.1 x.2.2.1
      let ea (l : Nat) : Nat := (effAddr (nth (PK.bases x.2.1) 0 l) x.2.2.1 8).toNat
      AllIssue PK [i] ∧ ∀ l ∈ actLanes (cf 1) (PK.active (cf 1)) PK.ilane, PK.g.inTrial l = false ∧ ea l % 8 = 0
        ∧ (match x.1 with
          | .g => true
          | .s => decide (ea l + 8 ≤ PK.spBytes (PK.wgOf PK.cur))
          | .k => (match PK.constBlock PK.cur with
            | some b => decide (x.2.2.2 = b.1 ∧ ea l < b.2 ∧ ea l < 2 ^ 32)
            | none => false)) = true)
    ∧ (∃ leaf loc, PK.Plain (some PK.g.core) (PK.cidOf PK.cur) 8 .read ((actLanes (cf 1) (PK.active (cf 1)) PK.ilane).map
        (fun l => 0 + (effAddr (nth (PK.bases (.s 1)) 0 l) 1 8).toNat)) leaf loc)
    ∧ ∃ leaf loc, PK.Plain (some PK.g.core) (PK.cidOf PK.cur) 8 .read ((actLanes (cf 1) (PK.active (cf 1)) PK.ilane).map
        (fun l => 0x200 + (effAddr (nth (PK.bases (.s 9)) 0 l) 7 8).toNat)) leaf loc := by
  refine ⟨?_, ⟨_, _, plain_of_plainly (by decide +kernel)⟩, ⟨_, _, plain_of_plainly (by decide +kernel)⟩⟩
  unfold AllIssue State.Issues State.Inside State.Owned; decide +kernel

theorem witness_Stores_plain :
    (let s := PM [] [(1, 0x200), (2, 0x1122334455667788)]
      let i := Instr.st (cf 1) .g .b64 .rel .dev (.s 2) (.s 1) 0
      let lanes := actLanes (cf 1) (s.active (cf 1)) s.ilane
      let ea (l : Nat) : Nat := (effAddr (nth (s.bases (.s 1)) 0 l) 0 8).toNat
      AllIssue s [i] ∧ (∀ l ∈ lanes, s.g.inTrial l = false)
      ∧ ∃ leaf loc, s.Plain (some s.g.core) (s.cidOf s.cur) 8 .write (lanes.map ea) leaf loc)
    ∧ ∀ q ∈ P.groups, ∀ p ∈ q.2.pending, p.id ≠ P.nextId := by
  refine ⟨⟨?_, by decide +kernel, ⟨_, _, plain_of_plainly (by decide +kernel)⟩⟩, by decide +kernel⟩
  unfold AllIssue State.Issues State.Inside State.Owned; decide +kernel

/-- In two lanes at addresses apart, in memory and in the scratchpad. -/
theorem witness_Atomics_plain :
    let s : State := { (PM [] [(2, 3)] [(32 * 8 + 30, 0x208), (32 * 8 + 31, 0x200)]) with iset := 0xC0000000 }
    let lanes := actLanes (cf 1) (s.active (cf 1)) s.ilane
    let ea (l : Nat) : Nat := (nth (s.bases (.v 8)) 0 l).toNat
    AllIssue s [.atom (cf 1) .g .b32 .add .rlx .wg (.v 4) (.v 8) (.s 2), .red (cf 1) .g .b32 .add .rlx .wg (.v 8) (.s 2),
      .atom (cf 1) .s .b32 .add .rlx .wg (.v 4) (.v 8) (.s 2)]
    ∧ (∀ l ∈ lanes, s.g.inTrial l = false ∧ ea l % 4 = 0 ∧ ea l + 4 ≤ s.spBytes (s.wgOf s.cur))
    ∧ (∀ k ∈ lanes, ∀ l ∈ lanes, k ≠ l → ea k + 4 ≤ ea l ∨ ea l + 4 ≤ ea k)
    ∧ ∃ leaf loc, s.Plain (some s.g.core) (s.cidOf s.cur) 4 .rmw (lanes.map ea) leaf loc
      ∧ ∀ k ∈ lanes, ∀ l ∈ lanes, k ≠ l → loc (ea k) + 4 ≤ loc (ea l) ∨ loc (ea l) + 4 ≤ loc (ea k) := by
  refine ⟨?_, by decide +kernel, by decide +kernel, ⟨_, _, plain_of_plainly (by decide +kernel), by decide +kernel⟩⟩
  unfold AllIssue State.Issues State.Inside State.Owned; decide +kernel

theorem witness_Stores :
    (let s := PM [] [(1, 0x200), (2, 0x1122334455667788)]
      let i := Instr.st (cf 1) .g .b64 .rel .dev (.s 2) (.s 1) 0
      let ops : Ops := { a := s.bases (.s 1), b := s.srcs true (.s 2), c := [] }
      let lanes := actLanes (cf 1) (s.active (cf 1)) s.ilane
      let q := State.turnOf (stLane .g .b64 0 s.cur ops s.nextId) lanes (s.begun i (cf 1) ops)
      AllIssue s [i] ∧ ∀ l ∈ lanes, ((q l).laneStore s.cur l .g (effAddr (nth (s.bases (.s 1)) 0 l) 0 8).toNat
        (bytesLE 8 (nth ops.b 0 l).toNat) (.on s.nextId)).2 = .ok ())
    -- the last word of the window of v159, and the last of the scratchpad
    ∧ ∀ ea ∈ [4096 + 128 * 160 - 4, 4092],
      let s := PM [] [(1, wordN ea)]
      let i := Instr.st (cf 1) .s .b32 .rlx .wg (.v 2) (.s 1) 0
      AllIssue s [i] ∧ ∀ l ∈ actLanes (cf 1) (s.active (cf 1)) s.ilane, s.g.inTrial l = false
        ∧ (effAddr (nth (s.bases (.s 1)) 0 l) 0 4).toNat % 4 = 0
        ∧ s.storeVisible s.cur (effAddr (nth (s.bases (.s 1)) 0 l) 0 4).toNat 4 = true := by
  refine ⟨⟨?_, ?_⟩, ?_⟩
  · unfold AllIssue State.Issues State.Inside State.Owned; decide +kernel
  · exact fun l hl => okIs (by revert l; decide)
  · unfold AllIssue State.Issues State.Inside State.Owned; decide +kernel

theorem witness_Atomics :
    ∀ x ∈ [(Space.g, some (Reg.v 4), 0x200), (.g, none, 0x200), (.s, some (.v 4), 0), (.s, some (.v 4), 4096)],
      let s := PM [5] [(1, wordN x.2.2), (2, 3)]
      let c := cf 1
      let i := if x.2.1.isSome then Instr.atom c x.1 .b32 .add .rlx .wg (.v 4) (.s 1) (.s 2) else .red c x.1 .b32 .add .rlx .wg (.s 1) (.s 2)
      let ops := s.atomOps .b32 .add (.s 1) (.s 2)
      let lanes := actLanes c (s.active c) s.ilane
      let q := State.turnOf (atomLane x.1 .b32 .add x.2.1 s.cur ops s.nextId) lanes (s.begun i c ops)
      AllIssue s [i] ∧ ∀ l ∈ lanes, ((q l).laneRmw s.cur x.1 (nth (s.bases (.s 1)) 0 l).toNat 4 .add (nth ops.b 0 l)
        (nth ops.c 0 l) (.on s.nextId)).2 = .ok (if x.1 = .g then 5 else 0) := by
  intro x hx
  refine ⟨?_, fun l hl => okIs ?_⟩
  · revert x; unfold AllIssue State.Issues State.Inside State.Owned; decide +kernel
  · revert l; revert x; decide +kernel

/-- `P` with a load that has not completed, of acquire order; what is younger stands behind it. -/
def PBehind : State :=
  P.modGrp 4 (fun g => { g with pending := [{
    id := 9, pc := 0, instr := .ld (cf 1) .g .b32 .acq .dev (.v 9) (.s 8) 0, lanes := 0xFFFFFFFF, done := 0
    flag := some 1, kind := .result, due := 0, ops := ⟨[], [], []⟩, recKey := 0, dead := [], entered := 0 }] })

theorem witness_OrderingForms : AllIssue P
    [.fence (cf 1) .sc .sys, .cflush (cf 1) true .dev (.v 2) 3, .pref c0 true (.s 2) 0x7FF]
    ∧ ∀ i ∈ [Instr.ld (cf 1) .g .b32 .rlx .grp (.v 1) (.v 2) 0, .fence (cf 1) .acq .dev],
      i.ctl? = some (cf 1) ∧ i.inOrder = true ∧ PBehind.Inside ∧ PBehind.hasGroup PBehind.cur = true
      ∧ PBehind.g.inTrial PBehind.ilane = false ∧ PBehind.wordFault i = none ∧ PBehind.ilane < 32
      ∧ PBehind.active (cf 1) ≠ 0 ∧ PBehind.mustWait i (PBehind.active (cf 1)) = true ∧ PBehind.refusedNow i = false := by
  unfold AllIssue State.Issues State.Inside State.Owned; decide +kernel

/-- Words whose operands are refused, behind the same load: a table of 2^31 slots, a ring at an odd address. -/
def PRefused : State := PBehind.modGrp 4 (fun g => { g with sregs := [(1, wordN (31 * 2 ^ 27)), (2, 9)] })
theorem witness_OrderingForms_refused :
    ∀ i ∈ [Instr.sprobe (cf 1) 3 1 (.v 2) 1, .wwaitseq (cf 1) .acq (.v 20) 7 2 none],
      i.ctl? = some (cf 1) ∧ i.inOrder = true ∧ PRefused.Inside ∧ PRefused.hasGroup PRefused.cur = true
      ∧ PRefused.g.inTrial PRefused.ilane = false ∧ PRefused.wordFault i = none ∧ PRefused.ilane < 32
      ∧ PRefused.active (cf 1) ≠ 0 ∧ PRefused.refusedNow i = true ∧ PRefused.Owned PRefused.cur
      ∧ (∀ l, PRefused.g.inTrial l = false) ∧ (∀ p ∈ PRefused.g.pending, p.id ≠ PRefused.nextId) := by
  have h : ∀ l, PRefused.g.inTrial l = false := by
    intro l
    by_cases hl : l < 32
    · revert l; decide +kernel
    · have h1 : PRefused.g.th l = Thread.absent := by
        have h2 : PRefused.g.threads.length = 32 := by decide +kernel
        unfold Group.th nth
        rw [List.getElem?_eq_none (by omega)]
        rfl
      unfold Group.inTrial
      rw [h1]; rfl
  have h2 : ∀ i ∈ [Instr.sprobe (cf 1) 3 1 (.v 2) 1, .wwaitseq (cf 1) .acq (.v 20) 7 2 none],
      i.ctl? = some (cf 1) ∧ i.inOrder = true ∧ PRefused.Inside ∧ PRefused.hasGroup PRefused.cur = true
      ∧ PRefused.g.inTrial PRefused.ilane = false ∧ PRefused.wordFault i = none ∧ PRefused.ilane < 32
      ∧ PRefused.active (cf 1) ≠ 0 ∧ PRefused.refusedNow i = true ∧ PRefused.Owned PRefused.cur
      ∧ (∀ p ∈ PRefused.g.pending, p.id ≠ PRefused.nextId) := by
    unfold State.Inside State.Owned; decide +kernel
  intro i hi
  obtain ⟨a1, a2, a3, a4, a5, a6, a7, a8, a9, a10, a11⟩ := h2 i hi
  exact ⟨a1, a2, a3, a4, a5, a6, a7, a8, a9, a10, h, a11⟩

theorem witness_PrivilegedInvalidation :
    ∀ i ∈ [Instr.icinv (cuf 1) .all, .tlbinv (cuf 1) (.range 2 4)],
      (P.hasGroup P.cur = true ∧ P.g.inTrial P.ilane = false ∧ P.ilane < 32 ∧ wellFormed i = true ∧ vtop i ≤ P.g.valloc)
      ∧ P.systemCode (P.cidOf P.cur) P.issuePc.toNat = true ∧ P.Inside ∧ P.active (cuf 1) ≠ 0 ∧ P.Owned P.cur
      ∧ P.mustWait i (P.active (cuf 1)) = false
      ∧ ({ P with objects := [] }).systemCode (P.cidOf P.cur) P.issuePc.toNat = false := by
  unfold State.Inside State.Owned; decide +kernel

/-- 512 slots fill the scratchpad of 4,096 bytes. -/
theorem witness_StoreProbe : let s := PM [] [(1, 9 * 2 ^ 27)]
    let t64 := (s.readS 1).toNat
    AllIssue s [.sprobe (cf 1) 3 1 (.v 2) 1] ∧ bits t64 21 0 % 8 = 0 ∧ bits t64 63 32 = 0 ∧ bits t64 26 22 = 0
    ∧ bits t64 31 27 ≤ 19 ∧ bits t64 21 0 + 8 * 2 ^ bits t64 31 27 = s.spBytes (s.wgOf s.cur) := by
  unfold AllIssue State.Issues State.Inside State.Owned; decide +kernel

theorem witness_Swatches : AllIssue P [.swf (cf 1) 6 (.v 1), .swc (cf 1) 3 6 1]
    ∧ (let s := PM [] [(1, 0)]
      let i := Instr.swc (cf 1) 3 6 1
      let ops : Ops := { a := s.srcs true (.v 6), b := laneList.map (fun l => (s.readV (6 + 2) l).setWidth 64),
                         c := s.srcs true (.s 1) }
      let lanes := lanesOf (s.active (cf 1))
      let q := State.turnOf (swcLane 3 s.cur ops s.nextId) lanes (s.begun i (cf 1) ops)
      AllIssue s [i] ∧ (s.readS 1).toNat % 2 ^ 26 = 0 ∧ (s.readS 1).toNat + 2 ^ 26 ≤ 2 ^ 54
      ∧ ∀ l ∈ lanes, ∃ p m, (q l).accessG (some s.g.core) (s.cidOf s.cur)
          ((s.readS 1).toNat + 64 * (((s.src true (.v 6) l).toNat * 0x9E3779B97F4A7C15 % 2 ^ 64) / 2 ^ 44)) 8 .rmw
          = (p, .ok (.mem m)) ∧ (!p.poisoned m 64) = true) := by
  refine ⟨by unfold AllIssue State.Issues State.Inside State.Owned; decide,
    by unfold AllIssue State.Issues State.Inside State.Owned; decide, by decide +kernel, by decide +kernel, fun l hl => okMem ?_⟩
  revert l; decide +kernel

/-- Two lanes, whose keys name buckets 0 and 1. -/
theorem witness_Swatches_plain :
    let s : State := { (PM [] [(1, 0)] [(32 * 7 + 30, 0x7733d000)]) with iset := 0xC0000000 }
    let lanes := lanesOf (s.active (cf 1))
    let ea (l : Nat) : Nat := (s.readS 1).toNat + 64 * (((s.src true (.v 6) l).toNat * 0x9E3779B97F4A7C15 % 2 ^ 64) / 2 ^ 44)
    AllIssue s [.swc (cf 1) 3 6 1] ∧ (s.readS 1).toNat % 2 ^ 26 = 0 ∧ (s.readS 1).toNat + 2 ^ 26 ≤ 2 ^ 54
    ∧ lanes.map ea = [64, 0]
    ∧ ∃ leaf loc, s.Plain (some s.g.core) (s.cidOf s.cur) 64 .rmw (lanes.map ea) leaf loc
      ∧ ∀ k ∈ lanes, ∀ l ∈ lanes, k ≠ l → loc (ea k) + 64 ≤ loc (ea l) ∨ loc (ea l) + 64 ≤ loc (ea k) := by
  refine ⟨?_, by decide +kernel, by decide +kernel, by decide +kernel, ⟨_, _, plain_of_plainly (by decide +kernel), by decide +kernel⟩⟩
  unfold AllIssue State.Issues State.Inside State.Owned; decide +kernel

/-! ## The memory order (spec/06) -/

/-- Bytes 0, 128 and 256 of the page of context 1, at page 6 of stack 0 (R7). -/
def locX : Loc := .mem 0x6000
def locY : Loc := .mem 0x6080
def locZ : Loc := .mem 0x6100

/-- A one-byte access at dev scope by one thread of the workgroup and group `p`, of region 2 in context 1. -/
def acc (p pos : Nat) (act : Act) (l : Loc) (o : Sys2Proof.Ord) : Event :=
  { places := [⟨.thread p p 0, pos, 0⟩], act := act, bytes := [l], ord := o, scope := .dev, ctx := some 1,
    rids := [2] }

/-- Message passing from P0 (events 0, 1) to P1 (2, 3), with these orders at the flag and `v` as the source of P1's first
read of the datum; then two increments of another byte (4, 5) and a second read of the datum (6). -/
def passing (o1 o2 : Sys2Proof.Ord) (v : Option Nat) : Execution :=
  { ev := [acc 0 0 .write locX .rlx, acc 0 1 .write locY o1, acc 1 0 .read locY o2, acc 1 1 .read locX .rlx,
           acc 0 2 .rmw locZ .rlx, acc 1 3 .rmw locZ .rlx, acc 1 2 .read locX .rlx],
    src := fun r l =>
      if r = 2 ∧ l = locY then some 1 else if r = 3 ∧ l = locX then v else if r = 5 ∧ l = locZ then some 4
      else if r = 6 ∧ l = locX then some 0 else none,
    co := fun l => if l = locX then [0] else if l = locY then [1] else if l = locZ then [4, 5] else [],
    st := fun _ => PM [] [] }

theorem passing_out (o1 o2 v) (n : Nat) (h : 7 ≤ n) : (passing o1 o2 v).e n = Event.none := by
  unfold Execution.e nth passing
  rw [List.getElem?_eq_none (by simpa using h)]; rfl

theorem passing_po (o1 o2 v) (a b : Nat) (h : (passing o1 o2 v).po a b = true) : a < 7 ∧ b < 7 := by
  constructor
  · by_contra hc
    simp [Execution.po, passing_out o1 o2 v a (by omega), Event.none] at h
  · by_contra hc
    simp [Execution.po, passing_out o1 o2 v b (by omega), Event.none] at h

theorem passing_bytes (o1 o2 v) (l : Loc) (n : Nat) (h : ((passing o1 o2 v).e n).bytes.contains l = true) :
    n < 7 ∧ (l = locX ∨ l = locY ∨ l = locZ) := by
  have hn : n < 7 := by
    by_contra hc
    simp [passing_out o1 o2 v n (by omega), Event.none] at h
  refine ⟨hn, ?_⟩
  have : n = 0 ∨ n = 1 ∨ n = 2 ∨ n = 3 ∨ n = 4 ∨ n = 5 ∨ n = 6 := by omega
  rcases this with rfl | rfl | rfl | rfl | rfl | rfl | rfl <;>
    simp [passing, Execution.e, nth, acc] at h <;> tauto

theorem passing_rel (o1 o2 v) (n : Nat) (h : ((passing o1 o2 v).e n).isRel = true) : n < 7 := by
  by_contra hc
  simp [passing_out o1 o2 v n (by omega), Event.none, Event.isRel] at h

theorem passing_acq (o1 o2 v) (n : Nat) (h : ((passing o1 o2 v).e n).isAcq = true) : n < 7 := by
  by_contra hc
  simp [passing_out o1 o2 v n (by omega), Event.none, Event.isAcq] at h

/-- Its events are plain accesses. -/
theorem passing_plain (o1 o2 v) (n : Nat) : ((passing o1 o2 v).e n).life = 0
    ∧ ((passing o1 o2 v).e n).dev = false ∧ ((passing o1 o2 v).e n).scopeOk = true
    ∧ ((passing o1 o2 v).e n).arrives = false ∧ ((passing o1 o2 v).e n).waits = false
    ∧ ((passing o1 o2 v).e n).mark = .no := by
  by_cases h : n < 7
  · have hn : n = 0 ∨ n = 1 ∨ n = 2 ∨ n = 3 ∨ n = 4 ∨ n = 5 ∨ n = 6 := by omega
    rcases hn with rfl | rfl | rfl | rfl | rfl | rfl | rfl <;>
      simp [passing, Execution.e, nth, acc, Event.scopeOk, Event.arrives, Event.waits]
  · rw [passing_out _ _ _ _ (by omega)]
    simp [Event.none, Event.scopeOk, Event.arrives, Event.waits]

theorem passing_mark (o1 o2 v) (n : Nat) : ((passing o1 o2 v).e n).mark = .no := (passing_plain o1 o2 v n).2.2.2.2.2

theorem passing_act (o1 o2 v) (n : Nat) : (∀ w k p, ((passing o1 o2 v).e n).act ≠ .arrive w k p)
    ∧ ∀ w k p, ((passing o1 o2 v).e n).act ≠ .wait w k p := by
  have h := (passing_plain o1 o2 v n).2.2.2
  refine ⟨fun w k p hh => ?_, fun w k p hh => ?_⟩
  · have := h.1; simp [Event.arrives, hh] at this
  · have := h.2.1; simp [Event.waits, hh] at this

theorem passing_eng (o1 o2 v) {a b : Nat} : ¬(passing o1 o2 v).Eng a b := by
  intro h
  cases h <;> simp_all [passing_mark]

/-- A rank under which every edge of happens-before rises. -/
theorem passing_hb (o1 o2 v) (rank : Nat → Nat)
    (hpo : ∀ a, a < 7 → ∀ b, b < 7 → (passing o1 o2 v).po a b = true → rank a < rank b)
    (hsw : ∀ l ∈ [locX, locY, locZ], ∀ w, w < 7 → ∀ r, r < 7 → ∀ a, a < 7 → ∀ b, b < 7 →
      (passing o1 o2 v).swBy l w r a b = true → rank a < rank b) (a b : Nat)
    (h : (passing o1 o2 v).Hb a b) : rank a < rank b := by
  induction h with
  | po _ _ h => exact hpo _ (passing_po _ _ _ _ _ h).1 _ (passing_po _ _ _ _ _ h).2 h
  | @sw a b l w r _ _ h =>
    have h' := h
    simp only [Execution.swBy, Execution.writesAt, Execution.readsAt, Execution.head, Execution.tail,
      Bool.and_eq_true] at h'
    have hw := passing_bytes _ _ _ _ _ h'.1.1.1.1.1.1.2
    have hr := passing_bytes _ _ _ _ _ h'.1.1.1.1.1.2.2
    exact hsw l (by simpa using hw.2) w hw.1 r hr.1 a (passing_rel _ _ _ _ h'.1.1.1.1.2.1) b
      (passing_acq _ _ _ _ h'.1.1.1.2.1) h
  | weir _ _ h =>
    obtain ⟨_, _, wid, k, p, hw, _⟩ := h
    exact absurd hw ((passing_act _ _ _ _).1 _ _ _)
  | stamp _ _ h =>
    exact absurd h.1 (by rw [passing_mark]; simp)
  | bo _ _ h =>
    obtain ⟨_, _, _, hm, _⟩ := h
    exact absurd hm (by rw [passing_mark]; simp)
  | eng _ _ h => exact absurd h (passing_eng _ _ _)
  | halts _ _ h => exact absurd h.2.2 (by rw [(passing_plain _ _ _ _).1, (passing_plain _ _ _ _).1]; omega)
  | trans _ _ h1 h2 => omega

/-- The execution in which P1 sees the flag and the datum. -/
def passed : Execution := passing .rel .acq (some 0)
/-- The same without order, in which it sees the flag and not the datum: MP.rlx of R155. -/
def stale : Execution := passing .rlx .rlx none
/-- With the order of MP.relacq and the datum not seen. -/
def unseen : Execution := passing .rel .acq none

def passedRank (n : Nat) : Nat := nth [0, 1, 3, 4, 2, 6, 5] 0 n
/-- Ranks of the events on one byte. -/
def staleRank (l : Loc) (n : Nat) : Nat := if l = locX then nth [2, 3, 0, 1, 4, 4, 3] 0 n else passedRank n

/-- Edges of one byte are those of a byte that some event acts on. -/
theorem passing_com (o1 o2 v) (l : Loc) (a b : Nat)
    (h : (passing o1 o2 v).rfAt l a b = true ∨ (passing o1 o2 v).coAt l a b = true ∨ (passing o1 o2 v).frAt l a b = true)
    (ha : ((passing o1 o2 v).e a).bytes.contains l = true) (hb : ((passing o1 o2 v).e b).bytes.contains l = true)
    (rank : Loc → Nat → Nat)
    (hr : ∀ k ∈ [locX, locY, locZ], ∀ i, i < 7 → ∀ j, j < 7 → ((passing o1 o2 v).rfAt k i j = true
      ∨ (passing o1 o2 v).coAt k i j = true ∨ (passing o1 o2 v).frAt k i j = true) → rank k i < rank k j) :
    rank l a < rank l b := by
  have h1 := passing_bytes _ _ _ _ _ ha
  have h2 := passing_bytes _ _ _ _ _ hb
  exact hr l (by simpa using h1.2) a h1.1 b h2.1 h

theorem passing_rf (o1 o2 v) (l : Loc) (a b : Nat) (hv : v = none ∨ v = some 0)
    (h : (passing o1 o2 v).rfAt l a b = true) : a < 7 ∧ b < 7 ∧ (l = locX ∨ l = locY ∨ l = locZ) := by
  simp only [Execution.rfAt, Execution.readsAt, Bool.and_eq_true] at h
  have h1 := passing_bytes _ _ _ _ _ h.1.2
  refine ⟨?_, h1.1, h1.2⟩
  have h2 := h.2
  simp only [passing] at h2
  rcases hv with rfl | rfl <;> split at h2 <;> (try split at h2) <;> (try split at h2) <;> (try split at h2) <;>
    simp at h2 <;> omega

theorem passing_lanes (o1 o2 v) (a b : Nat) : ((passing o1 o2 v).e a).lanesOfOne ((passing o1 o2 v).e b) = false := by
  by_cases ha : a < 7
  · by_cases hb : b < 7
    · have ha' : a = 0 ∨ a = 1 ∨ a = 2 ∨ a = 3 ∨ a = 4 ∨ a = 5 ∨ a = 6 := by omega
      have hb' : b = 0 ∨ b = 1 ∨ b = 2 ∨ b = 3 ∨ b = 4 ∨ b = 5 ∨ b = 6 := by omega
      rcases ha' with rfl | rfl | rfl | rfl | rfl | rfl | rfl <;> rcases hb' with rfl | rfl | rfl | rfl | rfl | rfl | rfl <;> rfl
    · rw [passing_out _ _ _ _ (Nat.le_of_not_lt hb)]; simp [Event.lanesOfOne, Event.none]
  · rw [passing_out _ _ _ _ (Nat.le_of_not_lt ha)]; simp [Event.lanesOfOne, Event.none]

/-- Its context reaches the bytes, by the identity. -/
theorem passing_reaches (l : Loc) (h : l = locX ∨ l = locY ∨ l = locZ) : (PM [] []).reaches 1 l := by
  have h1 : ∀ va ∈ [0, 128, 256], (match (PM [] []).walk 1 va with
      | .ok e => decide ((PM [] []).target (e.pa va) = some (.mem (0x6000 + va)))
      | .error _ => false) = true := by decide +kernel
  have h2 : ∀ va ∈ [0, 128, 256], (PM [] []).reaches 1 (.mem (0x6000 + va)) := by
    intro va hva
    have h3 := h1 va hva
    revert h3
    cases hw : (PM [] []).walk 1 va with
    | error _ => simp
    | ok e => exact fun h3 => ⟨va, e, hw, by simpa using h3⟩
  rcases h with rfl | rfl | rfl
  · exact h2 0 (by simp)
  · exact h2 128 (by simp)
  · exact h2 256 (by simp)

theorem passing_wf (o1 o2 v) (hv : v = none ∨ v = some 0) : (passing o1 o2 v).WellFormed where
  scopes i := (passing_plain o1 o2 v i).2.2.1
  co_writes l w := by
    constructor
    · intro h
      simp only [passing] at h
      split at h
      · next hl => subst hl; simp at h; subst h; rfl
      · split at h
        · next hl => subst hl; simp at h; subst h; rfl
        · split at h
          · next hl => subst hl; simp at h; rcases h with rfl | rfl <;> rfl
          · simp at h
    · intro h
      simp only [Execution.writesAt, Bool.and_eq_true] at h
      have h1 := passing_bytes _ _ _ _ _ h.2
      have hw : w = 0 ∨ w = 1 ∨ w = 2 ∨ w = 3 ∨ w = 4 ∨ w = 5 ∨ w = 6 := by omega
      rcases hw with rfl | rfl | rfl | rfl | rfl | rfl | rfl <;>
        simp [passing, Execution.e, nth, acc, Event.writes, Event.updates, Event.arrives] at h <;> subst h <;> simp [passing, locX, locY, locZ]
  co_once l := by
    simp only [passing]
    split
    · simp
    · split
      · simp
      · split <;> simp
  src_writes r l w _ h := by
    simp only [passing] at h
    split at h
    · next hl => obtain ⟨rfl, rfl⟩ := hl; simp at h; subst h; exact ⟨rfl, rfl⟩
    · split at h
      · next hl => obtain ⟨rfl, rfl⟩ := hl; rcases hv with rfl | rfl <;> simp at h; subst h; exact ⟨rfl, rfl⟩
      · split at h
        · next hl => obtain ⟨rfl, rfl⟩ := hl; simp at h; subst h; exact ⟨rfl, rfl⟩
        · split at h
          · next hl => obtain ⟨rfl, rfl⟩ := hl; simp at h; subst h; exact ⟨rfl, rfl⟩
          · simp at h
  src_whole r l l' w _ h hr hw := by
    have h0 : l = l' := by
      have hl : (passing o1 o2 v).readsAt l r = true := by
        simp only [passing] at h
        split at h
        · next hl => obtain ⟨rfl, rfl⟩ := hl; rfl
        · split at h
          · next hl => obtain ⟨rfl, rfl⟩ := hl; rfl
          · split at h
            · next hl => obtain ⟨rfl, rfl⟩ := hl; rfl
            · split at h
              · next hl => obtain ⟨rfl, rfl⟩ := hl; rfl
              · simp at h
      simp only [Execution.readsAt, Bool.and_eq_true] at hl hr
      have h1 := passing_bytes _ _ _ _ _ hl.2
      have hn : r = 0 ∨ r = 1 ∨ r = 2 ∨ r = 3 ∨ r = 4 ∨ r = 5 ∨ r = 6 := by omega
      rcases hn with rfl | rfl | rfl | rfl | rfl | rfl | rfl <;>
        simp [passing, Execution.e, nth, acc, Event.reads, Event.updates, Event.arrives, Event.waits] at hl hr <;> rw [hl, hr]
    subst h0; exact h
  co_alike l l' a b _ _ hm ha hb h := by
    have h0 : l = l' := by
      simp only [Execution.writesAt, Bool.and_eq_true] at ha
      have h1 := passing_bytes _ _ _ _ _ ha.2
      have hn : a = 0 ∨ a = 1 ∨ a = 2 ∨ a = 3 ∨ a = 4 ∨ a = 5 ∨ a = 6 := by omega
      simp only [Execution.coAt, passing] at h
      split at h
      · rcases hn with rfl | rfl | rfl | rfl | rfl | rfl | rfl <;> simp [comesBefore] at h
      · split at h
        · rcases hn with rfl | rfl | rfl | rfl | rfl | rfl | rfl <;> simp [comesBefore] at h
        · split at h
          · next hl =>
            subst hl
            rcases hn with rfl | rfl | rfl | rfl | rfl | rfl | rfl <;>
              simp [passing, Execution.e, nth, acc, Event.writes, Event.updates, Event.arrives, comesBefore] at h ha
            exact ha.symm
          · simp [comesBefore] at h
    subst h0; exact h
  lanes l a b _ _ h := by
    rw [passing_lanes] at h; cases h
  phases l a b c _ _ _ h _ _ _ := by
    simp [Execution.ao, (passing_plain o1 o2 v a).2.2.2.1] at h
  ranks l a b _ _ h := by
    rw [(passing_plain o1 o2 v a).2.2.2.1] at h; cases h
  waits l a r wid k n _ _ h := absurd h ((passing_act o1 o2 v a).1 _ _ _)

theorem passing_atomic (o1 o2 v) : (passing o1 o2 v).Atomic := by
  intro l m w _ _ hm hb _ hne hc
  have h1 := passing_bytes _ _ _ _ _ hb
  have hn : m = 0 ∨ m = 1 ∨ m = 2 ∨ m = 3 ∨ m = 4 ∨ m = 5 ∨ m = 6 := by omega
  rcases hn with rfl | rfl | rfl | rfl | rfl | rfl | rfl <;>
    simp [passing, Execution.e, nth, acc, Event.updates, Event.arrives] at hm hb <;> subst hb <;>
    simp [passing, Execution.coAt, comesBefore, locX, locY, locZ] at hc <;> omega

theorem passing_sc (o1 o2 v) (h1 : o1 ≠ .sc) (h2 : o2 ≠ .sc) (n : Nat) : ((passing o1 o2 v).e n).ord ≠ .sc := by
  by_cases h : n < 7
  · have hn : n = 0 ∨ n = 1 ∨ n = 2 ∨ n = 3 ∨ n = 4 ∨ n = 5 ∨ n = 6 := by omega
    rcases hn with rfl | rfl | rfl | rfl | rfl | rfl | rfl <;> simp [passing, Execution.e, nth, acc, h1, h2]
  · rw [passing_out _ _ _ _ (by omega)]; simp [Event.none]

theorem passing_causal (o1 o2 v) (hv : v = none ∨ v = some 0) (h1 : o1 ≠ .sc) (h2 : o2 ≠ .sc) (rank : Nat → Nat)
    (hb : ∀ a b, (passing o1 o2 v).Hb a b → rank a < rank b)
    (hrf : ∀ l ∈ [locX, locY, locZ], ∀ i, i < 7 → ∀ j, j < 7 → (passing o1 o2 v).rfAt l i j = true →
      passedRank i < passedRank j)
    (hpo : ∀ i, i < 7 → ∀ j, j < 7 → (passing o1 o2 v).po i j = true → passedRank i < passedRank j) :
    (passing o1 o2 v).Causal where
  hb_irrefl a h := by have := hb a a h; omega
  no_thin_air := ⟨passedRank, fun a b _ _ h => by
    rcases h with h | ⟨l, h⟩
    · exact hpo a (passing_po _ _ _ _ _ h).1 b (passing_po _ _ _ _ _ h).2 h
    · have h3 := passing_rf _ _ _ _ _ _ hv h
      exact hrf l (by simpa using h3.2.2) a h3.1 b h3.2.1 h⟩
  sc_order p hp _ := ⟨fun _ => 0, fun a _ ha _ _ => absurd (hp a ha).2 (passing_sc _ _ _ h1 h2 a)⟩

theorem passed_hb (a b : Nat) (h : passed.Hb a b) : passedRank a < passedRank b :=
  passing_hb _ _ _ passedRank (by decide +kernel) (by decide +kernel) a b h

theorem passed_coherent : passed.Coherent := fun l => ⟨passedRank, fun a b ha hb h => by
  by_cases hh : passed.Hb a b
  · exact passed_hb a b hh
  · exact passing_com _ _ _ l a b (by tauto) ha.2 hb.2 (fun _ => passedRank) (by decide +kernel)⟩

/-- An execution that meets the premises of every clause that has a conclusion: the axioms, a write that happens before a
read, message passing, two reads of one byte, and two increments of one byte that take it from different writes. -/
theorem witness_MemoryOrder : passed.WellFormed ∧ passed.Coherent ∧ passed.Atomic ∧ passed.Causal
    ∧ passed.writesAt locX 0 = true ∧ passed.po 0 1 = true ∧ passed.writesAt locY 1 = true
    ∧ (passed.e 1).isRel = true ∧ passed.src 2 locY = some 1 ∧ (passed.e 2).isAcq = true
    ∧ (passed.e 1).mutual (passed.e 2) = true ∧ passed.po 2 3 = true ∧ passed.readsAt locX 3 = true
    ∧ passed.po 3 6 = true ∧ passed.src 3 locX = some 0 ∧ passed.readsAt locX 6 = true
    ∧ (passed.e 4).act = .rmw ∧ (passed.e 5).act = .rmw ∧ (passed.e 4).mutual (passed.e 5) = true
    ∧ passed.readsAt locZ 4 = true ∧ passed.readsAt locZ 5 = true := by
  refine ⟨passing_wf _ _ _ (.inr rfl), passed_coherent, passing_atomic _ _ _,
    passing_causal _ _ _ (.inr rfl) (by decide) (by decide) passedRank passed_hb (by decide +kernel) (by decide +kernel), ?_⟩
  decide +kernel

theorem stale_hb (l : Loc) (a b : Nat) (h : stale.Hb a b) : staleRank l a < staleRank l b := by
  by_cases hl : l = locX
  · subst hl
    exact passing_hb _ _ _ (staleRank locX) (by decide +kernel) (by decide +kernel) a b h
  · have h1 : ∀ n, staleRank l n = passedRank n := fun n => by simp [staleRank, hl]
    rw [h1, h1]
    exact passing_hb _ _ _ passedRank (by decide +kernel) (by decide +kernel) a b h

/-- Nothing in it races. -/
theorem passing_races (o1 o2 v) (a b : Nat) : ¬(passing o1 o2 v).RacePair a b := by
  rintro ⟨h, _⟩
  rcases h with ⟨hc, hm⟩ | h
  · have h1 : ((passing o1 o2 v).e a).bytes.any (fun l => ((passing o1 o2 v).e b).bytes.contains l) = true := by
      simp only [Event.conflicts, Bool.and_eq_true] at hc; exact hc.1.1.1.1.2
    obtain ⟨l, hl, hl'⟩ := List.any_eq_true.1 h1
    have ha := (passing_bytes _ _ _ l a (List.contains_iff_mem.2 hl)).1
    have hb := (passing_bytes _ _ _ l b hl').1
    have : ∀ i, i < 7 → ∀ j, j < 7 → ((passing o1 o2 v).e i).mutual ((passing o1 o2 v).e j) = true := by
      intro i hi j hj
      have hi' : i = 0 ∨ i = 1 ∨ i = 2 ∨ i = 3 ∨ i = 4 ∨ i = 5 ∨ i = 6 := by omega
      have hj' : j = 0 ∨ j = 1 ∨ j = 2 ∨ j = 3 ∨ j = 4 ∨ j = 5 ∨ j = 6 := by omega
      rcases hi' with rfl | rfl | rfl | rfl | rfl | rfl | rfl <;> rcases hj' with rfl | rfl | rfl | rfl | rfl | rfl | rfl <;> rfl
    rw [this a ha b hb] at hm; cases hm
  · simp [Event.weirClash, (passing_plain o1 o2 v a).2.2.2, (passing_plain o1 o2 v b).2.2.2] at h

/-- So the axioms bind every event. -/
theorem passing_bound (o1 o2 v) : (fun i => ¬(passing o1 o2 v).Undefined i) = everyEvent :=
  funext (fun _ => eq_true (fun ⟨a, b, h, _⟩ => passing_races o1 o2 v a b h))

/-- MP.rlx: the flag is seen and the datum is not. Allowed. -/
theorem test_passing_without_order : stale.Allowed := by
  refine ⟨⟨fun i c l hc hl => ?_, fun r l w h => .inr ((passing_wf .rlx .rlx none (.inl rfl)).src_writes r l w trivial h).2,
    fun i c _ ⟨a, b, h, _⟩ => absurd h (passing_races _ _ _ a b)⟩, ?_⟩
  · have hb := passing_bytes _ _ _ l i (List.contains_iff_mem.2 hl)
    have h1 : c = 1 := by
      have hn : i = 0 ∨ i = 1 ∨ i = 2 ∨ i = 3 ∨ i = 4 ∨ i = 5 ∨ i = 6 := by omega
      rcases hn with rfl | rfl | rfl | rfl | rfl | rfl | rfl <;> exact (Option.some.inj hc).symm
    subst h1
    exact passing_reaches l hb.2
  · rw [show (fun i => ¬stale.Undefined i) = everyEvent from passing_bound _ _ _]
    exact ⟨passing_wf _ _ _ (.inl rfl),
      fun l => ⟨staleRank l, fun a b ha hb h => by
        by_cases hh : stale.Hb a b
        · exact stale_hb l a b hh
        · exact passing_com _ _ _ l a b (by tauto) ha.2 hb.2 staleRank (by decide +kernel)⟩,
      passing_atomic _ _ _,
      passing_causal _ _ _ (.inl rfl) (by decide) (by decide) (staleRank locX) (stale_hb locX) (by decide +kernel)
        (by decide +kernel),
      ⟨fun _ => 0, fun a _ ha _ _ => by
        exact absurd ha.2 (by simp [stale, (passing_plain _ _ _ a).2.1])⟩⟩

theorem witness_MemoryOrder_allowed : stale.Allowed ∧ ¬stale.Race :=
  ⟨test_passing_without_order, fun ⟨a, b, h⟩ => passing_races _ _ _ a b h⟩

/-- States of the clauses on the events of steps: no lane in a trial, every lane in one, a weir with room for an arrival. -/
theorem witness_MemoryOrder_events :
    ((∀ k, k < 32 → P.g.inTrial k = false) ∧ (∀ p ∈ P.g.pending, p.id ≠ P.nextId)
      ∧ AllIssue P [.ld (cf 1) .s .b32 .acq .wg (.v 3) (.v 2) 0, .st (cf 1) .s .b32 .rel .wg (.v 1) (.v 2) 0,
        .atom (cf 1) .s .b32 .cas .ar .wg (.v 4) (.v 2) (.v 6), .red (cf 1) .s .b32 .add .rlx .wg (.v 2) (.v 1),
        .fence (cf 1) .ar .dev])
    ∧ (let s := (TI 5).modGrp 4 (fun g => { g with threads := g.threads.map (fun t => { t with trial := ((TI 5).g.th 31).trial }) })
      (∀ k, k < 32 → s.g.inTrial k = true) ∧ s.ilane < 32 ∧ ∀ p ∈ s.g.pending, p.id ≠ s.nextId)
    ∧ (let s := PW [(0x10, weirAt 32 0 false)] [(1, 0x10)]
      AllIssue s [.warrive (cf 1) .rel 1 none] ∧ (∀ p ∈ s.g.pending, p.id ≠ s.nextId)
      ∧ s.active (cf 1) ≠ 0 ∧ (s.readS 1).toNat % 16 = 0 ∧ (s.readS 1).toNat + 16 ≤ s.spBytes (s.wgOf s.cur)
      ∧ ∃ y, ((s.wgOf s.cur).weir (s.readS 1).toNat).arrive (lanesOf (s.active (cf 1))).length
          (bits (optReg s none).toNat 15 0) none = .ok y) := by
  refine ⟨⟨by decide +kernel, by decide +kernel, ?_⟩, ⟨by decide +kernel, by decide +kernel, by decide +kernel⟩, ?_, by decide +kernel,
    by decide +kernel, by decide +kernel, by decide +kernel, ⟨_, rfl⟩⟩ <;>
    (unfold AllIssue State.Issues State.Inside State.Owned; decide +kernel)

/-- The words of the clause on plain accesses, at one address of memory. -/
theorem witness_MemoryOrder_plain :
    let s := PM [] [(1, 0x200), (2, 3)]
    let lanes := actLanes (cf 1) (s.active (cf 1)) s.ilane
    (∀ l ∈ lanes, s.g.inTrial l = false) ∧ (∀ p ∈ s.g.pending, p.id ≠ s.nextId)
    ∧ AllIssue s [.ld (cf 1) .g .b32 .acq .dev (.v 3) (.s 1) 0, .st (cf 1) .g .b32 .rel .dev (.s 2) (.s 1) 0,
      .atom (cf 1) .g .b32 .add .ar .dev (.v 4) (.s 1) (.s 2), .red (cf 1) .g .b32 .add .rlx .dev (.s 1) (.s 2)]
    ∧ (∃ leaf loc, s.Plain (some s.g.core) (s.cidOf s.cur) 4 .read
        (lanes.map (fun l => (effAddr (nth (s.bases (.s 1)) 0 l) 0 4).toNat)) leaf loc)
    ∧ (∃ leaf loc, s.Plain (some s.g.core) (s.cidOf s.cur) 4 .write
        (lanes.map (fun l => (effAddr (nth (s.bases (.s 1)) 0 l) 0 4).toNat)) leaf loc)
    ∧ ∃ leaf loc, s.Plain (some s.g.core) (s.cidOf s.cur) 4 .rmw (lanes.map (fun l => (nth (s.bases (.s 1)) 0 l).toNat)) leaf loc := by
  refine ⟨by decide +kernel, by decide +kernel, ?_, ⟨_, _, plain_of_plainly (by decide +kernel)⟩,
    ⟨_, _, plain_of_plainly (by decide +kernel)⟩, ⟨_, _, plain_of_plainly (by decide +kernel)⟩⟩
  unfold AllIssue State.Issues State.Inside State.Owned; decide +kernel

/-- MP.relacq: the same with a release store and an acquire load. Forbidden: the accesses cover each other, so nothing
races, and happens-before and the read of the old datum close a cycle. -/
theorem test_passing_with_order : ¬unseen.Allowed := by
  rintro ⟨_, h⟩
  rw [show (fun i => ¬unseen.Undefined i) = everyEvent from passing_bound _ _ _] at h
  obtain ⟨rank, hr⟩ := h.coherent locX
  have h1 : unseen.Hb 0 3 := .trans (b := 1) (.po trivial trivial (by decide +kernel))
    (.trans (b := 2) (.sw locY 1 2 trivial trivial (by decide +kernel)) (.po trivial trivial (by decide +kernel)))
  have h2 := hr 0 3 ⟨trivial, by decide +kernel⟩ ⟨trivial, by decide +kernel⟩ (.inr (.inr (.inr h1)))
  have h3 := hr 3 0 ⟨trivial, by decide +kernel⟩ ⟨trivial, by decide +kernel⟩ (.inr (.inr (.inl (by decide +kernel))))
  omega

/-- Scopes (R134, R137): two groups of one workgroup cover each other at wg and not at grp scope; an engine belongs to dev
and the host only to sys; an access of the store at sys scope reaches its workgroup. -/
theorem test_scopes :
    joins .wg (.thread 1 2 0) (.thread 1 3 5) = true ∧ joins .grp (.thread 1 2 0) (.thread 1 3 5) = false
    ∧ joins .wg (.thread 1 2 0) (.thread 4 3 5) = false ∧ joins .dev (.thread 1 2 0) (.engine 7) = true
    ∧ joins .dev (.thread 1 2 0) .host = false ∧ joins .sys (.thread 1 2 0) .host = true
    ∧ ({ acc 0 0 .write (.store 1 0) .rel with scope := .sys } : Event).reach = .wg := by decide

/-- R139: a store with u = 0 makes an event for each active lane, one with u = 1 makes one. -/
theorem test_events :
    (P.eventsOf (.st c0 .s .b32 .rlx .wg (.v 1) (.v 2) 0)).length = 32
    ∧ (P.eventsOf (.st c1 .s .b32 .rlx .wg (.s 1) (.s 2) 0)).length = 1 := by decide +kernel

/-! ### Weirs, copies and programs -/

/-- Every case of an arrival, with the counts where the cases meet. -/
theorem witness_WeirArrival :
    (let x := Machine.weirOf (weirAt 0 0 false); x.expected = 0 ∧ x.resv = false)
    ∧ (Machine.weirOf (bytesLE 16 (2 ^ 48))).resv = false ∧ (Machine.weirOf (bytesLE 16 (2 ^ 56))).resv = true
    ∧ (let x := Machine.weirOf (weirAt 3 1 false); x.resv = false ∧ ¬(x.expected = 0 ∧ 4 = 0) ∧ (4 ≠ 0 ∧ x.count ≠ 0 ∧ x.expected ≠ 4)
      ∧ ¬(3 ≠ 0 ∧ x.count ≠ 0 ∧ x.expected ≠ 3) ∧ 3 < x.count + 3 ∧ x.count + 2 ≤ 3) := by decide +kernel

theorem witness_WeirSetAndArrive :
    -- the last weir of the scratchpad, and one that collects 32 arrivals
    (let s := PW [] [(1, 4080), (2, 0x00FFFFFF)];
      AllIssue s [.winit (cf 1) .rel 1 (some 2)] ∧ s.active (cf 1) ≠ 0 ∧ (s.readS 1).toNat % 16 = 0
      ∧ (s.readS 1).toNat + 16 = s.spBytes (s.wgOf s.cur) ∧ bits (optReg s (some 2)).toNat 31 24 = 0)
    ∧ (let s := PW [(16, weirAt 33 1 true)] [(1, 16)];
      AllIssue s [.warrive (cf 1) .rel 1 none] ∧ s.active (cf 1) ≠ 0 ∧ (lanesOf (s.active (cf 1))).length = 32
      ∧ ∃ y, ((s.wgOf s.cur).weir (s.readS 1).toNat).arrive 32 (bits (optReg s none).toNat 15 0) none = .ok y) := by
  refine ⟨by unfold AllIssue State.Issues State.Inside State.Owned; decide, ?_, by decide +kernel, by decide +kernel, ⟨_, rfl⟩⟩
  unfold AllIssue State.Issues State.Inside State.Owned; decide +kernel

/-- A weir that expects 64: 32 threads arrive and wait. -/
def PWait : State := PW ((16, weirAt 64 0 false) :: ringAt) [(1, 16), (3, 0x40)]
def wsyncWord : Instr := .wsync (cf 1) .ar (.v 20) 0 1 none
/-- The other arrivals have come: the phase is complete. -/
def PWoken : State := (after wsyncWord PWait).modWg 3 (fun w => w.putPads 16 (weirAt 64 0 true))

theorem witness_Waits :
    (AllIssue PWait [wsyncWord, .wwait (cf 1) .acq (.v 20) 3 1 (some 2), .wwaitseq (cf 1) .acq (.s 20) 7 3 none,
        .wtest (cf 1) .acq (.v 20) 0 1 none]
      ∧ PWait.active (cf 1) ≠ 0 ∧ (PWait.readS 1).toNat % 16 = 0
      ∧ (PWait.readS 1).toNat + 16 ≤ PWait.spBytes (PWait.wgOf PWait.cur)
      ∧ (∃ y, ((PWait.wgOf PWait.cur).weir 16).arrive (lanesOf (PWait.active (cf 1))).length 0 none = .ok y)
      ∧ ((PWait.wgOf PWait.cur).ring (PWait.spBytes (PWait.wgOf PWait.cur)) 0x40)
          = some { depth := 1, slotbytes := 16, slotbase := 0x80 })
    ∧ (PWoken.hasGroup PWoken.cur = true ∧ (PWoken.wgOf PWoken.cur).onCore = true
      ∧ ∃ p, PWoken.g.pend? PWait.nextId = some p
        ∧ (decide (p.kind = .weir 16 false (.v 20) 0) && ((PWoken.wgOf PWoken.cur).weir 16).phase != false) = true) := by
  refine ⟨⟨by unfold AllIssue State.Issues State.Inside State.Owned; decide, by decide +kernel, by decide +kernel, by decide +kernel, ⟨_, rfl⟩,
    by decide +kernel⟩, by decide +kernel, by decide +kernel, someThat ?_⟩
  decide +kernel

/-- A stamp of 7 at 0x200, awaited by lane 31. -/
def PStamp : State := PM [7, 0, 0, 0, 0, 0, 0, 0] [(1, 0x200), (2, 7), (3, 8)]
def stampWord (u : Bool) (b : SR) : Instr := .waitstamp (if u then cuf 1 else cf 1) .acq .dev (.s 20) (.s 1) b
/-- The wait for 8 stands; then the stamp is 8. -/
def PStamped : State := (after (stampWord true 3) PStamp).putPhys (fetchPage + 0x200) [8]

theorem witness_Waits_stamps :
    (∀ u ∈ [true, false], ∀ b ∈ [(2 : SR), 3],
      let c := if u then cuf 1 else cf 1
      let ops : Ops := { a := PStamp.bases (.s 1), b := PStamp.srcs true (.s b), c := [] }
      let m := PStamp.active c
      AllIssue PStamp [stampWord true b, .waitstamp (cf 1) .acq .dev (.v 20) (.s 1) b] ∧ m ≠ 0
      ∧ ((PStamp.begun (stampWord u b) c ops).stampLanes PStamp.cur PStamp.nextId c.u (.s 20) ops
          (actLanes c m (lowLane m)) 0 []).2.2 = [])
    ∧ (let ops : Ops := { a := PStamp.bases (.s 1), b := PStamp.srcs true (.s 2), c := [] }
      ∃ q x, (PStamp.begun (stampWord true 2) (cuf 1) ops).stampLane PStamp.cur ops 31 = (q, .ok x) ∧ (x == some 7) = true)
    ∧ (let ops : Ops := { a := PStamp.bases (.s 1), b := PStamp.srcs true (.s 3), c := [] }
      ∃ q x, (PStamp.begun (stampWord true 3) (cuf 1) ops).stampLane PStamp.cur ops 31 = (q, .ok x) ∧ (x == none) = true)
    ∧ PStamped.hasGroup PStamped.cur = true ∧ wellFormed (stampWord true 3) = true
    ∧ (PStamped.wgOf PStamped.cur).issues = true := by
  refine ⟨by unfold AllIssue State.Issues State.Inside State.Owned; decide, ?_, ?_, by decide +kernel, by decide +kernel, by decide +kernel⟩
  · exact okThat (p := fun (_ : State) x => x == some 7) (by decide +kernel)
  · exact okThat (p := fun (_ : State) x => x == none) (by decide +kernel)
theorem witness_Waits_stampReturn : ∃ p, PStamped.g.pend? PStamp.nextId = some p
    ∧ (decide (p.kind = .stampWait true (.s 20)) && decide (p.instr = stampWord true 3)
        && decide (p.lanes &&& ~~~p.done = 0x80000000)) = true := someThat (by decide +kernel)

/-- Two lanes whose words, 9 and 7, are in one page: both suffice for 7, one for 8. -/
def PStamps (n : Nat) : State :=
  { (PM [7, 0, 0, 0, 0, 0, 0, 0, 9] [(2, wordN n)] [(32 * 8 + 31, 0x200), (32 * 8 + 30, 0x208)]) with iset := 0xC0000000, ilane := 30 }
def stampsWord : Instr := .waitstamp (cf 1) .acq .dev (.v 20) (.v 8) 2
theorem witness_Waits_stampPlain : ∀ n ∈ [7, 8],
    let s := PStamps n
    let m := s.active (cf 1)
    let lanes := actLanes (cf 1) m (lowLane m)
    let ea (l : Nat) : Nat := (nth (s.bases (.v 8)) 0 l).toNat
    AllIssue s [stampsWord] ∧ m ≠ 0
    ∧ ∃ leaf loc, s.Plain (some s.g.core) (s.cidOf s.cur) 8 .read (lanes.map ea) leaf loc
      ∧ lanes.map (fun l => natLE (s.bytesAt (loc (ea l)) 8) % 2 ^ 48) = [9, 7] := by
  intro n hn
  have h : ∀ n ∈ [7, 8], AllIssue (PStamps n) [stampsWord] := by
    unfold AllIssue State.Issues State.Inside State.Owned; decide +kernel
  rcases (by simpa using hn : n = 7 ∨ n = 8) with rfl | rfl <;>
    exact ⟨h _ hn, by decide +kernel, ⟨_, _, plain_of_plainly (by decide +kernel), by decide +kernel⟩⟩

/-- One of them waits for 8; its word stays, or is 8 at last. -/
def PStampsWait (b : Byte) : State :=
  ((PStamps 8).modGrp 4 (fun g => { g with pending := [{
    id := 9, pc := 0, instr := stampsWord, lanes := 0xC0000000, done := 0x40000000, flag := some 1
    kind := .stampWait false (.v 20), due := 0, ops := { a := (PStamps 8).bases (.v 8), b := (PStamps 8).srcs true (.s 2), c := [] }
    recKey := 0, dead := [], entered := 0 }] })).putPhys (fetchPage + 0x200) [b]
theorem witness_Waits_stampsReturn : ∀ b ∈ [(7 : Byte), 8],
    let s := PStampsWait b
    s.hasGroup s.cur = true ∧ (s.wgOf s.cur).issues = true ∧ wellFormed stampsWord = true
    ∧ ∃ p, s.g.pend? 9 = some p
      ∧ decide (p.kind = .stampWait false (.v 20) ∧ p.instr = stampsWord ∧ p.lanes &&& ~~~p.done = 0x80000000) = true
      ∧ ∃ leaf loc, s.Plain (some s.g.core) (s.cidOf s.cur) 8 .read
          ((lanesOf (p.lanes &&& ~~~p.done)).map (fun l => (p.ops.la l).toNat)) leaf loc := by
  intro b hb
  rcases (by simpa using hb : b = 7 ∨ b = 8) with rfl | rfl <;>
    refine ⟨by decide +kernel, by decide +kernel, by decide +kernel, _, rfl, ?_⟩ <;>
    exact ⟨by decide +kernel, _, _, plain_of_plainly (by decide +kernel)⟩

/-- A closed batch 1 waits for a copy; batch numbers at both ends of their range. -/
def PC : State := (PS [(1, 0x3FFFFFFFFFFFF8), (2, 8), (3, 0), (4, 4080), (5, 16), (6, 1), (7, 0xFFFFFFFFFFFF)]).modWg 3 (fun w =>
  { w with closed := 1, copies := [{ index := 0, slices := [], started := false, done := 0, batch := 1 }] })

theorem witness_CopyForms :
    AllIssue PC [.bcopy (cuf 1) false false 3 1 2, .bcopy (cuf 1) true true 3 4 5, .bseal (cf 1) 6 1, .bseal (cf 1) 7 3, .bwait (cf 1) 6,
      .bwait (cf 1) 3]
    ∧ PC.active (cf 1) ≠ 0
    ∧ (PC.spanFault 4 false (PC.readS 3) 8 = none ∧ PC.spanFault 4 false (PC.readS 1) 8 = none)
    ∧ (PC.spanFault 4 true (PC.readS 3) 16 = none ∧ PC.spanFault 4 true (PC.readS 4) 16 = none)
    ∧ (1 ≤ (PC.readS 6).toNat ∧ (PC.readS 7).toNat < 2 ^ 48 ∧ PC.g.lastSeal < (PC.readS 6).toNat
      ∧ (PC.readS 1).toNat % 8 = 0 ∧ (PC.readS 1).toNat < 2 ^ 54)
    ∧ ((PC.wgOf 4).ngroups = 1 ∧ PC.g.grpid = 0 ∧ (PC.wgOf 4).seals = [] ∧ (PC.wgOf 4).retiredGroups = [])
    ∧ (∀ p ∈ PC.g.pending, p.id ≠ PC.nextId) := by
  unfold AllIssue State.Issues State.Inside State.Owned; decide +kernel

/-- Threads held at BWAIT 1, whose copies are done. -/
def PBwait : State := (after (.bwait (cf 1) 6) PC).modWg 3 (fun w => { w with copies := [] })
theorem witness_CopyForms_release :
    (∃ p, PBwait.g.pend? PC.nextId = some p ∧ (decide (p.kind = .bwait 1) && p.done == 0 && p.lanes == 0xFFFFFFFF) = true)
    ∧ (PBwait.wgOf 4).onCore = true ∧ PBwait.hasGroup PBwait.cur = true
    ∧ (1 ≤ (PBwait.wgOf 4).closed ∧ ∀ k ∈ (PBwait.wgOf 4).copies, k.batch = 0 ∨ 1 < k.batch)
    ∧ ∀ l, l < 32 → (PBwait.g.th l).entering = none
      ∧ (PBwait.g.th l).pc + 8 ≠ (PBwait.g.th l).hdr + wordN (((PBwait.g.th l).len + 1) * 8) :=
  ⟨someThat (by decide +kernel), by decide +kernel⟩

/-- A copy of 16 bytes within the scratchpad, ready to start, started, and a batch whose stamp is due; to 8 it overlaps its
source from above and is one piece. -/
def PEng (started : Bool) (dst : Nat := 4080) : State := P.modWg 3 (fun w => { w with
  copies := [{ index := 0, started := started, done := 0, batch := 0,
               slices := [{ grpid := 0, src := 0, dst := dst, len := 16, srcS := true, dstS := true }] }]
  batches := [{ n := 1, stamp := 0x200, err := 0, heldRec := 0, dropped := false }] })

theorem witness_CopyEngine : (findK (PEng true).wgs 3).isSome = true
    ∧ (∃ k, ((PEng false).wg 3).nextStart = some k ∧ (k.index == 0) = true)
    ∧ (∀ dst ∈ [8, 4080], let s := PEng true dst
      let w := s.wg 3
      ((match w.runningCopy with
        | some k => decide (k.done < 16 ∧ k.slices = [⟨0, 0, dst, 16, true, true⟩])
        | none => false) = true) ∧ 0 + 16 ≤ s.spBytes w ∧ dst + 16 ≤ s.spBytes w)
    ∧ (∃ leaf loc, (PEng true).Plain (some ((PEng true).wg 3).home) ((PEng true).wg 3).ctx 8 .write [0x200] leaf loc)
    ∧ (∃ b, ((PEng true).wg 3).stampDue = some b ∧ decide (b.stamp = 0x200 ∧ b.n = 1) = true)
    ∧ (∃ q u, (PEng true).storeG (some ((PEng true).wg 3).home) ((PEng true).wg 3).ctx 0x200 (bytesLE 8 1) = (q, .ok u)
      ∧ (u == ()) = true) := by
  refine ⟨by decide +kernel, someThat (by decide +kernel), by decide +kernel,
    ⟨_, _, plain_of_plainly (by decide +kernel)⟩, someThat (by decide +kernel), okThat (p := fun (_ : State) u => u == ()) (by decide +kernel)⟩

/-- Program 5 of workgroup 3 runs command 7 of its list at 0x1000. -/
def PR (f : Prog → Prog) : State :=
  let s := State.reset.withFetchWord 256 0
  { s with agenda := [], eng := 5, progs := modK s.progs 5 (fun p => f { p with index := 7 }),
           cur := 4, iset := 0xFFFFFFFF, ilane := 0 }
def scal (s : State) (sr : List (Nat × Word)) : State := s.modGrp 4 (fun g => { g with sregs := sr })

theorem witness_ProgramForms :
    (let s := scal (PR id) [(1, 0x3FE0), (2, 0x1000)];
      AllIssue s [.rlaunch (cuf 1) 4 1, .rstop (cuf 1) 4 2, .rstopResume (cuf 1) 4 2, .rstat (cuf 1) 4 2 7] ∧ s.active (cuf 1) ≠ 0
      ∧ (s.readS 1).toNat % 32 = 0 ∧ (s.readS 1).toNat < 2 ^ 54 ∧ (∀ p ∈ s.progs, p.1 ≤ s.nextId)
      ∧ (∃ q e, (s.begun (.rlaunch (cuf 1) 4 1) (cuf 1) { a := [s.readS 1], b := [], c := [] }).translate (some s.g.core)
          (s.cidOf s.cur) (s.readS 1).toNat .read = (q, .ok e)
          ∧ (match s.target (e.pa (s.readS 1).toNat) with
            | some (.mem _) => decide ((s.queueOf (stackOf e (s.readS 1).toNat)).length < 64)
            | _ => false) = true)
      ∧ (∀ p ∈ s.progs.filter (fun p => p.2.wid == s.g.wid), p.2.list ≠ s.readS 1)
      ∧ (s.progs.filter (fun p => p.2.wid == s.g.wid)).length < 16
      -- a live program with the list of s2
      ∧ ∃ p, s.progOf s.g.wid (s.readS 2) = some p ∧ (!p.2.ended && p.2.state != .stopped) = true)
    -- an ended one, one stopped and held
    ∧ (let s := scal (PR (fun p => { p with state := .done })) [(2, 0x1000)];
      ∃ p, s.progOf s.g.wid (s.readS 2) = some p ∧ p.2.ended = true)
    ∧ (let s := scal (PR (fun p => { p with state := .stopped, hold := true })) [(2, 0x1000)];
      ∃ p, s.progOf s.g.wid (s.readS 2) = some p ∧ (!p.2.ended && p.2.state == .stopped && p.2.hold) = true) := by
  refine ⟨⟨by unfold AllIssue State.Issues State.Inside State.Owned; decide, by decide +kernel, by decide +kernel, by decide +kernel, by decide +kernel, ?_,
    by decide +kernel, by decide +kernel, someThat (p := fun (p : Nat × Prog) => !p.2.ended && p.2.state != .stopped) (by decide +kernel)⟩,
    someThat (p := fun (p : Nat × Prog) => p.2.ended) (by decide +kernel),
    someThat (p := fun (p : Nat × Prog) => !p.2.ended && p.2.state == .stopped && p.2.hold) (by decide +kernel)⟩
  exact okThat (by decide +kernel)

/-- The list's page is plain; and a workgroup with sixteen records, of which one has ended. -/
theorem witness_ProgramForms_plain :
    (let s := scal (PR id) [(1, 0x3FE0)]
      ∃ leaf loc, s.Plain (some s.g.core) (s.cidOf s.cur) 8 .read [(s.readS 1).toNat] leaf loc
        ∧ (s.queueOf (stackOf (leaf (s.readS 1).toNat) (s.readS 1).toNat)).length < 64)
    ∧ (let s := scal (PR (fun p => { p with state := .done })) [(1, 0x3FE0)]
      (s.oldestEnded s.g.wid).isSome = true) :=
  ⟨⟨_, _, plain_of_plainly (by decide +kernel), by decide +kernel⟩, by decide +kernel⟩

theorem witness_EngineEvents :
    ((findK (PR id).progs 5).isSome = true ∧ ((PR id).prog 5).state = .running)
    ∧ (let s := PR (fun p => { p with state := .stopped, prior := .waiting })
      (s.prog 5).state = .stopped ∧ (s.prog 5).hold = false ∧ (s.wg (s.prog 5).wid).issues = true)
    ∧ (let s := PR (fun p => { p with engine := none, state := .waiting })
      s.freeEngine 0 = some 0 ∧ s.nextQueued 0 = some 5 ∧ (s.prog 5).stack = 0)
    ∧ (let s := { PR id with ctxs := modK (PR id).ctxs 1 (fun c => { c with halted := true }) }
      (s.ctx (s.prog 5).ctx).halted = true ∧ ∀ q ∈ s.progs, q.1 = 5 → q.2 = s.prog 5) := by decide +kernel

/-- A target below the command's own index, the last and the first; and a list that stands outside the address space. -/
theorem witness_LoopAndJump : (findK (PR id).progs (PR id).eng).isSome = true
    ∧ (6#32).toNat < ((PR id).prog (PR id).eng).index ∧ (0#32).toNat < ((PR id).prog (PR id).eng).index
    ∧ ((PR id).prog (PR id).eng).index ≤ (7#32).toNat
    ∧ (let s := PR (fun p => { p with list := 0x40000000000000 });
      (s.prog s.eng).owed = none
      ∧ (match s.accessG none (s.prog s.eng).ctx ((s.prog s.eng).list.toNat + 32 * (s.prog s.eng).index) 1 .read with
        | (_, .error c) => c != Code.notPresent && c != Code.memUncorrectable
        | (_, .ok _) => false) = true) := by decide +kernel

/-- A ring and a weir of the workgroup, and a stamp of 7 at 0x200. -/
def PRS : State := ((PR id).modWg 3 (fun w => ((16, weirAt 64 0 false) :: ringAt).foldl (fun w p => w.putPads p.1 p.2) w)).putPhys
  (fetchPage + 0x200) [7]

theorem witness_RillSynchronisation :
    PRS.Engine ∧ (16#22).toNat + 16 ≤ PRS.spBytes (PRS.wg (PRS.prog PRS.eng).wid)
    ∧ (∃ y, ((PRS.wg (PRS.prog PRS.eng).wid).weir 16).arrive 64 0 none = .ok y)
    ∧ (∃ leaf loc, PRS.Plain none (PRS.prog PRS.eng).ctx 8 .read [0x200] leaf loc)
    ∧ (∃ leaf loc, PRS.Plain none (PRS.prog PRS.eng).ctx 8 .write [0x200] leaf loc)
    ∧ (∃ q x, PRS.loadG none (PRS.prog PRS.eng).ctx 0x200 8 = (q, .ok x) ∧ (x == 7) = true)
    ∧ ∃ q u, PRS.storeG none (PRS.prog PRS.eng).ctx 0x200 (bytesLE 8 9) = (q, .ok u) ∧ (u == ()) = true := by
  refine ⟨by unfold State.Engine; decide, by decide +kernel, ⟨_, rfl⟩,
    ⟨_, _, plain_of_plainly (by decide +kernel)⟩, ⟨_, _, plain_of_plainly (by decide +kernel)⟩,
    okThat (p := fun (_ : State) x => x == 7) (by decide +kernel), okThat (p := fun (_ : State) u => u == ()) (by decide +kernel)⟩

/-- Bytes for the engine: a block of nine elements 1.0 at 0x400 (R185 to R188), a descriptor of 2 ranks with its stamp at
0x800 (R184), and sixteen NaNs at 0x900 (R107). -/
def blockBytes : List Byte :=
  bytesLE 4 0x4553424B ++ [2, 0x7F, 0x7F, 0] ++ bytesLE 4 9 ++ bytesLE 4 0x22 ++ bytesLE 4 0x24 ++ bytesLE 4 64
    ++ bytesLE 4 0x62373DA9 ++ bytesLE 4 0 ++ [1, 0, 0, 0] ++ List.replicate 28 0
def descBytes : List Byte := bytesLE 4 0x4C4C4352 ++ bytesLE 2 2 ++ bytesLE 2 0 ++ bytesLE 8 0x800
def nanBytes : List Byte := (List.range 16).flatMap (fun _ => [0, 0, 0xC0, 0x7F])
def PPay : State :=
  ((((PR id).modWg 3 (fun w => ringAt.foldl (fun w p => w.putPads p.1 p.2) w)).putPhys (fetchPage + 0x400) blockBytes).putPhys
    (fetchPage + 0x500) descBytes).putPhys (fetchPage + 0x900) nanBytes
def thePR : Prog := PPay.prog PPay.eng
def theWg : Wg := PPay.wg thePR.wid
def theRing : Ring := { depth := 1, slotbytes := 16, slotbase := 0x80 }
def aff (i o : Fmt) (n : BitVec 16) (b : BitVec 54) : Affine :=
  { fmtin := i, fmtout := o, ndim := 0, scl := false, rep := 0, e8 := 127, ring := 0x40, sh := 0, base := b, c0 := n, c1 := 1,
    c2 := 1, c3 := 1, st1 := 0, st2 := 0, st3 := 0 }

theorem witness_RillPayload_slots :
    PPay.Engine ∧ thePR.owed = none ∧ thePR.done = 0 ∧ thePR.slotErr = none ∧ thePR.blk = 0 ∧ thePR.blkDone = 0
    ∧ theWg.ring (PPay.spBytes theWg) 0x40 = some theRing ∧ theRing.fillable theWg 0x40 thePR.seqf ∧ theRing.apart 0x40
    ∧ 0x40 + 16 + 32 * theRing.depth ≤ theRing.slotbase := by
  unfold State.Engine Ring.apart Ring.fillable; decide +kernel

/-- The leaf of the first page, through which the engine reads and writes as if memory stood still. -/
def payLeaf : TlbEnt := { ctx := 1, va := 0, size := 65536, pte := 0x3130F, loc := 6 * 2 ^ 36 + 0x4000 }
theorem pay_walk : (match PPay.walk 1 (65536 * 0) with | .ok e => decide (e = payLeaf) | .error _ => false) = true := by
  decide +kernel
theorem pay_quiet : Quiet PPay none 1 0 payLeaf where
  walk := by
    have h := pay_walk
    generalize PPay.walk 1 (65536 * 0) = x at h ⊢
    cases x with
    | error c => simp at h
    | ok e => simp only [decide_eq_true_eq] at h; rw [h]
  acc := by decide +kernel
  same := by decide +kernel
  clean := by rfl
  routes := by rfl
  reads := by decide +kernel
  dirty := by decide +kernel
  cache := by decide +kernel
  size := by rfl
  va := by rfl
  ctx := by rfl
  low := by decide +kernel
  below := by decide +kernel
  tlb := fun _ h => nomatch h
def payLoc : Nat → Nat := quietLoc PPay payLeaf
def payByte : Nat → Byte := quietByte PPay payLeaf
theorem pay_ok : PPay.MemOk := by unfold State.MemOk; decide +kernel
theorem pay_plain {n : Nat} {k : XKind} {as : List Nat} (hk : permit k payLeaf.pte = none)
    (ha : ∀ a ∈ as, a / 65536 = 0 ∧ a % n = 0 ∧ (k.writes = true →
      ∀ c ∈ PPay.walkCells 1 (65536 * 0) [1, 2, 3, 4] (PPay.ctx 1).root, c + 8 ≤ payLoc a ∨ payLoc a + n ≤ c)) :
    PPay.Plain none 1 n k as (fun _ => payLeaf) payLoc := pay_quiet.plain hk (by decide +kernel) pay_ok ha

/-- A chunk that fills the slot of 4, and one that ends the command; each element reports nothing. -/
theorem witness_RillPayload :
    (∀ c ∈ [(5 : Nat), 3], let f := aff .fp32 .fp32 (BitVec.ofNat 16 c) 0x600
      let addrs := (List.range (min (min (16 / 4) (affCount f)) (262144 / max 4 4))).map (affAddr f 4)
      affCount f = c ∧ addrs.length = min 4 c
        ∧ (∃ leaf loc, PPay.Plain none 1 4 .read addrs leaf loc
          ∧ ∀ x ∈ addrs.map (fun a => natLE (PPay.bytesAt (loc a) 4)), (convElem (PPay.progV1 5) f x).2 = none)
        ∧ ∃ q v, PPay.readElems 1 4 addrs [] = (q, v) ∧ (v == (List.replicate (min 4 c) 0, Stop.none)
          && v.1.all (fun x => (convElem (PPay.progV1 5) f x).2.isNone)) = true)
    ∧ (let addrs := (List.range (min (min (16 / 2) 9) 131072)).map (fun j => 0x400 + 2 * j)
      (∃ leaf loc, PPay.Plain none 1 2 .read addrs leaf loc)
      ∧ ∃ q v, PPay.readElems 1 2 addrs [] = (q, v) ∧ (v.2 == Stop.none) = true)
    ∧ (let addrs := (List.range 8).map (affAddr (aff .fp16 .fp32 8 0x600) 4)
      (∃ leaf loc, PPay.Plain none 1 4 .write addrs leaf loc)
      ∧ ∃ q v, PPay.checkElems 1 addrs 0 = (q, v) ∧ (v == (8, Stop.none)) = true)
    -- the slot to drain is full, and its elements report nothing
    ∧ (let s := PPay.modWg 3 (fun w => w.putPads 0x50 (weirAt 1 0 true))
      ((s.wg 3).weir 0x50).phase ≠ (0 / 1 % 2 == 1)
      ∧ ∀ j, j < 8 → (convElem (s.progV1 5) (aff .fp16 .fp32 8 0x600) (natLE ((s.wg 3).padBytes (0x80 + 2 * j) 2))).2 = none) := by
  refine ⟨?_, ⟨⟨_, _, plain_of_plainly (by decide +kernel)⟩,
      pairThat (p := fun (v : List Nat × Stop) => v.2 == Stop.none) (by decide +kernel)⟩,
    ⟨⟨_, _, plain_of_plainly (by decide +kernel)⟩,
      pairThat (p := fun (v : Nat × Stop) => v == (8, Stop.none)) (by decide +kernel)⟩, by decide +kernel⟩
  intro c hc
  simp only [List.mem_cons, List.not_mem_nil, or_false] at hc
  rcases hc with rfl | rfl <;> exact ⟨by decide +kernel, by decide +kernel, ⟨_, _, plain_of_plainly (by decide +kernel), by decide +kernel⟩,
    pairThat (p := fun (v : List Nat × Stop) => v == (List.replicate _ 0, Stop.none)
      && v.1.all (fun x => (convElem (PPay.progV1 5) _ x).2.isNone)) (by decide +kernel)⟩

/-- The block of nine elements overruns a slot of 16 bytes; zeros at 0x600 are no header. -/
def payHdr : BlockHdr :=
  { fmt := 2, emin := 127, emax := 127, count := 9, eoff := 0x22, moff := 0x24, total := 64, crc := 0x62373DA9 }
def payData : List Byte := (List.range 9).flatMap (fun _ => [0x80, 0x3F])
theorem pay_block : (List.range 64).map (fun i => payByte (0x400 + i)) = blockBytes := by decide +kernel
theorem pay_hdr : blockHdr (blockBytes.take 32) = some payHdr := by decide +kernel
theorem pay_decode : payHdr.decode blockBytes = some payData := by decide +kernel
theorem pay_head : (List.range 32).map (fun i => payByte (0x400 + i)) = blockBytes.take 32 := by
  rw [← pay_block, ← List.map_take, List.take_range]; rfl
theorem pay_loadBlock : PPay.loadBlock 1 0x400 = (PPay, .ok payData payHdr.total (crc32c payData == payHdr.crc)) :=
  quiet_loadBlock (pay_quiet.loadBytes (by omega) (by omega)) (by
      rw [show ((List.range 32).map fun i => quietByte PPay payLeaf (0x400 + i)) = blockBytes.take 32 from pay_head]; exact pay_hdr)
    ((pay_quiet.loadBytes (n := payHdr.total) (by omega) (by decide +kernel)).trans
      (by rw [show payHdr.total = 64 from rfl, show ((List.range 64).map fun i => quietByte PPay payLeaf (0x400 + i)) = blockBytes from pay_block]))
    pay_decode
theorem pay_read (a n : Nat) (h : a + n ≤ 65536) :
    PPay.Plain none 1 1 .read ((List.range n).map (fun k => a + k)) (fun _ => payLeaf) payLoc := by
  refine pay_plain (by decide +kernel) (fun x hx => ?_)
  obtain ⟨k, hk, rfl⟩ := List.mem_map.1 hx
  have := List.mem_range.1 hk
  exact ⟨by omega, by omega, fun h => by cases h⟩

theorem witness_RillPayload_decode : PPay.loadBlock thePR.ctx 0x400 = (PPay, .ok payData payHdr.total (crc32c payData == payHdr.crc))
    ∧ 16 < payData.length ∧ (∃ y, (theWg.weir 0x50).arrive 1 0 thePR.slotErr = .ok y)
    ∧ ∃ y, (theWg.weir 0x50).arrive 1 0 (some (2, 7)) = .ok y :=
  ⟨pay_loadBlock, by decide +kernel, ⟨_, rfl⟩, _, rfl⟩
theorem witness_RillPayload_decodePlain :
    blockHdr ((List.range 32).map (fun k => PPay.byteAt (payLoc (0x400 + k)))) = some payHdr
    ∧ payHdr.decode ((List.range payHdr.total).map (fun k => PPay.byteAt (payLoc (0x400 + k)))) = some payData
    ∧ PPay.Plain none 1 1 .read ((List.range payHdr.total).map (fun k => 0x400 + k)) (fun _ => payLeaf) payLoc
    ∧ blockHdr ((List.range 32).map (fun k => PPay.byteAt (payLoc (0x600 + k)))) = none
    ∧ PPay.Plain none 1 1 .read ((List.range 32).map (fun k => 0x600 + k)) (fun _ => payLeaf) payLoc :=
  ⟨by decide +kernel, by decide +kernel, pay_read _ _ (by decide +kernel), Option.isNone_iff_eq_none.1 (by decide +kernel),
    pay_read _ _ (by decide +kernel)⟩

/-! The all-reduce of sixteen NaNs as the first of two ranks: whatever the other adds, the sums are these NaNs. -/

def payBuffer : List Nat := (List.range 64).map (fun k => 0x900 + k)
def payDesc : RedDesc := { nranks := 2, rank := 0, stamp := 0x800 }
theorem pay_desc : redDesc ((List.range 64).map (fun k => payByte (0x500 + k))) = some payDesc := by decide +kernel
theorem pay_own : (List.range 64).map (fun k => payByte (0x900 + k)) = nanBytes := by decide +kernel
theorem pay_reduced : (redBytes (PPay.progV1 5) .sum .fp32 3 7 0 payDesc nanBytes).take 64 = nanBytes := by decide +kernel
theorem pay_stored : ∀ k, k < 64 → putBytes PPay.mem (payLoc (0x900 + k)) [nth nanBytes 0 k] = PPay.mem := by decide +kernel

theorem witness_RillPayload_reduce :
    (findK PPay.progs PPay.eng).isSome = true ∧ PPay.svc.routes = true ∧ thePR.done = 0
    ∧ ∃ db own q6 q7, PPay.loadBytes none 1 0x500 64 = (PPay, .ok db) ∧ redDesc db = some payDesc
      ∧ PPay.accessG none 1 payDesc.stamp 8 .write = (PPay, .ok (.mem (payLoc 0x800)))
      ∧ PPay.loadBytes none 1 0x900 64 = (PPay, .ok own)
      ∧ PPay.checkElems 1 ((List.range 64).map (fun k => 0x900 + k)) 0 = (PPay, 64, .none)
      ∧ PPay.storeBytes none 1 0x900 ((redBytes (PPay.progV1 5) .sum .fp32 3 7 0 payDesc own).take 64) = (PPay, .ok ())
      ∧ PPay.storeG none 1 payDesc.stamp (bytesLE 8 8) = (q6, .ok ())
      ∧ PPay.storeG none 1 payDesc.stamp (bytesLE 8 (9 * 2 ^ 56 + 8)) = (q7, .ok ()) := by
  have hw : permit .write payLeaf.pte = none := by decide +kernel
  have hs : ∀ bs : List Byte, bs.length = 8 → PPay.storeG none 1 payDesc.stamp bs = (PPay.storeT (.mem (payLoc 0x800)) bs, .ok ()) :=
    fun bs hb => by
      unfold State.storeG
      rw [hb, show payDesc.stamp = 0x800 from rfl, pay_quiet.accessOf hw (by omega)]; rfl
  refine ⟨by decide +kernel, by rfl, by decide +kernel, _, nanBytes, _, _, pay_quiet.loadBytes (by omega) (by omega), pay_desc,
    pay_quiet.accessOf hw (by decide), ?_, ?_, ?_, hs _ (by rw [bytesLE_length]), hs _ (by rw [bytesLE_length])⟩
  · rw [← pay_own]; exact pay_quiet.loadBytes (by omega) (by omega)
  · exact pay_quiet.checkElems hw _ (fun a ha => by
      obtain ⟨k, hk, rfl⟩ := List.mem_map.1 ha
      have := List.mem_range.1 hk; omega) 0
  · rw [pay_reduced]
    exact pay_quiet.storeBytes hw _ _ (fun i hi => by have : i < 64 := hi; omega) (fun i hi => pay_stored i hi)

/-- The same over plain pages: the descriptor's bytes, its stamp and the buffer. -/
theorem witness_RillPayload_reducePlain :
    (List.range 64).map (fun k => PPay.byteAt (payLoc (0x900 + k))) = nanBytes
      ∧ (redBytes (PPay.progV1 5) .sum .fp32 3 7 0 payDesc nanBytes).length = 64
      ∧ redDesc ((List.range 64).map (fun k => PPay.byteAt (payLoc (0x500 + k)))) = some payDesc
      ∧ PPay.Plain none 1 1 .read ((List.range 64).map (fun k => 0x500 + k)) (fun _ => payLeaf) payLoc
      ∧ PPay.Plain none 1 8 .write [0x800] (fun _ => payLeaf) payLoc
      ∧ PPay.Plain none 1 1 .rmw payBuffer (fun _ => payLeaf) payLoc
      ∧ (∀ a ∈ payBuffer, ∀ b ∈ payBuffer, a ≠ b → payLoc a ≠ payLoc b)
      ∧ (∀ mem : KMap Byte, (∀ x, (∀ a ∈ payBuffer, x ≠ payLoc a) → ({ PPay with mem := mem } : State).byteAt x = PPay.byteAt x) →
        ({ PPay with mem := mem } : State).walk 1 0x800 = .ok payLeaf)
      ∧ ∀ a ∈ payBuffer, ¬(payLoc 0x800 ≤ payLoc a ∧ payLoc a < payLoc 0x800 + 8) := by
  have hb : PPay.Plain none 1 1 .rmw payBuffer (fun _ => payLeaf) payLoc := pay_plain (by decide +kernel) (by decide +kernel)
  refine ⟨by decide +kernel, by decide +kernel, by decide +kernel, pay_read _ _ (by omega), pay_plain (by decide +kernel) (by decide +kernel),
    hb, by decide +kernel, fun mem h => ?_, by decide +kernel⟩
  rw [← show ({ PPay with mem := mem } : State).walk 1 0x900 = _ from
      hb.walks mem (fun x hx => h x (fun a ha he => hx rfl a ha (by omega))) 0x900 (by decide +kernel),
    walk_page _ 1 (show 0x800 / 65536 = 0 by omega), walk_page _ 1 (show 0x900 / 65536 = 0 by omega)]

/-! ### Units -/

def PSign : State := PS [(2, 0xFFFFFFFF)]
theorem witness_SignCompletes :
    AllIssue PSign [.sign (cf 1) 7 2] ∧ (PSign.readS 2).setWidth 32 = PSign.iset ∧ PSign.iset ≠ 0
    ∧ (PSign.conv PSign.g.wid 7).state = .empty ∧ 7 < (PSign.wg PSign.g.wid).conv.length
    ∧ (∀ p ∈ PSign.g.pending, p.id ≠ PSign.nextId)
    ∧ ∀ l, l < 32 → bitOf PSign.iset l = true → l < PSign.g.threads.length ∧ (PSign.g.th l).exited = false := by
  unfold AllIssue State.Issues State.Inside State.Owned; decide +kernel

/-- The first sixteen lanes sign first, then the last sixteen. -/
def PSignLow : State := { PSign with iset := 0xFFFF }
def PSignHigh : State := { (after (.sign (cf 1) 7 2) PSignLow) with iset := 0xFFFF0000, ilane := 16 }
theorem witness_SignCompletes_partial :
    AllIssue PSignLow [.sign (cf 1) 7 2] ∧ PSignLow.iset ≠ 0 ∧ 7 < (PSignLow.wg PSignLow.g.wid).conv.length
    ∧ (∀ p ∈ PSignLow.g.pending, p.id ≠ PSignLow.nextId)
    ∧ (∀ l, l < 32 → l < PSignLow.g.threads.length ∧ (PSignLow.g.th l).exited = false)
    ∧ (PSignLow.conv PSignLow.g.wid 7).state = .empty ∧ PSignLow.iset &&& 0xFFFFFFFF = PSignLow.iset
    ∧ 0 ||| PSignLow.iset ≠ 0xFFFFFFFF := by
  unfold AllIssue State.Issues State.Inside State.Owned; decide +kernel
theorem witness_SignCompletes_last :
    AllIssue PSignHigh [.sign (cf 1) 7 2] ∧ (PSignHigh.readS 2).setWidth 32 = 0xFFFFFFFF#32
    ∧ (∀ p ∈ PSignHigh.g.pending, p.id ≠ PSignHigh.nextId) ∧ 7 < (PSignHigh.wg PSignHigh.g.wid).conv.length
    ∧ (PSignHigh.conv PSignHigh.g.wid 7).state = .collecting ∧ (PSignHigh.conv PSignHigh.g.wid 7).owner = PSignHigh.g.grpid
    ∧ (PSignHigh.conv PSignHigh.g.wid 7).declared = 0xFFFFFFFF#32 ∧ (PSignHigh.conv PSignHigh.g.wid 7).signed = 0xFFFF#32 := by
  unfold AllIssue State.Issues State.Inside State.Owned; decide +kernel
theorem witness_SignCompletes_waiting :
    (PSignHigh.g.pending.map (fun p => p.id)).Nodup
    ∧ (∀ l, l < 16 → (PSignHigh.g.pending.any (fun p => decide ((PSignHigh.g.th l).held = .sign 7 p.id))) = true)
    ∧ ∀ l, l < 32 → (l < PSignHigh.g.threads.length ∧ (PSignHigh.g.th l).exited = false) ∧ (PSignHigh.g.th l).entering = none
      ∧ (PSignHigh.g.th l).pc + 8 ≠ (PSignHigh.g.th l).hdr + wordN (((PSignHigh.g.th l).len + 1) * 8) := by
  decide +kernel

/-- Descriptors at both ends of the space: base and stride with the last row ending at 2^54, and a complete round. -/
def PUnit : State :=
  (PS [(20, 0x1000), (21, 64), (22, 0x3FFFFFFFFFF000), (23, 64), (24, 0), (25, 2097152), (26, 0x3FFFFFFFFFC000), (27, 256),
      (28, 8), (30, 0x1000), (31, 0x9C * 2 ^ 32 + 64)]).modWg 3 (fun w =>
    { w with conv := w.conv.set 7 { state := .complete, owner := 0, declared := 0xFFFFFFFF, signed := 1, zfrag := 0 } })

theorem witness_UnitCommands :
    AllIssue PUnit [.mma (cf 1) .i8 15 7 20 22 0 0, .mma (cf 1) .e4m3 15 7 30 30 0 0, .mlda (cf 1) 15 26, .msta (cf 1) 0 26,
      .mzero (cf 1) 15, .pmv (cf 1) true 24 28 20, .mchk (cf 1) 4, .pstat (cf 1) 4 3, .mma cn .i8 15 7 20 22 0 0, .pmv cn true 24 20 22]
    ∧ PUnit.active cn = 0 ∧ PUnit.active (cf 1) ≠ 0
    ∧ (let pair (r : Nat) : Word × Word := (PUnit.readS r, PUnit.readS (r + 1))
      descFault [pair 20, pair 22] none false (rowLen .i8) = none
      ∧ descFault [pair 30, pair 30] (some 159) false (rowLen .e4m3) = none
      ∧ bits (pair 30).2.toNat 39 32 + 3 < PUnit.g.valloc
      ∧ descFault [pair 26] none true 256 = none
      ∧ 1 ≤ (pair 24).2.toNat ∧ (pair 24).2.toNat ≤ 2097152 ∧ (pair 24).1.toNat % 2 = 0)
    ∧ (PUnit.readS 28).toNat % 4 = 0 ∧ (PUnit.readS 20).toNat % 4 = 0
    ∧ (let v := PUnit.conv PUnit.g.wid 7
      v.state = .complete ∧ v.owner = PUnit.g.grpid ∧ v.signed &&& PUnit.active (cf 1) ≠ 0)
    ∧ ∀ gid ∈ (PUnit.wg PUnit.g.wid).gids, ∀ p ∈ (PUnit.grp gid).pending, p.kind ≠ .sign := by
  unfold AllIssue State.Issues State.Inside State.Owned; decide +kernel

/-- A command in flight before its last chunk; core 0 holds the entry of the page of its operands. -/
def unitLeaf : TlbEnt := match P.walk 1 0 with
  | .ok e => e
  | .error _ => { ctx := 0, va := 0, size := 0, pte := 0, loc := 0 }
def cmd (i : Instr) (stride : Nat) : MatCmd :=
  { instr := i, pend := 0, lanes := 0xFFFFFFFF, tile := 15, baseA := 0x1000, strideA := stride, baseB := 0x8000, strideB := 64,
    scalesA := [], scalesB := [], zfrag := 0, declared := 0xFFFFFFFF, rows := 56, charge := 0, passed := 0, skipped := 0,
    retried := 0, recKey := 0, inService := true }
def PMat (i : Instr) (stride : Nat) : State :=
  { (P.modGrp 4 (fun g => { g with mat := some (cmd i stride) })) with
    cores := [(0, { Core.fresh with tlb := [unitLeaf] })] }

theorem unit_walk : (match P.walk 1 0 with | .ok _ => true | .error _ => false) = true := by decide +kernel
theorem unit_quiet (i : Instr) (stride : Nat) : Quiet (PMat i stride) (some 0) 1 0 unitLeaf where
  walk := by
    rw [walk_congr (s := P) (t := PMat i stride) (by simp only [PMat, State.modGrp]) (by simp only [PMat, State.modGrp])
      (by simp only [PMat, State.modGrp]) (by simp only [PMat, State.modGrp])]
    have hw := unit_walk
    rw [show 65536 * 0 = 0 from rfl]
    unfold unitLeaf
    generalize P.walk 1 0 = x at hw ⊢
    cases x with
    | error c => simp at hw
    | ok e => rfl
  acc := by decide +kernel
  same := by simp only [PMat, State.modGrp]; decide +kernel
  clean := by simp only [PMat, State.modGrp]; decide +kernel
  routes := by simp only [PMat, State.modGrp]; decide +kernel
  reads := by decide +kernel
  dirty := by decide +kernel
  cache := by decide +kernel
  size := by decide +kernel
  va := by decide +kernel
  ctx := by decide +kernel
  low := by decide +kernel
  below := by decide +kernel
  tlb := fun n hn => by cases hn; simp only [PMat, State.modGrp, State.core]; decide +kernel

theorem unit_loadRows (i : Instr) (stride base n : Nat) (is : List Nat) (h : ∀ j ∈ is, base + j * stride + n ≤ 65536)
    (hn : 0 < n) : (PMat i stride).loadRows 4 base stride n (fun _ => false) is []
      = (PMat i stride, .ok (is.map (fun j => natLE ((List.range n).map (fun k => quietByte (PMat i stride) unitLeaf (base + j * stride + k)))))) := by
  refine quiet_loadRows is [] (fun j hj => ?_)
  have hj := h j hj
  unfold State.loadRow
  rw [show ((PMat i stride).grp 4).core = 0 from rfl, show (PMat i stride).cidOf 4 = 1 from rfl,
    (unit_quiet i stride).loadBytes (by omega) (by omega)]

theorem unit_groups : P.groups = [(4, P.grp 4)] := by decide +kernel
theorem serve_alone {s : State} {g : Group} {m : MatCmd} (h : s.groups = [(4, g)]) (hm : g.mat = some m)
    (hi : m.inService = true) : s.serve 4 = s := by
  have hg : ({ g with mat := some { m with inService := true } } : Group) = g := by
    cases g; cases m; cases hm; cases hi; rfl
  have hs : ({ s with groups := [(4, g)] } : State) = s := by rw [← h]
  simp only [State.serve, h, List.map_cons, List.map_nil, hm, beq_self_eq_true, hg, ite_self, hs]
theorem modK_one {α : Type} (x : α) (f : α → α) : modK [(4, x)] 4 f = [(4, f x)] := rfl
theorem unit_groups_eq (i : Instr) (stride : Nat) :
    (PMat i stride).groups = modK P.groups 4 (fun g => { g with mat := some (cmd i stride) }) := by
  unfold PMat State.modGrp
  dsimp only
theorem unit_serve (i : Instr) (stride : Nat) : (PMat i stride).serve 4 = PMat i stride := by
  have h := unit_groups_eq i stride
  rw [unit_groups, modK_one] at h
  exact serve_alone h rfl rfl

theorem unit_served (i : Instr) (stride base n : Nat) (is : List Nat) (h : ∀ j ∈ is, base + j * stride + n ≤ 65536)
    (hn : 0 < n) : ((PMat i stride).serve 4).loadRows 4 base stride n (fun _ => false) is []
      = (PMat i stride, .ok (is.map (fun j => natLE ((List.range n).map (fun k => quietByte (PMat i stride) unitLeaf (base + j * stride + k)))))) := by
  rw [unit_serve]
  exact unit_loadRows i stride base n is h hn

def mmaWord : Instr := .mma (cf 1) .i8 15 7 20 22 0 0
theorem witness_UnitChunks_rows :
    (∀ i ∈ [mmaWord, .mlda (cf 1) 15 26, .mzero (cf 1) 15], (PMat i 64).hasGroup 4 = true
      ∧ (findK (PMat i 64).wgs ((PMat i 64).grp 4).wid).isSome = true
      ∧ (findK (PMat i 64).regions ((PMat i 64).wgOf 4).rid).isSome = true
      ∧ ((PMat i 64).grp 4).mat = some (cmd i 64) ∧ (cmd i 64).instr = i ∧ (cmd i 64).rows + 8 = 64
      ∧ (cmd i 64).declared = BitVec.allOnes 32 ∧ (cmd i 64).zfrag = 0 ∧ (PMat i 64).inject.chunk = 0)
    ∧ (∃ q ra rb, ((PMat mmaWord 64).serve 4).loadRows 4 0x1000 64 64 (fun _ => false) ((List.range 8).map (· + 56)) [] = (q, .ok ra)
      ∧ q.loadRows 4 0x8000 64 64 (fun _ => false) (List.range 64) [] = (q, .ok rb))
    ∧ ∃ q xs, ((PMat (.mlda (cf 1) 15 26) 256).serve 4).loadRows 4 0x1000 256 256 (fun _ => false) ((List.range 8).map (· + 56)) []
        = (q, .ok xs) := by
  exact ⟨by decide +kernel, ⟨_, _, _, unit_served mmaWord 64 0x1000 64 _ (by decide +kernel) (by omega),
    unit_loadRows mmaWord 64 0x8000 64 _ (by decide +kernel) (by omega)⟩, _, _,
    unit_served (.mlda (cf 1) 15 26) 256 0x1000 256 _ (by decide +kernel) (by omega)⟩

/-- The addresses of rows, byte by byte. -/
def spanOf (base stride n : Nat) (is : List Nat) : List Nat :=
  is.flatMap (fun i => (List.range n).map (fun j => base + i * stride + j))
def lastRows : List Nat := (List.range 8).map (· + 56)
def mstaWord : Instr := .msta (cf 1) 15 26
/-- The bytes that MSTA stores stand one after another in memory. -/
def runsOn (s : State) (as : List Nat) : Bool := match s.walk 1 0 with
  | .ok e => (match s.target (e.pa (nth as 0 0)) with
    | some (.mem d) => as.all (fun x => match s.target (e.pa x) with
      | some (.mem loc) => loc + nth as 0 0 == d + x
      | _ => false)
    | _ => false)
  | .error _ => false
theorem msta_runs : runsOn (PMat mstaWord 256) (spanOf 0x1000 256 256 lastRows) = true := by decide +kernel
theorem places_of_run {s : State} {as : List Nat} (h : runsOn s as = true) (hp : ∀ a ∈ as, a / 65536 = 0) :
    ∀ x ∈ as, ∀ y ∈ as, x ≠ y → s.placeOf 1 x ≠ s.placeOf 1 y := by
  unfold runsOn at h
  split at h
  · next e he =>
    split at h
    · next d hd =>
      have hl : ∀ a ∈ as, s.placeOf 1 a + nth as 0 0 = d + a := fun a ha => by
        have hx := List.all_eq_true.1 h a ha
        have hw : s.leafOf 1 a = e := by
          unfold State.leafOf; rw [walk_page s 1 (hp a ha), show 65536 * 0 = 0 from rfl, he]
        unfold State.placeOf
        rw [hw]
        split at hx
        · next loc hloc => simpa [hloc] using hx
        · contradiction
      intro x hx y hy hn
      have := hl x hx
      have := hl y hy
      omega
    · contradiction
  · contradiction

theorem witness_UnitChunks_plain :
    (∃ leaf loc, (PMat mmaWord 64).Plain (some 0) 1 1 .read
      (spanOf 0x1000 64 64 lastRows ++ spanOf 0x8000 64 64 (List.range 64)) leaf loc)
    ∧ (∃ leaf loc, (PMat (.mlda (cf 1) 15 26) 256).Plain (some 0) 1 1 .read (spanOf 0x1000 256 256 lastRows) leaf loc)
    ∧ ∃ leaf loc, (PMat mstaWord 256).Plain (some 0) 1 1 .write (spanOf 0x1000 256 256 lastRows) leaf loc
      ∧ ∀ x ∈ spanOf 0x1000 256 256 lastRows, ∀ y ∈ spanOf 0x1000 256 256 lastRows, x ≠ y → loc x ≠ loc y := by
  refine ⟨⟨_, _, plain_of_plainly (by decide +kernel)⟩, ⟨_, _, plain_of_plainly (by decide +kernel)⟩,
    _, _, plain_of_plainly (by decide +kernel), places_of_run msta_runs (by decide +kernel)⟩

/-- The same command in E4M3, in which one lane signed: rows and columns 24 and 56 are live. -/
def floatWord : Instr := .mma (cf 1) .e4m3 15 7 20 22 0 0
def PFloat : State := (PMat floatWord 64).modGrp 4 (fun g => { g with
  mat := some { cmd floatWord 64 with declared := 0x01000000, scalesA := List.replicate 128 127, scalesB := List.replicate 128 127 } })
def floatSpan : List Nat := spanOf 0x1000 64 64 [56] ++ spanOf 0x8000 64 64 (List.range 64)
/-- No byte of memory is listed where the bytes stand. -/
def zerosOn (s : State) (as : List Nat) : Bool := match s.walk 1 0 with
  | .ok e => as.all (fun x => decide (x / 65536 = 0) && (match s.target (e.pa x) with
      | some (.mem loc) => s.byteAt loc == 0
      | _ => false))
  | .error _ => false
theorem zero_of {s : State} {as : List Nat} (h : zerosOn s as = true) : ∀ a ∈ as, s.byteAt (s.placeOf 1 a) = 0 := by
  unfold zerosOn at h
  split at h
  · next e he =>
    intro a ha
    have hx := List.all_eq_true.1 h a ha
    rw [Bool.and_eq_true, decide_eq_true_eq] at hx
    have hw : s.leafOf 1 a = e := by
      unfold State.leafOf; rw [walk_page s 1 hx.1, show 65536 * 0 = 0 from rfl, he]
    have h2 := hx.2
    unfold State.placeOf
    rw [hw]
    split at h2
    · next loc hloc => simpa [hloc] using h2
    · contradiction
  · contradiction
theorem float_zero : zerosOn PFloat floatSpan = true := by decide +kernel
theorem float_read {loc : Nat → Nat} {b : Nat} (h : ∀ a ∈ spanOf b 1 64 [0], PFloat.byteAt (loc a) = 0) :
    natLE ((List.range 64).map (fun j => PFloat.byteAt (loc (b + j)))) = 0 := by
  have h1 : (List.range 64).map (fun j => PFloat.byteAt (loc (b + j))) = (List.range 64).map (fun _ => 0) :=
    List.map_congr_left (fun j hj => h _ (by simp [spanOf] at hj ⊢; omega))
  rw [h1]; decide
/-- Eight rows and 64 of zeros. -/
def floatIn : ChunkIn :=
  { v1 := PFloat.v1Of 4, fmt := .e4m3, first := 56, rowsA := List.replicate 8 0, rowsB := List.replicate 64 0
    scA := List.replicate 128 127, scB := List.replicate 128 127, zero := ~~~0x01000000 }
theorem float_accepted : floatIn.checkOk (floatIn.cells ((PFloat.wgOf 4).tile 15)) = true := by decide +kernel
theorem witness_UnitChunks_float :
    let zero : LaneMask := ~~~0x01000000
    let live (i : Nat) : Bool := !bitOf zero (i % 32)
    let read (loc : Nat → Nat) (n a : Nat) : Nat := natLE ((List.range n).map (fun j => PFloat.byteAt (loc (a + j))))
    (PFloat.hasGroup 4 = true ∧ (findK PFloat.wgs (PFloat.grp 4).wid).isSome = true
      ∧ (findK PFloat.regions (PFloat.wgOf 4).rid).isSome = true ∧ PFloat.inject.chunk = 0
      ∧ lastRows.filter live = [56])
    ∧ ∃ leaf loc, PFloat.Plain (some 0) 1 1 .read (spanOf 0x1000 64 64 [56] ++ spanOf 0x8000 64 64 (List.range 64)) leaf loc
      ∧ (let ra := lastRows.map (fun i => if live i then read loc 64 (0x1000 + i * 64) else 0)
        let rb := (List.range 64).map (fun i => read loc 64 (0x8000 + i * 64))
        let x : ChunkIn := { v1 := PFloat.v1Of 4, fmt := .e4m3, first := 56, rowsA := ra, rowsB := rb
                             scA := List.replicate 128 127, scB := List.replicate 128 127, zero := zero }
        x.checkOk (x.cells ((PFloat.wgOf 4).tile 15)) = true) := by
  refine ⟨by decide +kernel, _, _, plain_of_plainly (by decide +kernel), ?_⟩
  have hz : ∀ a ∈ floatSpan, PFloat.byteAt (PFloat.placeOf 1 a) = 0 := zero_of float_zero
  have ha : lastRows.map (fun i => if (!bitOf (~~~0x01000000 : LaneMask) (i % 32)) = true
      then natLE ((List.range 64).map (fun j => PFloat.byteAt (PFloat.placeOf 1 (0x1000 + i * 64 + j)))) else 0) = List.replicate 8 0 := by
    rw [List.eq_replicate_iff]
    refine ⟨by simp [lastRows], fun x hx => ?_⟩
    obtain ⟨i, hi, rfl⟩ := List.mem_map.1 hx
    split
    · next hl =>
      have h56 : ∀ i ∈ lastRows, (!bitOf (~~~0x01000000 : LaneMask) (i % 32)) = true → i = 56 := by decide
      obtain rfl := h56 i hi hl
      exact float_read (fun a ha => hz a (by
        simp only [spanOf, floatSpan, List.mem_append, List.mem_flatMap, List.mem_map, List.mem_range] at ha ⊢
        obtain ⟨_, _, k, hk, rfl⟩ := ha
        simp at *
        exact .inl ⟨k, hk, by omega⟩))
    · rfl
  have hb : (List.range 64).map (fun i => natLE ((List.range 64).map (fun j => PFloat.byteAt (PFloat.placeOf 1 (0x8000 + i * 64 + j)))))
      = List.replicate 64 0 := by
    rw [List.eq_replicate_iff]
    refine ⟨by simp, fun x hx => ?_⟩
    obtain ⟨i, hi, rfl⟩ := List.mem_map.1 hx
    rw [List.mem_range] at hi
    exact float_read (fun a ha => hz a (by
      simp only [spanOf, floatSpan, List.mem_append, List.mem_flatMap, List.mem_map, List.mem_range] at ha ⊢
      obtain ⟨_, _, k, hk, rfl⟩ := ha
      simp at *
      exact .inr ⟨i, hi, k, hk, by omega⟩))
  have h := float_accepted
  unfold floatIn at h
  rw [← ha, ← hb] at h
  exact h

/-- The last token of a count, at the end of a row in positions. -/
def PPal : State := PW [(64, [0xFF, 0xFF])] [] |>.modGrp 4 (fun g => { g with
  pal := some { pend := 0, lanes := 0xFFFFFFFF, base := 64, count := 1, x := 128, y := 128 }
  cursor := { Cursor.fresh with state := 5, groups := 1, basin := 0x3F800000, code := 32, idx := 2 } })
theorem witness_UnitChunks_palette :
    (PPal.hasGroup 4 = true ∧ (findK PPal.wgs (PPal.grp 4).wid).isSome = true
      ∧ (findK PPal.regions (PPal.wgOf 4).rid).isSome = true)
    ∧ (∃ p, (PPal.grp 4).pal = some p
      ∧ decide (p.count = (PPal.grp 4).cursor.next + 1 ∧ (PPal.grp 4).cursor.state = 5
        ∧ p.base + 2 * (PPal.grp 4).cursor.next = 64 ∧ p.y + 4 * (PPal.grp 4).cursor.idx.toNat = 136) = true)
    ∧ (match PPal.loadS 4 64 2 with | .ok x => x == 0xFFFF | .error _ => false) = true
    ∧ (∀ q ∈ PPal.groups, q.2.pending = [])
    ∧ PPal.palRead 4 136 = some 0 :=
  ⟨by decide +kernel, someThat (by decide +kernel), by decide +kernel, by decide +kernel, by decide +kernel⟩

/-! ### Regions and the distributor -/

/-- A control block that R33 to R35 accept: entry 0, one workgroup of 32 threads, numeric version 2 stated. -/
def rcbBytes : List Byte :=
  bytesLE 4 0x4B524342 ++ bytesLE 2 1 ++ bytesLE 2 0x200 ++ bytesLE 8 0 ++ bytesLE 4 1 ++ bytesLE 4 32
    ++ List.replicate 0x19 0 ++ [2, 1] ++ List.replicate 0xCD 0
def PSpawn (sr : List (Nat × Word)) : State := PM rcbBytes sr
def spawnWord : Instr := .spawn (cuf 1) 4 1
/-- The state in which it acts, its region's core time debited. -/
def spawning (s : State) : State :=
  (s.begun spawnWord (cuf 1) { a := [s.readS 1], b := [], c := [] }).debitRegion (s.wgOf s.cur).rid
/-- The block is read, and what it is answered. -/
def spawnReads (s : State) (c : Nat) : Bool :=
  match (spawning s).accessG (some s.g.core) (s.cidOf s.cur) (s.readS 1).toNat 256 .rmw with
  | (v, .ok t) => match v.loadT t 256 with
    | .ok x => decide (v.refusal (s.cidOf s.cur) (bytesLE 256 x) (some ((spawning s).region (s.wgOf s.cur).rid)) = c)
    | .error _ => false
  | _ => false

theorem spawnReads_meets {s : State} {c : Nat} (h : spawnReads s c = true) :
    ∃ v t x, (spawning s).accessG (some s.g.core) (s.cidOf s.cur) (s.readS 1).toNat 256 .rmw = (v, .ok t)
      ∧ v.loadT t 256 = .ok x
      ∧ v.refusal (s.cidOf s.cur) (bytesLE 256 x) (some ((spawning s).region (s.wgOf s.cur).rid)) = c := by
  unfold spawnReads at h
  split at h
  · split at h
    · exact ⟨_, _, _, by assumption, by assumption, of_decide_eq_true h⟩
    · contradiction
  · contradiction

/-- The pages of a block are plain, by evaluation. -/
def blockPlain (s : State) (core : Option Nat) (cid : Nat) (va : Word) (k : XKind) : Bool :=
  s.plainly core cid 256 k [va.toNat] && s.plainly none cid 16 .write [va.toNat + 0xF0]
  && s.placeOf cid (va.toNat + 0xF0) == s.placeOf cid va.toNat + 0xF0
theorem blockAt_of {s : State} {core : Option Nat} {cid : Nat} {va : Word} {k : XKind} (h : blockPlain s core cid va k = true) :
    ∃ leaf leaf' loc loc', BlockAt s core cid va k leaf leaf' loc loc' := by
  simp only [blockPlain, Bool.and_eq_true, beq_iff_eq] at h
  exact ⟨_, _, _, _, plain_of_plainly h.1.1, plain_of_plainly h.1.2, h.2⟩

/-- An accepted block, one of zeros, which is BAD_RCB, an address off 256 and a dry region. -/
theorem witness_Regions_spawn :
    (∀ x ∈ [((PSpawn [(1, 0x200)]), 0), ((PSpawn [(1, 0x400)]), 2)], let s := x.1
      AllIssue s [spawnWord] ∧ s.active (cuf 1) ≠ 0 ∧ inSpace (s.readS 1).toNat = true
      ∧ ((spawning s).region (s.wgOf s.cur).rid).dry = false ∧ (s.readS 1).toNat % 256 = 0
      ∧ (findK s.regions (s.wgOf s.cur).rid).isSome = true ∧ (s.wgOf s.cur).rid < s.nextId
      ∧ ((spawning s).region (s.wgOf s.cur).rid).ctx = s.cidOf s.cur ∧ spawnReads s x.2 = true)
    ∧ (let s := PSpawn [(1, 0x210)]
      AllIssue s [spawnWord] ∧ ((spawning s).region (s.wgOf s.cur).rid).dry = false ∧ (s.readS 1).toNat % 256 ≠ 0)
    ∧ (let s := P.modRegion 2 (fun r => { r with tbal := 0 })
      AllIssue s [spawnWord] ∧ ((spawning s).region (s.wgOf s.cur).rid).dry = true)
    ∧ AllIssue P [.spawn { cuf 1 with pred := 1 } 4 1] ∧ P.active { cuf 1 with pred := 1 } = 0 := by
  refine ⟨?_, ?_, ?_, ?_⟩ <;> unfold AllIssue State.Issues State.Inside State.Owned <;> decide +kernel
theorem witness_Regions_spawn_plain : ∃ leaf leaf' loc loc',
    BlockAt (spawning (PSpawn [(1, 0x200)])) (some 0) 1 0x200 .rmw leaf leaf' loc loc' := blockAt_of (by decide +kernel)

/-- A root launch is read in the context that the ctx register names. -/
def PRoot : State := { (PSpawn []) with mgmt := { (PSpawn []).mgmt with ctx := 1 } }
theorem witness_Regions_root :
    State.reset.mgmt.ready = false ∧ PRoot.mgmt.ready = true ∧ (PSpawn []).namedCtx = none ∧ PRoot.namedCtx = some 1
    ∧ (0x210#64).toNat % 256 ≠ 0 ∧ inSpace 0x200 = true
    ∧ (∃ v t, PRoot.accessG none 1 0x200 256 .read = (v, .ok t)
      ∧ (match v.loadT t 256 with | .ok x => decide (v.refusal 1 (bytesLE 256 x) none = 0) | .error _ => false) = true)
    ∧ ∃ leaf leaf' loc loc', BlockAt PRoot none 1 0x200 .read leaf leaf' loc loc' :=
  ⟨by decide +kernel, by decide +kernel, by decide +kernel, by decide +kernel, by decide +kernel, by decide +kernel,
    okThat (by decide +kernel), blockAt_of (by decide +kernel)⟩

/-- Region 2 waits for 7 at 0x200, and is a child of region 9, done, with a completion store. -/
def PAfter (f : Region → Region) : State :=
  let s := PM [7] []
  { s with regions := insK (modK s.regions 2 f) 9 { Region.absent with ctx := 1, openKids := 1 } }
def PWaits : State := PAfter (fun r => { r with state := .afterWait, rcb := { r.rcb with afterA := 0x200, afterV := 7 } })
theorem witness_Regions_after :
    ∃ r, findK PWaits.regions 2 = some r ∧ r.watching = true ∧ r.rcb.afterA.toNat = 0x200 ∧ r.ctx = 1
      ∧ (∃ v x, PWaits.loadG none r.ctx r.rcb.afterA.toNat 8 = (v, .ok x) ∧ decide (r.rcb.afterV.toNat ≤ x) = true)
      ∧ ∃ leaf loc, PWaits.Plain none 1 8 .read [0x200] leaf loc :=
  ⟨_, rfl, by decide +kernel, by decide +kernel, by decide +kernel, okThat (p := fun (_ : State) x => decide (7 ≤ x)) (by decide +kernel),
    _, _, plain_of_plainly (by decide +kernel)⟩

def PDone (done : Word) : State :=
  { (PAfter (fun r => { r with parent := some 9, rcbaddr := 0x300, rcb := { r.rcb with doneA := done, doneV := 5 } })) with
    wgs := [], groups := [] }
theorem witness_Regions_complete : ∀ done ∈ [(0 : Word), 0x208],
    ∃ r, findK (PDone done).regions 2 = some r ∧ (PDone done).completable 2 = true ∧ r.held = []
      ∧ (∀ q ∈ (PDone done).objects, q.2.revoked = false) ∧ r.parent = some 9 ∧ (findK (PDone done).regions 9).isSome = true
      ∧ r.rcb.doneA = done
      ∧ ∃ v u, (PDone done).storeG none r.ctx (r.rcbaddr.toNat + 0xF0) [2] = (v, .ok u)
        ∧ (match (v.modRegion 2 (fun r => { r with finished := true })).storeG none r.ctx 0x208 (bytesLE 8 r.rcb.doneV.toNat) with
          | (_, .ok _) => true | _ => false) = true := by
  intro done hd
  simp only [List.mem_cons, List.not_mem_nil, or_false] at hd
  rcases hd with rfl | rfl <;>
    exact ⟨_, rfl, by decide +kernel, by decide +kernel, by decide +kernel, by decide +kernel, by decide +kernel, rfl, okThat (by decide +kernel)⟩
theorem witness_Regions_complete_plain :
    let s := PDone 0x208
    ((s.region 2).rcbaddr.toNat + 0xF0, (s.region 2).rcb.doneA.toNat, (s.region 2).ctx) = (0x3F0, 0x208, 1)
    ∧ ∃ leaf loc leaf' loc', s.Plain none 1 1 .write [0x3F0] leaf loc ∧ s.Plain none 1 8 .write [0x208] leaf' loc'
      ∧ ¬(loc' 0x208 ≤ loc 0x3F0 ∧ loc 0x3F0 < loc' 0x208 + 8)
      ∧ ∀ mem : KMap Byte, (∀ x, x ≠ loc 0x3F0 → ({ s with mem := mem } : State).byteAt x = s.byteAt x) →
        ({ s with mem := mem } : State).walk 1 0x208 = .ok (leaf' 0x208) :=
  ⟨by decide +kernel, _, _, _, _, plain_of_plainly (by decide +kernel), plain_of_plainly (by decide +kernel), by decide +kernel,
    fun _ h => walk_of_steady (loc := (PDone 0x208).placeOf 1 0x3F0) (n := 1) (by decide +kernel) (fun x hx => h x (by omega))⟩

theorem witness_Regions_time : ∀ n ∈ [4095, 4096],
    let s := { P with cycle := n }
    (findK s.wgs 3).isSome = true ∧ (findK s.regions (s.wg 3).rid).isSome = true ∧ s.undebited 3 = n := by decide +kernel

/-- Region 2 has a second workgroup to place. -/
def PDist : State := P.modRegion 2 (fun r => { r with state := .eligible, rcb := { r.rcb with wgcount := 2 } })
/-- Workgroup 3 waits to re-enter. -/
def PBack : State := P.modWg 3 (fun w => { w with state := .waiting })
/-- Core 0 alone is in service; it holds context 1, and a region of context 7 with a higher class has a workgroup. -/
def PSwitch : State :=
  let r := P.region 2
  { P with
    cores := (List.range 159).map (fun k => (k + 1, { Core.fresh with failed := true }))
    ctxs := insK P.ctxs 7 { Ctx.absent with root := 0 }
    regions := insK P.regions 8 { r with ctx := 7, nextwg := 0, state := .eligible, rcb := { r.rcb with prio := 4 } } }

theorem witness_Distributor_place :
    PDist.nextCand = some { rid := 2, wgid := 1, wid := none } ∧ PDist.mayPlace { rid := 2, wgid := 1, wid := none } 159 = true
    ∧ (findK PDist.regions 2).isSome = true
    ∧ PBack.nextCand = some { rid := 2, wgid := 0, wid := some 3 } ∧ PBack.mayPlace { rid := 2, wgid := 0, wid := some 3 } 156 = true
    ∧ (findK PBack.wgs 3).isSome = true := by decide +kernel

theorem witness_Distributor_reserve :
    let s := { (PDist.modRegion 2 (fun r => { r with passed := true })) with cycle := 1048576 }
    s.mustReserve 1 = some { rid := 2, wgid := 1, wid := none } ∧ (findK s.ctxs 1).isSome = true := by decide +kernel

theorem witness_Distributor_fusion : P.clusterEmpty 0 = false ∧ P.clusterEmpty 39 = true := by decide +kernel

theorem witness_Distributor_switch :
    PSwitch.candidates.find? (fun x => x.rid == 8 && x.wgid == 0) = some { rid := 8, wgid := 0, wid := none }
    ∧ (PSwitch.victims { rid := 8, wgid := 0, wid := none }).contains 0 = true
    ∧ (P.modCore 0 (fun c => { c with failed := true })).mustEmpty 0 = true := by decide +kernel

theorem witness_Distributor_swap :
    (let s := P.modCore 0 (fun c => { c with switch := .requested 2 1 0 5 });
      (s.core 0).switch = .requested 2 1 0 5 ∧ risingK s.wgs = true ∧ (∀ q ∈ s.wgs, q.1 < s.nextId)
        ∧ s.switchCand 2 1 = none)
    ∧ (let s := PSwitch.modCore 0 (fun c => { c with switch := .requested 8 0 0 5 });
      (s.core 0).switch = .requested 8 0 0 5 ∧ risingK s.wgs = true ∧ (∀ q ∈ s.wgs, q.1 < s.nextId)
        ∧ (s.switchCand 8 0).isSome = true)
    ∧ (let s := ((P.modGrp 4 (fun g => { g with valloc := 8 })).modCore 0 (fun c => { c with switch := .spilling [3] })).modCtx 1 (fun c => { c with poolBytes := 65536 });
      (s.core 0).switch = .spilling [3] ∧ (findK s.wgs 3).isSome = true ∧ (s.spillWg 3).isSome = true)
    ∧ (let s := (P.modCore 0 (fun c => { c with switch := .spilling [3] })).modCtx 1 (fun c => { c with poolBytes := 0 });
      (s.core 0).switch = .spilling [3] ∧ (findK s.wgs 3).isSome = true ∧ (s.spillWg 3).isNone = true) := by decide +kernel

/-! ### Groups and fault records -/

/-- A quotient in flight in lane 31. -/
def PIdiv : State := after (.idiv (cf 0) .nat true (.v 3) (.v 2) (.s 1)) (PM [] [(1, 5)])
theorem witness_GroupEvents_complete : (findK PIdiv.groups 4).isSome = true
    ∧ (∃ p, PIdiv.g.pend? 5 = some p ∧ (p.id == 5 && decide (p.kind = .result) && p.flag == some 0) = true)
    ∧ ∀ x ∈ PIdiv.g.landing, x.due = .on 5 :=
  ⟨by decide +kernel, someThat (p := fun (p : Pend) => p.id == 5 && decide (p.kind = .result) && p.flag == some 0) (by decide +kernel), by decide +kernel⟩

/-- Every thread has exited: the only group of one, and one of two. -/
def PExit (n : Nat) : State := (after (.exit c0) P).modWg 3 (fun w => { w with ngroups := n })
theorem witness_GroupEvents_retire : ∀ n ∈ [1, 2], (PExit n).retireReady 4 = true ∧ (findK (PExit n).wgs 3).isSome = true
    ∧ (findK (PExit n).regions 2).isSome = true ∧ ((PExit n).wg 3).ngroups = n
    ∧ ((PExit n).wg 3).copies = [] ∧ ((PExit n).wg 3).batches = [] ∧ ((PExit n).wg 3).seals = [] := by decide +kernel
theorem witness_GroupEvents_retire_copies :
    let s := (PExit 1).modWg 3 (fun w => { w with copies := [{ index := 0, slices := [], started := true, done := 0, batch := 0 }] })
    s.retireReady 4 = true ∧ (findK s.wgs 3).isSome = true ∧ (findK s.regions 2).isSome = true ∧ (s.wg 3).copies ≠ [] := by
  decide +kernel

/-- Lane 31 has been held at 0x100 for 256 cycles. -/
def PHeld : State :=
  { (P.modGrp 4 (fun g => g.modTh 0x80000000 (fun t => { t with held := .rc 0, rc := some 0x100 }))) with cycle := 255 }
theorem witness_GroupEvents_hold : PHeld.holdSpent 4 0x100 = true ∧ (PHeld.g.th 31).held = .rc 0
    ∧ (PHeld.g.th 31).rc = some 0x100 ∧ 0 + 255 ≤ PHeld.cycle ∧ (PHeld.wgOf 4).issues = true := by decide +kernel

/-- Every thread waits for role 0. -/
def PRole : State := after (.role (cf 1) 0) P
theorem witness_GroupEvents_role : ∃ x, PRole.roleReady 4 = some x ∧ decide (x.2.1 = 0 ∧ x.1.valloc = 160) = true :=
  someThat (by decide +kernel)

theorem witness_GroupEvents_starves :
    let s := { (P.modGrp 4 (fun g => { g with eligB := some 0 })) with cycle := 4096 }
    s.starves 4 true = true ∧ s.first.contains (4, true) = false := by decide +kernel

/-- A breakpoint's record is held, of a workgroup that has been saved; its domain's queue of 64 is described at 0x8000.
With the next sequence 65 the queue is full with head 0, and has room for one with head 1. -/
def PPost (desc : List Byte) : State :=
  (((after (.brk c0 7) (PM [] [])).modWg 3 (fun w => { w with state := .suspended false })).modCtx 1 (fun c =>
    { c with domains := [(0, { desc := 0x8000, next := 65 })] })).putPhys (fetchPage + 0x8000) desc
def qbytes (head : Nat) : List Byte := bytesLE 8 0x9000 ++ bytesLE 4 64 ++ bytesLE 4 0 ++ bytesLE 8 head ++ bytesLE 8 0

/-- The descriptor can be read, and the queue's slot and tail can be written. -/
def canPost (s : State) : Bool :=
  match s.loadBytes none 1 0x8000 32 with
  | (v, .ok _) => (match v.accessG none 1 0x9000 64 .write, (v.accessG none 1 0x8018 8 .write).2 with
    | (_, .ok _), .ok _ => true
    | _, _ => false)
  | _ => false
theorem canPost_meets {s : State} (h : canPost s = true) : ∃ v bs, s.loadBytes none 1 0x8000 32 = (v, .ok bs)
    ∧ ∃ w tr td, v.accessG none 1 0x9000 64 .write = (w, .ok tr) ∧ (v.accessG none 1 0x8018 8 .write).2 = .ok td := by
  unfold canPost at h
  split at h
  · split at h
    · exact ⟨_, _, by assumption, _, _, _, by assumption, by assumption⟩
    · contradiction
  · contradiction

/-- The three descriptors: no queue, a full one, one with room; and its slot can be written. -/
theorem witness_FaultsResolved_post : ∀ desc ∈ [[], qbytes 0, qbytes 1],
    (∃ r, ((PPost desc).ctx 1).heads = [(1, r)] ∧ ((PPost desc).saveHeld 1).ctx 1 = (PPost desc).ctx 1
      ∧ findK ((PPost desc).ctx 1).recs 1 = some r ∧ r.domain = 0)
    ∧ ((findK (PPost desc).ctxs 1).isSome = true ∧ 1 < ((PPost desc).ctx 1).nextRec)
    ∧ (findK ((PPost desc).ctx 1).domains 0).isSome = true ∧ canPost ((PPost desc).saveHeld 1) = true
    ∧ queueDesc ((List.range 32).map (fun j => (PPost desc).byteAt ((PPost desc).placeOf 1 (0x8000 + j))))
      = (if desc = [] then none else some { base := 0x9000, size := 64, head := if desc = qbytes 0 then 0 else 1 }) := by
  intro desc h
  simp only [List.mem_cons, List.not_mem_nil, or_false] at h
  rcases h with rfl | rfl | rfl <;>
    exact ⟨⟨_, rfl, by decide +kernel, by decide +kernel, by decide +kernel⟩, by decide +kernel⟩

/-- The pages of the descriptor and of the slot are plain, and the record does not stand where the tail or the tables do. -/
theorem witness_FaultsResolved_plain : let s := PPost (qbytes 1)
    (∀ x ∈ (s.ctx 1).holding, x.2.kind = 0 → (s.wg x.2.wid).state ≠ .suspended true)
    ∧ (∃ d, findK (s.ctx 1).domains 0 = some d ∧ decide (d.desc = 0x8000 ∧ d.next - 1 - 1 < 64 ∧ 0x9000 + 64 * ((d.next - 1) % 64) = 0x9000) = true)
    ∧ ∃ leafd locd leaft loct leafr locr, s.Plain none 1 1 .read ((List.range 32).map (fun j => 0x8000 + j)) leafd locd
      ∧ s.Plain none 1 8 .write [0x8018] leaft loct ∧ s.Plain none 1 64 .write [0x9000] leafr locr
      ∧ queueDesc ((List.range 32).map (fun j => s.byteAt (locd (0x8000 + j)))) = some { base := 0x9000, size := 64, head := 1 }
      ∧ (∀ j, j < 64 → ¬(loct 0x8018 ≤ locr 0x9000 + j ∧ locr 0x9000 + j < loct 0x8018 + 8))
      ∧ ∀ mem : KMap Byte, (∀ x, ¬(locr 0x9000 ≤ x ∧ x < locr 0x9000 + 64) → ({ s with mem := mem } : State).byteAt x = s.byteAt x) →
        ({ s with mem := mem } : State).walk 1 0x8018 = .ok (leaft 0x8018) :=
  ⟨by decide +kernel, someThat (p := fun (d : Domain) => decide (d.desc = 0x8000 ∧ d.next - 1 - 1 < 64 ∧ 0x9000 + 64 * ((d.next - 1) % 64) = 0x9000)) (by decide +kernel),
    _, _, _, _, _, _, plain_of_plainly (by decide +kernel), plain_of_plainly (by decide +kernel), plain_of_plainly (by decide +kernel),
    by decide +kernel, by decide +kernel,
    fun _ h => walk_of_steady (loc := (PPost (qbytes 1)).placeOf 1 0x9000) (n := 64) (by decide +kernel) h⟩

/-- The record of a fault stands at 0x9000, with a resolution. -/
def PRes (i : Instr) (res : Nat) : State :=
  ((after i (PM [] [])).modCtx 1 (fun c => { c with recs := c.recs.map (fun r => (r.1, { r.2 with seq := 1, va := 0x9000 })) })).putPhys
    (fetchPage + 0x9038) (bytesLE 4 res)
def divWord : Instr := .idiv (cf 0) .nat false (.v 3) (.v 2) (.v 1)

/-- RETRY and SKIP of a word and of an instruction, ABANDON_WG and ABANDON_REGION, the last by its least and its greatest
code. -/
theorem witness_FaultsResolved : ∀ x ∈ [(Instr.reservedOpcode 0, 1), (divWord, 1), (.reservedOpcode 0, 2), (divWord, 2),
    (divWord, 3), (divWord, 4), (divWord, 0xFFFFFFFF)], let s := PRes x.1 x.2
    s.resolution 1 1 = x.2 ∧ (findK s.ctxs 1).isSome = true ∧ 1 < (s.ctx 1).nextRec ∧ (findK s.wgs 3).isSome = true
    ∧ (s.wg 3).ctx = 1 := by decide +kernel
theorem witness_FaultsResolved_subjects :
    (∃ r, findK ((PRes (.reservedOpcode 0) 1).ctx 1).recs 1 = some r
      ∧ (decide (r.subject = .word 4 0x80000000) && r.wid == 3 && r.kind != 3) = true)
    ∧ (∃ r, findK ((PRes divWord 1).ctx 1).recs 1 = some r ∧ (decide (r.subject = .instr 4 5) && r.lanes == 0x80000000) = true)
    ∧ (∃ q, ((PRes divWord 1).grp 4).pend? 5 = some q
      ∧ (q.id == 5 && q.lanes &&& ~~~(q.done ||| 0x80000000) == 0 && decide (q.instr = divWord)) = true)
    ∧ (let s := (PRes (.reservedOpcode 0) 2).advance 4 0x80000000; (findK s.wgs 3).isSome = true ∧ (s.wg 3).ctx = 1)
    ∧ (match ((PRes divWord 1).grp 4).pend? 5 with
      | some q => let p := (PRes divWord 1).redo 4 q; decide ((p.wg 3).ctx = 1) && (findK p.wgs 3).isSome
      | none => false) = true :=
  ⟨someThat (p := fun (r : FaultRec) => decide (r.subject = .word 4 0x80000000) && r.wid == 3 && r.kind != 3) (by decide +kernel),
    someThat (p := fun (r : FaultRec) => decide (r.subject = .instr 4 5) && r.lanes == 0x80000000) (by decide +kernel),
    someThat (p := fun (q : Pend) => q.id == 5 && q.lanes &&& ~~~(q.done ||| 0x80000000) == 0 && decide (q.instr = divWord)) (by decide +kernel),
    by decide +kernel, by decide +kernel⟩

/-- The record of a program of the workgroup, with a resolution. -/
def PStop (res : Nat) (f : Prog → Prog) : State :=
  (({ (PRes (.reservedOpcode 0) res) with
      progs := [(5, f { (PR id).prog 5 with engine := Option.none })] } : State).modCtx 1 (fun c =>
    { c with recs := c.recs.map (fun r => (r.1, { r.2 with subject := .engine 5 })) })).modWg 3 (fun w => { w with state := .resident, recs := [] })
/-- RETRY and SKIP of a command that failed, of one at a page that is not there, and of one that has gone on since. -/
def failed (p : Prog) : Prog := { p with state := .error, prior := .idle, recKey := 1 }
def paged (p : Prog) : Prog := { p with state := .page, recKey := 1 }
theorem witness_FaultsResolved_engine : ∀ res ∈ [1, 2], ∀ f ∈ [failed, paged, id],
    let s := PStop res f
    (∃ r, findK (s.ctx 1).recs 1 = some r ∧ decide (r.subject = .engine 5) = true) ∧ (findK s.progs 5).isSome = true
    ∧ s.resolution 1 1 = res ∧ (s.wg (s.prog 5).wid).state = .resident ∧ s.freeEngine (s.prog 5).stack = some 0 := by
  intro res hres f hf
  simp only [List.mem_cons, List.not_mem_nil, or_false] at hres hf
  rcases hres with rfl | rfl <;> rcases hf with rfl | rfl | rfl <;>
    exact ⟨someThat (p := fun (r : FaultRec) => decide (r.subject = .engine 5)) (by decide +kernel), by decide +kernel⟩
theorem witness_FaultsResolved_stops : ∀ res ∈ [1, 2],
    ((PStop res failed).prog 5).recKey = 1 ∧ ((PStop res failed).prog 5).state = .error ∧ ((PStop res failed).prog 5).prior = .idle
    ∧ ((PStop res paged).prog 5).recKey = 1 ∧ ((PStop res paged).prog 5).state = .page ∧ ((PStop res id).prog 5).recKey ≠ 1 := by
  decide +kernel

/-! ### The management port, images, objects, the world -/

/-- `P` with the command's arguments at the port. -/
def PArg (ctx a0 a1 a2 : Nat) : State :=
  { P with mgmt := { P.mgmt with ctx := wordN ctx, arg0 := wordN a0, arg1 := wordN a1, arg2 := wordN a2 } }
/-- With a code object that no region runs. -/
def PObj (h : Nat) (revoked : Bool) : State :=
  { (PArg 1 h 1 0) with objects := insK P.objects 9 { ctx := 1, hash := [], base := 0, revoked := revoked, flags := 0, segs := [], pages := [], kernels := [] } }
def PSpare (n : Nat) : State := { P with svc := { P.svc with spares := [(0, n)] } }
def PDrain : State := { P with svc := { P.svc with drainUnit := some (1, 30, false) } }

theorem witness_PortCommands :
    State.reset.mgmt.ready = false ∧ P.mgmt.ready = true ∧ ({ P.mgmt with cstat := 0x100 } : Mgmt).cstat.getLsbD 8 = true
    ∧ (PArg 1 0 0 16).getPhys 0 16 = some (zeroBytes 16) ∧ granuleOf 0x1000 = some (2 ^ 24) ∧ granuleOf (2 ^ 40) = none
    ∧ (∀ n ∈ [0, 255], getD (PSpare n).svc.spares 0 0 = n ∧ n < 256) ∧ getD (PSpare 256).svc.spares 0 0 = 256
    ∧ bits 0x007 15 8 = 0 ∧ bits 0x007 7 0 = 7
    ∧ findK P.ctxs 0 = none ∧ (findK (PArg 1 0 0 0).ctxs 1).isSome = true
    ∧ (P.ctx 1).hold = [] ∧ (P.ctx 1).halted = false ∧ ((PObj 9 false).modCtx 1 (fun c => { c with halted := true })).ctxPins 1 = true
    ∧ (P.openOf 1).any (fun q => q.2.rcbaddr == 0) = true ∧ risingK P.regions = true
    ∧ (P.openOf 1).all (fun q => q.2.rcbaddr != 8) = true
    ∧ findK P.objects 7 = none ∧ findK (PObj 9 false).objects 9 ≠ none ∧ findK (PObj 9 true).objects 9 ≠ none
    ∧ (PObj 9 false).pinned 9 = false ∧ P.pinned 1 = true
    ∧ PDrain.drainReady = true := by decide +kernel

/-- Bytes of a fixed length, one by one. -/
theorem bytes_of {d : List Byte} {n : Nat} (h : d.length = n) : d = (List.range n).map (fun k => d.getD k 0) := by
  subst h
  exact List.ext_getElem (by simp) (fun i h1 h2 => by simp [h1])

theorem crcBits_lt : ∀ (k c : Nat), c < 2 ^ 32 → crcBits k c < 2 ^ 32 := by
  intro k
  induction k with
  | zero => exact fun c h => h
  | succ k ih =>
    intro c h
    refine ih _ ?_
    split
    · exact Nat.xor_lt_two_pow (by omega) (by decide)
    · omega
theorem crc32c_lt (bs : List Byte) : crc32c bs < 2 ^ 32 := by
  have run : ∀ (bs : List Byte) (c : Nat), c < 2 ^ 32 → crcRun bs c < 2 ^ 32 := by
    intro bs
    induction bs with
    | nil => exact fun c h => h
    | cons b bs ih =>
      exact fun c h => ih _ (crcBits_lt _ _ (Nat.xor_lt_two_pow h (by have := b.isLt; omega)))
  exact Nat.xor_lt_two_pow (run _ _ (by decide)) (by decide)

/-- Memory that holds `bs` in the host's range as well. -/
def hostMem (m : KMap Byte) (bs : List Byte) : KMap Byte := m ++ (List.range bs.length).map (fun k => (2 ^ 48 + k, bs.getD k 0))

theorem findK_host {m : KMap Byte} (h : ∀ q ∈ m, q.1 < 2 ^ 48) (bs : List Byte) {k : Nat} (hk : k < bs.length) :
    findK (hostMem m bs) (2 ^ 48 + k) = some (bs.getD k 0) := by
  have tail : ∀ (l : List Nat), k ∈ l → findK (l.map (fun k => (2 ^ 48 + k, bs.getD k 0))) (2 ^ 48 + k) = some (bs.getD k 0) := by
    intro l
    induction l with
    | nil => exact fun h => absurd h (by simp)
    | cons j l ih =>
      intro hm
      rw [List.map_cons, findK_cons]
      by_cases e : j = k
      · rw [if_pos (by omega), e]
      · rw [if_neg (by omega)]
        exact ih ((List.mem_cons.mp hm).resolve_left (fun h => e h.symm))
  unfold hostMem
  induction m with
  | nil => exact tail _ (List.mem_range.mpr hk)
  | cons q m ih =>
    obtain ⟨j, x⟩ := q
    rw [List.cons_append, findK_cons, if_neg (by have := h (j, x) (by simp); simp only at this; omega)]
    exact ih (fun q hq => h q (List.mem_cons_of_mem _ hq))

/-- The host's range reads back. -/
theorem getPhys_host {s : State} {bs : List Byte} {m : KMap Byte} (hm : s.mem = hostMem m bs) (h : ∀ q ∈ m, q.1 < 2 ^ 48)
    (hp : s.poison = []) (hl : bs.length < 65536) : s.getPhys (2 ^ 48) bs.length = some bs := by
  have go : ∀ n k, k + n = bs.length → s.getPhys (2 ^ 48 + k) n = some (bs.drop k) := by
    intro n
    induction n with
    | zero => intro k hk; simp [State.getPhys, List.drop_eq_nil_of_le (by omega : bs.length ≤ k)]
    | succ n ih =>
      intro k hk
      have ht : s.target (2 ^ 48 + k) = some (.mem (2 ^ 48 + k)) := by
        unfold State.target
        rw [if_neg (by omega), if_neg (by omega), if_neg (by omega), if_neg (by omega), if_pos (by omega)]
      have hb : s.byteAt (2 ^ 48 + k) = bs[k]'(by omega) := by
        simp only [State.byteAt, getD, hm, findK_host h bs (by omega : k < bs.length)]
        simp [List.getD, List.getElem?_eq_getElem (by omega : k < bs.length)]
      rw [State.getPhys, ht]
      simp only [State.poisoned, hp, List.any_nil, Bool.false_eq_true, if_false]
      rw [Nat.add_assoc, ih (k + 1) (by omega), hb, List.drop_eq_getElem_cons (by omega : k < bs.length)]
      rfl
  exact go bs.length 0 (by omega)

/-- The device hash byte by byte: its length is known, its bytes are not. -/
def devHash : List Byte := (List.range 48).map (fun k => (padTo 48 Config.deviceHash).getD k 0)
theorem devHash_eq : padTo 48 Config.deviceHash = devHash := bytes_of (by simp [padTo, zeroBytes]; omega)

/-- The image of an empty context for this device, with crc `n`. -/
def imgHead : List Byte := bytesLE 4 0x4D494B44 ++ [2, 0, 2, 0] ++ bytesLE 8 256 ++ devHash
def imgTail : List Byte := zeroBytes 60 ++ (List.replicate 8 (bytesLE 8 256 ++ zeroBytes 8)).flatten
def img (n : Nat) : List Byte := imgHead ++ bytesLE 4 n ++ imgTail
def imgCrc : List Byte := img (crc32c (img 0))
def PImg : State := { (PArg 0 (2 ^ 48) 256 0x8000) with mem := hostMem P.mem imgCrc }

theorem img_ok : imageOk imgCrc = true := by
  have hl : imgHead.length = 0x40 := rfl
  have hc : fieldLE imgCrc 0x40 4 = crc32c (img 0) := by
    have h : (imgCrc.drop 0x40).take 4 = bytesLE 4 (crc32c (img 0)) := by
      unfold imgCrc img
      rw [List.append_assoc, List.drop_left' hl, List.take_left' (bytesLE_length 4 _)]
    rw [fieldLE, h, natLE_bytesLE]
    exact Nat.mod_eq_of_lt (crc32c_lt _)
  have hz : imgCrc.take 0x40 ++ zeroBytes 4 ++ imgCrc.drop 0x44 = img 0 := by
    unfold imgCrc
    generalize crc32c (img 0) = n
    unfold img
    rw [List.append_assoc imgHead, List.take_left' hl, show 0x44 = 0x40 + 4 from rfl, ← List.drop_drop, List.drop_left' hl,
      List.drop_left' (bytesLE_length 4 n), List.append_assoc]
    rfl
  have hr : (decide (256 ≤ imgCrc.length) && fieldLE imgCrc 0 4 == 0x4D494B44 && fieldLE imgCrc 8 8 == imgCrc.length
      && zeros imgCrc 0x45 3 && zeros imgCrc 0x50 48 && dirOk imgCrc.length 256 (dirOf imgCrc)) = true := by
    decide +kernel
  have hq : (tailOk imgCrc (sectionsEnd imgCrc) && sectionsOk imgCrc) = true := by decide +kernel
  rw [Bool.and_eq_true] at hq
  unfold imageOk
  rw [hr, hc, hz, hq.1, hq.2]
  simp

/-- An image that RESUME accepts: a context without regions. -/
theorem witness_ImagesAndObjects_resume : PImg.mgmt.ready = true
    ∧ PImg.getPhys PImg.mgmt.arg0.toNat PImg.mgmt.arg1.toNat = some imgCrc ∧ PImg.mgmt.arg2.toNat = 0x8000
    ∧ PImg.resumeFault imgCrc 0x8000 = none := by
  have hl : imgCrc.length = 256 := by decide +kernel
  refine ⟨rfl, ?_, rfl, ?_⟩
  · have h := getPhys_host (s := PImg) (m := P.mem) rfl (by decide +kernel) rfl (by rw [hl]; decide)
    rw [hl] at h
    exact h
  · have h1 : fieldLE imgCrc 4 2 = 2 ∧ fieldLE imgCrc 6 2 = 2 := by decide +kernel
    have h2 : sub imgCrc 16 48 = devHash := rfl
    have h3 : (pieces 64 (fieldLE (secOf imgCrc 6) 0 4) ((secOf imgCrc 6).drop 8)).findIdx?
        (fun o => (PImg.objectByHash (o.take 48)).isNone) = none := by decide +kernel
    have h4 : ¬(65536 < (PImg.regions.filter (fun q => !q.2.closed)).length + (secOf imgCrc 0).length / 0x140
          ∨ 4096 < heldCount (fieldLE (secOf imgCrc 7) 0 4) ((secOf imgCrc 7).drop 8)) := by decide +kernel
    unfold State.resumeFault
    simp [img_ok, h1, h2, devHash_eq, h3, h4, rootOk]

/-- A container with the manifest `m` and a code segment of one block, a header and EXIT, with the hash of this device. Its
segments are signed with ECDSA: each key is R - G and its signature R.x twice, where R.x is the hash of what is signed, so that
verification adds G and the key to R. -/
def conCode : List Byte := bytesLE 8 fetchHdrWord.toNat ++ bytesLE 8 0x062000F000000000
/-- No kernels, and none or one relocation, of a type that there is not. -/
def man0 : List Byte := zeroBytes 16
def man1 : List Byte := bytesLE 4 0 ++ bytesLE 4 1 ++ zeroBytes 40
def keyBytes (x y : Nat) : List Byte := (bytesLE 48 x).reverse ++ (bytesLE 48 y).reverse
def keyCode : List Byte := keyBytes
  0x7f88fc6f9ef573785b28fa5b542cadb05f1bc49e0206c0335accf9017e171e3cde610fd7520949debe84a79515167c2b
  0x70c15adf78b7a7995fa30b313a6120ef558e083804d018d0b8e200ac98356337c17c8ff34d406938da61d9bbf8c15c8
def keyMan (m : List Byte) : List Byte := if m = man0 then keyBytes
  0x7e950a076eb1a58d125ca995d308d77c3bb0c85bf948c29dd88115522b976304cbfa3433e99babfcb102ec4830e27a85
  0x63ffee57dea064d41306f2e02496982a0e23e67e5a8b9b7318f1d900b8b8feff3905bb3ab34a0e3beb3a18badde55337
  else keyBytes
  0x4e53bc65bc4ff80d2e535b6d3fd0f87f8c791187849a7e6e36683fc1586147470038a1f5fb7bb43eca2cd587a19b9c17
  0x2f53e90a72a4b65d6ad77a8c997549623fc11614286acfa168d8c21954a6ed6ee6351b29c5ce13c6e3a94209ac3d823b
def conEntry (kind size off sig : Nat) (hash : List Byte) : List Byte :=
  [BitVec.ofNat 8 kind, 1, 0, 0] ++ bytesLE 4 96 ++ zeroBytes 8 ++ bytesLE 8 size ++ bytesLE 8 (if kind = 7 then 0 else 65536)
    ++ bytesLE 8 off ++ bytesLE 8 sig ++ hash
def conEntries (m : List Byte) : List (List Byte) :=
  [conEntry 7 m.length 448 514 (sha384 m), conEntry 1 16 496 610 (sha384 conCode)]
def con (m : List Byte) : List Byte :=
  bytesLE 4 0x58504C42 ++ [1, 0, 2, 0] ++ bytesLE 8 706 ++ bytesLE 8 0x100000 ++ bytesLE 8 128 ++ devHash ++ zeroBytes 48
    ++ nth (conEntries m) [] 0 ++ sha384 (keyMan m) ++ zeroBytes 16 ++ nth (conEntries m) [] 1 ++ sha384 keyCode ++ zeroBytes 16
    ++ padTo 48 m ++ conCode ++ [0, 0] ++ (conEntries m).flatMap (fun e => sha384 e ++ sha384 e)
/-- A list of keys that knows the two. -/
def Trusts (keys : List (List Byte)) (m : List Byte) : Prop :=
  keyOf keys (sha384 (keyMan m)) = some (keyMan m) ∧ keyOf keys (sha384 keyCode) = some keyCode
def conSegs : List LSeg := [{ idx := 1, kind := 1, rva := 0, memsize := 65536, bytes := conCode }]

theorem con_good : ∀ m ∈ [man0, man1], containerFault (con m) = none
    ∧ (segTable (con m)).filter (fun g => g.kind != 6) = [{ idx := 0, kind := 7, rva := 0, memsize := 0, bytes := m }] ++ conSegs
    ∧ (segTable (con m)).any (fun g => g.kind == 6) = false
    ∧ (List.range (manKernels (lsegOf (con m) 0).bytes)).isEmpty = true
    ∧ (lsegOf (con m) 0).bytes = m := by decide +kernel

/-- Both signatures verify under their keys. -/
theorem con_signed : ∀ m ∈ [man0, man1], ∀ k ∈ [0, 1],
    let e := segEntry (con m) k
    signatureVerifies (fieldLE e 1 1) (if k = 0 then keyMan m else keyCode) (e.take 0x60)
      (sub (con m) (fieldLE e 0x28 8) (fieldLE e 4 4)) = true := by decide +kernel

theorem con_trust {m : List Byte} (hm : m ∈ [man0, man1]) {keys : List (List Byte)} (h : Trusts keys m) :
    trustFault (con m) keys ([{ idx := 0, kind := 7, rva := 0, memsize := 0, bytes := m }] ++ conSegs) = none := by
  have e : ∀ m ∈ [man0, man1], ∀ k ∈ [0, 1], sub (segEntry (con m) k) 0x60 48 = sha384 (if k = 0 then keyMan m else keyCode)
      ∧ sub (segEntry (con m) k) 0x30 48 = sha384 (if k = 0 then m else conCode) := by decide +kernel
  obtain ⟨a1, a2⟩ := e m hm 0 (by decide)
  obtain ⟨b1, b2⟩ := e m hm 1 (by decide)
  have a3 := con_signed m hm 0 (by decide)
  have b3 := con_signed m hm 1 (by decide)
  simp only [if_true, if_neg (by decide : ¬(1 : Nat) = 0)] at a1 a2 a3 b1 b2 b3
  simp only [conSegs, List.cons_append, List.nil_append, trustFault, a1, a2, a3, b1, b2, b3, h.1, h.2]
  simp

theorem con_plan {m : List Byte} (hm : m ∈ [man0, man1]) (h : Trusts Config.trustList m) (queue : Nat → Bool) (pod : Bool) : ∃ p,
    planLoad queue (con m) pod = .ok (p, false) ∧ p.segs = conSegs ∧ p.recs = relocsOf m := by
  obtain ⟨h1, h3, h2, h4, h5⟩ := con_good m hm
  have hs : (sub (con m) 0x20 48 == padTo 48 Config.deviceHash) = true := by rw [devHash_eq]; exact beq_self_eq_true _
  have hf : (List.range (manKernels m)) = [] := by rw [h5] at h4; exact List.isEmpty_iff.mp h4
  unfold planLoad
  simp only [h1, h2, hs, h3, h5, hf, Bool.false_and, Bool.not_true, Bool.false_eq_true, if_false,
    con_trust hm h, List.map_nil, List.findIdx?_nil]
  exact ⟨_, rfl, by simp [conSegs, LSeg.mapped], rfl⟩

theorem con_image {m : List Byte} (hm : m ∈ [man0, man1]) (h : Trusts Config.podTrust m) (org : List Byte) : ∃ p,
    planImage (con m) org = some p ∧ p.segs = conSegs ∧ p.recs = relocsOf m := by
  obtain ⟨h1, h3, -, -, h5⟩ := con_good m hm
  have hs : (sub (con m) 0x20 48 != padTo 48 Config.deviceHash) = false := by
    rw [devHash_eq, bne, Bool.not_eq_false']; exact beq_self_eq_true _
  unfold planImage
  simp only [h1, hs, h3, h5, Option.isSome_none, Bool.or_self, Bool.false_eq_true, if_false, con_trust hm h]
  exact ⟨_, rfl, by simp [conSegs, LSeg.mapped], rfl⟩

/-- The container at the port, and a context that is there. -/
def PCon (m : List Byte) : State := { (PArg 1 (2 ^ 48) 706 0) with mem := hostMem P.mem (con m) }

/-- A load that is accepted where the device trusts its keys, and two that are refused. -/
theorem witness_ImagesAndObjects_load (h : Trusts Config.trustList man0) :
    ((PCon man0).mgmt.ready = true ∧ (findK (PCon man0).ctxs 1).isSome = true
      ∧ (PCon man0).getPhys (PCon man0).mgmt.arg0.toNat (PCon man0).mgmt.arg1.toNat = some (con man0)
      ∧ (PCon man0).mgmt.arg3.getLsbD 0 = false ∧ ∀ queue, ∃ p, planLoad queue (con man0) false = .ok (p, false))
    ∧ (PArg 1 (2 ^ 40) 1 0).getPhys (2 ^ 40) 1 = none ∧ containerFault [] = some 0
    ∧ (match planLoad (fun _ => true) [] false with | .error e => decide (e = (1, 0)) | .ok _ => false) = true
    ∧ P.resumeFault [] 0 = some (1, 0) := by
  refine ⟨?_, by decide +kernel⟩
  have hl : (con man0).length = 706 := by decide +kernel
  have hg := getPhys_host (s := PCon man0) (m := P.mem) rfl (by decide +kernel) rfl (by rw [hl]; decide)
  rw [hl] at hg
  exact ⟨rfl, rfl, hg, (by decide : (P.mgmt.arg3).getLsbD 0 = false), fun q =>
    (con_plan (by simp) h q false).imp (fun _ hp => hp.1)⟩

/-- A load at each stage: ended, to be translated, to be mapped where it has room, where it has none, where a relocation
refuses it, and mapped. -/
def planOf (m : List Byte) : LoadPlan :=
  { segs := conSegs, recs := relocsOf m, events := [], hash := [], flags := 0, kernels := [] }
def PLoad (st : LoadStage) (base : Nat) (m : List Byte) : State :=
  { P with loads := [{ handle := 7, ctx := 1, base := base, host := true, pod := false, image := [], plan := planOf m, stage := st }] }
theorem witness_ImagesAndObjects_loader :
    (∀ st ∈ [LoadStage.translate true, .translate false, .map, .finish], (PLoad st 0x100000 man0).mgmt.ready = true
      ∧ (PLoad st 0x100000 man0).loads.map (fun l => l.stage) = [st] ∧ (findK (PLoad st 0x100000 man0).ctxs 1).isSome = true)
    ∧ (PLoad .map 0x100000 man0).roomFault 1 0x100000 conSegs = none ∧ (PLoad .map 8 man0).roomFault 1 8 conSegs = some 0
    ∧ (match applyRels 0x100000 (relocsOf man0) 0 (relocsOf man0) conSegs with | .ok _ => true | .error _ => false) = true
    ∧ (match applyRels 0x100000 (relocsOf man1) 0 (relocsOf man1) conSegs with
      | .error e => decide (e = (6, 0)) | .ok _ => false) = true := by decide +kernel

/-- A peer maps the image that it is sent where the pod trusts its keys; it discards one of a container that it translates. -/
theorem witness_ImagesAndObjects_peer (h : Trusts Config.podTrust man0) (hl : Trusts Config.trustList man0) :
    (∃ p, planImage (con man0) (con man0) = some p) ∧ (findK P.ctxs 1).isSome = true ∧ findK P.ctxs 0 = none
    ∧ P.translating 1 (con man0) = false ∧ (PLoad (.translate false) 0x100000 man0).translating 1 [] = true
    ∧ planImage [] (con man0) = none ∧ ∃ p, planLoad (fun _ => true) (con man0) true = .ok (p, false) := by
  obtain ⟨p, h1, -⟩ := con_image (m := man0) (by simp) h (con man0)
  obtain ⟨q, h2, -⟩ := con_plan (m := man0) (by simp) hl (fun _ => true) true
  exact ⟨⟨p, h1⟩, by decide +kernel, by decide +kernel, by decide +kernel, by decide +kernel, by decide +kernel, q, h2⟩

theorem image_length (s : State) (cid : Nat) (tag : Word) : (s.image cid tag).length
    = 128 + 16 * (directory 256 (s.sections cid)).length + (layOut 256 (s.sections cid)).length
      + (s.tail cid (256 + (layOut 256 (s.sections cid)).length)).length := by
  have hd : ∀ nbv tag len (dir : List (Nat × Nat)) crc, (imageHeader nbv tag len dir crc).length = 128 + 16 * dir.length := by
    intro nbv tag len dir crc
    have h : ∀ dir : List (Nat × Nat), (dir.flatMap (fun d => bytesLE 8 d.1 ++ bytesLE 8 d.2)).length = 16 * dir.length := by
      intro dir
      induction dir with
      | nil => rfl
      | cons d dir ih => rw [List.flatMap_cons, List.length_append, ih]; simp; omega
    unfold imageHeader
    rw [devHash_eq]
    simp [h, devHash, zeroBytes]
    omega
  unfold State.image
  rw [List.length_append, hd, List.length_append, Nat.add_assoc _ (layOut 256 (s.sections cid)).length]

/-- HALT of the root at 0, running and halted, with room for the image and without; and of a root that is not there. -/
def PHalt : State := { P with wgs := [], groups := [] }
theorem witness_ImagesAndObjects_halt : (findK P.wgs 3).isSome = true ∧ (P.wg 3).ctx = 1 ∧ (P.wg 3).onCore = true
    ∧ P.rootAt 1 0 = true ∧ PHalt.rootAt 1 0 = true ∧ PHalt.rootAt 1 8 = false ∧ (findK PHalt.ctxs 1).isSome = true
    ∧ (PHalt.ctx 1).halted = false ∧ ((PHalt.haltCtx 1).ctx 1).halted = true
    ∧ 0 < ((PHalt.haltCtx 1).image 1 0).length ∧ ((PHalt.haltCtx 1).image 1 0).length ≤ 2 ^ 20 := by
  rw [image_length]
  decide +kernel

/-- What the world does has its effect on these. -/
def PWorld (up : Bool) : State :=
  { P with svc := { P.svc with links := [(0, { up := up, rxSeq := 0, resend := 0, credits := 0 })]
                               peers := [{ src := 3, base := 0x100000, size := 8, r := false, w := true }] } }
theorem witness_TheWorld :
    ((PWorld true).link 17).up = true ∧ ((PWorld true).link 0).up = true ∧ ((PWorld false).link 0).up = false
    ∧ (PWorld true).peerAllows 3 0x100000 true = true ∧ (PWorld true).peerAllows 3 0x100001 true = false
    ∧ (PWorld true).peerAllows 2 0x100000 true = false
    ∧ P.mgmt.ready = true ∧ State.reset.mgmt.ready = false
    ∧ (match findK P.regions 2 with | some r => !r.closed | none => false) = true
    ∧ (P.grp 4).core = 0 ∧ (P.grp 4).part < 4 ∧ (P.grp 4).core / 40 = 0
    ∧ (match P.target (0x12345 / 128 * 128) with | some (.mem _) => true | _ => false) = true := by decide +kernel

/-- A switch of a core of die 0, which stands paused since cycle 5; and a die that is not paused. -/
theorem witness_TheWorld_paused :
    let s := ({ P with svc := { P.svc with paused := [0], pausedAt := [(0, 5)] } } : State).modCore 0
      (fun c => { c with switch := .requested 2 1 0 3 })
    (s.core 0).switch = .requested 2 1 0 3 ∧ findK s.svc.pausedAt 0 = some 5 ∧ s.svc.paused.contains 1 = false := by decide +kernel

/-- The CRC of every flit holds or does not hold. -/
theorem witness_TheWorld_flit : ∃ flit : List Byte, flit.length = 256
    ∧ (Config.flitOk flit = true ∨ Config.flitOk flit = false) :=
  ⟨List.replicate 256 0, by simp, by cases Config.flitOk (List.replicate 256 0) <;> simp⟩

/-! ## Effects: one step each, values by hand from the spec's equations -/

/-- v2 = 0x7FFFFFFF, v3 = 1, v4 = −1, v5 = 0x80000000, v8 = 5, the pairs v10 = 2^32 − 1 and v12 = 1, control words v14 to
v16, FP32 2.0, 0.75, 3 × 2^-24 in v20 to v22, all in lane 0; s1 = −1, s2 = 1, s3 = 2^63, s4 = 7. -/
def PE : State := PS [(1, 0xFFFFFFFFFFFFFFFF), (2, 1), (3, 0x8000000000000000), (4, 7)]
  [(64, 0x7FFFFFFF), (96, 1), (128, 0xFFFFFFFF), (160, 0x80000000), (256, 5), (320, 0xFFFFFFFF), (384, 1),
   (448, 0x1041C), (480, 0x0804), (512, 0x8E40), (640, 0x40000000), (672, 0x3F400000), (704, 0x34400000), (736, 0x3F800000)]
def regAt (s : State) : Reg → Nat
  | .v n => (s.g.rawV n 0).toNat
  | .s n => (s.g.rawS n).toNat
/-- Each word leaves the number in its register. -/
def leaves (s : State) (l : List (Instr × Reg × Nat)) : Bool := l.all (fun x => regAt (after x.1 s) x.2.1 == x.2.2)

theorem test_add : leaves PE [
    (.addi c0 (.v 30) (.v 2) 0xFFF, .v 30, 0x7FFFFFFE), (.addi c1 (.s 30) (.s 2) 0x800, .s 30, 2 ^ 64 - 2047),
    (.iadd c0 .nat (.v 30) (.v 2) (.v 3), .v 30, 0x80000000), (.iadd c0 .b64 (.v 30) (.v 10) (.v 12), .v 31, 1),
    (.iadd c1 .b32 (.s 30) (.s 2) (.s 4), .s 30, 8), (.isub c0 .nat (.v 30) (.v 3) (.v 2), .v 30, 0x80000002),
    (.isub c1 .b32 (.s 30) (.s 2) (.s 4), .s 30, 2 ^ 64 - 6), (.iaddc c0 .nat (.v 30) (.v 4) (.v 3) 0, .v 30, 1),
    (.isubb c0 .nat (.v 30) (.v 3) (.v 8) 0, .v 30, 0xFFFFFFFB), (.ineg c0 .nat (.v 30) (.v 3), .v 30, 0xFFFFFFFF),
    (.iabs c0 .nat (.v 30) (.v 4), .v 30, 1), (.addpchi c0 (.v 30) 3, .v 30, 0x3000), (.addpchi c1 (.s 30) 3, .s 30, 0x3000)]
    = true := by decide +kernel

theorem test_multiply_and_divide : leaves PE [
    (.imul c0 .nat (.v 30) (.v 4) (.v 8), .v 30, 0xFFFFFFFB), (.imul c1 .nat (.s 30) (.s 3) (.s 4), .s 30, 2 ^ 63),
    (.imulhi c0 .nat true (.v 30) (.v 4) (.v 4), .v 30, 0xFFFFFFFE), (.imulhi c0 .nat false (.v 30) (.v 4) (.v 4), .v 30, 0),
    (.imad c0 (.v 30) (.v 2) (.v 8) (.v 3), .v 30, 0x7FFFFFFC),
    (.idiv (cf 1) .nat true (.v 30) (.v 2) (.v 8), .v 30, 429496729), (.irem (cf 1) .nat true (.v 30) (.v 2) (.v 8), .v 30, 2),
    (.idiv (cuf 1) .nat false (.s 30) (.s 1) (.s 4), .s 30, 0), (.irem (cuf 1) .nat false (.s 30) (.s 1) (.s 4), .s 30, 2 ^ 64 - 1),
    (.imin c0 .nat false (.v 30) (.v 4) (.v 3), .v 30, 0xFFFFFFFF), (.imin c0 .nat true (.v 30) (.v 4) (.v 3), .v 30, 1),
    (.imax c0 .nat false (.v 30) (.v 4) (.v 3), .v 30, 1), (.imax c1 .nat true (.s 30) (.s 1) (.s 2), .s 30, 2 ^ 64 - 1)]
    = true := by decide +kernel

theorem test_bits : leaves PE [
    (.and c0 .nat (.v 30) (.v 2) (.v 8), .v 30, 5), (.or c0 .nat (.v 30) (.v 5) (.v 3), .v 30, 0x80000001),
    (.xor c0 .nat (.v 30) (.v 4) (.v 3), .v 30, 0xFFFFFFFE), (.andn c0 .nat (.v 30) (.v 8) (.v 3), .v 30, 4),
    (.not c0 .nat (.v 30) (.v 3), .v 30, 0xFFFFFFFE), (.shl c1 .nat (.s 30) (.s 4) (.s 4), .s 30, 896),
    (.shr c0 .nat (.v 30) (.v 5) (.v 8), .v 30, 0x4000000), (.sar c0 .nat (.v 30) (.v 5) (.v 8), .v 30, 0xFC000000),
    (.rotl c0 .nat (.v 30) (.v 5) (.v 8), .v 30, 0x10), (.clz c0 .nat (.v 30) (.v 8), .v 30, 29),
    (.ctz c1 .nat (.s 30) (.s 3), .s 30, 63), (.popc c0 .nat (.v 30) (.v 2), .v 30, 31),
    (.brev c0 .nat (.v 30) (.v 3), .v 30, 0x80000000), (.bfx c0 (.v 30) (.v 5) (.v 14), .v 30, 0xFFFFFFF8),
    (.bfi c0 (.v 30) (.v 4) (.v 3) (.v 15), .v 30, 0xFF1), (.bperm c0 (.v 30) (.v 2) (.v 3) (.v 16), .v 30, 0xFF0001FF)]
    = true := by decide +kernel

theorem test_compare_and_predicates :
    (after (.icmp c0 .nat false .lt 3 (.v 4) (.v 3)) PE).g.rawP 3 = 1
    ∧ (after (.icmp c0 .nat true .lt 3 (.v 3) (.v 4)) PE).g.rawP 3 = 1
    ∧ (after (.fcmp c0 .gt 3 (.v 20) (.v 21)) PE).g.rawP 3 = 1
    ∧ (after (.pset c0 .set 3 0 0) PE).g.rawP 3 = 0xFFFFFFFF ∧ (after (.pset c0 .andn 3 0 0) PE).g.rawP 3 = 0
    ∧ (after (.pmovPut c0 (.v 8) 0x0C) PE).g.rawP 2 = 1 ∧ (after (.pmovPut c0 (.v 8) 0x0C) PE).g.rawP 3 = 0
    ∧ leaves PE [(.pmov c0 30, .v 30, 1), (.isel c0 .nat false 0 (.v 30) (.v 8) (.v 3), .v 30, 5),
        (.isel c0 .nat true 0 (.v 30) (.v 8) (.v 3), .v 30, 1), (.vote (cf 1) (.ballot (.s 30)) false 0, .s 30, 2 ^ 64 - 1)] = true := by
  decide +kernel

theorem test_moves : leaves PE [
    (.mov c0 .b64 (.v 30) (.s 1), .v 31, 0xFFFFFFFF), (.movi c1 (.s 30) 0xFFFFF, .s 30, 2 ^ 64 - 1),
    (.movhi c0 (.v 30) 0xBF800, .v 30, 0xBF800000), (.movhi c1 (.s 30) 0x80000, .s 30, 2 ^ 64 - 2 ^ 31),
    (.movri (cf 1) 30 (.v 8), .v 30, 0x80000000), (.movwi (cf 1) (.v 8) 2, .v 5, 0x7FFFFFFF),
    (.mfsr c0 (.v 30) .valloc, .v 30, 160), (.mfsr c0 (.v 30) .laneid, .v 30, 0),
    (.shfl (cf 1) .idx 30 8 (.s 2), .v 30, 0), (.vred (cf 1) .umax (.s 30) 8, .s 30, 5)] = true := by decide +kernel

/-- 2 + 0.75, 1 + 3 × 2^-24 (a tie that goes to 1 + 2^-22 when the next even is above, here between 1 + 2^-23 and 1 + 2^-22),
and so on. -/
theorem test_float : leaves PE [
    (.fadd c0 .rne (.v 30) (.v 20) (.v 21), .v 30, 0x40300000), (.fadd c0 .rne (.v 30) (.v 23) (.v 22), .v 30, 0x3F800002),
    (.fadd c0 .rtz (.v 30) (.v 23) (.v 22), .v 30, 0x3F800001), (.fsub c0 .rne (.v 30) (.v 21) (.v 20), .v 30, 0xBFA00000),
    (.fmul c0 .rne (.v 30) (.v 20) (.v 21), .v 30, 0x3FC00000), (.ffma c0 .rne (.v 30) (.v 20) (.v 21), .v 30, 0x3FC00000),
    (.fdiv (cf 1) .rne (.v 30) (.v 21) (.v 20), .v 30, 0x3EC00000), (.fsqrt (cf 1) .rne (.v 30) (.v 20), .v 30, 0x3FB504F3),
    (.frcp (cf 1) .rne (.v 30) (.v 20), .v 30, 0x3F000000), (.frsq (cf 1) .rne (.v 30) (.v 20), .v 30, 0x3F3504F3),
    (.fexp2 (cf 1) .rne (.v 30) (.v 20), .v 30, 0x40800000), (.flog2 (cf 1) .rne (.v 30) (.v 20), .v 30, 0x3F800000),
    (.fsin (cf 1) .rne (.v 30) (.v 50), .v 30, 0), (.fcos (cf 1) .rne (.v 30) (.v 50), .v 30, 0x3F800000),
    (.fmin c0 (.v 30) (.v 20) (.v 21), .v 30, 0x3F400000), (.fmax c0 (.v 30) (.v 20) (.v 21), .v 30, 0x40000000),
    (.fabs c0 (.v 30) (.v 5), .v 30, 0), (.fneg c0 (.v 30) (.v 20), .v 30, 0xC0000000),
    (.frnd c0 .rne (.v 30) (.v 21), .v 30, 0x3F800000), (.fcvt c0 .fp16 .fp32 0 0 .rne (.v 30) (.v 20), .v 30, 0x4000),
    (.fcvt c0 .e4m3 .fp32 1 0 .rne (.v 30) (.v 21), .v 30, 0x3400), (.icvtf c0 false .rne (.v 30) (.v 4), .v 30, 0xBF800000),
    (.fcvti c0 false .rdn (.v 30) (.v 21), .v 30, 0), (.fcvti c0 false .rne (.v 30) (.v 21), .v 30, 1)] = true := by
  decide +kernel


/-- The program counter of lane 31 after a word. -/
def pcAfter (i : Instr) (s : State) : Nat := ((after i s).g.th 31).pc.toNat
/-- Transfers go to header plus 8 times the offset, where the first instruction stands behind the header; a call leaves the
address behind its block. EXIT ends the thread; other words go on. -/
theorem test_control : blockTarget (PB.g.th 31) 0x20 = 0x100 ∧ blockTarget (PB.g.th 31) 0xFFFFFF = -8
    ∧ brcTaken .any 0x80000000 0x80000000 = 0x80000000 ∧ brcTaken .all 0x80000001 1 = 0 ∧ brcTaken .lane 3 1 = 1
    ∧ ((PB.transferInto 4 31 0x100 true).1.g.th 31).pc = 0x108
    ∧ ((PB.depart 4 true (some 6) [(31, 0x100)] 0).1.g.rawV 6 31).toNat = 24
    ∧ ((PB.depart 4 false none [(31, 0x100)] 0).1.g.th 31).pc = 0x100
    ∧ pcAfter (.brc c0 .lane true 0 0x20) PB = 16 ∧ pcAfter (.nop c0) PB = 16 ∧ pcAfter (.yield c0) PB = 16
    ∧ ((after (.exit c0) PB).g.th 31).exited = true ∧ ((after (.exit c0) PB).g.th 30).exited = false := by decide +kernel

/-- BRK and TRAP leave a record of kind 0, with their code and immediate (R245, R246). -/
theorem test_breakpoint_and_trap :
    (((after (.brk c0 7) PB).ctx 1).recs.map (fun q => (q.2.code, q.2.detail))) = [(Code.breakpoint, 7)]
    ∧ (((after (.trap c0 9) PB).ctx 1).recs.map (fun q => (q.2.code, q.2.detail))) = [(Code.trap, 9)] := by decide +kernel

/-- The bytes 1 to 8 stand at 0x200; one lane loads, stores, adds. -/
def PL : State := PM [1, 2, 3, 4, 5, 6, 7, 0x88] [(1, 0x200), (2, 0x1122334455667788), (3, 16)]
def memAfter (i : Instr) (s : State) (a n : Nat) : Option (List Byte) := (after i s).getPhys (fetchPage + a) n
theorem test_memory :
    ((after (.ld (cf 1) .g .b64 .rlx .grp (.v 6) (.s 1) 0) PL).g.rawV 7 31).toNat = 0x88070605
    ∧ ((after (.ld (cf 1) .g .b8 .rlx .grp (.v 6) (.s 1) 7) PL).g.rawV 6 31).toNat = 0x88
    ∧ ((after (.ld (cf 1) .g .b16 .rlx .grp (.v 6) (.s 1) 1) PL).g.rawV 6 31).toNat = 0x403
    ∧ memAfter (.st c0 .g .b16 .rlx .grp (.s 2) (.s 1) 1) PL 0x200 6 = some [1, 2, 0x88, 0x77, 5, 6]
    ∧ memAfter (.red c0 .g .b32 .add .rlx .dev (.s 1) (.s 3)) PL 0x200 5 = some [17, 2, 3, 4, 5]
    ∧ memAfter (.atom (cf 1) .g .b32 .xchg .rlx .dev (.v 6) (.s 1) (.s 3)) PL 0x200 5 = some [16, 0, 0, 0, 5]
    ∧ ((after (.atom (cf 1) .g .b32 .xchg .rlx .dev (.v 6) (.s 1) (.s 3)) PL).g.rawV 6 31).toNat = 0x04030201
    ∧ ((after (.st c0 .s .b32 .rlx .wg (.s 2) (.s 3) 0) PL).wg 3).padByte 17 = 0x77 := by decide +kernel

/-- A weir set to expect 3; one arrival of three; the arrivals that complete it flip its phase. -/
def weirAfter (i : Instr) (s : State) : Nat × Nat × Bool := let x := ((after i s).wg 3).weir 16; (x.expected, x.count, x.phase)
theorem test_weirs : weirAfter (.winit c0 .rlx 1 (some 2)) (PW [] [(1, 16), (2, 3)]) = (3, 0, false)
    ∧ weirAfter (.warrive c0 .rlx 1 none) { (PW [(16, weirAt 3 0 false)] [(1, 16)]) with iset := 1 } = (3, 1, false)
    ∧ weirAfter (.warrive c0 .rlx 1 none) { (PW [(16, weirAt 2 0 false)] [(1, 16)]) with iset := 3 } = (2, 0, true) := by decide +kernel

/-- LOOP goes back until its count is spent; JUMP; END; ARRIVE at a weir of the owner. -/
theorem test_rill :
    ((after (.loop 1 2 2) (PR id)).prog 5).index = 2
    ∧ ((after (.loop 1 2 2) (PR (fun p => { p with loop := [0, 1, 0, 0] }))).prog 5).index = 8
    ∧ ((after (.jump 3) (PR id)).prog 5).index = 3 ∧ ((after (.rillEnd false 0 0) (PR id)).prog 5).state = .done
    ∧ ((after .rillFence (PR id)).prog 5).index = 8
    ∧ (((after (.arrive 2 16) PRS).wg 3).weir 16).count = 2
    ∧ ((after (.rillBadCommand 0) (PR id)).prog 5).state = .error ∧ ((after (.rillBadCommand 0) (PR id)).prog 5).err = 0x0A := by
  decide +kernel

/-- Status codes of R304 in `cstat`, and what they leave. -/
theorem test_port :
    (after .ctxCreate (PArg 0 0x2000 0x10000 0x10000)).mgmt.cstat = 0 ∧ (after .ctxCreate (PArg 0 0x2001 0x10000 0x10000)).mgmt.cstat = 7
    ∧ (after .ctxCreate (PArg 0 0x2000 0x10000 0)).mgmt.cstat = 17 ∧ (after .ctxDestroy (PArg 9 0 0 0)).mgmt.cstat = 14
    ∧ (after .ctxDestroy (PArg 1 0 0 0)).mgmt.cstat = 11 ∧ (after .unload (PArg 1 9 0 0)).mgmt.cstat = 16
    ∧ (after .unload (PObj 9 false)).objects = P.objects ∧ (after (.badCommand 15) P).mgmt.cstat = 13
    ∧ (after .credit (PArg 1 8 5 5)).mgmt.cstat = 15 ∧ ((after .credit (PArg 1 0 5 6)).region 2).tbal = 2 ^ 62 + 6
    ∧ (after .halt (PArg 1 8 0 0)).mgmt.cstat = 2 ∧ (after .tlbInval (PArg 1 0 0 0)).mgmt.cstat = 0 := by decide +kernel

end Sys2Proof.Tests
end

section
/-! PROOFS. Word faults: what the issue of a faulting word does, which opcodes are no instruction, and a transfer to a word
that is no header (02 R61, R62, R68, R70; 13 R246). -/
namespace Sys2Proof.Machine

/-! ## Taking an exception (R245, R246) -/

/-- Where the context and the workgroup of the group exist, an exception is recorded and the workgroup stops. -/
theorem takeFault_faulted {s : State} {gid : Nat} (h : s.Owned gid) (info : FaultInfo) (sub : Subject) :
    Faulted s (s.takeFault gid info sub) gid info sub := by
  obtain ⟨hwg, hctx⟩ := h
  obtain ⟨w, hw⟩ := Option.isSome_iff_exists.1 hwg
  have ctx := congrArg (Option.getD · Ctx.absent) (takeFault_ctx s gid info sub hctx)
  change (s.takeFault gid info sub).ctx (s.cidOf gid) = _ at ctx
  have wid : ((s.takeFault gid info sub).grp gid).wid = (s.grp gid).wid :=
    takeFault_keeps Group.wid (fun _ _ => rfl) s gid info sub gid
  have stop : (s.takeFault gid info sub).wgOf gid = stopWg (s.nextKey (s.cidOf gid)) (s.wgOf gid) := by
    simp [State.wgOf, State.wg, wid, takeFault_wgs, getD, findK_modK, hw]
  constructor
  case recorded => simp [ctx, findK_insK]
  case held => simp [ctx]
  case stopped => rw [stop, stopWg_issues]
  case counted => rw [stop]; rfl

/-! ## The issue of a faulting word (R70) -/

/-- Every instruction word, one that is none among them, is an issue: its meaning stands behind the checks of R70. -/
theorem exec_eq_issueWord {i : Instr} (h : eventOnly i = false) (s : State) : ∃ eff, exec i s = issueWord i eff s := by
  cases i
  all_goals
    -- of an event the hypothesis reads `true = false`
    cases h
  all_goals exact ⟨_, rfl⟩

/-- Outside a trial a word fault is all that an issue comes to. -/
theorem issueWord_of_wordFault {s : State} {i : Instr} {code : Nat} (hg : s.hasGroup s.cur = true)
    (ht : s.g.inTrial s.ilane = false) (hf : s.wordFault i = some code) (eff : State → State) :
    issueWord i eff s = .next (s.faultWord (wordOf i) code) := by
  obtain ⟨g, hg⟩ := Option.isSome_iff_exists.1 hg
  have e : s.g = g := by simp [State.g, State.grp, getD, hg]
  rw [e] at ht
  simp [issueWord, hg, ht, hf]

/-- The code of a word that is no instruction (R369; DEDUCED, log 53). -/
def State.illegalCode (s : State) (w : Word) : Nat :=
  match badPairTile w with
  | some n => if (s.regOf s.cur).rcb.tiles ≤ n then Code.regRange else Code.illegal
  | none => Code.illegal

theorem illegalCode_of_none {s : State} {w : Word} (h : badPairTile w = none) : s.illegalCode w = Code.illegal := by
  simp [State.illegalCode, h]

theorem illegalCode_of_some {s : State} {w : Word} {n : Nat} (h : badPairTile w = some n) :
    s.illegalCode w = if (s.regOf s.cur).rcb.tiles ≤ n then Code.regRange else Code.illegal := by
  simp [State.illegalCode, h]

/-- What is no instruction faults before every other check of R70. -/
theorem wordFault_of_illegalWord {s : State} {i : Instr} (h : illegalWord i = true) :
    s.wordFault i = some (s.illegalCode (wordOf i)) := by
  unfold State.wordFault State.illegalCode
  rw [if_pos h]
  cases badPairTile (wordOf i) with
  | none => rfl
  | some n => exact (apply_ite some _ _ _).symm

/-- The word faults are ILLEGAL_OPCODE, REG_RANGE and PRIVILEGED. -/
theorem wordFault_code_cases {s : State} {i : Instr} {code : Nat} (h : s.wordFault i = some code) :
    code = Code.illegal ∨ code = Code.regRange ∨ code = Code.privileged := by
  unfold State.wordFault at h
  repeat' split at h
  all_goals cases h <;> simp

/-- The record of a word fault names no address (R245). -/
theorem faultWord_eq_takeFault {s : State} {i : Instr} {code : Nat} (h : s.wordFault i = some code) (w : Word) :
    s.faultWord w code = s.takeFault s.cur
      { code := code, pc := s.issuePc, addr := 0, lanes := s.iset, detail := 0, word := w } (.word s.cur s.iset) := by
  obtain rfl | rfl | rfl := wordFault_code_cases h <;> rfl

/-- A word fault is an exception of the whole issue set. -/
theorem exec_wordFault_eq_takeFault {s : State} {i : Instr} {code : Nat} (hi : eventOnly i = false)
    (hg : s.hasGroup s.cur = true) (ht : s.g.inTrial s.ilane = false) (hf : s.wordFault i = some code) :
    exec i s = .next (s.takeFault s.cur
      { code := code, pc := s.issuePc, addr := 0, lanes := s.iset, detail := 0, word := wordOf i }
      (.word s.cur s.iset)) := by
  obtain ⟨eff, he⟩ := exec_eq_issueWord hi s
  rw [he, issueWord_of_wordFault hg ht hf, faultWord_eq_takeFault hf]

/-- An exception leaves registers, flags and program counters of the group at the port, and memory. -/
theorem takeFault_leaves (s : State) (info : FaultInfo) (sub : Subject) :
    let t := s.takeFault s.cur info sub
    SameRegs s t ∧ t.mem = s.mem ∧ (∀ n, t.g.flagOf n = s.g.flagOf n) ∧ ∀ l, (t.g.th l).pc = (s.g.th l).pc := by
  simp [SameRegs, State.g, takeFault_rawKey, takeFault_flagOf, takeFault_pc]

/-! ## Opcodes without a row (R67, R68) -/

theorem findRow_eq_none {rows : List (Nat × (Fields → Option Instr))} {n : Nat} (h : ∀ r ∈ rows, r.1 ≠ n) :
    findRow rows n = none := by
  induction rows with
  | nil => rfl
  | cons r rows ih =>
    obtain ⟨hr, hrows⟩ := List.forall_mem_cons.1 h
    rw [findRow, if_neg hr, ih hrows]

/-- A word whose opcode has no row is no instruction. -/
theorem decodeWord_of_no_row {w : Word} (h : findRow opRows (w.extractLsb' 56 8).toNat = none) :
    ∃ e, decodeWord w = .error e := by
  unfold decodeWord decodeFields
  split
  · exact ⟨_, rfl⟩
  · split
    · exact ⟨_, rfl⟩
    · simp only [splitWord, h]
      exact ⟨_, rfl⟩

/-- Another register a leaves the opcode. -/
theorem opcode_of_pairTile (w : Word) :
    ((w &&& ~~~0xFF0000#64) ||| 0xA00000#64).extractLsb' 56 8 = w.extractLsb' 56 8 := by
  have kept : (~~~0xFF0000#64).extractLsb' 56 8 = BitVec.allOnes 8 := by decide
  have cleared : (0xA00000#64).extractLsb' 56 8 = 0#8 := by decide
  rw [BitVec.extractLsb'_or, BitVec.extractLsb'_and, kept, cleared, BitVec.and_allOnes, BitVec.or_zero]

theorem badPairTile_of_no_row {w : Word} (h : findRow opRows (w.extractLsb' 56 8).toNat = none) :
    badPairTile w = none := by
  rw [← opcode_of_pairTile w] at h
  obtain ⟨e, he⟩ := decodeWord_of_no_row h
  unfold badPairTile
  rw [he]

/-- Opcode 0x00 and the reserved opcodes (R68). -/
abbrev ReservedOp (op : Nat) : Prop :=
  op = 0 ∨ op ∈ [0x0D, 0x0E, 0x0F, 0x2F, 0x34, 0x35, 0x36, 0x37, 0x4F, 0x5A, 0x5B, 0x5C, 0x5D, 0x5E, 0x5F, 0x7F, 0x8D, 0x8E,
    0x8F, 0xA5, 0xA6, 0xA7] ∨ 0xA8 ≤ op ∧ op ≤ 0xEF

theorem opRows_not_reservedOp : ∀ r ∈ opRows, ¬ReservedOp r.1 := by decide +kernel

theorem findRow_of_reservedOp {op : Nat} (h : ReservedOp op) : findRow opRows op = none :=
  findRow_eq_none fun r hr e => opRows_not_reservedOp r hr (e ▸ h)

/-! ## A transfer to what is no header (R61, R62) -/

/-- A transfer outside a trial whose target holds a word that is no header meets BAD_TARGET, and goes nowhere. -/
theorem transferInto_of_no_header {s q : State} {gid l : Nat} {a w : Word} (call : Bool)
    (ht : ((s.grp gid).th l).trial = none) (hs : a.toNat < 2 ^ 54) (ha : a.toNat % 8 = 0)
    (hseg : s.trialSeg (s.cidOf gid) a.toNat = none)
    (hf : s.fetchWord (s.grp gid).core (s.cidOf gid) a.toNat = (q, .ok w)) (hw : headerOk w = false) :
    s.transferInto gid l a call = (q, some Code.badTarget) := by
  have inside : inSpace a.toNat = true := by simpa [inSpace] using hs
  have allowed : s.segmentOk gid l a = true := by simp [State.segmentOk, ht, hseg]
  have fetched : s.fetchHeader gid a = (q, .ok w) := by simp [State.fetchHeader, inside, hf]
  have target : s.targetHeader gid l a call = (q, .error Code.badTarget) := by
    simp [State.targetHeader, inside, ha, allowed, fetched, hw]
  simp [State.transferInto, target]

/-! ## The obligation -/

/-- Settles O24: a word fault is an exception at the word (`exec_wordFault_eq_takeFault`), a reserved opcode has no row
(`findRow_of_reservedOp`), and a word of zeros is no header. -/
theorem wordFaults : Obligations.WordFaults := by
  refine ⟨?faults, ?reserved, ?opcodes, ?zeros⟩
  case faults =>
    intro s i code hi hg ho ht hf
    obtain ⟨regs, mem, flags, pcs⟩ := takeFault_leaves s
      { code := code, pc := s.issuePc, addr := 0, lanes := s.iset, detail := 0, word := wordOf i } (.word s.cur s.iset)
    have illegal : illegalWord i = true → code = s.illegalCode (wordOf i) := fun h =>
      Option.some.inj (hf.symm.trans (wordFault_of_illegalWord h))
    exact ⟨_, exec_wordFault_eq_takeFault hi hg ht hf, regs, mem, flags, fun l _ => pcs l, takeFault_faulted ho _ _,
      fun h hn => (illegal h).trans (illegalCode_of_none hn), fun _ h hn => (illegal h).trans (illegalCode_of_some hn)⟩
  case reserved =>
    intro s w hg ho ht
    exact ⟨_, exec_wordFault_eq_takeFault rfl hg ht (wordFault_of_illegalWord rfl), takeFault_faulted ho _ _⟩
  case opcodes =>
    intro w op h
    have hrow : findRow opRows op = none := findRow_of_reservedOp h
    obtain ⟨e, he⟩ := decodeWord_of_no_row hrow
    exact ⟨by rw [he], badPairTile_of_no_row hrow⟩
  case zeros =>
    intro s q gid l a call ht hs ha _ hseg hf
    exact transferInto_of_no_header call ht hs ha hseg hf (by decide)

end Sys2Proof.Machine
end

section
/-! PROOFS. Conversion to an integer: a magnitude is rounded to a multiple of a power of two as the floor, the ceiling or
the nearest integer; then the sign is put on and the result saturated (04 R91, R98, R101). -/
namespace Sys2Proof.Machine

/-! ## The rounding of a magnitude (R91) -/

section
variable (r : Rnd) (neg : Bool) {m k : Nat}

theorem roundShift_of_exact (h : m % 2 ^ k = 0) : roundShift r neg m k = m / 2 ^ k := by
  cases r <;> simp [roundShift, roundUp, h]

theorem roundShift_of_below_half (h0 : m % 2 ^ k ≠ 0) (h : 2 * (m % 2 ^ k) < 2 ^ k) :
    roundShift r neg m k = if roundUp r neg (m / 2 ^ k % 2 == 1) 1 then m / 2 ^ k + 1 else m / 2 ^ k := by
  simp [roundShift, h0, h]

theorem roundShift_of_half (h0 : m % 2 ^ k ≠ 0) (h : 2 * (m % 2 ^ k) = 2 ^ k) :
    roundShift r neg m k = if roundUp r neg (m / 2 ^ k % 2 == 1) 2 then m / 2 ^ k + 1 else m / 2 ^ k := by
  simp [roundShift, h0, h]

theorem roundShift_of_above_half (h : 2 ^ k < 2 * (m % 2 ^ k)) :
    roundShift r neg m k = if roundUp r neg (m / 2 ^ k % 2 == 1) 3 then m / 2 ^ k + 1 else m / 2 ^ k := by
  have h0 : m % 2 ^ k ≠ 0 := by omega
  simp [roundShift, h0, h.not_gt, h.ne']

end

/-- A multiple of the quantum is kept exactly. -/
theorem roundAt_of_le (r : Rnd) (neg : Bool) (m : Nat) {e q : Int} (h : q ≤ e) :
    (roundAt r neg m e q : ℚ) = m * 2 ^ (e - q) := by
  obtain ⟨k, hk⟩ := Int.eq_ofNat_of_zero_le (sub_nonneg.2 h)
  simp [roundAt, h, pow2, hk]

/-- Below the quantum the exact value is a fraction over a power of two, and `roundShift` rounds it. -/
theorem roundAt_of_lt (r : Rnd) (neg : Bool) (m : Nat) {e q : Int} (h : e < q) :
    ∃ k : Nat, roundAt r neg m e q = roundShift r neg m k ∧ (m : ℚ) * 2 ^ (e - q) = m / ((2 ^ k : Nat) : ℚ) := by
  obtain ⟨k, hk⟩ := Int.eq_ofNat_of_zero_le (sub_nonneg.2 h.le)
  refine ⟨k, by simp [roundAt, h, hk], ?_⟩
  rw [← neg_sub q e, hk]
  simp [div_eq_mul_inv]

/-- A quotient of naturals is its integer part and a fraction. -/
theorem cast_div_eq_add_fraction (m : Nat) {d : Nat} (hd : 0 < d) :
    (m : ℚ) / d = (m / d : Nat) + (m % d : Nat) / d := by
  have hq : (d : ℚ) ≠ 0 := by positivity
  rw [add_div_eq_mul_add_div _ _ hq]
  congr 1
  exact_mod_cast (Nat.div_add_mod' m d).symm

/-- A mode that never rounds away from zero gives the floor. -/
theorem roundAt_eq_floor {r : Rnd} {neg : Bool} (hr : ∀ odd rem, roundUp r neg odd rem = false) (m : Nat) (e q : Int) :
    roundAt r neg m e q = ⌊(m : ℚ) * 2 ^ (e - q)⌋₊ := by
  rcases le_or_gt q e with h | h
  · rw [← roundAt_of_le r neg m h, Nat.floor_natCast]
  · obtain ⟨k, hk, hx⟩ := roundAt_of_lt r neg m h
    rw [hk, hx, Nat.floor_div_eq_div]
    simp [roundShift, hr]

/-- A mode that rounds every inexact magnitude away from zero gives the ceiling. -/
theorem roundAt_eq_ceil {r : Rnd} {neg : Bool} (hr : ∀ odd rem, roundUp r neg odd rem = (rem != 0)) (m : Nat)
    (e q : Int) : roundAt r neg m e q = ⌈(m : ℚ) * 2 ^ (e - q)⌉₊ := by
  rcases le_or_gt q e with h | h
  · rw [← roundAt_of_le r neg m h, Nat.ceil_natCast]
  · obtain ⟨k, hk, hx⟩ := roundAt_of_lt r neg m h
    have hd : 0 < 2 ^ k := by positivity
    rw [hk, hx, cast_div_eq_add_fraction m hd, add_comm, Nat.ceil_add_natCast (by positivity)]
    rcases Nat.eq_zero_or_pos (m % 2 ^ k) with exact0 | inexact
    · simp [roundShift_of_exact r neg exact0, exact0]
    · have up : roundShift r neg m k = m / 2 ^ k + 1 := by
        rcases lt_trichotomy (2 * (m % 2 ^ k)) (2 ^ k) with below | half | above
        · simp [roundShift_of_below_half r neg inexact.ne' below, hr]
        · simp [roundShift_of_half r neg inexact.ne' half, hr]
        · simp [roundShift_of_above_half r neg above, hr]
      have one : ⌈((m % 2 ^ k : Nat) : ℚ) / (2 ^ k : Nat)⌉₊ = 1 := by
        rw [Nat.ceil_eq_iff one_ne_zero]
        refine ⟨by simpa using by positivity, ?_⟩
        exact_mod_cast div_le_one_of_le₀ (by exact_mod_cast (Nat.mod_lt m hd).le) (by positivity)
      rw [up, one, add_comm]

/-- `n` is an integer nearest to `a`, and even where two are. -/
def NearestEven (n : Int) (a : ℚ) : Prop := |(n : ℚ) - a| ≤ 1 / 2 ∧ (|(n : ℚ) - a| = 1 / 2 → n % 2 = 0)

theorem nearestEven_of_lt_half (q : Nat) {f : ℚ} (h0 : 0 ≤ f) (h : f < 1 / 2) : NearestEven q (q + f) := by
  have dist : |((q : Int) : ℚ) - (q + f)| = f := by simp [abs_of_nonneg h0]
  rw [NearestEven, dist]
  exact ⟨h.le, fun half => absurd half h.ne⟩

theorem nearestEven_succ_of_half_lt (q : Nat) {f : ℚ} (h : 1 / 2 < f) (h1 : f < 1) :
    NearestEven (q + 1 : Nat) (q + f) := by
  have dist : |((q + 1 : Nat) : Int) - (q + f)| = 1 - f := by
    rw [← abs_of_pos (sub_pos.2 h1)]
    congr 1
    push_cast
    ring
  rw [NearestEven, dist]
  exact ⟨by linarith, fun half => by linarith⟩

theorem nearestEven_of_half {q n : Nat} (hn : n = q ∨ n = q + 1) (even : n % 2 = 0) :
    NearestEven n (q + 1 / 2) := by
  refine ⟨?_, fun _ => by exact_mod_cast even⟩
  rcases hn with rfl | rfl <;> norm_num [abs_of_pos]

theorem nearestEven_neg {n : Int} {a : ℚ} (h : NearestEven n a) : NearestEven (-n) (-a) := by
  have dist : |((-n : Int) : ℚ) - -a| = |(n : ℚ) - a| := by rw [abs_sub_comm]; congr 1; push_cast; ring
  obtain ⟨near, tie⟩ := h
  exact ⟨dist ▸ near, fun half => by have := tie (dist ▸ half); omega⟩

/-- Below half of the quantum the integer part is nearest, above half the next integer, and at half the even one. -/
theorem roundShift_rne (neg : Bool) (m k : Nat) :
    NearestEven (roundShift .rne neg m k) (m / ((2 ^ k : Nat) : ℚ)) := by
  have hd : 0 < 2 ^ k := by positivity
  have hd' : (0 : ℚ) < (2 ^ k : Nat) := by exact_mod_cast hd
  rw [cast_div_eq_add_fraction m hd]
  set f : ℚ := (m % 2 ^ k : Nat) / (2 ^ k : Nat) with hf
  have nonneg : 0 ≤ f := by positivity
  have lt_one : f < 1 := (div_lt_one hd').2 (by exact_mod_cast Nat.mod_lt m hd)
  rcases Nat.eq_zero_or_pos (m % 2 ^ k) with exact0 | inexact
  · rw [roundShift_of_exact .rne neg exact0]
    exact nearestEven_of_lt_half _ nonneg (by simp [hf, exact0])
  rcases lt_trichotomy (2 * (m % 2 ^ k)) (2 ^ k) with below | half | above
  · have lt_half : f < 1 / 2 := by
      rw [div_lt_div_iff₀ hd' two_pos]
      exact_mod_cast by omega
    rw [roundShift_of_below_half .rne neg inexact.ne' below]
    exact nearestEven_of_lt_half _ nonneg lt_half
  · have eq_half : f = 1 / 2 := by
      rw [div_eq_div_iff hd'.ne' two_ne_zero]
      exact_mod_cast by omega
    rw [eq_half, roundShift_of_half .rne neg inexact.ne' half]
    rcases Nat.mod_two_eq_zero_or_one (m / 2 ^ k) with even | odd
    · rw [if_neg (by simp [roundUp, even])]
      exact nearestEven_of_half (.inl rfl) even
    · rw [if_pos (by simp [roundUp, odd])]
      exact nearestEven_of_half (.inr rfl) (by omega)
  · have half_lt : 1 / 2 < f := by
      rw [div_lt_div_iff₀ two_pos hd']
      exact_mod_cast by omega
    rw [roundShift_of_above_half .rne neg above]
    exact nearestEven_succ_of_half_lt _ half_lt lt_one

/-- `rne` gives a nearest integer, the even one of two. -/
theorem roundAt_rne (neg : Bool) (m : Nat) (e q : Int) :
    NearestEven (roundAt .rne neg m e q) ((m : ℚ) * 2 ^ (e - q)) := by
  rcases le_or_gt q e with h | h
  · rw [← roundAt_of_le .rne neg m h]
    norm_num [NearestEven]
  · obtain ⟨k, hk, hx⟩ := roundAt_of_lt .rne neg m h
    rw [hk, hx]
    exact roundShift_rne neg m k

/-! ## The integer of a finite value -/

/-- A finite value's integer before saturation. -/
def intOf (r : Rnd) (neg : Bool) (m : Nat) (e : Int) : Int :=
  if neg then -(roundAt r neg m e 0 : Int) else roundAt r neg m e 0

theorem toInt_fin (r : Rnd) (uns neg : Bool) (n m : Nat) (e : Int) :
    toInt r uns n (.fin neg m e) = max (if uns then 0 else -(2 : Int) ^ (n - 1))
      (min (if uns then (2 : Int) ^ n - 1 else (2 : Int) ^ (n - 1) - 1) (intOf r neg m e)) := by
  simp [toInt, intOf]

theorem FV.num_fin_false (m : Nat) (e : Int) : (FV.fin false m e).num = (m : ℚ) * 2 ^ e := by simp [FV.num]

theorem FV.num_fin_true (m : Nat) (e : Int) : (FV.fin true m e).num = -((m : ℚ) * 2 ^ e) := by simp [FV.num]

theorem FV.abs_num_fin (neg : Bool) (m : Nat) (e : Int) : |(FV.fin neg m e).num| = (m : ℚ) * 2 ^ e := by
  have : 0 ≤ (m : ℚ) * 2 ^ e := by positivity
  cases neg
  · rw [FV.num_fin_false, abs_of_nonneg this]
  · rw [FV.num_fin_true, abs_neg, abs_of_nonneg this]

theorem intOf_rne (neg : Bool) (m : Nat) (e : Int) : NearestEven (intOf .rne neg m e) (FV.fin neg m e).num := by
  have h := roundAt_rne neg m e 0
  rw [sub_zero] at h
  cases neg
  · exact FV.num_fin_false m e ▸ h
  · exact FV.num_fin_true m e ▸ nearestEven_neg h

theorem intOf_rup (neg : Bool) (m : Nat) (e : Int) : intOf .rup neg m e = ⌈(FV.fin neg m e).num⌉ := by
  have ha : 0 ≤ (m : ℚ) * 2 ^ e := by positivity
  cases neg
  case false =>
    have mag := roundAt_eq_ceil (r := .rup) (neg := false) (fun _ _ => rfl) m e 0
    simp [intOf, FV.num_fin_false, mag, Int.natCast_ceil_eq_ceil ha]
  case true =>
    have mag := roundAt_eq_floor (r := .rup) (neg := true) (fun _ _ => rfl) m e 0
    simp [intOf, FV.num_fin_true, mag, Int.natCast_floor_eq_floor ha, Int.ceil_neg]

theorem intOf_rdn (neg : Bool) (m : Nat) (e : Int) : intOf .rdn neg m e = ⌊(FV.fin neg m e).num⌋ := by
  have ha : 0 ≤ (m : ℚ) * 2 ^ e := by positivity
  cases neg
  case false =>
    have mag := roundAt_eq_floor (r := .rdn) (neg := false) (fun _ _ => rfl) m e 0
    simp [intOf, FV.num_fin_false, mag, Int.natCast_floor_eq_floor ha]
  case true =>
    have mag := roundAt_eq_ceil (r := .rdn) (neg := true) (fun _ _ => rfl) m e 0
    simp [intOf, FV.num_fin_true, mag, Int.natCast_ceil_eq_ceil ha, Int.floor_neg]

theorem abs_intOf_rtz (neg : Bool) (m : Nat) (e : Int) : |intOf .rtz neg m e| = ⌊|(FV.fin neg m e).num|⌋ := by
  have ha : 0 ≤ (m : ℚ) * 2 ^ e := by positivity
  rw [FV.abs_num_fin, ← Int.natCast_floor_eq_floor ha]
  cases neg <;> simp [intOf, roundAt_eq_floor (r := .rtz) (fun _ _ => rfl)]

theorem num_mul_intOf_nonneg (r : Rnd) (neg : Bool) (m : Nat) (e : Int) :
    0 ≤ (FV.fin neg m e).num * (intOf r neg m e : ℚ) := by
  have hn : 0 ≤ (m : ℚ) * 2 ^ e * (roundAt r neg m e 0 : ℚ) := by positivity
  cases neg
  · simpa [FV.num_fin_false, intOf] using hn
  · simpa [FV.num_fin_true, intOf] using hn

/-! ## The obligation -/

/-- Settles O12: the magnitude's rounding is the floor, the ceiling or the nearest integer (`intOf_rne`, `abs_intOf_rtz`,
`intOf_rup`, `intOf_rdn`), and `toInt` saturates it. -/
theorem integerConversion : Obligations.IntegerConversion := by
  intro r uns neg n _
  refine ⟨?codes, ?lns, rfl, ?infinite, fun m e => ⟨intOf r neg m e, toInt_fin r uns neg n m e, ?rounded⟩⟩
  case codes =>
    intro v1 v
    simp [encodeFmt, BitVec.toNat_ofInt]
  case lns => exact fun v1 => ⟨rfl, fun k hk _ => congrArg lnsVal (Nat.mod_eq_of_lt hk)⟩
  case infinite => simp [toInt]
  case rounded =>
    cases r with
    | rne => exact intOf_rne neg m e
    | rtz =>
      have mag : |(intOf .rtz neg m e : ℚ)| = (⌊|(FV.fin neg m e).num|⌋ : Int) := by
        exact_mod_cast abs_intOf_rtz neg m e
      exact ⟨mag ▸ Int.floor_le _, mag ▸ Int.lt_floor_add_one _, num_mul_intOf_nonneg .rtz neg m e⟩
    | rup => exact intOf_rup neg m e ▸ ⟨Int.le_ceil _, Int.ceil_lt_add_one _⟩
    | rdn => exact intOf_rdn neg m e ▸ ⟨Int.floor_le _, Int.lt_floor_add_one _⟩

end Sys2Proof.Machine
end

section
/-! PROOFS. LOOP and JUMP: what their words decode to, what a program's move to a command and an engine's stop do to the
program's record, and a fetch that faults (07 R173, R176, R183). -/
namespace Sys2Proof.Machine

/-! ## The record of a program -/

/-- The record of a program that there is, after a change of it. -/
theorem prog_modProg {s : State} {pid : Nat} (h : (findK s.progs pid).isSome = true) (f : Prog → Prog) :
    (s.modProg pid f).prog pid = f (s.prog pid) := by
  obtain ⟨p, hp⟩ := Option.isSome_iff_exists.1 h
  simp [State.prog, getD, findK_modK, hp]

theorem isSome_modProg {s : State} {pid : Nat} (h : (findK s.progs pid).isSome = true) (f : Prog → Prog) :
    (findK (s.modProg pid f).progs pid).isSome = true := by
  rw [State.modProg_progs, isSome_findK_modK, h]

/-- A change of one record leaves the others. -/
theorem findK_modProg_ne (s : State) {pid i : Nat} (h : i ≠ pid) (f : Prog → Prog) :
    findK (s.modProg pid f).progs i = findK s.progs i := by
  rw [State.modProg_progs, findK_modK, if_neg h.symm]

/-! ## Going on with a command (R173, R176) -/

theorem prog_engineNext {s : State} {pid : Nat} (h : (findK s.progs pid).isSome = true) (k : Nat) :
    (s.engineNext pid k).prog pid = { (s.prog pid).toCmd k with state := .running } :=
  prog_modProg h _

theorem goesOn_engineNext {s : State} (h : (findK s.progs s.eng).isSome = true) (k : Nat) :
    GoesOn s (s.engineNext s.eng k) k := by
  refine ⟨rfl, ?_, ?_, ?_, ?_, fun _ hne => findK_modProg_ne s hne _⟩
  all_goals simp [prog_engineNext h, Prog.toCmd]

/-- A change of the running program's own record before it goes on is no part of what `GoesOn` says. -/
theorem GoesOn.of_modProg {s t : State} {f : Prog → Prog} {k : Nat} (h : GoesOn (s.modProg s.eng f) t k) :
    GoesOn s t k := by
  obtain ⟨groups, index, running, done, owed, others⟩ := h
  exact ⟨groups, index, running, done, owed, fun i hne => (others i hne).trans (findK_modProg_ne s hne f)⟩

/-- A program that has set its counters goes on with them. -/
theorem goesOn_setLoop {s : State} (h : (findK s.progs s.eng).isSome = true) (counters : Prog → List Nat) (k : Nat) :
    let t := (s.modProg s.eng (fun p => { p with loop := counters p })).engineNext s.eng k
    t = { s with progs := t.progs } ∧ GoesOn s t k ∧ (t.prog s.eng).loop = counters (s.prog s.eng) := by
  have h' := isSome_modProg h (fun p => { p with loop := counters p })
  refine ⟨rfl, (goesOn_engineNext h' k).of_modProg, ?_⟩
  rw [prog_engineNext h', prog_modProg h]
  rfl

/-! ## Stopping in ERROR (R163, R245) -/

/-- The record of the fault changes a context only, so the program's record takes the code. -/
theorem prog_engineError {s : State} {pid : Nat} (h : (findK s.progs pid).isSome = true) (code addr : Nat) (word : Word) :
    ((s.engineError pid code addr word).prog pid).state = .error
      ∧ ((s.engineError pid code addr word).prog pid).err = code := by
  have recorded : (findK (s.engineRecord pid Code.engineStop (wordN addr) code word).progs pid).isSome = true := h
  unfold State.engineError
  rw [prog_modProg recorded]
  exact ⟨rfl, rfl⟩

/-- An access fault at the fetch of a command, other than a page not present, stops the engine. -/
theorem fetchCmd_of_access_error {s q : State} {pid c : Nat} (owed : (s.prog pid).owed = none)
    (access : s.accessG none (s.prog pid).ctx ((s.prog pid).list.toNat + 32 * (s.prog pid).index) 1 .read = (q, .error c))
    (present : c ≠ Code.notPresent) :
    s.fetchCmd pid
      = (q.engineError pid (engineErr c) ((s.prog pid).list.toNat + 32 * (s.prog pid).index) 0, .idle) := by
  simp [State.fetchCmd, Prog.abandoned, owed, access, present]

/-! ## The two commands (R183) -/

theorem exec_loop_of_le {s : State} {target : BitVec 32} (h : (s.prog s.eng).index ≤ target.toNat) (lv : BitVec 2)
    (count : BitVec 32) :
    exec (.loop lv target count) s = .next (s.engineError s.eng 0x0A 0 (cmdWord (.loop lv target count))) :=
  congrArg Host.Outcome.next (if_pos h)

theorem exec_loop_of_count_left {s : State} {lv : BitVec 2} {target count : BitVec 32}
    (below : target.toNat < (s.prog s.eng).index) (left : nth (s.prog s.eng).loop 0 lv.toNat + 1 < count.toNat) :
    exec (.loop lv target count) s = .next ((s.modProg s.eng (fun p =>
      { p with loop := p.loop.set lv.toNat (nth p.loop 0 lv.toNat + 1) })).engineNext s.eng target.toNat) := by
  change Host.Outcome.next (ite _ _ _) = _
  rw [if_neg below.not_ge, if_pos left]

theorem exec_loop_of_count_reached {s : State} {lv : BitVec 2} {target count : BitVec 32}
    (below : target.toNat < (s.prog s.eng).index) (reached : ¬nth (s.prog s.eng).loop 0 lv.toNat + 1 < count.toNat) :
    exec (.loop lv target count) s = .next ((s.modProg s.eng (fun p =>
      { p with loop := p.loop.set lv.toNat 0 })).engineNext s.eng ((s.prog s.eng).index + 1)) := by
  change Host.Outcome.next (ite _ _ _) = _
  rw [if_neg below.not_ge, if_neg reached]

theorem exec_jump (s : State) (target : BitVec 32) : exec (.jump target) s = .next (s.engineNext s.eng target.toNat) := rfl

/-! ## Their words (R175, R176) -/

theorem extractLsb'_ofNat {w start len : Nat} (h : start + len ≤ w) (n : Nat) :
    (BitVec.ofNat w n).extractLsb' start len = BitVec.ofNat len (n / 2 ^ start) := by
  apply BitVec.eq_of_getLsbD_eq
  intro i hi
  have inside : start + i < w := by omega
  simp only [BitVec.getLsbD_extractLsb', BitVec.getLsbD_ofNat, Nat.testBit_div_two_pow, hi, inside, decide_true,
    Bool.true_and, Nat.add_comm]

/-- What stands above a word's bits is cut off. -/
theorem ofNat_add_mul_two_pow (w n m : Nat) : BitVec.ofNat w (n + m * 2 ^ w) = BitVec.ofNat w n := by
  apply BitVec.eq_of_toNat_eq
  simp

theorem add_mul_div_two_pow {w n : Nat} (h : n < 2 ^ w) (m : Nat) : (n + m * 2 ^ w) / 2 ^ w = m := by
  rw [Nat.add_mul_div_right _ _ (Nat.two_pow_pos w), Nat.div_eq_of_lt h, Nat.zero_add]

theorem quadsOf_ofNat {a b : Nat} (ha : a < 2 ^ 64) (hb : b < 2 ^ 64) :
    quadsOf (BitVec.ofNat 256 (a + b * 2 ^ 64)) = ⟨BitVec.ofNat 64 a, BitVec.ofNat 64 b, 0, 0⟩ := by
  have below_q2 : a + b * 2 ^ 64 < 2 ^ 128 := by omega
  have below_q3 : a + b * 2 ^ 64 < 2 ^ 192 := by omega
  simp only [quadsOf, Quads.mk.injEq]
  refine ⟨?_, ?_, ?_, ?_⟩
  · rw [extractLsb'_ofNat (by decide), Nat.pow_zero, Nat.div_one, ofNat_add_mul_two_pow]
  · rw [extractLsb'_ofNat (by decide), add_mul_div_two_pow ha]
  · rw [extractLsb'_ofNat (by decide), Nat.div_eq_of_lt below_q2]; rfl
  · rw [extractLsb'_ofNat (by decide), Nat.div_eq_of_lt below_q3]; rfl

theorem lo32_ofNat (lo : BitVec 32) (hi : Nat) : lo32 (BitVec.ofNat 64 (lo.toNat + hi * 2 ^ 32)) = lo := by
  rw [lo32, extractLsb'_ofNat (by decide), Nat.pow_zero, Nat.div_one, ofNat_add_mul_two_pow, BitVec.ofNat_toNat,
    BitVec.setWidth_eq]

theorem hi32_ofNat (lo : BitVec 32) (hi : Nat) : hi32 (BitVec.ofNat 64 (lo.toNat + hi * 2 ^ 32)) = BitVec.ofNat 32 hi := by
  rw [hi32, extractLsb'_ofNat (by decide), add_mul_div_two_pow lo.isLt]

/-- A first quadword of opcode and level is that of a LOOP: no other bit of it is set. -/
theorem loop_q0 (lv : BitVec 2) : let q0 : Word := BitVec.ofNat 64 (0x08 + lv.toNat * 2 ^ 8)
    (q0.extractLsb' 0 8).toNat = 0x08 ∧ within q0 0x3FF#64 = true ∧ q0.extractLsb' 8 2 = lv := by
  revert lv
  decide

theorem decodeQuads_loop (lv : BitVec 2) (target count : BitVec 32) :
    decodeQuads ⟨BitVec.ofNat 64 (0x08 + lv.toNat * 2 ^ 8), BitVec.ofNat 64 (target.toNat + count.toNat * 2 ^ 32), 0, 0⟩
      = some (.loop lv target count) := by
  obtain ⟨opcode, reserved, level⟩ := loop_q0 lv
  simp only [decodeQuads, opcode, reserved, level, lo32_ofNat, hi32_ofNat, BitVec.ofNat_toNat, BitVec.setWidth_eq]
  rfl

theorem jump_q0 : ((0x09#64).extractLsb' 0 8).toNat = 0x09 ∧ within 0x09#64 0xFF#64 = true := by decide

theorem decodeQuads_jump (target : BitVec 32) :
    decodeQuads ⟨0x09, BitVec.ofNat 64 (target.toNat + 0 * 2 ^ 32), 0, 0⟩ = some (.jump target) := by
  obtain ⟨opcode, reserved⟩ := jump_q0
  simp only [decodeQuads, BitVec.ofNat_eq_ofNat, opcode, reserved, lo32_ofNat, hi32_ofNat]
  rfl

theorem decodeCmd_of_quads {raw : BitVec 256} {q : Quads} {i : Instr} (hq : quadsOf raw = q) (hi : decodeQuads q = some i) :
    decodeCmd raw = if wellFormed i then i else .rillBadCommand raw := by
  simp [decodeCmd, hq, hi]

/-- The word of a LOOP; a count of 0 is refused. -/
theorem decodeCmd_loop (lv : BitVec 2) (target count : BitVec 32) :
    let raw := BitVec.ofNat 256 (0x08 + lv.toNat * 2 ^ 8 + target.toNat * 2 ^ 64 + count.toNat * 2 ^ 96)
    decodeCmd raw = if count = 0 then .rillBadCommand raw else .loop lv target count := by
  intro raw
  have quads : quadsOf raw = ⟨BitVec.ofNat 64 (0x08 + lv.toNat * 2 ^ 8),
      BitVec.ofNat 64 (target.toNat + count.toNat * 2 ^ 32), 0, 0⟩ := by
    have grouped : 0x08 + lv.toNat * 2 ^ 8 + target.toNat * 2 ^ 64 + count.toNat * 2 ^ 96
        = 0x08 + lv.toNat * 2 ^ 8 + (target.toNat + count.toNat * 2 ^ 32) * 2 ^ 64 := by ring
    change quadsOf (BitVec.ofNat 256 _) = _
    rw [grouped, quadsOf_ofNat (by omega) (by omega)]
  have wf : wellFormed (.loop lv target count) = (count != 0) := rfl
  rw [decodeCmd_of_quads quads (decodeQuads_loop lv target count), wf]
  by_cases zero : count = 0
  · rw [if_pos zero, if_neg (by simp [zero])]
  · rw [if_neg zero, if_pos (bne_iff_ne.2 zero)]

theorem decodeCmd_jump (target : BitVec 32) :
    decodeCmd (BitVec.ofNat 256 (0x09 + target.toNat * 2 ^ 64)) = .jump target :=
  decodeCmd_of_quads (quadsOf_ofNat (by decide) (by omega)) (decodeQuads_jump target)

/-! ## The obligation -/

/-- Settles O42: the words are split into quadwords (`decodeCmd_loop`, `decodeCmd_jump`); a target below sets a counter and
goes on (`goesOn_setLoop`), another stops the engine, as a fetch that faults does (`prog_engineError`). -/
theorem loopAndJump : Obligations.LoopAndJump := by
  refine ⟨fun lv target count => ⟨?loopWord, decodeCmd_jump target⟩,
    fun s lv target count h => ⟨?below, ?notBelow, ?jump, ?fetch⟩⟩
  case loopWord =>
    rw [decodeCmd_loop]
    by_cases zero : count = 0
    · simp [zero]
    · rw [if_neg zero, if_neg zero]
  case below =>
    intro below
    by_cases left : nth (s.prog s.eng).loop 0 lv.toNat + 1 < count.toNat
    · obtain ⟨frame, goes, loop⟩ := goesOn_setLoop h
        (fun p => p.loop.set lv.toNat (nth p.loop 0 lv.toNat + 1)) target.toNat
      exact ⟨_, exec_loop_of_count_left below left, frame, by rw [if_pos left]; exact ⟨goes, loop⟩⟩
    · obtain ⟨frame, goes, loop⟩ := goesOn_setLoop h (fun p => p.loop.set lv.toNat 0) ((s.prog s.eng).index + 1)
      exact ⟨_, exec_loop_of_count_reached below left, frame, by rw [if_neg left]; exact ⟨goes, loop⟩⟩
  case notBelow => exact fun hle => ⟨_, exec_loop_of_le hle lv count, prog_engineError h ..⟩
  case jump =>
    have loop : ((s.engineNext s.eng target.toNat).prog s.eng).loop = (s.prog s.eng).loop := by
      rw [prog_engineNext h]
      rfl
    exact ⟨_, exec_jump s target, rfl, goesOn_engineNext h target.toNat, loop⟩
  case fetch =>
    intro q c owed access present correctable
    have progs : q.progs = s.progs := ((memOnly_accessG ..).of_fst access).progs
    obtain ⟨state, err⟩ := prog_engineError (s := q) (pid := s.eng) (by rw [progs, h]) (engineErr c)
      ((s.prog s.eng).list.toNat + 32 * (s.prog s.eng).index) 0
    exact ⟨_, fetchCmd_of_access_error owed access present, state, err.trans (if_neg correctable)⟩

end Sys2Proof.Machine
end
